-- ==== Sys2Proof/Word.lean ====
section
/-! DEFINITION. The words the manual names: bytes, laterals, needle patterns, serials, step records. -/

namespace Sys2Proof

/-- A byte of either link (R149). -/
abbrev Byte := BitVec 8

/-- A lateral, two's complement in 12 bits, −2048 to +2047 lateral units (R160). -/
abbrev Lateral := BitVec 12

/-- A pattern over the eight needle positions of a segment, position 0 in bit 0 (section 0.3). -/
abbrev Pattern := BitVec 8

/-- A 16-bit serial or tag; serials wrap from 65535 to 0 (section 0.4). -/
abbrev Serial := BitVec 16

/-- A step record as the store holds it, 48 bits (R7). -/
abbrev RecordWord := BitVec 48

end Sys2Proof
end

