-- ==== Sys2Proof/Config.lean ====
section
/-! DEFINITION. The capacities and limits the manual fixes for the part. The manual leaves no value free, so there is
no opaque constant here. -/

namespace Sys2Proof.Config

/-- Places of the record store: 128 pages of 64 records (R1). -/
def storePlaces : Nat := 8192

/-- Pages of the record store (R1). -/
def pages : Nat := 128

/-- Records in a page (R1). -/
def pageRecords : Nat := 64

/-- Assignments a panel program may hold (R21, R25). -/
def maxAssignments : Nat := 8

/-- Entries of the stroke queue (R87). -/
def strokeCapacity : Nat := 4

/-- Entries of the marker queue (R58). -/
def markerCapacity : Nat := 16

/-- Markers one REPORT takes (R59). -/
def reportMarkers : Nat := 8

/-- Records of the defect list (R142). -/
def defectCapacity : Nat := 32

/-- Commands of the command queue (R170). -/
def commandCapacity : Nat := 6

/-- Places of the answer queue (R170, R175). -/
def answerCapacity : Nat := 8

/-- The zero-span count at which a lane is stopped (R51). -/
def zeroSpanLimit : Nat := 64

/-- The value at which the three counts of R183 saturate. -/
def countMax : Nat := 65535

/-- The value at which loop passes saturate (R37). -/
def loopPassMax : Nat := 255

/-- The longest payload of a cell (R150). -/
def maxPayload : Nat := 32

end Sys2Proof.Config
end

