-- ==== Sys2Proof/Syntax.lean ====
section
/-! DEFINITION. The commands of the block: one constructor of Instr for each row of spec/opcode_table.json. -/

namespace Sys2Proof.Machine

/-- The payload of one COMMAND cell as received: tag, command code, arguments (R162, R168). -/
structure Command where
  tag  : Byte
  code : Byte
  args : List Byte
deriving DecidableEq, Repr

/-- A return slot, or a looped test slot, as received: its three bytes in order, and whether one of them had a framing
error (R165, R166). -/
structure Slot where
  byte0   : Byte
  byte1   : Byte
  check   : Byte
  framing : Bool
deriving DecidableEq, Repr

end Sys2Proof.Machine

namespace Sys2Proof

open Sys2Proof.Machine

/-- The commands of the block. The first sixteen are events on its pins and links; the others are the execution of the
command at the front of the command queue (R172), whose tag and arguments stand in that queue as its COMMAND cell
carried them (R170). -/
inductive Instr where
  /-- Power-up or RESETN (R83). -/
  | powerOnReset
  /-- A rising edge on SHX (R90). -/
  | shaftIndex
  /-- The service of the shaft index that waited through a loop test (R85). -/
  | waitedShaftIndex
  /-- The last outbound slot has been sent (R114). -/
  | outboundComplete
  /-- A complete return slot received in a position of the window (R117). -/
  | returnSlot (position : Nat) (slot : Slot)
  /-- 200 µs after outbound-complete (R118). -/
  | returnWindowExpiry
  /-- The looped frame begins (R123). -/
  | loopedFrameBegin
  /-- The next looped test slot is received inside the part (R124). -/
  | testSlot (slot : Slot)
  /-- A byte received on SLI, with its stop bit at mark or at space (R149, R152). -/
  | receivedByte (data : Byte) (stopAtMark : Bool)
  /-- SLI at mark for 8 µs without a start bit (R149, R152). -/
  | cellGap
  /-- The arrival of an intact STROKE cell (R88, R155). -/
  | strokeCell (payload : List Byte)
  /-- The arrival of an intact COMMAND cell (R155, R171). -/
  | commandCell (command : Command)
  /-- SLI at space for 2 ms (R156). -/
  | breakBegin
  /-- SLI returns to mark in break (R157). -/
  | breakEnd
  /-- SLI returns to mark before 2 ms of space (R156). -/
  | returnToMark
  /-- The gap after a return cell has passed (R158). -/
  | transmitterFree
  /-- Execution of a command whose code names no command (R169). -/
  | unknownCommand
  | defineMotif
  | undefineMotif
  | loadPartFragment0
  | loadPartFragment1
  | loadPartFragment2
  | loadFlush
  | panelBegin
  | panelLane
  | panelCommit
  | panelDiscard
  | run
  | halt
  | resume
  | lineReset
  | loopTest
  | laneHold
  | laneRelease
  | laneStop
  | segmentRestore
  | needleRelease
  | takeDefect
  | clearCounts
  | setLaneMapEntry
  | setSegmentCount
  | setOperatorMask
  | setDropLimit
  | setUnderrunLimit
  | setPackingOrder
  | readLine
  | readLane
  | readSegment
  | readMotif
  | readRecord
  | readPanel
  | readDefects
  | readAttention
  | readCounts
  | readConfig
  | readAssembler
deriving DecidableEq, Repr

end Sys2Proof
end

