-- ==== Sys2Proof/WellFormed.lean ====
section
/-! DEFINITION. Which operands a command may carry: the ranges the manual gives what arrives from outside. -/

namespace Sys2Proof

/-- The operands of a command are in the ranges of the manual. A return position is one of the at most 16 of a frame
(R116). A STROKE cell's payload is at most 32 bytes, its length being judged by the Stroke Queue (R88, R150). A COMMAND
cell carries at most 30 argument bytes behind its two-byte header (R162). -/
def Instr.wellFormed : Instr → Bool
  | .returnSlot position _ => decide (position < 16)
  | .strokeCell payload => decide (payload.length ≤ Config.maxPayload)
  | .commandCell command => decide (command.args.length + 2 ≤ Config.maxPayload)
  | .powerOnReset | .shaftIndex | .waitedShaftIndex | .outboundComplete | .returnWindowExpiry | .loopedFrameBegin
  | .testSlot _ | .receivedByte _ _ | .cellGap | .breakBegin | .breakEnd | .returnToMark | .transmitterFree => true
  | .unknownCommand | .defineMotif | .undefineMotif | .loadPartFragment0 | .loadPartFragment1 | .loadPartFragment2
  | .loadFlush | .panelBegin | .panelLane | .panelCommit | .panelDiscard | .run | .halt | .resume | .lineReset
  | .loopTest | .laneHold | .laneRelease | .laneStop | .segmentRestore | .needleRelease | .takeDefect
  | .clearCounts => true
  | .setLaneMapEntry | .setSegmentCount | .setOperatorMask | .setDropLimit | .setUnderrunLimit
  | .setPackingOrder => true
  | .readLine | .readLane | .readSegment | .readMotif | .readRecord | .readPanel | .readDefects | .readAttention
  | .readCounts | .readConfig | .readAssembler => true

end Sys2Proof
end

