-- ==== Sys2Proof/Machine/State.lean ====
section
/-! DEFINITION. The state of the OL-5716 as plain data, block by block (section 0.2), its reset, and the reasons a step
can stop. -/

namespace Sys2Proof.Machine

open Sys2Proof

/-! ### Motif Store (chapter 1) -/

/-- The packing order of record fragments (R12). -/
inductive PackingOrder where
  | highFirst
  | lowFirst
deriving DecidableEq, Repr

/-- An entry of the motif directory (R3). -/
structure DirEntry where
  defined   : Bool
  firstPage : Nat
  pageCount : Nat
  length    : Nat
  loopIndex : Option Nat
  inUse     : Nat
deriving DecidableEq, Repr

/-- The values of an undefined entry (R3). -/
def DirEntry.blank : DirEntry :=
  { defined := false, firstPage := 0, pageCount := 0, length := 0, loopIndex := none, inUse := 0 }

/-- What the record assembler holds when HOLDING: its target and one or two fragments (R11). -/
structure Assembly where
  motif     : Fin 64
  index     : Nat
  fragment0 : BitVec 16
  fragment1 : Option (BitVec 16)
deriving DecidableEq, Repr

/-- The step record store: the places that hold a record other than END, by rising place number, a place being
64 × page + place within the page (R1). -/
abbrev Memory := List (Nat × RecordWord)

/-- A decoded step record (R6). -/
inductive Record where
  | move (target : Lateral) (span : Nat) (engage : Pattern) (tension : Option (BitVec 4))
  | jump (target : Lateral) (span : Nat)
  | lock (target : Lateral) (span : Nat) (engage : Pattern) (width : Byte)
  | mark (code : BitVec 5)
  | endRecord
deriving DecidableEq, Repr

/-- The Motif Store. `assembler` is none when EMPTY (R11). -/
structure Store where
  directory : Vector DirEntry 64
  records   : Memory
  assembler : Option Assembly
  packing   : PackingOrder
deriving DecidableEq, Repr

/-! ### Panel Stager (chapter 2) -/

/-- The scale of an assignment (R22). -/
inductive Scale where
  | x1
  | x2
  | x4
  | x8
deriving DecidableEq, Repr

/-- One assignment of a panel program (R22). -/
structure Assignment where
  lane        : Fin 8
  motif       : Fin 64
  scale       : Scale
  startOffset : Nat
  loopAllowed : Bool
  tension     : BitVec 4
deriving DecidableEq, Repr

/-- A panel program: its header and its assignments in the order received (R21). -/
structure PanelProgram where
  tag         : Serial
  length      : Nat
  seamGap     : Nat
  repeats     : Bool
  assignments : List Assignment
deriving DecidableEq, Repr

/-- The Panel Stager: the staging buffer (none when EMPTY, R23) and the pending panel (R29). -/
structure Stager where
  staging      : Option PanelProgram
  pendingPanel : Option PanelProgram
deriving DecidableEq, Repr

/-! ### Lane Engine (chapter 3) -/

/-- Why a lane stopped (R37). -/
inductive StopCause where
  | command
  | drop
  | loopFault
deriving DecidableEq, Repr

/-- The state of a lane; the stop cause is present in STOPPED alone (R37, R38). -/
inductive LaneState where
  | vacant
  | standby
  | sewing
  | held
  | finished
  | stopped (cause : StopCause)
deriving DecidableEq, Repr

/-- A lane context (R37). -/
structure LaneContext where
  state          : LaneState
  motif          : Fin 64
  scale          : Scale
  loopAllowed    : Bool
  recordIndex    : Nat
  fromLateral    : Lateral
  leftInStep     : Nat
  currentLateral : Lateral
  tension        : BitVec 4
  lockOdd        : Bool
  loopPasses     : Nat
  engage         : Pattern
deriving DecidableEq, Repr

/-- A lane context after either reset (R39). -/
def LaneContext.blank : LaneContext :=
  { state := .vacant, motif := 0, scale := .x1, loopAllowed := false, recordIndex := 0, fromLateral := 0,
    leftInStep := 0, currentLateral := 0, tension := 0, lockOdd := false, loopPasses := 0, engage := 0 }

/-- An entry of the marker queue (R58). -/
structure Marker where
  lane : Fin 8
  code : BitVec 5
deriving DecidableEq, Repr

/-- The Lane Engine. -/
structure Engine where
  lanes   : Vector LaneContext 8
  markers : List Marker
deriving DecidableEq, Repr

/-! ### Line Sequencer (chapter 4) -/

/-- Why the line halted (R77). -/
inductive HaltCause where
  | linkBreak
  | underrun
  | command
deriving DecidableEq, Repr

/-- Where a halted line resumes (R78). -/
inductive ResumeState where
  | running
  | changeover
deriving DecidableEq, Repr

/-- The line state; halt cause and resume state are present in HALTED alone (R65). -/
inductive LineState where
  | idle
  | running
  | changeover
  | halted (cause : HaltCause) (resume : ResumeState)
  | looptest
deriving DecidableEq, Repr

/-- The role of the line program (R66). -/
inductive Role where
  | active
  | incoming
deriving DecidableEq, Repr

/-- The line program with its role (R66). -/
structure LineProgram where
  role  : Role
  panel : PanelProgram
deriving DecidableEq, Repr

/-- The Line Sequencer (R65). -/
structure Sequencer where
  state    : LineState
  program  : Option LineProgram
  position : Nat
  seam     : Nat
  serial   : Serial
deriving DecidableEq, Repr

/-! ### Stroke Queue (chapter 5) -/

/-- An entry of the stroke queue (R87). -/
structure Stroke where
  serial : Serial
  feed   : Byte
deriving DecidableEq, Repr

/-- A REPORT (R98). -/
structure Report where
  frameSerial  : Serial
  strokeSerial : Option Serial
  lineState    : LineState
  panelSerial  : Serial
  place        : Nat
  freeCount    : Nat
  dwell        : Bool
  attn         : Bool
  skipped      : Bool
  markers      : List Marker
deriving DecidableEq, Repr

/-- The Stroke Queue block: queue, underrun counts and limit, report slot. -/
structure Strokes where
  queue       : List Stroke
  consecutive : Nat
  total       : Nat
  limit       : Nat
  slot        : Option Report
deriving DecidableEq, Repr

/-! ### Needle Composer and Head Link Port (chapter 6) -/

/-- A segment word (section 6.2). -/
structure SegWord where
  lateral : Lateral
  engage  : Pattern
  tension : BitVec 4
  lock    : Bool
  park    : Bool
deriving DecidableEq, Repr

/-- The Needle Composer. -/
structure Composer where
  laneMap       : Vector (Option (Fin 8)) 16
  operatorMask  : Vector Pattern 16
  lastLateral   : Vector Lateral 16
  previousWords : Vector (Option SegWord) 16
deriving DecidableEq, Repr

/-- The state of a segment (R119). -/
inductive SegmentState where
  | off
  | online
  | suspect
  | lost
deriving DecidableEq, Repr

/-- A segment's state and bad-return count (R119). -/
structure Segment where
  state      : SegmentState
  badReturns : Nat
deriving DecidableEq, Repr

/-- A head frame as formed: header fields and the words of segments 0, 1, … in order (R114). -/
structure Frame where
  serial  : Serial
  parkAll : Bool
  words   : List SegWord
deriving DecidableEq, Repr

/-- A looped frame in progress: its number of slots and, for each slot checked so far, whether it passed (R124). -/
structure LoopedFrame where
  count  : Nat
  passed : List Bool
deriving DecidableEq, Repr

/-- The head-link transmitter (R114). SENDING holds the frame in flight; the return window holds, for each position of
the frame, whether it was received (R116); LOOP holds the looped frame once it has begun (R123). -/
inductive HeadTx where
  | free
  | sending (frame : Frame)
  | window (received : List Bool)
  | loop (test : Option LoopedFrame)
deriving DecidableEq, Repr

/-- The Head Link Port. `claim`: a loop test has claimed the transmitter (R123). `waiting`: a shaft index waits for the
test to complete (R90). -/
structure HeadLink where
  segmentCount : Nat
  frameSerial  : Serial
  segments     : Vector Segment 16
  tx           : HeadTx
  claim        : Bool
  waiting      : Bool
deriving DecidableEq, Repr

/-! ### Thread Supervisor (chapter 7) -/

/-- Thread presence of a needle (R128). -/
inductive Presence where
  | unknown
  | present
  | absent
deriving DecidableEq, Repr

/-- The kind of a defect record; a BREAK names its needle by its position in the record's segment (R139). -/
inductive DefectKind where
  | threadBreak (position : Fin 8)
  | loss
deriving DecidableEq, Repr

/-- The optional lane fields of a defect record (R139, R140). -/
structure LanePlace where
  lane  : Fin 8
  motif : Fin 64
  index : Nat
deriving DecidableEq, Repr

/-- The optional panel fields of a defect record (R139, R140). -/
structure PanelPlace where
  tag      : Serial
  serial   : Serial
  position : Nat
deriving DecidableEq, Repr

/-- A defect record (R139). -/
structure Defect where
  kind       : DefectKind
  segment    : Fin 16
  lanePlace  : Option LanePlace
  panelPlace : Option PanelPlace
deriving DecidableEq, Repr

/-- The Thread Supervisor (R128). Presence, fault mask and rethread set are kept by segment and position: needle
8s + p is position p of segment s (section 0.3). -/
structure Supervisor where
  presence     : Vector (Vector Presence 8) 16
  faultMask    : Vector Pattern 16
  rethread     : Vector Pattern 16
  bobbinLow    : Vector Bool 16
  defects      : List Defect
  totalBreaks  : Nat
  dropLimit    : Vector Nat 8
deriving DecidableEq, Repr

/-! ### Management Queue and Stroke Link Port (chapters 9 and 8) -/

/-- The result of a command (R162, R176). -/
inductive Result where
  | done
  | replaced
  | partHeld
  | busy
  | wrongState
  | range
  | inUse
  | overlap
  | notDefined
  | late
  | noPanel
  | sequence
  | unknown
  | empty
  | invalid
  | breakActive
deriving DecidableEq, Repr

/-- What a command answers: its result and its data bytes (R176). -/
structure Reply where
  result : Result
  data   : List Byte
deriving DecidableEq, Repr

/-- An answer: the tag and code of its command, and the reply (R176). -/
structure Answer where
  tag   : Byte
  code  : Byte
  reply : Reply
deriving DecidableEq, Repr

/-- The names of the nine attention latches (R181). -/
inductive Latch where
  | defectOverflow
  | markerLost
  | segmentChange
  | underrunSeen
  | linkError
  | commandDropped
  | bobbinLow
  | shaftEarly
  | strokeRefused
deriving DecidableEq, Repr

/-- The nine attention latches (R181). -/
structure Latches where
  defectOverflow : Bool
  markerLost     : Bool
  segmentChange  : Bool
  underrunSeen   : Bool
  linkError      : Bool
  commandDropped : Bool
  bobbinLow      : Bool
  shaftEarly     : Bool
  strokeRefused  : Bool
deriving DecidableEq, Repr

/-- All latches clear, as after power-on reset and READ ATTENTION (R181, R182). -/
def Latches.clear : Latches :=
  { defectOverflow := false, markerLost := false, segmentChange := false, underrunSeen := false, linkError := false,
    commandDropped := false, bobbinLow := false, shaftEarly := false, strokeRefused := false }

/-- The Management Queue. `reserved`: an accepted LOOP_TEST stands at the front and has reserved an answer place
(R173). -/
structure Management where
  commands : List Command
  answers  : List Answer
  reserved : Bool
  latches  : Latches
deriving DecidableEq, Repr

/-- The two upstream kinds of cell (R150). -/
inductive CellKind where
  | stroke
  | command
deriving DecidableEq, Repr

/-- What the receiver holds in IN_CELL: kind, length once received, payload so far, running check (R152). -/
structure PartCell where
  kind    : CellKind
  length  : Option Nat
  payload : List Byte
  check   : Byte
deriving DecidableEq, Repr

/-- The receiver (R152). -/
inductive Receiver where
  | ready
  | inCell (cell : PartCell)
  | waitGap
  | inBreak
deriving DecidableEq, Repr

/-- A cell on the return line (R150). -/
inductive ReturnCell where
  | report (report : Report)
  | answer (answer : Answer)
deriving DecidableEq, Repr

/-- The Stroke Link Port. `heldSpace`: an all-space byte awaits judgement (R149, R156). `tx`: none when the return
transmitter is FREE, else the cell it is sending (R158). -/
structure Link where
  receiver   : Receiver
  heldSpace  : Bool
  breakState : Bool
  errorCount : Nat
  tx         : Option ReturnCell
deriving DecidableEq, Repr

end Sys2Proof.Machine

namespace Sys2Proof.Machine

/-- The state of the block, and the queue of commands waiting to be taken by `step`. -/
structure State where
  store    : Store
  stager   : Stager
  engine   : Engine
  line     : Sequencer
  strokes  : Strokes
  composer : Composer
  head     : HeadLink
  thread   : Supervisor
  link     : Link
  mgmt     : Management
  pending  : List Instr
deriving DecidableEq, Repr

/-- The faults of the block: none. The manual names no event that stops the part; errors are answered, latched or
recorded (R176, R181, R139). -/
inductive Fault where
deriving DecidableEq, Repr

/-- The refusals of the model. -/
inductive Refusal where
  /-- Raised by an arm of `exec` whose command has no meaning yet; safe. No arm raises it now. -/
  | notModelled (mnemonic : String)
deriving DecidableEq, Repr

/-- The block after the power-on reset (R5, R32, R39, R83, R103, R127, R148, R152, R157, R159, R184), with no command
waiting. -/
def State.reset : State where
  store := { directory := Vector.replicate 64 DirEntry.blank, records := [], assembler := none, packing := .highFirst }
  stager := { staging := none, pendingPanel := none }
  engine := { lanes := Vector.replicate 8 LaneContext.blank, markers := [] }
  line := { state := .idle, program := none, position := 0, seam := 0, serial := 0 }
  strokes := { queue := [], consecutive := 0, total := 0, limit := 3, slot := none }
  composer :=
    { laneMap := Vector.replicate 16 none, operatorMask := Vector.replicate 16 0,
      lastLateral := Vector.replicate 16 0, previousWords := Vector.replicate 16 none }
  head :=
    { segmentCount := 16, frameSerial := 0, segments := Vector.replicate 16 { state := .online, badReturns := 0 },
      tx := .free, claim := false, waiting := false }
  thread :=
    { presence := Vector.replicate 16 (Vector.replicate 8 .unknown), faultMask := Vector.replicate 16 0,
      rethread := Vector.replicate 16 0, bobbinLow := Vector.replicate 16 false, defects := [], totalBreaks := 0,
      dropLimit := Vector.replicate 8 0 }
  link := { receiver := .waitGap, heldSpace := false, breakState := false, errorCount := 0, tx := none }
  mgmt := { commands := [], answers := [], reserved := false, latches := Latches.clear }
  pending := []

end Sys2Proof.Machine
end

