-- ==== Sys2Proof/Machine/Flags.lean ====
section
/-! DEFINITION. The attention latches and the flags and status fields computed from State (R100, R163, R181, R185). -/

namespace Sys2Proof.Machine

/-- A latch set; one already set stays set (R181). -/
def Latches.set (l : Latch) (ls : Latches) : Latches :=
  match l with
  | .defectOverflow => { ls with defectOverflow := true }
  | .markerLost => { ls with markerLost := true }
  | .segmentChange => { ls with segmentChange := true }
  | .underrunSeen => { ls with underrunSeen := true }
  | .linkError => { ls with linkError := true }
  | .commandDropped => { ls with commandDropped := true }
  | .bobbinLow => { ls with bobbinLow := true }
  | .shaftEarly => { ls with shaftEarly := true }
  | .strokeRefused => { ls with strokeRefused := true }

/-- A latch as it stands. -/
def Latches.get (ls : Latches) : Latch → Bool
  | .defectOverflow => ls.defectOverflow
  | .markerLost => ls.markerLost
  | .segmentChange => ls.segmentChange
  | .underrunSeen => ls.underrunSeen
  | .linkError => ls.linkError
  | .commandDropped => ls.commandDropped
  | .bobbinLow => ls.bobbinLow
  | .shaftEarly => ls.shaftEarly
  | .strokeRefused => ls.strokeRefused

/-- The latches in the bit order of R181, bit 0 first. -/
def latchOrder : List Latch :=
  [.defectOverflow, .markerLost, .segmentChange, .underrunSeen, .linkError, .commandDropped, .bobbinLow, .shaftEarly,
   .strokeRefused]

/-- At least one latch is set (R100). -/
def Latches.any (ls : Latches) : Bool := latchOrder.any ls.get

/-- The number whose bit i is the i-th truth value of a list. -/
def bitsToNat : List Bool → Nat
  | [] => 0
  | b :: bs => b.toNat + 2 * bitsToNat bs

/-- The two-byte value of READ ATTENTION (R181, R191). -/
def Latches.word (ls : Latches) : Nat := bitsToNat (latchOrder.map ls.get)

/-- The event of a latch's cause (R181). -/
def State.latch (l : Latch) (s : State) : State := { s with mgmt.latches := s.mgmt.latches.set l }

/-- ATTN: any attention latch is set or the defect list is not empty (R100). -/
def State.attn (s : State) : Bool := s.mgmt.latches.any || !s.thread.defects.isEmpty

/-- A count that saturates at 65535 and rises by 1 (R95, R137, R154). -/
def saturate (n : Nat) : Nat := if n < Config.countMax then n + 1 else n

/-- The code of a halt cause in a status byte (R163). -/
def HaltCause.code : HaltCause → Nat
  | .linkBreak => 1
  | .underrun => 2
  | .command => 3

/-- The code of a resume state in a status byte (R163). -/
def ResumeState.code : ResumeState → Nat
  | .running => 1
  | .changeover => 2

/-- The line state a halted line resumes (R80). -/
def ResumeState.lineState : ResumeState → LineState
  | .running => .running
  | .changeover => .changeover

/-- Line state, halt cause and resume state in one byte, as byte 4 of the REPORT (R163, R185). -/
def LineState.statusByte : LineState → Byte
  | .idle => 0
  | .running => 1
  | .changeover => 2
  | .halted c r => BitVec.ofNat 8 (3 + 8 * c.code + 32 * r.code)
  | .looptest => 4

/-- The line is RUNNING, or HALTED with resume state RUNNING: a panel is being sewn (R71). -/
def LineState.sewsPanel : LineState → Bool
  | .running => true
  | .halted _ .running => true
  | .idle | .changeover | .halted _ .changeover | .looptest => false

/-- The line is in CHANGEOVER, or HALTED with resume state CHANGEOVER: a seam is being fed (R71). -/
def LineState.feedsSeam : LineState → Bool
  | .changeover => true
  | .halted _ .changeover => true
  | .idle | .running | .halted _ .running | .looptest => false

/-- The line is HALTED. -/
def LineState.isHalted : LineState → Bool
  | .halted _ _ => true
  | .idle | .running | .changeover | .looptest => false

/-- The code of a lane state (R185). -/
def LaneState.code : LaneState → Nat
  | .vacant => 0
  | .standby => 1
  | .sewing => 2
  | .held => 3
  | .finished => 4
  | .stopped _ => 5

/-- The code of a lane's stop cause, 0 when absent (R185). -/
def LaneState.causeCode : LaneState → Nat
  | .vacant | .standby | .sewing | .held | .finished => 0
  | .stopped .command => 1
  | .stopped .drop => 2
  | .stopped .loopFault => 3

/-- The code of a segment state (R185). -/
def SegmentState.code : SegmentState → Nat
  | .off => 0
  | .online => 1
  | .suspect => 2
  | .lost => 3

/-- The segment answers well enough for its needles to be engaged: ONLINE or SUSPECT (R108). -/
def SegmentState.answering : SegmentState → Bool
  | .online | .suspect => true
  | .off | .lost => false

/-- The code of a program role, 0 for no program (R185). -/
def roleCode : Option Role → Nat
  | none => 0
  | some .active => 1
  | some .incoming => 2

/-- The value of a result byte (R162). -/
def Result.code : Result → Byte
  | .done => 0x00
  | .replaced => 0x01
  | .partHeld => 0x02
  | .busy => 0x10
  | .wrongState => 0x11
  | .range => 0x12
  | .inUse => 0x13
  | .overlap => 0x14
  | .notDefined => 0x15
  | .late => 0x16
  | .noPanel => 0x17
  | .sequence => 0x18
  | .unknown => 0x19
  | .empty => 0x1A
  | .invalid => 0x1B
  | .breakActive => 0x1C

/-- The factor of a scale (R22). -/
def Scale.factor : Scale → Nat
  | .x1 => 1
  | .x2 => 2
  | .x4 => 4
  | .x8 => 8

end Sys2Proof.Machine
end

