-- ==== Sys2Proof/Machine/Ops.lean ====
section
/-! DEFINITION. The named operations over State: fixed files of like things, the record store, the directory, the
queues of the links and of the management interface, and the execution of a command. -/

namespace Sys2Proof.Machine

/-! ### Files of like things -/

/-- The file whose entry i is f i. -/
def tabulate {α : Type} {n : Nat} (f : Fin n → α) : Vector α n := ⟨⟨List.ofFn f⟩, by simp⟩

/-- A number as an index below n, if it is one. -/
def finOf (n x : Nat) : Option (Fin n) := if h : x < n then some ⟨x, h⟩ else none

/-! ### The record store (R1, R7) -/

/-- The record at a place; an unlisted place reads as END, all bits 0 (DESIGN CHOICE, unsafe, log entry 1: no command
observes a place before DEFINE_MOTIF has filled it, R2). -/
def Memory.read : Memory → Nat → RecordWord
  | [], _ => 0
  | (b, w) :: m, a => if a = b then w else Memory.read m a

/-- A record written to a place, keeping the canonical form. -/
def Memory.write : Memory → Nat → RecordWord → Memory
  | [], a, w => if w = 0 then [] else [(a, w)]
  | (b, v) :: m, a, w =>
    if a < b then (if w = 0 then (b, v) :: m else (a, w) :: (b, v) :: m)
    else if a = b then (if w = 0 then m else (a, w) :: m)
    else (b, v) :: Memory.write m a w

/-- n places from base set to END (R9). -/
def Memory.fillEnd (base n : Nat) (m : Memory) : Memory :=
  m.filter fun cell => decide (cell.1 < base ∨ base + n ≤ cell.1)

/-- The canonical form: places strictly rising, no place listed that holds END. -/
def Memory.wf : Memory → Bool
  | [] => true
  | (a, w) :: m => decide (w ≠ 0) && m.all (fun cell => decide (a < cell.1)) && Memory.wf m

/-! ### The motif directory (R3, R4) -/

/-- How many assignments of a program name a motif. -/
def PanelProgram.names (p : PanelProgram) (m : Fin 64) : Nat := p.assignments.countP fun a => decide (a.motif = m)

/-- A reference gained for each assignment of a program (R4). -/
def gainAll (p : PanelProgram) (d : Vector DirEntry 64) : Vector DirEntry 64 :=
  tabulate fun m => { d[m] with inUse := d[m].inUse + p.names m }

/-- A reference released for each assignment of a program (R4). -/
def releaseAll (p : PanelProgram) (d : Vector DirEntry 64) : Vector DirEntry 64 :=
  tabulate fun m => { d[m] with inUse := d[m].inUse - p.names m }

/-- The releases for a program that may be absent. -/
def releaseOption (p : Option PanelProgram) (d : Vector DirEntry 64) : Vector DirEntry 64 :=
  match p with
  | none => d
  | some p => releaseAll p d

/-- The page belongs to the entry's motif (R1, R2). -/
def DirEntry.ownsPage (e : DirEntry) (page : Nat) : Bool :=
  e.defined && decide (e.firstPage ≤ page ∧ page < e.firstPage + e.pageCount)

/-- The motif that owns a page, or none for a free page (R2): a view of the directory (log entry 19). -/
def Store.pageOwner (st : Store) (page : Nat) : Option (Fin 64) :=
  (List.finRange 64).find? fun m => st.directory[m].ownsPage page

/-- The place of a record of a motif (R1): page first page + i / 64, place i − 64 × (i / 64) within it. -/
def Store.place (st : Store) (m : Fin 64) (i : Nat) : Nat :=
  (st.directory[m].firstPage + i / 64) * 64 + (i - 64 * (i / 64))

/-- The 48 bits of a record of a motif (R1, R7). -/
def Store.wordAt (st : Store) (m : Fin 64) (i : Nat) : RecordWord := st.records.read (st.place m i)

/-! ### The check of both links (R151) -/

/-- One bit into the check register (R151). -/
def crcBit (reg : Byte) (bit : Bool) : Byte :=
  if bit != reg.msb then (reg <<< 1) ^^^ 0x07 else reg <<< 1

/-- One byte into the check register, most significant bit first (R151). -/
def crcByte (reg b : Byte) : Byte := [7, 6, 5, 4, 3, 2, 1, 0].foldl (fun r i => crcBit r (b.getLsbD i)) reg

/-- The CRC-8 over bytes, from FFH (R151). -/
def crc8 (bytes : List Byte) : Byte := bytes.foldl crcByte 0xFF

/-! ### The return transmitter, the report slot and the answer queue (R101, R158, R159, R175) -/

/-- A FREE transmitter takes the REPORT in the slot, else the oldest answer, else stays FREE (R158). -/
def arbitrate (s : State) : State :=
  match s.link.tx with
  | some _ => s
  | none =>
    match s.strokes.slot with
    | some r => { s with link.tx := some (.report r), strokes.slot := none }
    | none =>
      match s.mgmt.answers with
      | a :: rest => { s with link.tx := some (.answer a), mgmt.answers := rest }
      | [] => s

/-- A REPORT placed in the slot, REPORT_SKIPPED set when it replaces one; a FREE transmitter takes it at once
(R101, R158). -/
def placeReport (r : Report) (s : State) : State :=
  arbitrate { s with strokes.slot := some { r with skipped := s.strokes.slot.isSome } }

/-- An answer enters the answer queue; a FREE transmitter takes it at once (R158, R175). -/
def enterAnswer (a : Answer) (s : State) : State := arbitrate { s with mgmt.answers := s.mgmt.answers ++ [a] }

/-- The answer queue has a free place, a reserved place counting as occupied (R171, R172, R173). -/
def State.answerRoom (s : State) : Bool :=
  decide (s.mgmt.answers.length + s.mgmt.reserved.toNat < Config.answerCapacity)

/-! ### The command queue (R170 to R173) -/

/-- The command is a READ (R171). -/
def Command.isReadCode (c : Command) : Bool := c.code == 0x61

/-- The arrival of a COMMAND (R171). -/
def commandArrives (c : Command) (s : State) : State :=
  if c.isReadCode && s.mgmt.commands.any Command.isReadCode then
    if s.answerRoom then enterAnswer { tag := c.tag, code := c.code, reply := { result := .busy, data := [] } } s
    else s.latch .commandDropped
  else if s.mgmt.commands.length < Config.commandCapacity then
    { s with mgmt.commands := s.mgmt.commands ++ [c] }
  else s.latch .commandDropped

/-- A shaft index waited through a loop test that has completed, and is not yet served (R85). -/
def State.indexDue (s : State) : Bool := s.head.waiting && !s.head.claim

/-- A front command may execute (R172): the answer queue has a free place, and the front command is not a LOOP_TEST
already executed. -/
def State.canExecute (s : State) : Bool := s.answerRoom && !s.mgmt.reserved

/-- What a command does at its execution: the state it leaves, and its reply, none for an accepted LOOP_TEST
(R172, R173). -/
abbrev Effect := State × Option Reply

/-- The command changes nothing more and answers a result with data. -/
def replyWith (r : Result) (data : List Byte) (s : State) : Effect := (s, some { result := r, data := data })

/-- The command answers a result without data; a refusal carries none (R176). -/
def reply (r : Result) (s : State) : Effect := replyWith r [] s

/-- The reply enters the answer queue and the command leaves the front of the command queue (R172). -/
def answerFront (c : Command) (r : Reply) (s : State) : State :=
  enterAnswer { tag := c.tag, code := c.code, reply := r } { s with mgmt.commands := s.mgmt.commands.tail }

/-- The answer of an effect, if it gives one. -/
def settle (c : Command) (e : Effect) : State :=
  match e.2 with
  | some r => answerFront c r e.1
  | none => e.1

/-- The execution event of the front command (R172), for the commands `row` stands for. Where the event cannot occur
the state stays (log entry 2). -/
def executeFront (row : Command → Bool) (effect : List Byte → State → Effect) (s : State) : State :=
  match s.mgmt.commands with
  | [] => s
  | c :: _ => if row c && s.canExecute then settle c (effect c.args s) else s

/-- Stage 2 of R169: arguments of the wrong length are refused RANGE with no data. -/
def withLength (n : Nat) (args : List Byte) (body : Effect) (s : State) : Effect :=
  if args.length = n then body else reply .range s

/-! ### The stroke queue (R87 to R89) -/

/-- A STROKE cell refused (R88). -/
def refuseStroke (s : State) : State := s.latch .strokeRefused

/-- The line state in which STROKE cells are accepted (R88). -/
def LineState.takesStrokes : LineState → Bool
  | .idle | .running | .changeover => true
  | .halted _ _ | .looptest => false

/-- The arrival of an intact STROKE cell (R88, R161). -/
def strokeArrives (payload : List Byte) (s : State) : State :=
  match payload with
  | [low, high, feed] =>
    if s.line.state.takesStrokes && decide (s.strokes.queue.length < Config.strokeCapacity) then
      { s with strokes.queue := s.strokes.queue ++ [{ serial := high ++ low, feed := feed }] }
    else refuseStroke s
  | _ => refuseStroke s

/-- Entry to HALTED from RUNNING or CHANGEOVER; in other line states no halt occurs (R77, R78, R89, R94). -/
def haltLine (cause : HaltCause) (s : State) : State :=
  match s.line.state with
  | .running => { s with line.state := .halted cause .running, strokes.queue := [], strokes.consecutive := 0 }
  | .changeover => { s with line.state := .halted cause .changeover, strokes.queue := [], strokes.consecutive := 0 }
  | .idle | .halted _ _ | .looptest => s

end Sys2Proof.Machine
end

