-- ==== Sys2Proof/Machine/Operands.lean ====
section
/-! DEFINITION. How operands are read: the fields of arguments (R160, R186), which row of the table a command is
(R168, R177, R179), step records (R164), return slots (R166). -/

namespace Sys2Proof.Machine

/-! ### Argument fields (R160, R186) -/

/-- Argument byte i as a number. -/
def argByte (args : List Byte) (i : Nat) : Nat := (args.getD i 0).toNat

/-- The two-byte number at argument bytes i and i + 1, least significant byte first (R160). -/
def argWord (args : List Byte) (i : Nat) : Nat := argByte args i + 256 * argByte args (i + 1)

/-- A yes/no byte: 1 yes, 0 no, else out of range (R185, R186). -/
def yesNo (b : Nat) : Option Bool :=
  if b = 0 then some false else if b = 1 then some true else none

/-- A scale byte (R22). -/
def scaleOf (b : Nat) : Option Scale :=
  if b = 1 then some .x1 else if b = 2 then some .x2 else if b = 4 then some .x4 else if b = 8 then some .x8 else none

/-- The byte of a scale (R190). -/
def Scale.byte (x : Scale) : Nat := x.factor

/-! ### Which row a command is -/

/-- The command codes of R168. -/
def knownCodes : List Byte :=
  [0x01, 0x02, 0x03, 0x04, 0x10, 0x11, 0x12, 0x13, 0x20, 0x21, 0x22, 0x23, 0x24, 0x30, 0x31, 0x32, 0x40, 0x50, 0x51,
   0x60, 0x61, 0x62]

/-- The command has this code. -/
def Command.hasCode (code : Byte) (c : Command) : Bool := c.code == code

/-- The command's code names no command (R169). -/
def Command.isUnknown (c : Command) : Bool := !knownCodes.contains c.code

/-- A LOAD_PART of this fragment; one whose arguments name no fragment 0 to 2 is any of the three (DESIGN CHOICE, safe,
log entry 4). -/
def Command.isPart (fragment : Nat) (c : Command) : Bool :=
  c.code == 0x03 &&
    (decide (c.args.length ≠ 6) || decide (argByte c.args 3 = fragment) || decide (2 < argByte c.args 3))

/-- The item a SET or READ names: its first argument byte, 0 when there is none. -/
def itemOf (args : List Byte) : Nat := argByte args 0

/-- A SET of this item; one that names no item 1 to 6 is any of them (DESIGN CHOICE, safe, log entry 4). -/
def Command.isSet (item : Nat) (c : Command) : Bool :=
  c.code == 0x60 && (decide (itemOf c.args = item) || decide (itemOf c.args = 0) || decide (6 < itemOf c.args))

/-- A READ of this item; one that names no item 1 to 11 is any of them (DESIGN CHOICE, safe, log entry 4). -/
def Command.isRead (item : Nat) (c : Command) : Bool :=
  c.code == 0x61 && (decide (itemOf c.args = item) || decide (itemOf c.args = 0) || decide (11 < itemOf c.args))

/-- The first two checks of R177 and R179: the item code, then the argument length, each refused RANGE. -/
def withItem (item length : Nat) (args : List Byte) (body : Effect) (s : State) : Effect :=
  if itemOf args = item then withLength (length + 1) args body s else reply .range s

/-! ### Step records (R6, R7, R164) -/

/-- The record 48 bits spell, none for kind codes 5, 6 and 7 (R164). -/
def decodeRecord (w : RecordWord) : Option Record :=
  let target := w.extractLsb' 33 12
  let span := (w.extractLsb' 21 12).toNat
  let engage := w.extractLsb' 13 8
  match (w.extractLsb' 45 3).toNat with
  | 0 => some .endRecord
  | 1 => some (.move target span engage (if w.getLsbD 12 then some (w.extractLsb' 8 4) else none))
  | 2 => some (.jump target span)
  | 3 => some (.lock target span engage (w.extractLsb' 5 8))
  | 4 => some (.mark (w.extractLsb' 40 5))
  | _ => none

/-- The values R6 requires of a record: a span above 0, a marker code above 0. -/
def Record.valid : Record → Bool
  | .move _ span _ _ => decide (0 < span)
  | .jump _ span => decide (0 < span)
  | .lock _ span _ _ => decide (0 < span)
  | .mark code => decide (code ≠ 0)
  | .endRecord => true

/-- The 48 bits are a valid record of one of the five kinds (R6, R16). -/
def validWord (w : RecordWord) : Bool :=
  match decodeRecord w with
  | some r => r.valid
  | none => false

/-- The three fragments joined under the packing order (R12, R164). -/
def joinFragments (order : PackingOrder) (f0 f1 f2 : BitVec 16) : RecordWord :=
  match order with
  | .highFirst => f0 ++ f1 ++ f2
  | .lowFirst => f2 ++ f1 ++ f0

/-- The decoded record of a motif at an index (R1, R164). Every stored record is valid (R6); one that were not would
read as END (log entry 15). -/
def Store.recordAt (st : Store) (m : Fin 64) (i : Nat) : Record := (decodeRecord (st.wordAt m i)).getD .endRecord

/-! ### Return slots (R166) -/

/-- The segment number a return slot carries. -/
def Slot.segment (x : Slot) : Nat := (x.byte0.extractLsb' 0 4).toNat

/-- The bobbin-low bit of a return slot. -/
def Slot.bobbinLow (x : Slot) : Bool := x.byte0.getLsbD 4

/-- The thread present bits of a return slot. -/
def Slot.present (x : Slot) : Pattern := x.byte1

/-- The check of a return slot holds: no byte had a framing error and the check byte is the CRC-8 of the two before it
(R165, R166). -/
def Slot.checkGood (x : Slot) : Bool := !x.framing && x.check == crc8 [x.byte0, x.byte1]

/-- The slot is a good return of segment k (R117). -/
def Slot.goodReturn (k : Nat) (x : Slot) : Bool := x.checkGood && decide (x.segment = k)

/-- The test slot of segment s passes: good check, number s, and the fixed pattern of s (R124). A framing error fails it
as it fails a return slot (DEDUCED, log entry 24). -/
def Slot.testPass (k : Nat) (x : Slot) : Bool :=
  x.goodReturn k && (x.present == if k % 2 = 0 then 0x55 else 0xAA) && (x.bobbinLow == decide (k % 2 = 1))

end Sys2Proof.Machine
end

