-- ==== Sys2Proof/Machine/LaneEngine.lean ====
section
/-! DEFINITION. The Lane Engine: walking a motif against feed, the lane output, stopping a lane, the marker queue
(chapter 3). -/

namespace Sys2Proof.Machine

/-! ### Contexts -/

/-- The context of a lane. -/
def State.lane (s : State) (l : Fin 8) : LaneContext := s.engine.lanes[l]

/-- A lane's context replaced. -/
def State.setLane (l : Fin 8) (c : LaneContext) (s : State) : State :=
  { s with engine.lanes := s.engine.lanes.set l c }

/-- The lane is SEWING or HELD, the states drops are evaluated for (R147). -/
def LaneState.dropEvaluated : LaneState → Bool
  | .sewing | .held => true
  | .vacant | .standby | .finished | .stopped _ => false

/-- The lane has an assignment in progress: SEWING, HELD, FINISHED or STOPPED (R140). -/
def LaneState.placed : LaneState → Bool
  | .sewing | .held | .finished | .stopped _ => true
  | .vacant | .standby => false

/-- The stop of a lane in its own context: STOPPED with the cause, current lateral 0, all else kept (R56). -/
def LaneContext.stop (cause : StopCause) (c : LaneContext) : LaneContext :=
  { c with state := .stopped cause, currentLateral := 0 }

/-! ### Walking (R46 to R51) -/

/-- The lateral target, span, and engage pattern of a spanned record; none for MARK and END (R6). -/
def Record.spanned : Record → Option (Lateral × Nat × Pattern)
  | .move target span engage _ => some (target, span, engage)
  | .jump target span => some (target, span, 0)
  | .lock target span engage _ => some (target, span, engage)
  | .mark _ => none
  | .endRecord => none

/-- The tension a record sets as it is entered: that of a MOVE that carries one, else the lane's (R47). -/
def Record.tensionFrom (old : BitVec 4) : Record → BitVec 4
  | .move _ _ _ tension => tension.getD old
  | .jump _ _ | .lock _ _ _ _ | .mark _ | .endRecord => old

/-- Entering a spanned step (R47). -/
def enterSpanned (i : Nat) (r : Record) (span : Nat) (engage : Pattern) (c : LaneContext) : LaneContext :=
  { c with
    recordIndex := i
    leftInStep := span * c.scale.factor
    fromLateral := c.currentLateral
    lockOdd := false
    engage := engage
    tension := r.tensionFrom c.tension }

/-- Loop passes rise by 1, saturating at 255 (R50). -/
def LaneContext.countPass (c : LaneContext) : LaneContext :=
  { c with loopPasses := if c.loopPasses < Config.loopPassMax then c.loopPasses + 1 else c.loopPasses }

/-- The lane becomes FINISHED (R50). -/
def LaneContext.finish (c : LaneContext) : LaneContext := { c with state := .finished, leftInStep := 0 }

/-- The index a lane returns to at the end of a pass, when its motif loops and it may (R50). -/
def loopTarget (st : Store) (c : LaneContext) : Option Nat :=
  if c.loopAllowed then st.directory[c.motif].loopIndex else none

/-- The lane enters record i and every record after it up to the next spanned step (R47 to R51). The first argument is
how many zero-span entries are left before the count of R51 reaches 64, so it is 64 where the count is 0. Answers the
context and the marker codes raised, oldest first. (At 0 no entry is left; the count stops the lane before that.) -/
def enterRecord (st : Store) : Nat → Nat → LaneContext → LaneContext × List (BitVec 5)
  | 0, _, c => (c, [])
  | left + 1, i, c =>
    let passEnd (c : LaneContext) : LaneContext × List (BitVec 5) :=
      if left = 0 then (c.stop .loopFault, [])
      else
        match loopTarget st c with
        | some j => enterRecord st left j c.countPass
        | none => (c.finish, [])
    if i < st.directory[c.motif].length then
      match st.recordAt c.motif i with
      | .move target span engage tension =>
        (enterSpanned i (.move target span engage tension) span engage c, [])
      | .jump target span => (enterSpanned i (.jump target span) span 0 c, [])
      | .lock target span engage width => (enterSpanned i (.lock target span engage width) span engage c, [])
      | .mark code =>
        if left = 0 then ({ c with recordIndex := i }.stop .loopFault, [])
        else
          let after := enterRecord st left (i + 1) { c with recordIndex := i }
          (after.1, code :: after.2)
      | .endRecord => passEnd { c with recordIndex := i }
    else passEnd { c with recordIndex := st.directory[c.motif].length - 1 }

/-- Completing the current step: left-in-step 0, current lateral the step's target (R46). -/
def completeStep (st : Store) (c : LaneContext) : LaneContext :=
  match (st.recordAt c.motif c.recordIndex).spanned with
  | some (target, _, _) => { c with leftInStep := 0, currentLateral := target }
  | none => { c with leftInStep := 0 }

/-- Feed spent on a lane standing in a spanned step (R46). The first argument bounds the steps completed: each takes at
least one feed unit, so feed + 1 is enough (log entry 16). -/
def spendFeed (st : Store) : Nat → Nat → LaneContext → LaneContext × List (BitVec 5)
  | 0, _, c => (c, [])
  | fuel + 1, feed, c =>
    if feed < c.leftInStep then ({ c with leftInStep := c.leftInStep - feed }, [])
    else
      let entered := enterRecord st Config.zeroSpanLimit (c.recordIndex + 1) (completeStep st c)
      match entered.1.state with
      | .sewing =>
        let rest := spendFeed st fuel (feed - c.leftInStep) entered.1
        (rest.1, entered.2 ++ rest.2)
      | .vacant | .standby | .held | .finished | .stopped _ => entered

/-- The walk of a SEWING lane by a feed (R45, R46). -/
def walkLane (st : Store) (feed : Nat) (c : LaneContext) : LaneContext × List (BitVec 5) :=
  spendFeed st (feed + 1) feed c

/-- A lane loaded from its assignment, before its skip walk (R41). -/
def loadLane (a : Assignment) (c : LaneContext) : LaneContext :=
  { c with
    state := .sewing
    motif := a.motif
    scale := a.scale
    loopAllowed := a.loopAllowed
    tension := a.tension
    recordIndex := 0
    fromLateral := 0
    currentLateral := 0
    leftInStep := 0
    loopPasses := 0
    lockOdd := false
    engage := 0 }

/-- The load and skip walk of an assigned lane: record 0 is entered, then the start offset is spent; its markers are
suppressed (R41, R42). -/
def startLane (st : Store) (a : Assignment) (c : LaneContext) : LaneContext :=
  let entered := (enterRecord st Config.zeroSpanLimit 0 (loadLane a c)).1
  match entered.state with
  | .sewing => (walkLane st a.startOffset entered).1
  | .vacant | .standby | .held | .finished | .stopped _ => entered

/-! ### Lane output (R52 to R55) -/

/-- A lane output; lateral none is KEEP (R52). -/
structure LaneOutput where
  lateral : Option Lateral
  engage  : Pattern
  tension : BitVec 4
  lock    : Bool
  park    : Bool
deriving DecidableEq, Repr

/-- The interpolated lateral of a MOVE or JUMP step: from-lateral plus (target − from) × done / scaled span, the quotient
rounded toward zero (R53). -/
def interpolate (origin target : Lateral) (done scaled : Nat) : Lateral :=
  BitVec.ofInt 12 (origin.toInt + ((target.toInt - origin.toInt) * (done : Int)).tdiv (scaled : Int))

/-- The lateral of a LOCK step: the target on an even toggle, target + width limited to +2047 on an odd one (R54). -/
def lockLateral (odd : Bool) (target : Lateral) (width : Byte) : Lateral :=
  if odd then BitVec.ofInt 12 (min 2047 (target.toInt + (width.toNat : Int))) else target

/-- The output of a SEWING lane on a record (R53, R54); a SEWING lane always stands on a spanned record (R37). -/
def sewingOutput (c : LaneContext) : Record → Option LaneOutput
  | .move target span engage _ =>
    let scaled := span * c.scale.factor
    some { lateral := some (interpolate c.fromLateral target (scaled - c.leftInStep) scaled), engage := engage,
           tension := c.tension, lock := false, park := false }
  | .jump target span =>
    let scaled := span * c.scale.factor
    some { lateral := some (interpolate c.fromLateral target (scaled - c.leftInStep) scaled), engage := 0,
           tension := c.tension, lock := false, park := false }
  | .lock target _ engage width =>
    some { lateral := some (lockLateral c.lockOdd target width), engage := engage, tension := c.tension, lock := true,
           park := false }
  | .mark _ => none
  | .endRecord => none

/-- The output of a lane, none where it gives none (R52 to R55). -/
def laneOutput (st : Store) (c : LaneContext) : Option LaneOutput :=
  match c.state with
  | .sewing => sewingOutput c (st.recordAt c.motif c.recordIndex)
  | .held => some { lateral := none, engage := 0, tension := c.tension, lock := false, park := true }
  | .finished => some { lateral := none, engage := 0, tension := c.tension, lock := false, park := true }
  | .stopped _ => some { lateral := some 0, engage := 0, tension := c.tension, lock := false, park := true }
  | .vacant => none
  | .standby => none

/-- The record is a LOCK. -/
def Record.isLock : Record → Bool
  | .lock _ _ _ _ => true
  | .move _ _ _ _ | .jump _ _ | .mark _ | .endRecord => false

/-- What the taking of its output does to a lane: the lock toggle of a SEWING lane on a LOCK flips, nothing else
(R54, R55). -/
def takeOutput (st : Store) (c : LaneContext) : LaneContext :=
  if c.state = .sewing && (st.recordAt c.motif c.recordIndex).isLock then { c with lockOdd := !c.lockOdd } else c

/-! ### Markers (R58, R59) -/

/-- A marker joins the queue, or is discarded with MARKER_LOST when the queue is full (R58). -/
def pushMarker (m : Marker) (s : State) : State :=
  if s.engine.markers.length < Config.markerCapacity then { s with engine.markers := s.engine.markers ++ [m] }
  else s.latch .markerLost

/-- The markers of one walk join the queue in the order raised (R58). -/
def pushMarkers (l : Fin 8) (codes : List (BitVec 5)) (s : State) : State :=
  codes.foldl (fun t code => pushMarker { lane := l, code := code } t) s

/-! ### Stops (R56, R57, R110) -/

/-- The stop notice: the last lateral of every segment the lane map gives the lane becomes 0 (R110). -/
def stopNotice (l : Fin 8) (s : State) : State :=
  { s with composer.lastLateral :=
      tabulate fun g => if s.composer.laneMap[g] = some l then 0 else s.composer.lastLateral[g] }

/-- The stop notice of a lane that a walk has left STOPPED (R42, R51, R56). -/
def noticeIfStopped (l : Fin 8) (s : State) : State :=
  match (s.lane l).state with
  | .stopped _ => stopNotice l s
  | .vacant | .standby | .sewing | .held | .finished => s

/-- A lane stops (R56). -/
def stopLane (cause : StopCause) (l : Fin 8) (s : State) : State :=
  stopNotice l (s.setLane l ((s.lane l).stop cause))

/-- A drop stop request (R57). -/
def dropStop (l : Fin 8) (s : State) : State :=
  if (s.lane l).state.dropEvaluated then stopLane .drop l s else s

/-! ### The lanes together -/

/-- A lane walked by a feed with markers reported, if it is SEWING (R45, R49, R51). -/
def walkSewing (feed : Nat) (s : State) (l : Fin 8) : State :=
  match (s.lane l).state with
  | .sewing =>
    let walked := walkLane s.store feed (s.lane l)
    noticeIfStopped l (pushMarkers l walked.2 (s.setLane l walked.1))
  | .vacant | .standby | .held | .finished | .stopped _ => s

/-- Every SEWING lane walked by a feed, lane 0 first (R45). -/
def walkLanes (feed : Nat) (s : State) : State := (List.finRange 8).foldl (walkSewing feed) s

/-- The assignment a program gives a lane. -/
def PanelProgram.assignmentOf (p : PanelProgram) (l : Fin 8) : Option Assignment :=
  p.assignments.find? fun a => decide (a.lane = l)

/-- A lane at a panel start: loaded and skip-walked if the program assigns it, else VACANT (R41, R42). -/
def startOrVacate (p : PanelProgram) (s : State) (l : Fin 8) : State :=
  match p.assignmentOf l with
  | some a => noticeIfStopped l (s.setLane l (startLane s.store a (s.lane l)))
  | none => s.setLane l { s.lane l with state := .vacant }

/-- All lanes at a panel start, in ascending order (R41). -/
def startLanes (p : PanelProgram) (s : State) : State := (List.finRange 8).foldl (startOrVacate p) s

/-- The lanes a program assigns take a state; the others keep theirs (R40, R74). -/
def markLanes (p : PanelProgram) (state : LaneState) (lanes : Vector LaneContext 8) : Vector LaneContext 8 :=
  tabulate fun l => if (p.assignmentOf l).isSome then { lanes[l] with state := state } else lanes[l]

end Sys2Proof.Machine
end

