-- ==== Sys2Proof/Machine/Supervisor.lean ====
section
/-! DEFINITION. The Thread Supervisor: drop evaluation, defect records, breaks, return notices, and the segment states
that feed it (chapter 7, R117 to R122). -/

namespace Sys2Proof.Machine

/-! ### Drop evaluation (R146, R147) -/

/-- How many positions a pattern holds. -/
def popCount (p : Pattern) : Nat := ((List.range 8).filter fun i => p.getLsbD i).length

/-- The needles a segment contributes to the lost needles of its lane (R146). -/
def State.lostIn (s : State) (g : Fin 16) : Nat :=
  if s.head.segments[g].state = .lost then 8 else popCount s.thread.faultMask[g]

/-- The segment is below the segment count and the lane map gives it this lane. -/
def State.servesLane (s : State) (l : Fin 8) (g : Fin 16) : Bool :=
  decide (g.val < s.head.segmentCount ∧ s.composer.laneMap[g] = some l)

/-- The lost needles of a lane (R146). -/
def State.lostNeedles (s : State) (l : Fin 8) : Nat :=
  (((List.finRange 16).filter (s.servesLane l)).map s.lostIn).sum

/-- A drop evaluation of a lane (R147). -/
def dropEvaluation (l : Fin 8) (s : State) : State :=
  if 0 < s.thread.dropLimit[l] ∧ s.thread.dropLimit[l] ≤ s.lostNeedles l then dropStop l s else s

/-- The drop evaluation of a segment's lane, when the lane map gives it one (R132, R141). -/
def evaluateSegment (g : Fin 16) (s : State) : State :=
  match s.composer.laneMap[g] with
  | some l => dropEvaluation l s
  | none => s

/-! ### Defect records (R139 to R142) -/

/-- The panel fields of a record formed now: present when the line program has role ACTIVE (R140). -/
def State.panelPlace (s : State) : Option PanelPlace :=
  match s.line.program with
  | some { role := .active, panel := p } =>
    some { tag := p.tag, serial := s.line.serial, position := s.line.position }
  | some { role := .incoming, panel := _ } => none
  | none => none

/-- The lane fields of a record formed now for a segment (R140). -/
def State.lanePlace (s : State) (g : Fin 16) : Option LanePlace :=
  match s.composer.laneMap[g] with
  | some l =>
    if (s.lane l).state.placed then
      some { lane := l, motif := (s.lane l).motif, index := (s.lane l).recordIndex }
    else none
  | none => none

/-- A record formed now (R139, R140). -/
def State.defectNow (s : State) (kind : DefectKind) (g : Fin 16) : Defect :=
  { kind := kind, segment := g, lanePlace := s.lanePlace g, panelPlace := s.panelPlace }

/-- The panel serial of a record, or its absence. -/
def Defect.serial (d : Defect) : Option Serial := d.panelPlace.map PanelPlace.serial

/-- Two records match: same kind, same needle or segment, same panel serial, absent matching absent (R142). -/
def Defect.matches (d e : Defect) : Bool :=
  decide (d.kind = e.kind) && decide (d.segment = e.segment) && decide (d.serial = e.serial)

/-- A record offered to the defect list (R142). -/
def offerDefect (d : Defect) (s : State) : State :=
  if s.thread.defects.any d.matches then s
  else if s.thread.defects.length < Config.defectCapacity then
    { s with thread.defects := s.thread.defects ++ [d] }
  else s.latch .defectOverflow

/-! ### Needles (R129 to R136) -/

/-- The pattern of one position. -/
def bitOf (p : Fin 8) : Pattern := 1#8 <<< p.val

/-- A needle's presence set. -/
def setPresence (g : Fin 16) (p : Fin 8) (v : Presence) (s : State) : State :=
  { s with thread.presence := s.thread.presence.set g (s.thread.presence[g].set p v) }

/-- A needle joins the fault mask (R132, R133). -/
def joinFault (g : Fin 16) (p : Fin 8) (s : State) : State :=
  { s with thread.faultMask := s.thread.faultMask.set g (s.thread.faultMask[g] ||| bitOf p) }

/-- A needle joins the rethread set (R134). -/
def joinRethread (g : Fin 16) (p : Fin 8) (s : State) : State :=
  { s with thread.rethread := s.thread.rethread.set g (s.thread.rethread[g] ||| bitOf p) }

/-- A needle leaves the rethread set (R134). -/
def leaveRethread (g : Fin 16) (p : Fin 8) (s : State) : State :=
  { s with thread.rethread := s.thread.rethread.set g (s.thread.rethread[g] &&& ~~~bitOf p) }

/-- A needle leaves the fault mask and the rethread set together (R136). -/
def releaseNeedle (g : Fin 16) (p : Fin 8) (s : State) : State :=
  { s with
    thread.faultMask := s.thread.faultMask.set g (s.thread.faultMask[g] &&& ~~~bitOf p)
    thread.rethread := s.thread.rethread.set g (s.thread.rethread[g] &&& ~~~bitOf p) }

/-- The release at a panel start: each needle in both sets leaves both (R135). -/
def releaseRethreaded (s : State) : State :=
  { s with
    thread.faultMask := tabulate fun g => s.thread.faultMask[g] &&& ~~~s.thread.rethread[g]
    thread.rethread := tabulate fun g => s.thread.rethread[g] &&& ~~~s.thread.faultMask[g] }

/-- A thread break: the needle is masked, the break counted, its BREAK record offered, its lane evaluated (R132). -/
def threadBreak (g : Fin 16) (p : Fin 8) (s : State) : State :=
  let masked := joinFault g p s
  let counted := { masked with thread.totalBreaks := saturate masked.thread.totalBreaks }
  evaluateSegment g (offerDefect (counted.defectNow (.threadBreak p) g) counted)

/-- The judgement of one position at a return notice (R130, R131, R134). -/
def judgePosition (g : Fin 16) (reported : Pattern) (s : State) (p : Fin 8) : State :=
  if s.composer.operatorMask[g].getLsbD p then setPresence g p .unknown s
  else
    let inFault := s.thread.faultMask[g].getLsbD p
    match s.thread.presence[g][p], reported.getLsbD p with
    | .unknown, true => setPresence g p .present s
    | .unknown, false => setPresence g p .absent s
    | .present, true => s
    | .present, false =>
      if inFault then leaveRethread g p (setPresence g p .absent s)
      else threadBreak g p (setPresence g p .absent s)
    | .absent, false => s
    | .absent, true =>
      if inFault then joinRethread g p (setPresence g p .present s) else setPresence g p .present s

/-- The bobbin-low bit of a notice taken (R138). -/
def takeBobbin (g : Fin 16) (low : Bool) (s : State) : State :=
  let t := { s with thread.bobbinLow := s.thread.bobbinLow.set g low }
  if low && !s.thread.bobbinLow[g] then t.latch .bobbinLow else t

/-- A return notice: positions 0 to 7 judged in order, then the bobbin-low bit (R121, R130, R138). -/
def returnNotice (g : Fin 16) (reported : Pattern) (low : Bool) (s : State) : State :=
  takeBobbin g low ((List.finRange 8).foldl (judgePosition g reported) s)

/-- A restore or inclusion notice: presence of the segment's needles UNKNOWN, bobbin-low clear (R129, R138). -/
def includeNotice (g : Fin 16) (s : State) : State :=
  { s with
    thread.presence := s.thread.presence.set g (Vector.replicate 8 .unknown)
    thread.bobbinLow := s.thread.bobbinLow.set g false }

/-- A loss notice: a LOSS record offered, then the segment's lane evaluated (R120, R141). -/
def lossNotice (g : Fin 16) (s : State) : State :=
  evaluateSegment g (offerDefect (s.defectNow .loss g) s)

/-! ### Segment states (R119) -/

/-- A segment's state and count set, SEGMENT_CHANGE set when the state changes (R119, R181). -/
def setSegment (g : Fin 16) (x : Segment) (s : State) : State :=
  let t := { s with head.segments := s.head.segments.set g x }
  if x.state = s.head.segments[g].state then t else t.latch .segmentChange

/-- A bad return of a segment (R119, R120). -/
def badReturn (g : Fin 16) (s : State) : State :=
  match s.head.segments[g].state with
  | .online => setSegment g { state := .suspect, badReturns := 1 } s
  | .suspect =>
    if s.head.segments[g].badReturns < 2 then setSegment g { state := .suspect, badReturns := 2 } s
    else lossNotice g (setSegment g { state := .lost, badReturns := 3 } s)
  | .lost => s
  | .off => s

/-- A good return of an ONLINE or SUSPECT segment (R119). -/
def goodReturn (g : Fin 16) (s : State) : State := setSegment g { state := .online, badReturns := 0 } s

/-- A slot judged for a segment (R117, R121). -/
def judgeSlot (g : Fin 16) (x : Slot) (s : State) : State :=
  if s.head.segments[g].state.answering then
    if x.goodReturn g then returnNotice g x.present x.bobbinLow (goodReturn g s) else badReturn g s
  else s

/-- A position of a closing window: it counts a bad return when it was not received (R118). -/
def closePosition (received : List Bool) (s : State) (g : Fin 16) : State :=
  match received[g.val]? with
  | some false => badReturn g s
  | some true => s
  | none => s

/-- The end of a return window: every missing return is counted (R116, R118), in ascending segment order. R118 and R141
give no order among the missing returns of one window; it fixes the order of the LOSS records, and which of them a full
list refuses (DESIGN CHOICE, unsafe, log entry 26). The transmitter is FREE until what ended the window takes it. -/
def endWindow (s : State) : State :=
  match s.head.tx with
  | .window received => (List.finRange 16).foldl (closePosition received) { s with head.tx := .free }
  | .free | .sending _ | .loop _ => s

end Sys2Proof.Machine
end

