-- ==== Sys2Proof/Machine/HeadFrames.lean ====
section
/-! DEFINITION. The Needle Composer's words and the Head Link Port's frames (R104 to R116, R123 to R125). -/

namespace Sys2Proof.Machine

/-- The three kinds of frame (R91). -/
inductive FrameKind where
  | composed
  | repeated
  | park
deriving DecidableEq, Repr

/-- The kind of frame of an index served now (R91). -/
def State.frameKind (s : State) : FrameKind :=
  match s.line.state with
  | .running => if s.strokes.queue.isEmpty then .repeated else .composed
  | .idle | .changeover | .halted _ _ | .looptest => .park

/-- The needles of a segment that may be engaged now: not in the fault mask, not operator-masked, the segment ONLINE or
SUSPECT, the line RUNNING (R108). -/
def State.mayEngage (s : State) (g : Fin 16) : Pattern :=
  if s.head.segments[g].state.answering && decide (s.line.state = .running) then
    ~~~s.thread.faultMask[g] &&& ~~~s.composer.operatorMask[g]
  else 0

/-- A PARK word (R107, R111). -/
def parkWord (lateral : Lateral) (tension : BitVec 4) : SegWord :=
  { lateral := lateral, engage := 0, tension := tension, lock := false, park := true }

/-- The word a lane output gives a segment (R107): KEEP is the last lateral, the pattern is filtered by R108. -/
def State.wordOfOutput (s : State) (g : Fin 16) (o : LaneOutput) : SegWord :=
  { lateral := o.lateral.getD s.composer.lastLateral[g], engage := o.engage &&& s.mayEngage g, tension := o.tension,
    lock := o.lock, park := o.park }

/-- The word of a segment in a composed frame (R107). A lane that gives no output parks its segments at their last
lateral with tension 0, as the VACANT row says. -/
def State.composedWord (s : State) (g : Fin 16) : SegWord :=
  match s.composer.laneMap[g] with
  | none => parkWord 0 0
  | some l =>
    match laneOutput s.store (s.lane l) with
    | some o => s.wordOfOutput g o
    | none => parkWord s.composer.lastLateral[g] 0

/-- The previous word of a segment; one without is treated as PARK at its last lateral, no needle engaged (R113), with
the tension 0 and LOCK clear of a PARK word (R111; DEDUCED, log entry 13). -/
def State.previousWord (s : State) (g : Fin 16) : SegWord :=
  s.composer.previousWords[g].getD (parkWord s.composer.lastLateral[g] 0)

/-- The word of a segment in a repeated frame (R112). -/
def State.repeatedWord (s : State) (g : Fin 16) : SegWord :=
  match s.composer.laneMap[g] with
  | none => parkWord 0 0
  | some l =>
    match (s.lane l).state with
    | .sewing => { s.previousWord g with engage := (s.previousWord g).engage &&& s.mayEngage g }
    | .vacant | .standby | .held | .finished | .stopped _ => s.composedWord g

/-- The word of a segment in a PARK frame (R111). -/
def State.parkedWord (s : State) (g : Fin 16) : SegWord :=
  match s.composer.laneMap[g] with
  | none => parkWord 0 0
  | some _ => parkWord s.composer.lastLateral[g] 0

/-- The word of a segment in a frame of a kind (R107, R111, R112). -/
def State.wordFor (kind : FrameKind) (s : State) (g : Fin 16) : SegWord :=
  match kind with
  | .composed => s.composedWord g
  | .repeated => s.repeatedWord g
  | .park => s.parkedWord g

/-- The configured segments, 0 to N − 1 (R105). -/
def State.configured (s : State) : List (Fin 16) :=
  (List.finRange 16).filter fun g => decide (g.val < s.head.segmentCount)

/-- The lanes after the taking of their outputs: only a composed frame takes them (R52, R54). -/
def lanesTaken (kind : FrameKind) (s : State) : Vector LaneContext 8 :=
  match kind with
  | .composed => tabulate fun l => takeOutput s.store s.engine.lanes[l]
  | .repeated | .park => s.engine.lanes

/-- Steps 2 to 4 of a served index (R114): the frame serial rises, the words of the configured segments are formed, the
transmitter enters SENDING. Forming sets last laterals (R109) and previous words (R113). -/
def formFrame (kind : FrameKind) (s : State) : State :=
  { s with
    head.frameSerial := s.head.frameSerial + 1
    head.tx := .sending
      { serial := s.head.frameSerial + 1, parkAll := decide (s.line.state ≠ .running),
        words := s.configured.map (s.wordFor kind) }
    composer.lastLateral := tabulate fun g =>
      if g.val < s.head.segmentCount then (s.wordFor kind g).lateral else s.composer.lastLateral[g]
    composer.previousWords := tabulate fun g =>
      if g.val < s.head.segmentCount then some (s.wordFor kind g) else none
    engine.lanes := lanesTaken kind s }

/-- HLDIR is outbound: only while slots are sent (R114, R124). -/
def State.hldirOutbound (s : State) : Bool :=
  match s.head.tx with
  | .sending _ => true
  | .free | .window _ | .loop _ => false

/-- The outbound-complete event (R114, R116). -/
def outboundComplete (s : State) : State :=
  match s.head.tx with
  | .sending frame => { s with head.tx := .window (List.replicate frame.words.length false) }
  | .free | .window _ | .loop _ => s

/-- The arrival of a complete return slot in a position (R116, R117). A slot with no open window, beyond the frame's
segments, or in a position already received is discarded (R116, R165). -/
def returnArrives (position : Nat) (x : Slot) (s : State) : State :=
  match s.head.tx, finOf 16 position with
  | .window received, some g =>
    match received[position]? with
    | some false => judgeSlot g x { s with head.tx := .window (received.set position true) }
    | some true => s
    | none => s
  | .window _, none => s
  | .free, _ => s
  | .sending _, _ => s
  | .loop _, _ => s

/-- The expiry of a return window (R116, R118): the transmitter is FREE, or in LOOP when a test has claimed it
(R123). -/
def windowExpires (s : State) : State :=
  match s.head.tx with
  | .window _ =>
    let t := endWindow s
    if t.head.claim then { t with head.tx := .loop none } else t
  | .free | .sending _ | .loop _ => s

/-- A looped frame of N slots, none checked yet (R124). -/
def State.loopedFrame (s : State) : HeadTx := .loop (some { count := s.head.segmentCount, passed := [] })

/-- The looped frame begins when the test has the transmitter (R123, R124). -/
def beginLoopedFrame (s : State) : State :=
  match s.head.tx with
  | .loop none => { s with head.tx := s.loopedFrame }
  | .free => if s.head.claim then { s with head.tx := s.loopedFrame } else s
  | .sending _ | .window _ | .loop (some _) => s

/-- The two bytes of a number, least significant first (R160). -/
def le16 (n : Nat) : List Byte := [BitVec.ofNat 8 n, BitVec.ofNat 8 (n / 256)]

/-- The loop-test completion (R85, R125, R173): the transmitter is FREE, the line IDLE, the reservation filled by the
LOOP_TEST's answer with the pass mask, and the LOOP_TEST leaves the command queue. -/
def completeLoopTest (passed : List Bool) (s : State) : State :=
  let t := { s with head.tx := .free, head.claim := false, line.state := .idle, mgmt.reserved := false }
  match s.mgmt.commands with
  | c :: _ => answerFront c { result := .done, data := le16 (bitsToNat passed) } t
  | [] => t

/-- The next looped test slot received and checked; the last completes the test (R124, R125). -/
def testSlotArrives (x : Slot) (s : State) : State :=
  match s.head.tx with
  | .loop (some test) =>
    let passed := test.passed ++ [x.testPass test.passed.length]
    if passed.length < test.count then
      { s with head.tx := .loop (some { count := test.count, passed := passed }) }
    else completeLoopTest passed s
  | .loop none => s
  | .free | .sending _ | .window _ => s

end Sys2Proof.Machine
end

