-- ==== Sys2Proof/Machine/Line.lean ====
section
/-! DEFINITION. The Line Sequencer: panel start, boundaries, changeover (chapter 4), and the shaft index that drives it
(chapter 5). -/

namespace Sys2Proof.Machine

/-- The panel of the line program. -/
def State.linePanel (s : State) : Option PanelProgram := s.line.program.map LineProgram.panel

/-- The panel start event for a program, with the position the event supplies (R69, R43, R135, R147). -/
def panelStart (p : PanelProgram) (position : Nat) (s : State) : State :=
  let counted := { s with line.serial := s.line.serial + 1, line.position := position }
  let released := releaseRethreaded (startLanes p counted)
  (List.finRange 8).foldl (fun t l => dropEvaluation l t) released

/-- A changeover's completion with a leftover (R75 steps 2 to 5, R76 without its further boundary): the incoming program
becomes ACTIVE, the panel starts at the leftover, the leftover is walked. -/
def completeChangeover (p : PanelProgram) (leftover : Nat) (s : State) : State :=
  walkLanes leftover
    (panelStart p leftover
      { s with line.seam := 0, line.program := some { role := .active, panel := p }, line.state := .running })

/-- The end of the run at a boundary: the outgoing panel retired, its lanes VACANT, the line IDLE (R40, R73). -/
def endRun (outgoing : PanelProgram) (s : State) : State :=
  { s with
    line.position := 0
    line.state := .idle
    line.program := none
    engine.lanes := markLanes outgoing .vacant s.engine.lanes
    store.directory := releaseAll outgoing s.store.directory }

/-- The program a boundary chooses to follow the outgoing one, none when the run ends (R73). -/
def State.nextPanel (s : State) (outgoing : PanelProgram) : Option PanelProgram :=
  match s.stager.pendingPanel with
  | some q => some q
  | none => if outgoing.repeats then some outgoing else none

/-- A changeover opened by a boundary: the outgoing panel retired unless it is repeated, the incoming program taken, its
lanes STANDBY, the seam set to what the excess has left of the gap (R40, R73, R74). -/
def openChangeover (outgoing incoming : PanelProgram) (seam : Nat) (s : State) : State :=
  { s with
    line.position := 0
    line.state := .changeover
    line.seam := seam
    line.program := some { role := .incoming, panel := incoming }
    engine.lanes := markLanes incoming .standby (markLanes outgoing .vacant s.engine.lanes)
    stager.pendingPanel := none
    store.directory :=
      if s.stager.pendingPanel.isSome then releaseAll outgoing s.store.directory else s.store.directory }

/-- A boundary of the outgoing panel with an excess, and the boundaries that follow within the same event (R73 to R76).
The first argument bounds the chain: each further boundary spends at least one feed unit, a panel length being at least
1, so excess + 1 is enough (log entry 16). -/
def boundary : Nat → Nat → PanelProgram → State → State
  | 0, _, _, s => s
  | fuel + 1, excess, outgoing, s =>
    match s.nextPanel outgoing with
    | none => endRun outgoing s
    | some incoming =>
      let opened := openChangeover outgoing incoming (outgoing.seamGap - excess) s
      if excess < outgoing.seamGap then opened
      else
        let leftover := excess - outgoing.seamGap
        let started := completeChangeover incoming leftover opened
        if leftover < incoming.length then started
        else boundary fuel (leftover - incoming.length) incoming started

/-- The position after a feed has been applied to the active panel: a boundary when it reaches the length (R72). -/
def advance (p : PanelProgram) (position : Nat) (s : State) : State :=
  if position < p.length then { s with line.position := position }
  else boundary (position - p.length + 1) (position - p.length) p s

/-- The feed of a stroke consumed in RUNNING (R72). -/
def feedRunning (feed : Nat) (s : State) : State :=
  match s.linePanel with
  | some p => advance p (s.line.position + feed) (walkLanes feed s)
  | none => s

/-- The feed of a stroke consumed in CHANGEOVER (R75, R76). -/
def feedChangeover (feed : Nat) (s : State) : State :=
  match s.linePanel with
  | some p =>
    if feed < s.line.seam then { s with line.seam := s.line.seam - feed }
    else
      let leftover := feed - s.line.seam
      advance p leftover (completeChangeover p leftover s)
  | none => s

/-- What a served index does with a stroke: the state after it, the serial consumed, and whether it was a dwell. -/
structure StrokeOutcome where
  state  : State
  serial : Option Serial
  dwell  : Bool

/-- The feed of a consumed stroke, delivered by the line state the index finds (R72, R75, R92). -/
def deliverFeed (feed : Nat) (s : State) : State :=
  match s.line.state with
  | .running => feedRunning feed s
  | .changeover => feedChangeover feed s
  | .idle | .halted _ _ | .looptest => s

/-- A stroke consumed (R92). -/
def consumeStroke (x : Stroke) (rest : List Stroke) (s : State) : State :=
  deliverFeed x.feed.toNat { s with strokes.queue := rest, strokes.consecutive := 0 }

/-- A dwell stroke (R93 to R95): both counts rise, UNDERRUN_SEEN is set, and the line halts when the consecutive count
reaches the limit. -/
def dwellStroke (s : State) : State :=
  let counted :=
    { s with strokes.consecutive := s.strokes.consecutive + 1, strokes.total := saturate s.strokes.total }.latch
      .underrunSeen
  if counted.strokes.consecutive < counted.strokes.limit then counted else haltLine .underrun counted

/-- The stroke of a served index (R92, R93, R97). -/
def applyStroke (s : State) : StrokeOutcome :=
  match s.line.state with
  | .running | .changeover =>
    match s.strokes.queue with
    | x :: rest => { state := consumeStroke x rest s, serial := some x.serial, dwell := false }
    | [] => { state := dwellStroke s, serial := none, dwell := true }
  | .idle | .halted _ _ | .looptest => { state := s, serial := none, dwell := false }

/-- The place field: seam remaining while a seam is fed, panel position while a panel is sewn, 0 in IDLE (R99). -/
def State.place (s : State) : Nat :=
  if s.line.state.feedsSeam then s.line.seam else if s.line.state.sewsPanel then s.line.position else 0

/-- The REPORT composed now (R98 to R100); REPORT_SKIPPED is judged at its placement (R101). -/
def State.reportNow (s : State) (serial : Option Serial) (dwell : Bool) : Report :=
  { frameSerial := s.head.frameSerial
    strokeSerial := serial
    lineState := s.line.state
    panelSerial := s.line.serial
    place := s.place
    freeCount := Config.commandCapacity - s.mgmt.commands.length
    dwell := dwell
    attn := s.attn
    skipped := false
    markers := s.engine.markers.take Config.reportMarkers }

/-- The REPORT of an index composed and placed: up to 8 markers leave the queue (R59, R98, R101). -/
def composeReport (x : StrokeOutcome) : State :=
  placeReport (x.state.reportNow x.serial x.dwell)
    { x.state with engine.markers := x.state.engine.markers.drop Config.reportMarkers }

/-- A served shaft index (R91, R114, R92, R98): the open window ends, the frame is formed, the stroke is applied, the
REPORT is composed. -/
def serveIndex (s : State) : State :=
  let closed := endWindow s
  composeReport (applyStroke (formFrame closed.frameKind closed))

/-- What becomes of a shaft index (R90). -/
inductive IndexFate where
  | served
  | waits
  | early
deriving DecidableEq, Repr

/-- A shaft index meets the transmitter (R90, R123). An index that finds another still waiting is early, also between a
test's completion and the service of the waiting one (DEDUCED, log entry 8). -/
def State.indexFate (s : State) : IndexFate :=
  match s.head.tx with
  | .sending _ => .early
  | .free | .window _ | .loop _ => if s.head.waiting then .early else if s.head.claim then .waits else .served

/-- A rising edge on SHX (R90). -/
def takeIndex (s : State) : State :=
  match s.indexFate with
  | .served => serveIndex s
  | .waits => { s with head.waiting := true }
  | .early => s.latch .shaftEarly

/-- The shaft index that waited through a loop test is served once the test has completed (R85, R97). -/
def serveWaited (s : State) : State :=
  if s.indexDue && !s.hldirOutbound then serveIndex { s with head.waiting := false } else s

end Sys2Proof.Machine
end

