-- ==== Sys2Proof/Machine/Receiver.lean ====
section
/-! DEFINITION. The receiver and the break detector of the Stroke Link Port (R149 to R157). -/

namespace Sys2Proof.Machine

/-- A cell discarded: LINK_ERROR set, the link error count raised, the receiver as the reason gives (R153, R154). -/
def discardCell (next : Receiver) (s : State) : State :=
  { s with link.receiver := next, link.errorCount := saturate s.link.errorCount }.latch .linkError

/-- A cell whose check matches has arrived: the receiver is READY, and the payload is handed at that moment to the queue
of its kind (R152, R155). A COMMAND has at least its two header bytes, its length being judged before (R152). -/
def cellArrives (kind : CellKind) (payload : List Byte) (s : State) : State :=
  let t := { s with link.receiver := .ready }
  match kind with
  | .stroke => strokeArrives payload t
  | .command => commandArrives { tag := payload.getD 0 0, code := payload.getD 1 0, args := payload.drop 2 } t

/-- A length byte is good for a kind: at most 32, and at least 2 for a COMMAND (R152). -/
def lengthGood (kind : CellKind) (n : Nat) : Bool :=
  match kind with
  | .stroke => decide (n ≤ Config.maxPayload)
  | .command => decide (2 ≤ n ∧ n ≤ Config.maxPayload)

/-- A good byte as the kind byte of a new cell (R152, R161). -/
def kindByte (d : Byte) (s : State) : State :=
  if d = 0x53 then
    { s with link.receiver := .inCell { kind := .stroke, length := none, payload := [], check := crcByte 0xFF d } }
  else if d = 0x43 then
    { s with link.receiver := .inCell { kind := .command, length := none, payload := [], check := crcByte 0xFF d } }
  else discardCell .waitGap s

/-- A good byte inside a cell: its length, a payload byte, or its check (R152). -/
def bodyByte (d : Byte) (cell : PartCell) (s : State) : State :=
  match cell.length with
  | none =>
    if lengthGood cell.kind d.toNat then
      { s with link.receiver := .inCell { cell with length := some d.toNat, check := crcByte cell.check d } }
    else discardCell .waitGap s
  | some n =>
    if cell.payload.length < n then
      { s with link.receiver :=
          .inCell { cell with payload := cell.payload ++ [d], check := crcByte cell.check d } }
    else if d = cell.check then cellArrives cell.kind cell.payload s
    else discardCell .waitGap s

/-- A good byte by the receiver's state (R152). -/
def goodByte (d : Byte) (s : State) : State :=
  match s.link.receiver with
  | .ready => kindByte d s
  | .inCell cell => bodyByte d cell s
  | .waitGap => s
  | .inBreak => s

/-- A framing error by the receiver's state: it discards the cell it belongs to, or counts as a cell of its own in
READY (R152, R153). -/
def framingError (s : State) : State :=
  match s.link.receiver with
  | .ready => discardCell .waitGap s
  | .inCell _ => discardCell .waitGap s
  | .waitGap => s
  | .inBreak => s

/-- A byte received (R149, R152). An all-space byte awaits judgement (R156). While one awaits, or in break, the line is at
space and no byte can be received (log entry 2). -/
def byteArrives (d : Byte) (stopAtMark : Bool) (s : State) : State :=
  if s.link.heldSpace || s.link.breakState then s
  else if stopAtMark then goodByte d s
  else if d = 0 then { s with link.heldSpace := true }
  else framingError s

/-- A cell gap (R149, R152); it cannot occur while the line is at space (log entry 2). -/
def gapPasses (s : State) : State :=
  if s.link.heldSpace || s.link.breakState then s
  else
    match s.link.receiver with
    | .ready => s
    | .inCell _ => discardCell .ready s
    | .waitGap => { s with link.receiver := .ready }
    | .inBreak => s

/-- SLI returns to mark before 2 ms of space: an all-space byte awaiting judgement is a framing error (R156). -/
def markReturns (s : State) : State :=
  if s.link.heldSpace && !s.link.breakState then framingError { s with link.heldSpace := false } else s

/-- A break begins (R156): a cell being assembled is dropped uncounted, and a RUNNING or CHANGEOVER line halts with cause
BREAK (R77). -/
def breakBegins (s : State) : State :=
  haltLine .linkBreak { s with link.breakState := true, link.receiver := .inBreak, link.heldSpace := false }

/-- A break ends (R157). -/
def breakEnds (s : State) : State :=
  if s.link.breakState then { s with link.breakState := false, link.receiver := .waitGap } else s

/-- The gap after a return cell has passed: the transmitter becomes free and the arbiter chooses at once (R158). -/
def transmitterFrees (s : State) : State := arbitrate { s with link.tx := none }

end Sys2Proof.Machine
end

