-- ==== Sys2Proof/Machine/Formats.lean ====
section
/-! DEFINITION. The layouts the part sends: cells, REPORT and ANSWER payloads, head-link slots, answer data
(R150, R160 to R167, R185 to R191). -/

namespace Sys2Proof.Machine

/-- A byte holding a number. -/
def byteOf (n : Nat) : Byte := BitVec.ofNat 8 n

/-- A lateral in a two-byte field: bits 11:0, bits 15:12 repeating bit 11 (section 9.9). -/
def lateral16 (x : Lateral) : List Byte := le16 (x.signExtend 16).toNat

/-- A record index, loop index or the like that may be absent, sent as 0 when absent (R160). -/
def orZero (x : Option Nat) : Nat := x.getD 0

/-! ### Return cells (R150, R161 to R163, R167) -/

/-- The REPORT payload: 12 bytes and two for each marker (R163). -/
def Report.payload (r : Report) : List Byte :=
  le16 r.frameSerial.toNat ++ le16 (r.strokeSerial.getD 0).toNat ++ [r.lineState.statusByte] ++
    le16 r.panelSerial.toNat ++ le16 r.place ++ [byteOf r.freeCount] ++
    [byteOf (bitsToNat [r.dwell, r.attn, r.skipped, r.strokeSerial.isSome])] ++ [byteOf r.markers.length] ++
    r.markers.flatMap fun m => [byteOf m.lane, m.code.setWidth 8]

/-- The ANSWER payload: tag, code, result, data (R162). -/
def Answer.payload (a : Answer) : List Byte := [a.tag, a.code, a.reply.result.code] ++ a.reply.data

/-- A cell's bytes: kind, length, payload, check (R150, R151). -/
def cellBytes (kind : Byte) (payload : List Byte) : List Byte :=
  let body := kind :: byteOf payload.length :: payload
  body ++ [crc8 body]

/-- The bytes a return cell puts on SLO (R158, R161). -/
def ReturnCell.bytes : ReturnCell → List Byte
  | .report r => cellBytes 0x52 r.payload
  | .answer a => cellBytes 0x41 a.payload

/-! ### Head-link slots (R166) -/

/-- Bytes followed by their check (R166). -/
def withCheck (bytes : List Byte) : List Byte := bytes ++ [crc8 bytes]

/-- The header slot of a frame (R166). -/
def Frame.header (f : Frame) : List Byte := withCheck (le16 f.serial.toNat ++ [byteOf f.parkAll.toNat])

/-- The outbound slot of a segment (R166). -/
def SegWord.slot (segment : Nat) (w : SegWord) : List Byte :=
  withCheck ([byteOf (segment + 16 * w.lock.toNat + 32 * w.park.toNat)] ++ le16 (w.tension ++ w.lateral).toNat ++
    [w.engage])

/-- The bytes of outbound slots from a segment on. -/
def slotsFrom : Nat → List SegWord → List Byte
  | _, [] => []
  | k, w :: ws => w.slot k ++ slotsFrom (k + 1) ws

/-- The bytes a frame puts on HLO: the header slot, then segments 0, 1, … (R114, R165). -/
def Frame.bytes (f : Frame) : List Byte := f.header ++ slotsFrom 0 f.words

/-- A looped test slot as the part sends it (R124, R166). -/
def testSlotBytes (segment : Nat) : List Byte :=
  withCheck [byteOf (segment + 16 * (segment % 2)), if segment % 2 = 0 then 0x55 else 0xAA]

/-! ### Answer data (R187 to R191) -/

/-- The 13 bytes of a defect record (R191). -/
def Defect.bytes (d : Defect) : List Byte :=
  let needle :=
    match d.kind with
    | .threadBreak p => some (8 * d.segment.val + p.val)
    | .loss => none
  [byteOf (bitsToNat [decide (d.kind = .loss), needle.isSome, d.lanePlace.isSome, d.panelPlace.isSome]),
   byteOf d.segment, byteOf (orZero needle)] ++
    (match d.lanePlace with
     | some p => [byteOf p.lane, byteOf p.motif] ++ le16 p.index
     | none => [0, 0, 0, 0]) ++
    (match d.panelPlace with
     | some p => le16 p.tag.toNat ++ le16 p.serial.toNat ++ le16 p.position
     | none => [0, 0, 0, 0, 0, 0])

/-- The data of READ DEFECTS: the count and the oldest record, all 0 when there is none (R191). -/
def defectsData (defects : List Defect) : List Byte :=
  byteOf defects.length ::
    match defects with
    | d :: _ => d.bytes
    | [] => List.replicate 13 0

/-- The three counts (R191). -/
def State.countsData (s : State) : List Byte :=
  le16 s.link.errorCount ++ le16 s.strokes.total ++ le16 s.thread.totalBreaks

/-- READ LINE, 11 bytes (R86, R188). -/
def State.lineData (s : State) : List Byte :=
  [s.line.state.statusByte,
   byteOf (s.link.breakState.toNat + 2 * roleCode (s.line.program.map LineProgram.role))] ++
    le16 s.line.serial.toNat ++ le16 ((s.linePanel.map PanelProgram.tag).getD 0).toNat ++ le16 s.line.position ++
    le16 s.line.seam ++ [byteOf s.strokes.consecutive]

/-- READ LANE, 14 bytes (R64, R188). -/
def LaneContext.data (c : LaneContext) : List Byte :=
  [byteOf (c.state.code + 8 * c.state.causeCode + 32 * c.lockOdd.toNat + 64 * c.loopAllowed.toNat), byteOf c.motif,
   byteOf c.scale.byte] ++ le16 c.recordIndex ++ lateral16 c.fromLateral ++ le16 c.leftInStep ++
    lateral16 c.currentLateral ++ [byteOf c.tension.toNat, byteOf c.loopPasses, c.engage]

/-- The byte of a lane map entry: 0 to 7, or 8 for none (R185). -/
def laneCode (x : Option (Fin 8)) : Nat :=
  match x with
  | some l => l.val
  | none => 8

/-- The state READ SEGMENT returns: a segment at or above N is OFF (R105, R126). -/
def State.segmentData (s : State) (g : Fin 16) : List Byte :=
  let presence := s.thread.presence[g].toList
  [byteOf (s.head.segments[g].state.code + 4 * s.head.segments[g].badReturns + 16 * s.thread.bobbinLow[g].toNat),
   byteOf (laneCode s.composer.laneMap[g])] ++ lateral16 s.composer.lastLateral[g] ++
    [s.composer.operatorMask[g], byteOf (bitsToNat (presence.map fun v => decide (v ≠ .unknown))),
     byteOf (bitsToNat (presence.map fun v => decide (v = .present))), s.thread.faultMask[g], s.thread.rethread[g]]

/-- READ MOTIF, 8 bytes (R18, R189). -/
def DirEntry.data (e : DirEntry) : List Byte :=
  [byteOf (bitsToNat [e.defined, e.loopIndex.isSome]), byteOf e.firstPage, byteOf e.pageCount] ++ le16 e.length ++
    le16 (orZero e.loopIndex) ++ [byteOf e.inUse]

/-- READ RECORD, 9 bytes; fields the kind does not hold are 0 (R19, R189). -/
def Record.data : Record → List Byte
  | .endRecord => [0, 0, 0, 0, 0, 0, 0, 0, 0]
  | .move target span engage tension =>
    [byteOf (1 + 8 * tension.isSome.toNat)] ++ lateral16 target ++ le16 span ++
      [engage, byteOf (tension.getD 0).toNat, 0, 0]
  | .jump target span => [2] ++ lateral16 target ++ le16 span ++ [0, 0, 0, 0]
  | .lock target span engage width => [3] ++ lateral16 target ++ le16 span ++ [engage, 0, width, 0]
  | .mark code => [4, 0, 0, 0, 0, 0, 0, 0, code.setWidth 8]

/-- READ PANEL of a header, 8 bytes (R35, R190). -/
def PanelProgram.headerData (p : PanelProgram) (role : Option Role) : List Byte :=
  [byteOf (roleCode role + 4 * p.repeats.toNat)] ++ le16 p.tag.toNat ++ le16 p.length ++ le16 p.seamGap ++
    [byteOf p.assignments.length]

/-- READ PANEL of an entry, 7 bytes (R36, R190). -/
def Assignment.data (a : Assignment) : List Byte :=
  [byteOf a.lane, byteOf a.motif, byteOf a.scale.byte] ++ le16 a.startOffset ++
    [byteOf a.loopAllowed.toNat, byteOf a.tension.toNat]

/-- The code of a packing order (R177). -/
def PackingOrder.code : PackingOrder → Nat
  | .highFirst => 0
  | .lowFirst => 1

/-- The lane map in pairs of segments, the even one in bits 3:0 (R190). -/
def laneMapData : List (Option (Fin 8)) → List Byte
  | a :: b :: rest => byteOf (laneCode a + 16 * laneCode b) :: laneMapData rest
  | [a] => [byteOf (laneCode a)]
  | [] => []

/-- READ CONFIG part 0, 19 bytes (R190). -/
def State.configData0 (s : State) : List Byte :=
  [byteOf s.head.segmentCount, byteOf s.strokes.limit, byteOf s.store.packing.code] ++
    laneMapData s.composer.laneMap.toList ++ s.thread.dropLimit.toList.map byteOf

/-- READ CONFIG part 1, 16 bytes (R190). -/
def State.configData1 (s : State) : List Byte := s.composer.operatorMask.toList

/-- READ ASSEMBLER, 9 bytes (R20, R190). -/
def Store.assemblerData (st : Store) : List Byte :=
  match st.assembler with
  | none => [byteOf (2 * st.packing.code), 0, 0, 0, 0, 0, 0, 0, 0]
  | some x =>
    [byteOf (1 + 2 * st.packing.code), byteOf x.motif] ++ le16 x.index ++ [byteOf (1 + x.fragment1.isSome.toNat)] ++
      le16 x.fragment0.toNat ++ le16 (x.fragment1.getD 0).toNat

end Sys2Proof.Machine
end

