-- ==== Sys2Proof/Machine/Events.lean ====
section
/-! DEFINITION. The meanings of the sixteen events. An event offered in a state in which it cannot occur leaves the
state as it is (DESIGN CHOICE, safe, log entry 2), but for a whole cell, which is handed on in any receiver state
(DESIGN CHOICE, safe, log entry 25). -/

namespace Sys2Proof.Machine

/-- What every meaning answers. -/
abbrev Out := Host.Outcome State Fault Refusal

/-- POWER_ON_RESET: every block takes its power-on values; the model's queue of waiting events is not the part's and is
kept (R5, R32, R39, R83, R103, R127, R148, R152, R157, R159, R184; log entry 17). -/
def execPowerOnReset (s : State) : Out := .next { State.reset with pending := s.pending }

/-- SHAFT_INDEX (R90 to R101, R114, R118). -/
def execShaftIndex (s : State) : Out := .next (takeIndex s)

/-- WAITED_SHAFT_INDEX (R85, R97). -/
def execWaitedShaftIndex (s : State) : Out := .next (serveWaited s)

/-- OUTBOUND_COMPLETE (R114, R116). -/
def execOutboundComplete (s : State) : Out := .next (outboundComplete s)

/-- RETURN_SLOT (R117 to R121, R130 to R142). -/
def execReturnSlot (position : Nat) (slot : Slot) (s : State) : Out := .next (returnArrives position slot s)

/-- RETURN_WINDOW_EXPIRY (R116, R118, R123). -/
def execReturnWindowExpiry (s : State) : Out := .next (windowExpires s)

/-- LOOPED_FRAME_BEGIN (R123, R124). -/
def execLoopedFrameBegin (s : State) : Out := .next (beginLoopedFrame s)

/-- TEST_SLOT (R85, R124, R125, R173). -/
def execTestSlot (slot : Slot) (s : State) : Out := .next (testSlotArrives slot s)

/-- RECEIVED_BYTE (R149 to R155). -/
def execReceivedByte (data : Byte) (stopAtMark : Bool) (s : State) : Out := .next (byteArrives data stopAtMark s)

/-- CELL_GAP (R149, R152, R153). -/
def execCellGap (s : State) : Out := .next (gapPasses s)

/-- STROKE_CELL: the arrival of an intact cell, told whole (R88, R155; log entry 6). It is handed on whatever the
receiver's state, in BREAK too (DESIGN CHOICE, safe, log entry 25). -/
def execStrokeCell (payload : List Byte) (s : State) : Out := .next (strokeArrives payload s)

/-- COMMAND_CELL: the arrival of an intact cell, told whole (R155, R171; log entry 6). It is handed on whatever the
receiver's state, in BREAK too (DESIGN CHOICE, safe, log entry 25). -/
def execCommandCell (command : Command) (s : State) : Out := .next (commandArrives command s)

/-- BREAK_BEGIN (R77, R78, R156). -/
def execBreakBegin (s : State) : Out := .next (breakBegins s)

/-- BREAK_END (R81, R157). -/
def execBreakEnd (s : State) : Out := .next (breakEnds s)

/-- RETURN_TO_MARK (R149, R156). -/
def execReturnToMark (s : State) : Out := .next (markReturns s)

/-- TRANSMITTER_FREE (R102, R158, R159). -/
def execTransmitterFree (s : State) : Out := .next (transmitterFrees s)

end Sys2Proof.Machine
end

