-- ==== Sys2Proof/Machine/MotifCommands.lean ====
section
/-! DEFINITION. UNKNOWN_COMMAND and the commands of the Motif Store (chapter 1). -/

namespace Sys2Proof.Machine

/-- UNKNOWN_COMMAND: answered UNKNOWN, nothing changed (R169). -/
def execUnknownCommand (s : State) : Out :=
  .next (executeFront Command.isUnknown (fun _ t => reply .unknown t) s)

/-- The partial record is discarded when its target is this motif (R9, R10). -/
def discardFor (m : Fin 64) (assembler : Option Assembly) : Option Assembly :=
  match assembler with
  | some x => if x.motif = m then none else some x
  | none => none

/-- Checks 1 to 4 of R8 on a DEFINE_MOTIF's numbers but the motif: each failure is RANGE. -/
def defineInRange (first count length : Nat) (loop : Option Nat) : Bool :=
  decide (first ≤ 127 ∧ 1 ≤ count ∧ count ≤ 128 ∧ 1 ≤ length ∧ first + count ≤ 128 ∧ length ≤ count * 64) &&
    loop.all fun i => decide (i ≤ 8191 ∧ i < length)

/-- Check 5 of R8 fails: a page of the range is owned by a defined motif other than the one named. -/
def overlapsOther (m : Fin 64) (first count : Nat) (d : Vector DirEntry 64) : Bool :=
  (List.finRange 64).any fun k =>
    decide (k ≠ m) && d[k].defined && decide (first < d[k].firstPage + d[k].pageCount) &&
      decide (d[k].firstPage < first + count)

/-- An accepted DEFINE_MOTIF (R9). -/
def defineMotif (m : Fin 64) (first count length : Nat) (loop : Option Nat) (st : Store) : Store :=
  { st with
    directory := st.directory.set m
      { defined := true, firstPage := first, pageCount := count, length := length, loopIndex := loop, inUse := 0 }
    records := st.records.fillEnd (first * 64) length
    assembler := discardFor m st.assembler }

/-- The loop index argument, absent when bit 0 of the flags is clear (R186). -/
def loopArgument (args : List Byte) : Option Nat :=
  if (args.getD 5 0).getLsbD 0 then some (argWord args 6) else none

/-- DEFINE_MOTIF judged by R8. -/
def judgeDefine (motif first count length : Nat) (loop : Option Nat) (s : State) : Effect :=
  match finOf 64 motif with
  | none => reply .range s
  | some m =>
    if !defineInRange first count length loop then reply .range s
    else if overlapsOther m first count s.store.directory then reply .overlap s
    else if s.store.directory[m].defined && decide (0 < s.store.directory[m].inUse) then reply .inUse s
    else reply .done { s with store := defineMotif m first count length loop s.store }

/-- DEFINE_MOTIF (R8, R9). -/
def execDefineMotif (s : State) : Out :=
  .next (executeFront (Command.hasCode 0x01)
    (fun args t => withLength 8 args
      (judgeDefine (argByte args 0) (argByte args 1) (argByte args 2) (argWord args 3) (loopArgument args) t) t) s)

/-- An accepted UNDEFINE_MOTIF (R10). -/
def undefineMotif (m : Fin 64) (st : Store) : Store :=
  { st with directory := st.directory.set m DirEntry.blank, assembler := discardFor m st.assembler }

/-- UNDEFINE_MOTIF judged by R10. -/
def judgeUndefine (motif : Nat) (s : State) : Effect :=
  match finOf 64 motif with
  | none => reply .range s
  | some m =>
    if !s.store.directory[m].defined then reply .notDefined s
    else if 0 < s.store.directory[m].inUse then reply .inUse s
    else reply .done { s with store := undefineMotif m s.store }

/-- UNDEFINE_MOTIF (R10). -/
def execUndefineMotif (s : State) : Out :=
  .next (executeFront (Command.hasCode 0x02)
    (fun args t => withLength 1 args (judgeUndefine (argByte args 0) t) t) s)

/-- The checks of R13 on a LOAD_PART, in order: the motif it targets, or the result that refuses it. -/
def partTarget (args : List Byte) (st : Store) : Except Result (Fin 64) :=
  match finOf 64 (argByte args 0) with
  | none => .error .range
  | some m =>
    if 8191 < argWord args 1 || 2 < argByte args 3 then .error .range
    else if !st.directory[m].defined then .error .notDefined
    else if st.directory[m].length ≤ argWord args 1 then .error .range
    else if 0 < st.directory[m].inUse then .error .inUse
    else .ok m

/-- The 16 data bits of a LOAD_PART (R186). -/
def partData (args : List Byte) : BitVec 16 := BitVec.ofNat 16 (argWord args 4)

/-- A LOAD_PART refused by its own rule: the partial is discarded (R11, R13, R15, R16). -/
def refusePart (r : Result) (s : State) : Effect := reply r { s with store.assembler := none }

/-- Fragment 0 (R14). -/
def loadFragment0 (args : List Byte) (s : State) : Effect :=
  match partTarget args s.store with
  | .error r => refusePart r s
  | .ok m =>
    replyWith .partHeld [1]
      { s with
        store.assembler :=
          some { motif := m, index := argWord args 1, fragment0 := partData args, fragment1 := none } }

/-- Fragment 1 (R15). -/
def loadFragment1 (args : List Byte) (s : State) : Effect :=
  match partTarget args s.store with
  | .error r => refusePart r s
  | .ok m =>
    match s.store.assembler with
    | some { motif := k, index := i, fragment0 := f0, fragment1 := none } =>
      if k = m ∧ i = argWord args 1 then
        replyWith .partHeld [2]
          { s with
            store.assembler :=
              some { motif := k, index := i, fragment0 := f0, fragment1 := some (partData args) } }
      else refusePart .sequence s
    | some { motif := _, index := _, fragment0 := _, fragment1 := some _ } => refusePart .sequence s
    | none => refusePart .sequence s

/-- Fragment 2 (R15, R16): the record is joined, checked and written. -/
def loadFragment2 (args : List Byte) (s : State) : Effect :=
  match partTarget args s.store with
  | .error r => refusePart r s
  | .ok m =>
    match s.store.assembler with
    | some { motif := k, index := i, fragment0 := f0, fragment1 := some f1 } =>
      if k = m ∧ i = argWord args 1 then
        let w := joinFragments s.store.packing f0 f1 (partData args)
        if validWord w then
          reply .done
            { s with
              store.records := s.store.records.write (s.store.place m i) w
              store.assembler := none }
        else refusePart .range s
      else refusePart .sequence s
    | some { motif := _, index := _, fragment0 := _, fragment1 := none } => refusePart .sequence s
    | none => refusePart .sequence s

/-- LOAD_PART_FRAGMENT_0 (R13, R14). Wrong argument length changes nothing (R169; DEDUCED, log entry 12). -/
def execLoadPartFragment0 (s : State) : Out :=
  .next (executeFront (Command.isPart 0) (fun args t => withLength 6 args (loadFragment0 args t) t) s)

/-- LOAD_PART_FRAGMENT_1 (R13, R15). -/
def execLoadPartFragment1 (s : State) : Out :=
  .next (executeFront (Command.isPart 1) (fun args t => withLength 6 args (loadFragment1 args t) t) s)

/-- LOAD_PART_FRAGMENT_2 (R13, R15, R16). -/
def execLoadPartFragment2 (s : State) : Out :=
  .next (executeFront (Command.isPart 2) (fun args t => withLength 6 args (loadFragment2 args t) t) s)

/-- LOAD_FLUSH judged by R17. -/
def judgeFlush (s : State) : Effect :=
  match s.store.assembler with
  | some _ => reply .done { s with store.assembler := none }
  | none => reply .empty s

/-- LOAD_FLUSH (R17). -/
def execLoadFlush (s : State) : Out :=
  .next (executeFront (Command.hasCode 0x04) (fun args t => withLength 0 args (judgeFlush t) t) s)

end Sys2Proof.Machine
end

