-- ==== Sys2Proof/Machine/PanelCommands.lean ====
section
/-! DEFINITION. The staging commands (chapter 2). -/

namespace Sys2Proof.Machine

/-- PANEL_BEGIN judged by R24. -/
def judgeBegin (tag : Serial) (length seamGap : Nat) (repeats : Option Bool) (s : State) : Effect :=
  match repeats with
  | none => reply .range s
  | some r =>
    if length = 0 || 4095 < seamGap then reply .range s
    else
      reply .done
        { s with
          stager.staging :=
            some { tag := tag, length := length, seamGap := seamGap, repeats := r, assignments := [] } }

/-- PANEL_BEGIN (R24). -/
def execPanelBegin (s : State) : Out :=
  .next (executeFront (Command.hasCode 0x10)
    (fun args t => withLength 7 args
      (judgeBegin (BitVec.ofNat 16 (argWord args 0)) (argWord args 2) (argWord args 4) (yesNo (argByte args 6)) t) t) s)

/-- The assignment of a PANEL_LANE, none when a field lies outside its values (R22, R25). -/
def assignmentArgument (args : List Byte) : Option Assignment :=
  match finOf 8 (argByte args 0), finOf 64 (argByte args 1), scaleOf (argByte args 2), yesNo (argByte args 5) with
  | some l, some m, some x, some loop =>
    if argByte args 6 ≤ 15 then
      some { lane := l, motif := m, scale := x, startOffset := argWord args 3, loopAllowed := loop,
             tension := BitVec.ofNat 4 (argByte args 6) }
    else none
  | _, _, _, _ => none

/-- PANEL_LANE judged by R25. -/
def judgeLane (a : Option Assignment) (s : State) : Effect :=
  match s.stager.staging with
  | none => reply .sequence s
  | some p =>
    match a with
    | none => reply .range s
    | some a =>
      if p.assignments.length < Config.maxAssignments then
        reply .done { s with stager.staging := some { p with assignments := p.assignments ++ [a] } }
      else reply .range s

/-- PANEL_LANE (R25). -/
def execPanelLane (s : State) : Out :=
  .next (executeFront (Command.hasCode 0x11)
    (fun args t => withLength 7 args (judgeLane (assignmentArgument args) t) t) s)

/-- Why a commit is refused INVALID (R27). -/
inductive InvalidReason where
  | undefinedMotif
  | unmappedLane
  | duplicateLane
  | noAssignments
deriving DecidableEq, Repr

/-- The code of a commit refusal reason (R185). -/
def InvalidReason.code : InvalidReason → Byte
  | .undefinedMotif => 1
  | .unmappedLane => 2
  | .duplicateLane => 3
  | .noAssignments => 4

/-- The first check of R27 an assignment fails, given the assignments before it. -/
def assignmentFailure (s : State) (earlier : List Assignment) (a : Assignment) : Option InvalidReason :=
  if !s.store.directory[a.motif].defined then some .undefinedMotif
  else if !(List.finRange 16).any (s.servesLane a.lane) then some .unmappedLane
  else if earlier.any fun b => decide (b.lane = a.lane) then some .duplicateLane
  else none

/-- The first failing entry of the assignments still to be judged, with its number and reason (R27). -/
def firstFailure (s : State) : List Assignment → List Assignment → Option (Nat × InvalidReason)
  | _, [] => none
  | earlier, a :: rest =>
    match assignmentFailure s earlier a with
    | some reason => some (earlier.length, reason)
    | none => firstFailure s (earlier ++ [a]) rest

/-- Validation of a program (R27): the reason and entry number that refuse it. -/
def validationFailure (s : State) (p : PanelProgram) : Option (InvalidReason × Nat) :=
  if p.assignments.isEmpty then some (.noAssignments, 0)
  else (firstFailure s [] p.assignments).map fun f => (f.2, f.1)

/-- A valid program becomes the pending panel: the releases of a replaced panel, then the gains of the new one
(R28). -/
def commitPanel (p : PanelProgram) (s : State) : State :=
  { s with
    stager.staging := none
    stager.pendingPanel := some p
    store.directory := gainAll p (releaseOption s.stager.pendingPanel s.store.directory) }

/-- PANEL_COMMIT judged by R26 to R28. -/
def judgeCommit (s : State) : Effect :=
  match s.stager.staging with
  | none => reply .sequence s
  | some p =>
    if s.line.state.feedsSeam then reply .late s
    else
      match validationFailure s p with
      | some (reason, entry) =>
        replyWith .invalid [reason.code, byteOf entry] { s with stager.staging := none }
      | none =>
        match s.stager.pendingPanel with
        | some old => replyWith .replaced (le16 old.tag.toNat) (commitPanel p s)
        | none => reply .done (commitPanel p s)

/-- PANEL_COMMIT (R26 to R28). -/
def execPanelCommit (s : State) : Out :=
  .next (executeFront (Command.hasCode 0x12) (fun args t => withLength 0 args (judgeCommit t) t) s)

/-- PANEL_DISCARD judged by R31. -/
def judgeDiscard (s : State) : Effect :=
  match s.stager.pendingPanel with
  | some p =>
    reply .done
      { s with stager.pendingPanel := none, store.directory := releaseAll p s.store.directory }
  | none => reply .empty s

/-- PANEL_DISCARD (R31). -/
def execPanelDiscard (s : State) : Out :=
  .next (executeFront (Command.hasCode 0x13) (fun args t => withLength 0 args (judgeDiscard t) t) s)

end Sys2Proof.Machine
end

