-- ==== Sys2Proof/Machine/LineCommands.lean ====
section
/-! DEFINITION. The line commands (chapter 4). -/

namespace Sys2Proof.Machine

/-- An accepted RUN: the pending panel becomes ACTIVE and starts at position 0 (R68, R69). -/
def startRun (p : PanelProgram) (s : State) : State :=
  panelStart p 0
    { s with
      stager.pendingPanel := none
      line.program := some { role := .active, panel := p }
      line.seam := 0
      line.state := .running }

/-- RUN judged by R68. An accepted RUN takes the line out of IDLE, where a shaft index that waited through a loop test is
to be served (R85, R97, R125): one still due is served first, within the execution (DEDUCED, log entry 8). -/
def judgeRun (s : State) : Effect :=
  if s.link.breakState then reply .breakActive s
  else if s.line.state ≠ .idle then reply .wrongState s
  else
    match s.stager.pendingPanel with
    | none => reply .noPanel s
    | some p =>
      let t := startRun p (serveWaited s)
      replyWith .done (le16 t.line.serial.toNat ++ le16 p.tag.toNat) t

/-- RUN (R68). -/
def execRun (s : State) : Out :=
  .next (executeFront (Command.hasCode 0x20) (fun args t => withLength 0 args (judgeRun t) t) s)

/-- HALT judged by R79. -/
def judgeHalt (s : State) : Effect :=
  match s.line.state with
  | .running | .changeover =>
    let t := haltLine .command s
    replyWith .done [t.line.state.statusByte] t
  | .idle | .halted _ _ | .looptest => reply .wrongState s

/-- HALT (R79). -/
def execHalt (s : State) : Out :=
  .next (executeFront (Command.hasCode 0x21) (fun args t => withLength 0 args (judgeHalt t) t) s)

/-- RESUME judged by R80. -/
def judgeResume (s : State) : Effect :=
  match s.line.state with
  | .halted _ r =>
    if s.link.breakState then reply .breakActive s
    else replyWith .done [r.lineState.statusByte] { s with line.state := r.lineState }
  | .idle | .running | .changeover | .looptest => reply .wrongState s

/-- RESUME (R80). -/
def execResume (s : State) : Out :=
  .next (executeFront (Command.hasCode 0x22) (fun args t => withLength 0 args (judgeResume t) t) s)

/-- LINE_RESET's effect on every block (R5, R11, R32, R39, R58, R82, R89, R94, R102, R103, R127, R148, R184). -/
def resetLine (s : State) : State :=
  { s with
    store.directory := releaseOption s.linePanel (releaseOption s.stager.pendingPanel s.store.directory)
    store.assembler := none
    stager.staging := none
    stager.pendingPanel := none
    engine.lanes := Vector.replicate 8 LaneContext.blank
    engine.markers := []
    line.state := .idle
    line.program := none
    line.position := 0
    line.seam := 0
    strokes.queue := []
    strokes.consecutive := 0
    strokes.slot := none }

/-- LINE_RESET (R82). -/
def execLineReset (s : State) : Out :=
  .next (executeFront (Command.hasCode 0x23) (fun args t => withLength 0 args (reply .done (resetLine t)) t) s)

/-- An accepted LOOP_TEST: LOOPTEST, stroke queue emptied, transmitter claimed, answer place reserved; with the
transmitter FREE the looped frame begins at once (R84, R89, R123, R173). -/
def startLoopTest (s : State) : State :=
  beginLoopedFrame
    { s with line.state := .looptest, strokes.queue := [], head.claim := true, mgmt.reserved := true }

/-- LOOP_TEST judged by R84: no answer is given at an accepted execution, and the command stays at the front (R173). A
shaft index still due from an earlier test is served first, as at a RUN (DEDUCED, log entry 8). -/
def judgeLoopTest (s : State) : Effect :=
  if s.line.state = .idle then (startLoopTest (serveWaited s), none) else reply .wrongState s

/-- LOOP_TEST (R84). -/
def execLoopTest (s : State) : Out :=
  .next (executeFront (Command.hasCode 0x24) (fun args t => withLength 0 args (judgeLoopTest t) t) s)

end Sys2Proof.Machine
end

