-- ==== Sys2Proof/Machine/LaneCommands.lean ====
section
/-! DEFINITION. The lane commands (chapter 3), SEGMENT_RESTORE (chapter 6), NEEDLE_RELEASE and TAKE_DEFECT (chapter 7),
CLEAR_COUNTS (chapter 9). -/

namespace Sys2Proof.Machine

/-- An accepted lane command answers the lane's new state (R60, R187). -/
def replyLane (l : Fin 8) (s : State) : Effect := replyWith .done [byteOf (s.lane l).state.code] s

/-- LANE_HOLD judged by R60 and R61. -/
def judgeHold (lane : Nat) (s : State) : Effect :=
  match finOf 8 lane with
  | none => reply .range s
  | some l =>
    if (s.lane l).state = .sewing then replyLane l (s.setLane l { s.lane l with state := .held })
    else reply .wrongState s

/-- LANE_HOLD (R61). -/
def execLaneHold (s : State) : Out :=
  .next (executeFront (Command.hasCode 0x30) (fun args t => withLength 1 args (judgeHold (argByte args 0) t) t) s)

/-- LANE_RELEASE judged by R60 and R62. -/
def judgeRelease (lane : Nat) (s : State) : Effect :=
  match finOf 8 lane with
  | none => reply .range s
  | some l =>
    if (s.lane l).state = .held then replyLane l (s.setLane l { s.lane l with state := .sewing })
    else reply .wrongState s

/-- LANE_RELEASE (R62). -/
def execLaneRelease (s : State) : Out :=
  .next (executeFront (Command.hasCode 0x31) (fun args t => withLength 1 args (judgeRelease (argByte args 0) t) t) s)

/-- The states LANE_STOP accepts (R63). -/
def LaneState.stoppable : LaneState → Bool
  | .sewing | .held | .finished => true
  | .vacant | .standby | .stopped _ => false

/-- LANE_STOP judged by R60 and R63. -/
def judgeStop (lane : Nat) (s : State) : Effect :=
  match finOf 8 lane with
  | none => reply .range s
  | some l =>
    if (s.lane l).state.stoppable then replyLane l (stopLane .command l s) else reply .wrongState s

/-- LANE_STOP (R63). -/
def execLaneStop (s : State) : Out :=
  .next (executeFront (Command.hasCode 0x32) (fun args t => withLength 1 args (judgeStop (argByte args 0) t) t) s)

/-- A segment restored: ONLINE with count 0, presence unknown (R122). -/
def restoreSegment (g : Fin 16) (s : State) : State :=
  includeNotice g (setSegment g { state := .online, badReturns := 0 } s)

/-- SEGMENT_RESTORE judged by R122. -/
def judgeRestore (segment : Nat) (s : State) : Effect :=
  match finOf 16 segment with
  | none => reply .range s
  | some g =>
    if g.val < s.head.segmentCount then
      replyWith .done [byteOf s.head.segments[g].state.code] (restoreSegment g s)
    else reply .range s

/-- SEGMENT_RESTORE (R122). -/
def execSegmentRestore (s : State) : Out :=
  .next (executeFront (Command.hasCode 0x40) (fun args t => withLength 1 args (judgeRestore (argByte args 0) t) t) s)

/-- NEEDLE_RELEASE judged by R136: needle n is position n mod 8 of segment n / 8. -/
def judgeNeedle (needle : Nat) (s : State) : Effect :=
  match finOf 16 (needle / 8), finOf 8 (needle % 8) with
  | some g, some p =>
    if s.line.state = .idle || s.line.state.isHalted then
      replyWith .done
        [byteOf (bitsToNat [s.thread.faultMask[g].getLsbD p, s.thread.rethread[g].getLsbD p])] (releaseNeedle g p s)
    else reply .wrongState s
  | none, _ => reply .range s
  | some _, none => reply .range s

/-- NEEDLE_RELEASE (R136). -/
def execNeedleRelease (s : State) : Out :=
  .next (executeFront (Command.hasCode 0x50) (fun args t => withLength 1 args (judgeNeedle (argByte args 0) t) t) s)

/-- TAKE_DEFECT judged by R143. -/
def judgeTake (s : State) : Effect :=
  match s.thread.defects with
  | d :: rest => replyWith .done d.bytes { s with thread.defects := rest }
  | [] => reply .empty s

/-- TAKE_DEFECT (R143). -/
def execTakeDefect (s : State) : Out :=
  .next (executeFront (Command.hasCode 0x51) (fun args t => withLength 0 args (judgeTake t) t) s)

/-- CLEAR_COUNTS judged by R183: the three counts returned and set to 0. -/
def judgeClear (s : State) : Effect :=
  replyWith .done s.countsData
    { s with link.errorCount := 0, strokes.total := 0, thread.totalBreaks := 0 }

/-- CLEAR_COUNTS (R183). -/
def execClearCounts (s : State) : Out :=
  .next (executeFront (Command.hasCode 0x62) (fun args t => withLength 0 args (judgeClear t) t) s)

end Sys2Proof.Machine
end

