-- ==== Sys2Proof/Machine/SetCommands.lean ====
section
/-! DEFINITION. The SET items (R177, R178). -/

namespace Sys2Proof.Machine

/-- A lane map argument: a lane 0 to 7, or 8 for none; else out of range (R185). -/
def laneArgument (b : Nat) : Option (Option (Fin 8)) :=
  if b = 8 then some none else (finOf 8 b).map some

/-- SET lane map entry (R104): range, then IDLE alone. -/
def judgeLaneMap (segment lane : Nat) (s : State) : Effect :=
  match finOf 16 segment, laneArgument lane with
  | some g, some entry =>
    if s.line.state = .idle then reply .done { s with composer.laneMap := s.composer.laneMap.set g entry }
    else reply .wrongState s
  | none, _ => reply .range s
  | some _, none => reply .range s

/-- SET_LANE_MAP_ENTRY (R104, R177). -/
def execSetLaneMapEntry (s : State) : Out :=
  .next (executeFront (Command.isSet 1)
    (fun args t => withItem 1 2 args (judgeLaneMap (argByte args 1) (argByte args 2) t) t) s)

/-- A segment's state and count under a new N: OFF at or above it, ONLINE with count 0 if it was OFF below it, else as
it was (R105). -/
def Segment.under (n : Nat) (g : Fin 16) (x : Segment) : Segment :=
  if g.val < n then (if x.state = .off then { state := .online, badReturns := 0 } else x)
  else if x.state = .off then x else { state := .off, badReturns := 0 }

/-- The segment is included by a new N: OFF before, below N now (R105). -/
def Segment.includedBy (n : Nat) (g : Fin 16) (x : Segment) : Bool := decide (g.val < n ∧ x.state = .off)

/-- A segment count taken (R105): segments made OFF or included, presence unknown and bobbin-low clear for the included
ones (R129, R138), SEGMENT_CHANGE when any changed. -/
def takeSegmentCount (n : Nat) (s : State) : State :=
  let t :=
    { s with
      head.segmentCount := n
      head.segments := tabulate fun g => s.head.segments[g].under n g
      thread.presence := tabulate fun g =>
        if s.head.segments[g].includedBy n g then Vector.replicate 8 .unknown else s.thread.presence[g]
      thread.bobbinLow := tabulate fun g =>
        if s.head.segments[g].includedBy n g then false else s.thread.bobbinLow[g] }
  if (List.finRange 16).any fun g => decide ((s.head.segments[g].under n g).state ≠ s.head.segments[g].state) then
    t.latch .segmentChange
  else t

/-- SET segment count (R105): range, then IDLE alone. -/
def judgeCount (n : Nat) (s : State) : Effect :=
  if n < 1 || 16 < n then reply .range s
  else if s.line.state = .idle then reply .done (takeSegmentCount n s)
  else reply .wrongState s

/-- SET_SEGMENT_COUNT (R105, R177). -/
def execSetSegmentCount (s : State) : Out :=
  .next (executeFront (Command.isSet 2) (fun args t => withItem 2 1 args (judgeCount (argByte args 1) t) t) s)

/-- SET operator mask (R106). -/
def judgeMask (segment : Nat) (mask : Pattern) (s : State) : Effect :=
  match finOf 16 segment with
  | some g => reply .done { s with composer.operatorMask := s.composer.operatorMask.set g mask }
  | none => reply .range s

/-- SET_OPERATOR_MASK (R106, R177). -/
def execSetOperatorMask (s : State) : Out :=
  .next (executeFront (Command.isSet 3)
    (fun args t => withItem 3 2 args (judgeMask (argByte args 1) (args.getD 2 0) t) t) s)

/-- SET drop limit (R145). -/
def judgeDropLimit (lane limit : Nat) (s : State) : Effect :=
  match finOf 8 lane with
  | some l =>
    if limit ≤ 128 then reply .done { s with thread.dropLimit := s.thread.dropLimit.set l limit } else reply .range s
  | none => reply .range s

/-- SET_DROP_LIMIT (R145, R177). -/
def execSetDropLimit (s : State) : Out :=
  .next (executeFront (Command.isSet 4)
    (fun args t => withItem 4 2 args (judgeDropLimit (argByte args 1) (argByte args 2) t) t) s)

/-- SET underrun limit (R96): the consecutive count becomes 0 when the new limit does not exceed it. -/
def judgeUnderrun (limit : Nat) (s : State) : Effect :=
  if limit < 1 || 15 < limit then reply .range s
  else
    reply .done
      { s with
        strokes.limit := limit
        strokes.consecutive := if limit ≤ s.strokes.consecutive then 0 else s.strokes.consecutive }

/-- SET_UNDERRUN_LIMIT (R96, R177). -/
def execSetUnderrunLimit (s : State) : Out :=
  .next (executeFront (Command.isSet 5) (fun args t => withItem 5 1 args (judgeUnderrun (argByte args 1) t) t) s)

/-- A packing order byte (R177). -/
def packingOf (b : Nat) : Option PackingOrder :=
  if b = 0 then some .highFirst else if b = 1 then some .lowFirst else none

/-- SET packing order (R12): a change of order discards the partial. -/
def judgePacking (order : Option PackingOrder) (s : State) : Effect :=
  match order with
  | none => reply .range s
  | some o =>
    if o = s.store.packing then reply .done s
    else reply .done { s with store.packing := o, store.assembler := none }

/-- SET_PACKING_ORDER (R12, R177). -/
def execSetPackingOrder (s : State) : Out :=
  .next (executeFront (Command.isSet 6)
    (fun args t => withItem 6 1 args (judgePacking (packingOf (argByte args 1)) t) t) s)

end Sys2Proof.Machine
end

