-- ==== Sys2Proof/Machine/ReadCommands.lean ====
section
/-! DEFINITION. The READ items (R179, R180). A READ changes no state, but READ ATTENTION, which clears the latches it
returns (R182). -/

namespace Sys2Proof.Machine

/-- READ_LINE (R86, R188). -/
def execReadLine (s : State) : Out :=
  .next (executeFront (Command.isRead 1) (fun args t => withItem 1 0 args (replyWith .done t.lineData t) t) s)

/-- READ LANE (R64). -/
def judgeReadLane (lane : Nat) (s : State) : Effect :=
  match finOf 8 lane with
  | some l => replyWith .done (s.lane l).data s
  | none => reply .range s

/-- READ_LANE (R64, R188). -/
def execReadLane (s : State) : Out :=
  .next (executeFront (Command.isRead 2) (fun args t => withItem 2 1 args (judgeReadLane (argByte args 1) t) t) s)

/-- READ SEGMENT (R126). -/
def judgeReadSegment (segment : Nat) (s : State) : Effect :=
  match finOf 16 segment with
  | some g => replyWith .done (s.segmentData g) s
  | none => reply .range s

/-- READ_SEGMENT (R126, R189). -/
def execReadSegment (s : State) : Out :=
  .next (executeFront (Command.isRead 3) (fun args t => withItem 3 1 args (judgeReadSegment (argByte args 1) t) t) s)

/-- READ MOTIF (R18). -/
def judgeReadMotif (motif : Nat) (s : State) : Effect :=
  match finOf 64 motif with
  | some m => replyWith .done s.store.directory[m].data s
  | none => reply .range s

/-- READ_MOTIF (R18, R189). -/
def execReadMotif (s : State) : Out :=
  .next (executeFront (Command.isRead 4) (fun args t => withItem 4 1 args (judgeReadMotif (argByte args 1) t) t) s)

/-- READ RECORD (R19). -/
def judgeReadRecord (motif index : Nat) (s : State) : Effect :=
  match finOf 64 motif with
  | none => reply .range s
  | some m =>
    if 8191 < index then reply .range s
    else if !s.store.directory[m].defined then reply .notDefined s
    else if s.store.directory[m].length ≤ index then reply .range s
    else replyWith .done (s.store.recordAt m index).data s

/-- READ_RECORD (R19, R189). -/
def execReadRecord (s : State) : Out :=
  .next (executeFront (Command.isRead 5)
    (fun args t => withItem 5 3 args (judgeReadRecord (argByte args 1) (argWord args 2) t) t) s)

/-- What READ PANEL returns of a program, by entry number or its absence (R35, R36). -/
def readProgram (role : Option Role) (program : Option PanelProgram) (entry : Option Nat) (s : State) : Effect :=
  match program with
  | none => reply .empty s
  | some p =>
    match entry with
    | none => replyWith .done (p.headerData role) s
    | some e =>
      match p.assignments[e]? with
      | some a => if e ≤ 7 then replyWith .done a.data s else reply .range s
      | none => reply .range s

/-- READ PANEL (R35, R36, R186): bits 1:0 of the selector name the program, bit 7 marks the entry as present. The
selector's other bits carry no field and are ignored (R160; DEDUCED, log entry 22). -/
def judgeReadPanel (selector entry : Byte) (s : State) : Effect :=
  let e := if selector.getLsbD 7 then some entry.toNat else none
  match (selector.extractLsb' 0 2).toNat with
  | 0 => readProgram (s.line.program.map LineProgram.role) s.linePanel e s
  | 1 => readProgram none s.stager.pendingPanel e s
  | 2 => readProgram none s.stager.staging e s
  | _ => reply .range s

/-- READ_PANEL (R35, R36, R190). -/
def execReadPanel (s : State) : Out :=
  .next (executeFront (Command.isRead 6)
    (fun args t => withItem 6 2 args (judgeReadPanel (args.getD 1 0) (args.getD 2 0) t) t) s)

/-- READ_DEFECTS (R144, R191). -/
def execReadDefects (s : State) : Out :=
  .next (executeFront (Command.isRead 7)
    (fun args t => withItem 7 0 args (replyWith .done (defectsData t.thread.defects) t) t) s)

/-- READ_ATTENTION (R182, R191): the nine latches returned and cleared. -/
def execReadAttention (s : State) : Out :=
  .next (executeFront (Command.isRead 8)
    (fun args t => withItem 8 0 args
      (replyWith .done (le16 t.mgmt.latches.word) { t with mgmt.latches := Latches.clear }) t) s)

/-- READ_COUNTS (R183, R191). -/
def execReadCounts (s : State) : Out :=
  .next (executeFront (Command.isRead 9) (fun args t => withItem 9 0 args (replyWith .done t.countsData t) t) s)

/-- READ CONFIG (R180, R190). -/
def judgeReadConfig (part : Nat) (s : State) : Effect :=
  match part with
  | 0 => replyWith .done s.configData0 s
  | 1 => replyWith .done s.configData1 s
  | _ => reply .range s

/-- READ_CONFIG (R180, R190). -/
def execReadConfig (s : State) : Out :=
  .next (executeFront (Command.isRead 10) (fun args t => withItem 10 1 args (judgeReadConfig (argByte args 1) t) t) s)

/-- READ_ASSEMBLER (R20, R190). -/
def execReadAssembler (s : State) : Out :=
  .next (executeFront (Command.isRead 11)
    (fun args t => withItem 11 0 args (replyWith .done t.store.assemblerData t) t) s)

end Sys2Proof.Machine
end

