-- ==== Sys2Proof/Machine/Dispatch.lean ====
section
/-! DEFINITION. The meaning of each command, one arm for each row of spec/opcode_table.json. -/

namespace Sys2Proof.Machine

open Sys2Proof

def exec (i : Instr) (s : State) : Host.Outcome State Fault Refusal :=
  match i with
  | .powerOnReset => Sys2Proof.Machine.execPowerOnReset s
  | .shaftIndex => Sys2Proof.Machine.execShaftIndex s
  | .waitedShaftIndex => Sys2Proof.Machine.execWaitedShaftIndex s
  | .outboundComplete => Sys2Proof.Machine.execOutboundComplete s
  | .returnSlot position slot => Sys2Proof.Machine.execReturnSlot position slot s
  | .returnWindowExpiry => Sys2Proof.Machine.execReturnWindowExpiry s
  | .loopedFrameBegin => Sys2Proof.Machine.execLoopedFrameBegin s
  | .testSlot slot => Sys2Proof.Machine.execTestSlot slot s
  | .receivedByte data stopAtMark => Sys2Proof.Machine.execReceivedByte data stopAtMark s
  | .cellGap => Sys2Proof.Machine.execCellGap s
  | .strokeCell payload => Sys2Proof.Machine.execStrokeCell payload s
  | .commandCell command => Sys2Proof.Machine.execCommandCell command s
  | .breakBegin => Sys2Proof.Machine.execBreakBegin s
  | .breakEnd => Sys2Proof.Machine.execBreakEnd s
  | .returnToMark => Sys2Proof.Machine.execReturnToMark s
  | .transmitterFree => Sys2Proof.Machine.execTransmitterFree s
  | .unknownCommand => Sys2Proof.Machine.execUnknownCommand s
  | .defineMotif => Sys2Proof.Machine.execDefineMotif s
  | .undefineMotif => Sys2Proof.Machine.execUndefineMotif s
  | .loadPartFragment0 => Sys2Proof.Machine.execLoadPartFragment0 s
  | .loadPartFragment1 => Sys2Proof.Machine.execLoadPartFragment1 s
  | .loadPartFragment2 => Sys2Proof.Machine.execLoadPartFragment2 s
  | .loadFlush => Sys2Proof.Machine.execLoadFlush s
  | .panelBegin => Sys2Proof.Machine.execPanelBegin s
  | .panelLane => Sys2Proof.Machine.execPanelLane s
  | .panelCommit => Sys2Proof.Machine.execPanelCommit s
  | .panelDiscard => Sys2Proof.Machine.execPanelDiscard s
  | .run => Sys2Proof.Machine.execRun s
  | .halt => Sys2Proof.Machine.execHalt s
  | .resume => Sys2Proof.Machine.execResume s
  | .lineReset => Sys2Proof.Machine.execLineReset s
  | .loopTest => Sys2Proof.Machine.execLoopTest s
  | .laneHold => Sys2Proof.Machine.execLaneHold s
  | .laneRelease => Sys2Proof.Machine.execLaneRelease s
  | .laneStop => Sys2Proof.Machine.execLaneStop s
  | .segmentRestore => Sys2Proof.Machine.execSegmentRestore s
  | .needleRelease => Sys2Proof.Machine.execNeedleRelease s
  | .takeDefect => Sys2Proof.Machine.execTakeDefect s
  | .clearCounts => Sys2Proof.Machine.execClearCounts s
  | .setLaneMapEntry => Sys2Proof.Machine.execSetLaneMapEntry s
  | .setSegmentCount => Sys2Proof.Machine.execSetSegmentCount s
  | .setOperatorMask => Sys2Proof.Machine.execSetOperatorMask s
  | .setDropLimit => Sys2Proof.Machine.execSetDropLimit s
  | .setUnderrunLimit => Sys2Proof.Machine.execSetUnderrunLimit s
  | .setPackingOrder => Sys2Proof.Machine.execSetPackingOrder s
  | .readLine => Sys2Proof.Machine.execReadLine s
  | .readLane => Sys2Proof.Machine.execReadLane s
  | .readSegment => Sys2Proof.Machine.execReadSegment s
  | .readMotif => Sys2Proof.Machine.execReadMotif s
  | .readRecord => Sys2Proof.Machine.execReadRecord s
  | .readPanel => Sys2Proof.Machine.execReadPanel s
  | .readDefects => Sys2Proof.Machine.execReadDefects s
  | .readAttention => Sys2Proof.Machine.execReadAttention s
  | .readCounts => Sys2Proof.Machine.execReadCounts s
  | .readConfig => Sys2Proof.Machine.execReadConfig s
  | .readAssembler => Sys2Proof.Machine.execReadAssembler s

end Sys2Proof.Machine
end

