-- ==== Sys2Proof/Safety.lean ====
section
/-! DEFINITION. The laws of the block: predicates over State that the manual says hold in every state (section 0.6,
Laws), and the vocabulary of the statements. -/

namespace Sys2Proof.Machine

/-! ### The Motif Store -/

/-- A directory entry has the values of R3. -/
def DirEntry.wf (e : DirEntry) : Prop :=
  if e.defined then
    1 ≤ e.pageCount ∧ e.firstPage + e.pageCount ≤ Config.pages ∧ 1 ≤ e.length ∧
      e.length ≤ e.pageCount * Config.pageRecords ∧ ∀ i ∈ e.loopIndex, i < e.length
  else e = DirEntry.blank

/-- Two entries own no page together (R2). -/
def DirEntry.disjoint (d e : DirEntry) : Prop :=
  d.defined = true → e.defined = true →
    d.firstPage + d.pageCount ≤ e.firstPage ∨ e.firstPage + e.pageCount ≤ d.firstPage

/-- The law of the store: entries as R3 gives them, no page owned twice (R2), the record store in canonical form, every
listed place one of the 8192 (R1) and every record valid (R6). -/
structure StoreLaw (st : Store) : Prop where
  entries  : ∀ m : Fin 64, st.directory[m].wf
  pages    : ∀ m k : Fin 64, m ≠ k → st.directory[m].disjoint st.directory[k]
  form     : st.records.wf = true
  places   : ∀ cell ∈ st.records, cell.1 < Config.storePlaces
  contents : ∀ cell ∈ st.records, validWord cell.2 = true

/-- The assignments of a program that may be absent naming a motif. -/
def namesIn (p : Option PanelProgram) (m : Fin 64) : Nat :=
  match p with
  | none => 0
  | some p => p.names m

/-- The in-use law (R4): each count is the number of assignments naming the motif in the pending panel and in the line
program together. -/
def InUseLaw (s : State) : Prop :=
  ∀ m : Fin 64, s.store.directory[m].inUse = namesIn s.stager.pendingPanel m + namesIn s.linePanel m

/-! ### Panel programs -/

/-- The header and assignment values of R21 and R22 a staged program has. -/
def PanelProgram.stagedWf (p : PanelProgram) : Prop :=
  1 ≤ p.length ∧ p.length ≤ 65535 ∧ p.seamGap ≤ 4095 ∧ p.assignments.length ≤ Config.maxAssignments ∧
    ∀ a ∈ p.assignments, a.startOffset ≤ 65535

/-- A committed program has at least one assignment and names no lane twice (R21, R22, R27). -/
def PanelProgram.wf (p : PanelProgram) : Prop :=
  p.stagedWf ∧ p.assignments ≠ [] ∧ (p.assignments.map Assignment.lane).Nodup

/-- The programs held are as R21, R22 and R29 say. -/
structure ProgramLaw (s : State) : Prop where
  staging : ∀ p ∈ s.stager.staging, p.stagedWf
  waiting : ∀ p ∈ s.stager.pendingPanel, p.wf
  onLine  : ∀ p ∈ s.linePanel, p.wf

/-! ### The line -/

/-- The role of the line program in a line state (R66). -/
def LineState.role : LineState → Option Role
  | .idle => none
  | .running => some .active
  | .changeover => some .incoming
  | .halted _ .running => some .active
  | .halted _ .changeover => some .incoming
  | .looptest => none

/-- The line program assigns the lane. -/
def State.assigned (s : State) (l : Fin 8) : Bool := (s.linePanel.bind fun p => p.assignmentOf l).isSome

/-- The state of a lane fits the line state (R67): while a panel is sewn its lanes are SEWING, HELD, FINISHED or STOPPED;
while a seam is fed they are STANDBY; every other lane is VACANT. -/
def State.laneFits (s : State) (l : Fin 8) : Prop :=
  if s.assigned l && s.line.state.sewsPanel then (s.lane l).state.placed = true
  else if s.assigned l && s.line.state.feedsSeam then (s.lane l).state = .standby
  else (s.lane l).state = .vacant

/-- The law of the line (R29, R66, R67, R71). -/
structure LineLaw (s : State) : Prop where
  role       : s.line.program.map LineProgram.role = s.line.state.role
  noPending  : s.line.state.feedsSeam = true → s.stager.pendingPanel = none
  position   : s.line.state.sewsPanel = true → ∀ p ∈ s.linePanel, s.line.position < p.length
  noPosition : s.line.state.sewsPanel = false → s.line.position = 0
  seam       : s.line.state.feedsSeam = true → 0 < s.line.seam ∧ s.line.seam ≤ 4095
  noSeam     : s.line.state.feedsSeam = false → s.line.seam = 0
  lanes      : ∀ l : Fin 8, s.laneFits l

/-- A SEWING or HELD lane stands on a spanned record of its motif with some of its scaled span left (R37). -/
def LaneContext.standing (st : Store) (c : LaneContext) : Prop :=
  c.state.dropEvaluated = true →
    c.recordIndex < st.directory[c.motif].length ∧
      ∃ x ∈ (st.recordAt c.motif c.recordIndex).spanned, 1 ≤ c.leftInStep ∧ c.leftInStep ≤ x.2.1 * c.scale.factor

/-- A placed lane walks the motif its assignment names (R22, R37, R41). -/
def State.laneMotif (s : State) (l : Fin 8) : Prop :=
  (s.lane l).state.placed = true → ∃ p ∈ s.linePanel, ∃ a ∈ p.assignmentOf l, a.motif = (s.lane l).motif

/-- The law of the lanes (R37). -/
structure LaneLaw (s : State) : Prop where
  motifs   : ∀ l : Fin 8, s.laneMotif l
  standing : ∀ l : Fin 8, (s.lane l).standing s.store
  passes   : ∀ l : Fin 8, (s.lane l).loopPasses ≤ Config.loopPassMax

/-! ### The loop test -/

/-- The head-link transmitter is taken by a looped frame. -/
def HeadTx.inLoop : HeadTx → Bool
  | .loop _ => true
  | .free | .sending _ | .window _ => false

/-- A LOOP_TEST stands at the front of the command queue. -/
def State.testAtFront (s : State) : Bool := (s.mgmt.commands.head?.map Command.code) == some 0x24

/-- The law of the loop test (R84, R85, R90, R105, R123 to R125, R173): a test is in progress exactly in LOOPTEST; it
holds the claim, the reserved place and the front of the command queue; an index that waits waits through a test or for
its service in IDLE. -/
structure LoopLaw (s : State) : Prop where
  reserved : s.mgmt.reserved = decide (s.line.state = .looptest)
  claim    : s.head.claim = decide (s.line.state = .looptest)
  looped   : s.head.tx.inLoop = true → s.line.state = .looptest
  busy     : s.line.state = .looptest → s.head.tx ≠ .free
  front    : s.line.state = .looptest → s.testAtFront = true
  waiting  : s.head.waiting = true → s.line.state = .idle ∨ s.line.state = .looptest
  clear    : s.head.waiting = true → s.hldirOutbound = false
  count    : 1 ≤ s.head.segmentCount ∧ s.head.segmentCount ≤ 16
  slots    : ∀ t, s.head.tx = .loop (some t) → t.passed.length < t.count

/-! ### Queues, counts and links -/

/-- The capacities of the queues (R58, R87, R142, R170), and that strokes are held only where they may be (R87). -/
structure QueueLaw (s : State) : Prop where
  strokes  : s.strokes.queue.length ≤ Config.strokeCapacity
  noStroke : s.line.state.takesStrokes = false → s.strokes.queue = []
  markers  : s.engine.markers.length ≤ Config.markerCapacity
  commands : s.mgmt.commands.length ≤ Config.commandCapacity
  oneRead  : s.mgmt.commands.countP Command.isReadCode ≤ 1
  answers  : s.mgmt.answers.length + s.mgmt.reserved.toNat ≤ Config.answerCapacity
  defects  : s.thread.defects.length ≤ Config.defectCapacity
  distinct : s.thread.defects.Pairwise fun d e => d.matches e = false

/-- The counts keep their bounds (R94 to R96, R137, R154). -/
structure CountLaw (s : State) : Prop where
  limit       : 1 ≤ s.strokes.limit ∧ s.strokes.limit ≤ 15
  consecutive : s.strokes.consecutive < s.strokes.limit
  total       : s.strokes.total ≤ Config.countMax
  errors      : s.link.errorCount ≤ Config.countMax
  breaks      : s.thread.totalBreaks ≤ Config.countMax
  drops       : ∀ l : Fin 8, s.thread.dropLimit[l] ≤ 128

/-- A segment's bad-return count fits its state (R119). -/
def Segment.wf (x : Segment) : Prop :=
  match x.state with
  | .off => x.badReturns = 0
  | .online => x.badReturns = 0
  | .suspect => x.badReturns = 1 ∨ x.badReturns = 2
  | .lost => x.badReturns = 3

/-- The law of the segments (R105, R119). -/
structure SegmentLaw (s : State) : Prop where
  counts : ∀ g : Fin 16, s.head.segments[g].wf
  off    : ∀ g : Fin 16, s.head.segments[g].state = .off ↔ s.head.segmentCount ≤ g.val

/-- Every member of the rethread set is a member of the fault mask (R134). -/
def RethreadLaw (s : State) : Prop := ∀ g : Fin 16, s.thread.rethread[g] &&& ~~~s.thread.faultMask[g] = 0

/-- A cell being assembled is as the receiver's judgements leave it (R152). -/
def PartCell.wf (c : PartCell) : Prop :=
  match c.length with
  | none => c.payload = []
  | some n => lengthGood c.kind n = true ∧ c.payload.length ≤ n

/-- The law of the stroke link (R152, R156 to R158): the receiver is in BREAK exactly in the break state, no all-space byte
awaits judgement then, and a FREE return transmitter has nothing to send. -/
structure LinkLaw (s : State) : Prop where
  inBreak : s.link.receiver = .inBreak ↔ s.link.breakState = true
  held    : s.link.breakState = true → s.link.heldSpace = false
  cell    : ∀ c, s.link.receiver = .inCell c → c.wf
  free    : s.link.tx = none → s.strokes.slot = none ∧ s.mgmt.answers = []

/-! ### Vocabulary of the statements -/

/-- c is the front command, and its execution event can occur (R172). -/
def State.frontReady (s : State) (c : Command) : Prop :=
  s.mgmt.commands.head? = some c ∧ s.canExecute = true

/-- The answer of c joins the answer queue and c leaves the command queue; a FREE transmitter takes the answer at once
(R158, R172). -/
def answered (c : Command) (result : Result) (data : List Byte) (s : State) : State :=
  arbitrate
    { s with
      mgmt.commands := s.mgmt.commands.tail
      mgmt.answers := s.mgmt.answers ++ [{ tag := c.tag, code := c.code, reply := { result := result, data := data } }] }

/-- A cell discarded by the receiver (R153, R154). -/
def discarded (next : Receiver) (s : State) : State :=
  { s with
    link.receiver := next
    link.errorCount := if s.link.errorCount < 65535 then s.link.errorCount + 1 else s.link.errorCount
    mgmt.latches.linkError := true }

/-- A shaft index that arrives now is served at once (R90): no outbound slot is being sent, no test has the
transmitter, and no index waits. -/
def State.serves (s : State) : Prop :=
  s.hldirOutbound = false ∧ s.head.claim = false ∧ s.head.waiting = false

/-- The state in which the frame of an index served from s is formed: no index waits, an open return window has ended
(R90, R114, R116). -/
def State.atService (s : State) : State := endWindow { s with head.waiting := false }

/-- The REPORT of an event from s to t: taken at once by a FREE return transmitter, else placed in the report slot while
the cell on the line stays (R101, R158). -/
def reports (s t : State) (r : Report) : Prop :=
  r.skipped = s.strokes.slot.isSome ∧
    if s.link.tx = none then t.link.tx = some (.report r) ∧ t.strokes.slot = none
    else t.link.tx = s.link.tx ∧ t.strokes.slot = some r

/-- The place field of a REPORT (R99): the seam remaining while a seam is fed, the panel position while a panel is sewn,
0 in IDLE. -/
def placeField (x : Sequencer) : Nat :=
  match x.state with
  | .running => x.position
  | .halted _ .running => x.position
  | .changeover => x.seam
  | .halted _ .changeover => x.seam
  | .idle => 0
  | .looptest => 0

/-- What the REPORT of an index served from s to t tells of the part as the index leaves it (R98 to R100). -/
structure ReportTells (s t : State) (r : Report) : Prop where
  frame : r.frameSerial = s.head.frameSerial + 1
  line  : r.lineState = t.line.state
  panel : r.panelSerial = t.line.serial
  place : r.place = placeField t.line
  free  : r.freeCount = 6 - s.mgmt.commands.length
  attn  : r.attn = true ↔ t.mgmt.latches.any = true ∨ t.thread.defects ≠ []

/-- The word of a PARK frame (R111): parked, no needle engaged, tension 0, LOCK clear. -/
def parked (lateral : Lateral) : SegWord :=
  { lateral := lateral, engage := 0, tension := 0, lock := false, park := true }

/-- A segment after one bad return (R119). -/
def Segment.afterBad (x : Segment) : Segment :=
  match x.state with
  | .online => { state := .suspect, badReturns := 1 }
  | .suspect => if x.badReturns < 2 then { state := .suspect, badReturns := 2 } else { state := .lost, badReturns := 3 }
  | .lost => x
  | .off => x

/-! ### Walks and markers -/

/-- A lane and the marker codes it raises when a feed is applied to the lanes: walked if it is SEWING, else left
(R45). -/
def walkedBy (st : Store) (feed : Nat) (c : LaneContext) : LaneContext × List (BitVec 5) :=
  if c.state = .sewing then walkLane st feed c else (c, [])

/-- The markers a feed applied to the lanes raises, lane 0 first (R45, R49). -/
def raisedBy (st : Store) (feed : Nat) (lanes : Fin 8 → LaneContext) : List Marker :=
  (List.finRange 8).flatMap fun l => (walkedBy st feed (lanes l)).2.map fun code => { lane := l, code := code }

/-- The marker queue after markers have been raised: appended up to 16 entries, the others lost (R58). -/
def queued (old raised : List Marker) : List Marker := old ++ raised.take (16 - old.length)

/-- Some marker raised found the queue full (R58). -/
def markersLost (old raised : List Marker) : Prop := 16 - old.length < raised.length

/-! ### Lost needles, drop evaluation, defect records -/

/-- The lost needles of a lane, counted one by one (R146): those of a configured segment that the lane map gives the lane,
in the fault mask or of a LOST segment. -/
def State.lostCount (s : State) (l : Fin 8) : Nat :=
  ∑ g : Fin 16, ∑ p : Fin 8,
    if g.val < s.head.segmentCount ∧ s.composer.laneMap[g] = some l ∧
        (s.head.segments[g].state = .lost ∨ s.thread.faultMask[g].getLsbD p = true) then 1 else 0

/-- The lost needles of a lane have reached its drop limit (R147). -/
abbrev State.reachesLimit (s : State) (l : Fin 8) : Prop :=
  0 < s.thread.dropLimit[l] ∧ s.thread.dropLimit[l] ≤ s.lostCount l

/-- A drop evaluation of a lane has been made, judged of t, on the lanes of s (R57, R147, R110): a SEWING or HELD lane at
its limit is STOPPED with cause DROP and its segments centred; nothing else of the lanes changes. -/
structure DropEvaluated (l : Fin 8) (s t : State) : Prop where
  stopped : (s.lane l).state = .sewing ∨ (s.lane l).state = .held → t.reachesLimit l →
    t.lane l = { s.lane l with state := .stopped .drop, currentLateral := 0 } ∧
      ∀ g : Fin 16, t.composer.lastLateral[g] = if s.composer.laneMap[g] = some l then 0 else s.composer.lastLateral[g]
  kept    : ¬ ((s.lane l).state = .sewing ∨ (s.lane l).state = .held) ∨ ¬ t.reachesLimit l →
    t.lane l = s.lane l ∧ t.composer.lastLateral = s.composer.lastLateral
  others  : ∀ k : Fin 8, k ≠ l → t.lane k = s.lane k

/-- The drop evaluation of a segment's lane has been made, when the lane map gives the segment one (R132, R141). -/
structure SegmentEvaluated (g : Fin 16) (s t : State) : Prop where
  mapped   : ∀ l, s.composer.laneMap[g] = some l → DropEvaluated l s t
  unmapped : s.composer.laneMap[g] = none →
    t.engine.lanes = s.engine.lanes ∧ t.composer.lastLateral = s.composer.lastLateral

/-- A record is as one formed in s for a segment (R139, R140). -/
structure FormedIn (s : State) (kind : DefectKind) (g : Fin 16) (d : Defect) : Prop where
  kind    : d.kind = kind
  segment : d.segment = g
  panel   : ∀ p, s.line.program = some { role := .active, panel := p } →
    d.panelPlace = some { tag := p.tag, serial := s.line.serial, position := s.line.position }
  noPanel : s.line.program.map LineProgram.role ≠ some .active → d.panelPlace = none
  lane    : ∀ l, s.composer.laneMap[g] = some l → (s.lane l).state.placed = true →
    d.lanePlace = some { lane := l, motif := (s.lane l).motif, index := (s.lane l).recordIndex }
  noLane  : (∀ l, s.composer.laneMap[g] = some l → (s.lane l).state.placed = false) → d.lanePlace = none

/-- A record has been offered to the defect list (R142): suppressed, appended, or refused with DEFECT_OVERFLOW. -/
structure Offered (d : Defect) (s t : State) : Prop where
  list     : t.thread.defects =
    if s.thread.defects.any d.matches then s.thread.defects
    else if s.thread.defects.length < 32 then s.thread.defects ++ [d] else s.thread.defects
  overflow : t.mgmt.latches.defectOverflow = true ↔ s.mgmt.latches.defectOverflow = true ∨
    (s.thread.defects.any d.matches = false ∧ 32 ≤ s.thread.defects.length)

/-- The needle a record names: present in a BREAK, absent in a LOSS (R139). -/
def Defect.needle (d : Defect) : Option Nat :=
  match d.kind with
  | .threadBreak p => some (8 * d.segment.val + p.val)
  | .loss => none

/-- The 13 bytes of a record, field by field, an absent field sent as 0 (R191). -/
def Defect.fields (d : Defect) : List Byte :=
  [BitVec.ofNat 8 (d.needle.isNone.toNat + 2 * d.needle.isSome.toNat + 4 * d.lanePlace.isSome.toNat +
      8 * d.panelPlace.isSome.toNat),
   BitVec.ofNat 8 d.segment.val, BitVec.ofNat 8 (d.needle.getD 0),
   BitVec.ofNat 8 ((d.lanePlace.map fun x => x.lane.val).getD 0),
   BitVec.ofNat 8 ((d.lanePlace.map fun x => x.motif.val).getD 0)] ++
    le16 ((d.lanePlace.map fun x => x.index).getD 0) ++ le16 ((d.panelPlace.map fun x => x.tag.toNat).getD 0) ++
    le16 ((d.panelPlace.map fun x => x.serial.toNat).getD 0) ++
    le16 ((d.panelPlace.map fun x => x.position).getD 0)

/-- The context of a lane at a panel start from s (R41 to R43, R147): VACANT if the program does not assign it, else as its
load and skip walk leave it, and stopped by DROP if it is SEWING then and its lost needles, counted after the release of
the rethreaded ones, reach its limit. -/
def State.startedLane (s : State) (p : PanelProgram) (l : Fin 8) : LaneContext :=
  match p.assignmentOf l with
  | none => { s.lane l with state := .vacant }
  | some a =>
    if (startLane s.store a (s.lane l)).state = .sewing ∧ (releaseRethreaded s).reachesLimit l then
      (startLane s.store a (s.lane l)).stop .drop
    else startLane s.store a (s.lane l)

/-! ### Commands and their arguments -/

/-- Commands executed one after another. -/
def execAll : List Instr → State → Host.Outcome State Fault Refusal
  | [], s => .next s
  | i :: rest, s =>
    match exec i s with
    | .next t => execAll rest t
    | .fault f => .fault f
    | .refused r => .refused r

/-- The number two bytes carry, the least significant first (R160). -/
def wordOf (low high : Byte) : Nat := low.toNat + 256 * high.toNat

/-- The assembler after an accepted DEFINE_MOTIF or UNDEFINE_MOTIF of m: a partial for m is discarded, another kept
(R9, R10). -/
def keptPartial (m : Fin 64) (x : Option Assembly) : Option Assembly := x.filter fun a => decide (a.motif ≠ m)

/-- A page of the range is owned by a defined motif other than m (R8, check 5). -/
def rangeTaken (m : Fin 64) (first count : Nat) (st : Store) : Prop :=
  ∃ k : Fin 64, k ≠ m ∧ ∃ page, first ≤ page ∧ page < first + count ∧ st.directory[k].ownsPage page = true

/-- Checks 1 to 4 of R8 hold of the numbers of a DEFINE_MOTIF but its motif. -/
def defineArguments (first count length : Nat) (loop : Option Nat) : Prop :=
  first ≤ 127 ∧ 1 ≤ count ∧ count ≤ 128 ∧ 1 ≤ length ∧ first + count ≤ 128 ∧ length ≤ count * 64 ∧
    ∀ i ∈ loop, i ≤ 8191 ∧ i < length

/-- The three checks of R27 on one assignment, given the assignments before it. -/
def State.entryPasses (s : State) (earlier : List Assignment) (a : Assignment) : Prop :=
  s.store.directory[a.motif].defined = true ∧ (∃ g : Fin 16, s.servesLane a.lane g = true) ∧
    ∀ b ∈ earlier, b.lane ≠ a.lane

/-- The reason code of the first check of R27 an assignment fails (R185). -/
def refusalReason (s : State) (a : Assignment) : Byte :=
  if s.store.directory[a.motif].defined = false then 1
  else if (List.finRange 16).any (s.servesLane a.lane) = false then 2
  else 3

end Sys2Proof.Machine
end

