-- ==== Sys2Proof/Certificates/Slice0/Obligations.lean ====
section
/-! DEFINITION. The statements about the block, from the manual's numbered rules. -/

open Sys2Proof Sys2Proof.Machine

/-! ### The machine -/

/-- A step takes the command at the front of the queue and runs it on the state with the queue's rest; with no command
waiting the block idles (the model's choice, log entry 5). -/
def Obligations.StepRunsFrontCommand : Prop :=
  (∀ (c : Instr) (rest : List Instr) (s : State),
    step { s with pending := c :: rest } = exec c { s with pending := rest }) ∧
  ∀ s : State, s.pending = [] → step s = .next s

/-- Every command answers a next state in every state, and leaves the model's queue alone: no fault, no refusal. That an
event which cannot occur answers a next state is the model's choice (log entry 2), and so is that POWER_ON_RESET keeps the
model's queue (log entry 17). -/
def Obligations.EveryCommandAnswersNext : Prop :=
  ∀ (i : Instr) (s : State), ∃ t, exec i s = .next t ∧ t.pending = s.pending

/-- The values the power-on reset leaves in every block (R5, R32, R39, R82, R103, R127, R148, R152, R154, R157, R159,
R184). -/
def Obligations.PowerOnResetValues : Prop :=
  ∀ s : State, ∃ t, exec .powerOnReset s = .next t ∧
    (∀ m : Fin 64, t.store.directory[m] =
      { defined := false, firstPage := 0, pageCount := 0, length := 0, loopIndex := none, inUse := 0 }) ∧
    t.store.assembler = none ∧ t.store.packing = .highFirst ∧
    t.stager = { staging := none, pendingPanel := none } ∧
    (∀ l : Fin 8, t.lane l =
      { state := .vacant, motif := 0, scale := .x1, loopAllowed := false, recordIndex := 0, fromLateral := 0,
        leftInStep := 0, currentLateral := 0, tension := 0, lockOdd := false, loopPasses := 0, engage := 0 }) ∧
    t.engine.markers = [] ∧
    t.line = { state := .idle, program := none, position := 0, seam := 0, serial := 0 } ∧
    t.strokes = { queue := [], consecutive := 0, total := 0, limit := 3, slot := none } ∧
    (∀ g : Fin 16, t.composer.laneMap[g] = none ∧ t.composer.operatorMask[g] = 0 ∧ t.composer.lastLateral[g] = 0 ∧
      t.composer.previousWords[g] = none ∧ t.head.segments[g] = { state := .online, badReturns := 0 } ∧
      t.thread.faultMask[g] = 0 ∧ t.thread.rethread[g] = 0 ∧ t.thread.bobbinLow[g] = false ∧
      ∀ p : Fin 8, t.thread.presence[g][p] = .unknown) ∧
    t.head.segmentCount = 16 ∧ t.head.frameSerial = 0 ∧ t.head.tx = .free ∧ t.head.claim = false ∧
    t.thread.defects = [] ∧ t.thread.totalBreaks = 0 ∧ (∀ l : Fin 8, t.thread.dropLimit[l] = 0) ∧
    t.link.receiver = .waitGap ∧ t.link.breakState = false ∧ t.link.errorCount = 0 ∧ t.link.tx = none ∧
    t.mgmt.commands = [] ∧ t.mgmt.answers = [] ∧ t.mgmt.reserved = false ∧ t.mgmt.latches.any = false

/-! ### The shaft index and the head frame -/

/-- The shaft index at the head-link transmitter (R90). -/
def Obligations.ShaftIndexMeetsTransmitter : Prop :=
  ∀ s : State,
    (∀ f, s.head.tx = .sending f → exec .shaftIndex s = .next { s with mgmt.latches.shaftEarly := true }) ∧
    (s.hldirOutbound = false → s.head.claim = true → s.head.waiting = false →
      exec .shaftIndex s = .next { s with head.waiting := true }) ∧
    (s.hldirOutbound = false → s.head.claim = true → s.head.waiting = true →
      exec .shaftIndex s = .next { s with mgmt.latches.shaftEarly := true }) ∧
    (s.serves → ∃ t f, exec .shaftIndex s = .next t ∧ t.head.tx = .sending f)

/-- A served index sends one frame with the next serial, PARK_ALL as the line state says, and one word for each
configured segment formed after the open window has ended (R91, R114, R115); no other command makes a frame serial, but an
accepted RUN or LOOP_TEST that finds a waited index due, serving it first (the model's reading, log entry 8). -/
def Obligations.ServedIndexSendsOneFrame : Prop :=
  (∀ s : State, s.serves → ∃ t, exec .shaftIndex s = .next t ∧
    t.head.frameSerial = s.head.frameSerial + 1 ∧
    t.head.tx = .sending
      { serial := s.head.frameSerial + 1, parkAll := decide (s.line.state ≠ .running),
        words := (endWindow s).configured.map ((endWindow s).wordFor s.frameKind) }) ∧
  ∀ (i : Instr) (s t : State), exec i s = .next t →
    i ≠ .powerOnReset → i ≠ .shaftIndex → i ≠ .waitedShaftIndex →
    t.head.frameSerial = s.head.frameSerial ∨
      (i = .run ∨ i = .loopTest) ∧ s.line.state = .idle ∧ s.head.waiting = true ∧ s.head.claim = false ∧
        t.head.waiting = false ∧ t.head.frameSerial = s.head.frameSerial + 1

/-- An index served in IDLE or HALTED consumes no stroke and is no dwell; its REPORT says so (R97 to R100). -/
def Obligations.IdleIndexConsumesNothing : Prop :=
  ∀ s : State, s.serves → s.line.state = .idle ∨ s.line.state.isHalted = true →
    ∃ t r, exec .shaftIndex s = .next t ∧ t.line = s.line ∧ t.stager = s.stager ∧ t.store = s.store ∧
      t.strokes.queue = s.strokes.queue ∧ t.strokes.consecutive = s.strokes.consecutive ∧
      t.strokes.total = s.strokes.total ∧ t.strokes.limit = s.strokes.limit ∧
      t.engine.lanes = (endWindow s).engine.lanes ∧
      t.engine.markers = s.engine.markers.drop 8 ∧ reports s t r ∧ ReportTells s t r ∧
      r.frameSerial = s.head.frameSerial + 1 ∧ r.strokeSerial = none ∧ r.dwell = false ∧
      r.lineState = s.line.state ∧ r.panelSerial = s.line.serial ∧
      r.markers = s.engine.markers.take 8

/-- A stroke consumed (R45, R49, R51, R58, R59, R72, R75, R76, R92, R98 to R100): the front entry leaves, the consecutive
count becomes 0, the REPORT carries its serial. In RUNNING short of the boundary every SEWING lane, its output taken, is
walked by the feed and the position moves; in CHANGEOVER the seam moves, or the changeover completes: the lanes are
started, the rethreaded needles released, and the SEWING lanes walked by the leftover. The markers raised join the queue
as far as it has room, and the REPORT takes up to 8. -/
def Obligations.ConsumedStrokeMovesLine : Prop :=
  ∀ (s : State) (x : Stroke) (rest : List Stroke) (p : PanelProgram),
    s.serves → s.strokes.queue = x :: rest → s.linePanel = some p →
    s.line.state = .running ∨ s.line.state = .changeover →
    ∃ t r, exec .shaftIndex s = .next t ∧ t.strokes.queue = rest ∧ t.strokes.consecutive = 0 ∧
      t.strokes.total = s.strokes.total ∧ t.strokes.limit = s.strokes.limit ∧ reports s t r ∧ ReportTells s t r ∧
      r.strokeSerial = some x.serial ∧ r.dwell = false ∧ r.lineState = t.line.state ∧ r.panelSerial = t.line.serial ∧
      (s.line.state = .running → s.line.position + x.feed.toNat < p.length →
        let lanes (l : Fin 8) := takeOutput s.store ((endWindow s).lane l)
        let raised := raisedBy s.store x.feed.toNat lanes
        t.line = { s.line with position := s.line.position + x.feed.toNat } ∧ t.stager = s.stager ∧ t.store = s.store ∧
          (∀ l : Fin 8, t.lane l = (walkedBy s.store x.feed.toNat (lanes l)).1) ∧
          (∀ (g : Fin 16) (l : Fin 8), s.composer.laneMap[g] = some l → (lanes l).state = .sewing →
            (t.lane l).state = .stopped .loopFault → t.composer.lastLateral[g] = 0) ∧
          (∀ g : Fin 16,
            (∀ l : Fin 8, s.composer.laneMap[g] = some l → (lanes l).state = .sewing →
              (t.lane l).state ≠ .stopped .loopFault) →
            t.composer.lastLateral[g] = (formFrame .composed (endWindow s)).composer.lastLateral[g]) ∧
          r.markers = (queued s.engine.markers raised).take 8 ∧
          t.engine.markers = (queued s.engine.markers raised).drop 8 ∧
          (t.mgmt.latches.markerLost = true ↔
            (endWindow s).mgmt.latches.markerLost = true ∨ markersLost s.engine.markers raised)) ∧
      (s.line.state = .changeover → x.feed.toNat < s.line.seam →
        t.line = { s.line with seam := s.line.seam - x.feed.toNat } ∧ t.stager = s.stager ∧ t.store = s.store ∧
          t.engine.lanes = (endWindow s).engine.lanes ∧ r.markers = s.engine.markers.take 8 ∧
          t.engine.markers = s.engine.markers.drop 8) ∧
      (s.line.state = .changeover → s.line.seam ≤ x.feed.toNat → x.feed.toNat - s.line.seam < p.length →
        let leftover := x.feed.toNat - s.line.seam
        let lanes (l : Fin 8) := (endWindow s).startedLane p l
        let raised := raisedBy s.store leftover lanes
        t.line =
          { state := .running, program := some { role := .active, panel := p },
            position := x.feed.toNat - s.line.seam, seam := 0, serial := s.line.serial + 1 } ∧
          t.stager = s.stager ∧ t.store = s.store ∧
          (∀ l : Fin 8, t.lane l = (walkedBy s.store leftover (lanes l)).1) ∧
          (∀ g : Fin 16,
            t.thread.faultMask[g] = (endWindow s).thread.faultMask[g] &&& ~~~(endWindow s).thread.rethread[g] ∧
              t.thread.rethread[g] = (endWindow s).thread.rethread[g] &&& ~~~(endWindow s).thread.faultMask[g]) ∧
          r.markers = (queued s.engine.markers raised).take 8 ∧
          t.engine.markers = (queued s.engine.markers raised).drop 8 ∧
          (t.mgmt.latches.markerLost = true ↔
            (endWindow s).mgmt.latches.markerLost = true ∨ markersLost s.engine.markers raised))

/-- A dwell stroke (R93 to R95): both counts rise, UNDERRUN_SEEN is set, nothing moves; at the limit the line halts with
cause UNDERRUN and the count becomes 0 (R77, R78, R94). The REPORT tells the line as the dwell leaves it (R98 to R100). -/
def Obligations.DwellStrokeCountsAndHalts : Prop :=
  ∀ (s : State) (w : ResumeState),
    s.serves → s.strokes.queue = [] → s.line.state = w.lineState →
    ∃ t r, exec .shaftIndex s = .next t ∧ t.strokes.queue = [] ∧
      t.strokes.total = (if s.strokes.total < 65535 then s.strokes.total + 1 else s.strokes.total) ∧
      t.mgmt.latches.underrunSeen = true ∧ t.engine.lanes = (endWindow s).engine.lanes ∧ t.stager = s.stager ∧
      t.store = s.store ∧ reports s t r ∧ ReportTells s t r ∧ r.dwell = true ∧ r.strokeSerial = none ∧
      r.lineState = t.line.state ∧ r.attn = true ∧ r.markers = s.engine.markers.take 8 ∧
      t.engine.markers = s.engine.markers.drop 8 ∧
      (s.strokes.consecutive + 1 < s.strokes.limit →
        t.line = s.line ∧ t.strokes.consecutive = s.strokes.consecutive + 1) ∧
      (s.strokes.limit ≤ s.strokes.consecutive + 1 →
        t.line = { s.line with state := .halted .underrun w } ∧ t.strokes.consecutive = 0)

/-- No needle word sent engages a needle that must not stitch (R108). A RUN or LOOP_TEST sends a frame where it serves a
waited index first (the model's reading, log entry 8). -/
def Obligations.FrameEngagesOnlyAllowedNeedles : Prop :=
  ∀ (i : Instr) (s t : State) (f : Frame) (k p : Nat) (w : SegWord),
    i = .shaftIndex ∨ i = .waitedShaftIndex ∨ i = .run ∨ i = .loopTest → exec i s = .next t → s.hldirOutbound = false →
    t.head.tx = .sending f → f.words[k]? = some w → w.engage.getLsbD p = true →
    ∃ (g : Fin 16) (l : Fin 8), g.val = k ∧ k < s.head.segmentCount ∧ s.composer.laneMap[g] = some l ∧
      s.line.state = .running ∧ (s.atService.lane l).state = .sewing ∧
      s.atService.thread.faultMask[g].getLsbD p = false ∧ s.composer.operatorMask[g].getLsbD p = false ∧
      (s.atService.head.segments[g].state = .online ∨ s.atService.head.segments[g].state = .suspect) ∧
      (s.frameKind = .composed →
        ∃ o ∈ laneOutput s.store (s.atService.lane l), o.engage.getLsbD p = true)

/-- The words of a PARK frame (R111): every configured segment parked, a mapped one at its last lateral, an unmapped one
at 0; PARK_ALL set; no lane output taken. -/
def Obligations.ParkFrameParksEverySegment : Prop :=
  ∀ s : State, s.serves → s.line.state ≠ .running →
    ∃ t f, exec .shaftIndex s = .next t ∧ t.head.tx = .sending f ∧ f.parkAll = true ∧
      (∀ g : Fin 16, g.val < s.head.segmentCount →
        f.words[g.val]? = some (parked
          (if s.composer.laneMap[g] = none then 0 else (endWindow s).composer.lastLateral[g]))) ∧
      (s.line.state ≠ .changeover → t.engine.lanes = (endWindow s).engine.lanes)

/-- The words of a composed and of a repeated frame (R52 to R55, R107, R108, R112, R113), which of the three kinds an index
forms (R91), what forming any frame records of each segment (R109, R113), and what the taking of the outputs does to the
lanes (R54, R55). The tension 0 and LOCK clear of a SEWING lane's segment without a previous word are the model's reading
(log entry 13). -/
def Obligations.RepeatedWordsAndRecordedLaterals : Prop :=
  ∀ (s : State) (kind : FrameKind) (g : Fin 16),
    (s.composer.laneMap[g] = none → s.repeatedWord g = parked 0) ∧
    (∀ l, s.composer.laneMap[g] = some l → (s.lane l).state ≠ .sewing → s.repeatedWord g = s.composedWord g) ∧
    (∀ l w, s.composer.laneMap[g] = some l → (s.lane l).state = .sewing → s.composer.previousWords[g] = some w →
      s.repeatedWord g = { w with engage := w.engage &&& s.mayEngage g }) ∧
    (∀ l, s.composer.laneMap[g] = some l → (s.lane l).state = .sewing → s.composer.previousWords[g] = none →
      s.repeatedWord g = parked s.composer.lastLateral[g]) ∧
    (g.val < s.head.segmentCount →
      (formFrame kind s).composer.lastLateral[g] = (s.wordFor kind g).lateral ∧
        (formFrame kind s).composer.previousWords[g] = some (s.wordFor kind g)) ∧
    (s.head.segmentCount ≤ g.val →
      (formFrame kind s).composer.lastLateral[g] = s.composer.lastLateral[g] ∧
        (formFrame kind s).composer.previousWords[g] = none) ∧
    -- the kind of frame, and its words
    (s.line.state = .running → s.strokes.queue ≠ [] → s.frameKind = .composed) ∧
    (s.line.state = .running → s.strokes.queue = [] → s.frameKind = .repeated) ∧
    (s.line.state ≠ .running → s.frameKind = .park) ∧
    s.wordFor .composed g = s.composedWord g ∧ s.wordFor .repeated g = s.repeatedWord g ∧
    s.wordFor .park g = parked (if s.composer.laneMap[g] = none then 0 else s.composer.lastLateral[g]) ∧
    -- the word of a composed frame
    (s.composer.laneMap[g] = none → s.composedWord g = parked 0) ∧
    (∀ l, s.composer.laneMap[g] = some l →
      let c := s.lane l
      (c.state = .vacant → s.composedWord g = parked s.composer.lastLateral[g]) ∧
      (c.state = .held ∨ c.state = .finished → s.composedWord g =
        { lateral := s.composer.lastLateral[g], engage := 0, tension := c.tension, lock := false, park := true }) ∧
      (∀ k, c.state = .stopped k → s.composedWord g =
        { lateral := 0, engage := 0, tension := c.tension, lock := false, park := true }) ∧
      (c.state = .sewing →
        (∀ target span engage tension, s.store.recordAt c.motif c.recordIndex = .move target span engage tension →
          s.composedWord g =
            { lateral := interpolate c.fromLateral target (span * c.scale.factor - c.leftInStep) (span * c.scale.factor),
              engage := engage &&& s.mayEngage g, tension := c.tension, lock := false, park := false }) ∧
        (∀ target span, s.store.recordAt c.motif c.recordIndex = .jump target span → s.composedWord g =
            { lateral := interpolate c.fromLateral target (span * c.scale.factor - c.leftInStep) (span * c.scale.factor),
              engage := 0, tension := c.tension, lock := false, park := false }) ∧
        (∀ target span engage width, s.store.recordAt c.motif c.recordIndex = .lock target span engage width →
          s.composedWord g =
            { lateral :=
                if c.lockOdd then BitVec.ofInt 12 (min 2047 (target.toInt + (width.toNat : Int))) else target,
              engage := engage &&& s.mayEngage g, tension := c.tension, lock := true, park := false }))) ∧
    (∀ p : Fin 8, (s.mayEngage g).getLsbD p = true ↔
      s.line.state = .running ∧ (s.head.segments[g].state = .online ∨ s.head.segments[g].state = .suspect) ∧
        s.thread.faultMask[g].getLsbD p = false ∧ s.composer.operatorMask[g].getLsbD p = false) ∧
    -- the taking of the outputs
    (∀ l : Fin 8,
      let c := s.lane l
      (c.state = .sewing →
        (∃ target span engage width, s.store.recordAt c.motif c.recordIndex = .lock target span engage width) →
        (formFrame .composed s).lane l = { c with lockOdd := !c.lockOdd }) ∧
      (c.state ≠ .sewing ∨
          (∀ target span engage width, s.store.recordAt c.motif c.recordIndex ≠ .lock target span engage width) →
        (formFrame .composed s).lane l = c)) ∧
    (kind ≠ .composed → (formFrame kind s).engine.lanes = s.engine.lanes)

/-- The index that waited through a loop test is served in IDLE: a PARK frame, a REPORT, nothing consumed (R85, R97). -/
def Obligations.WaitedIndexServedInIdle : Prop :=
  ∀ s : State,
    s.head.waiting = true → s.head.claim = false → s.hldirOutbound = false → s.line.state = .idle →
    ∃ t f r, exec .waitedShaftIndex s = .next t ∧ t.head.waiting = false ∧
      t.head.frameSerial = s.head.frameSerial + 1 ∧ t.head.tx = .sending f ∧ f.parkAll = true ∧ t.line = s.line ∧
      t.strokes.queue = s.strokes.queue ∧ t.strokes.consecutive = s.strokes.consecutive ∧
      t.strokes.total = s.strokes.total ∧ reports s t r ∧ ReportTells s t r ∧ r.place = 0 ∧ r.lineState = .idle ∧
      r.strokeSerial = none ∧ r.dwell = false ∧ r.markers = s.engine.markers.take 8

/-! ### Returns, segments, needles -/

/-- A return slot in an open position (R116, R117, R119, R121): marked received; ignored of a LOST or OFF segment; else a
good return makes the segment ONLINE and passes to the Thread Supervisor, a bad one moves it toward LOST. A slot in a
position already received changes nothing (R165). The position is the event's operand, in any order: the model's choice,
log entry 10. A loss notice offers its LOSS record and evaluates the segment's lane, and changes nothing else of the
Thread Supervisor (R120, R139 to R142). -/
def Obligations.ReturnSlotJudgedBySegmentState : Prop :=
  ∀ (s : State) (received : List Bool) (g : Fin 16) (x : Slot), s.head.tx = .window received →
    (received[g.val]? = some true → exec (.returnSlot g.val x) s = .next s) ∧
    (received[g.val]? = some false →
      let m : State := { s with head.tx := .window (received.set g.val true) }
      (s.head.segments[g].state = .lost ∨ s.head.segments[g].state = .off →
        exec (.returnSlot g.val x) s = .next m) ∧
      (s.head.segments[g].state = .online ∨ s.head.segments[g].state = .suspect → x.goodReturn g.val = true →
        exec (.returnSlot g.val x) s =
          .next (returnNotice g x.present x.bobbinLow (setSegment g { state := .online, badReturns := 0 } m))) ∧
      (s.head.segments[g].state = .online ∨ s.head.segments[g].state = .suspect → x.goodReturn g.val = false →
        s.head.segments[g].afterBad.state = .suspect →
        exec (.returnSlot g.val x) s = .next (setSegment g s.head.segments[g].afterBad m)) ∧
      (s.head.segments[g].state = .online ∨ s.head.segments[g].state = .suspect → x.goodReturn g.val = false →
        s.head.segments[g].afterBad.state = .lost →
        exec (.returnSlot g.val x) s = .next (lossNotice g (setSegment g s.head.segments[g].afterBad m)))) ∧
    (∀ y : Segment, (setSegment g y s).head.segments = s.head.segments.set g y ∧
      (setSegment g y s).mgmt.latches =
        (if y.state = s.head.segments[g].state then s.mgmt.latches
         else { s.mgmt.latches with segmentChange := true })) ∧
    ∀ u : State,
      let t := lossNotice g u
      let d := u.defectNow .loss g
      FormedIn u .loss g d ∧ Offered d u t ∧ SegmentEvaluated g u t ∧ t.thread.presence = u.thread.presence ∧
        t.thread.faultMask = u.thread.faultMask ∧ t.thread.rethread = u.thread.rethread ∧
        t.thread.totalBreaks = u.thread.totalBreaks ∧ t.thread.bobbinLow = u.thread.bobbinLow ∧ t.head = u.head ∧
        t.line = u.line ∧ t.store = u.store

/-- The judgement of one needle position at a return notice, row by row (R130, R131, R134); and the notice whole: positions 0
to 7 in order, then the bobbin-low state takes the notice's bit, and BOBBIN_LOW is set when the bit is set and the state
was clear (R130, R138). -/
def Obligations.NeedleJudgementTable : Prop :=
  ∀ (s : State) (g : Fin 16) (p : Fin 8) (reported : Pattern),
    (s.composer.operatorMask[g].getLsbD p = true → judgePosition g reported s p = setPresence g p .unknown s) ∧
    (s.composer.operatorMask[g].getLsbD p = false →
      (s.thread.presence[g][p] = .unknown → reported.getLsbD p = true →
        judgePosition g reported s p = setPresence g p .present s) ∧
      (s.thread.presence[g][p] = .unknown → reported.getLsbD p = false →
        judgePosition g reported s p = setPresence g p .absent s) ∧
      (s.thread.presence[g][p] = .present → reported.getLsbD p = true → judgePosition g reported s p = s) ∧
      (s.thread.presence[g][p] = .present → reported.getLsbD p = false →
        s.thread.faultMask[g].getLsbD p = false →
        judgePosition g reported s p = threadBreak g p (setPresence g p .absent s)) ∧
      (s.thread.presence[g][p] = .present → reported.getLsbD p = false →
        s.thread.faultMask[g].getLsbD p = true →
        judgePosition g reported s p = leaveRethread g p (setPresence g p .absent s)) ∧
      (s.thread.presence[g][p] = .absent → reported.getLsbD p = false → judgePosition g reported s p = s) ∧
      (s.thread.presence[g][p] = .absent → reported.getLsbD p = true → s.thread.faultMask[g].getLsbD p = true →
        judgePosition g reported s p = joinRethread g p (setPresence g p .present s)) ∧
      (s.thread.presence[g][p] = .absent → reported.getLsbD p = true → s.thread.faultMask[g].getLsbD p = false →
        judgePosition g reported s p = setPresence g p .present s)) ∧
    ∀ low : Bool,
      let u := ([0, 1, 2, 3, 4, 5, 6, 7] : List (Fin 8)).foldl (judgePosition g reported) s
      u.thread.bobbinLow = s.thread.bobbinLow ∧ u.mgmt.latches.bobbinLow = s.mgmt.latches.bobbinLow ∧
        returnNotice g reported low s =
          { u with
            thread.bobbinLow := s.thread.bobbinLow.set g low
            mgmt.latches.bobbinLow := s.mgmt.latches.bobbinLow || (low && !s.thread.bobbinLow[g]) }

/-- A thread break (R132, R133, R137, R139, R140, R142, R147): exactly the broken needle joins the fault mask, the count
rises, the record is suppressed, refused or appended, the segment's lane is evaluated; presence, rethread set, bobbin-low
and the words already formed stay. The lost needles of a lane are those of R146, and two records match as R142 says. -/
def Obligations.ThreadBreakMasksCountsRecords : Prop :=
  ∀ (s : State) (g : Fin 16) (p : Fin 8),
    let t := threadBreak g p s
    let d := s.defectNow (.threadBreak p) g
    (∀ (h : Fin 16) (q : Nat), t.thread.faultMask[h].getLsbD q =
      (s.thread.faultMask[h].getLsbD q || decide (h = g ∧ q = p.val))) ∧
    t.thread.totalBreaks = (if s.thread.totalBreaks < 65535 then s.thread.totalBreaks + 1 else s.thread.totalBreaks) ∧
    t.thread.defects =
      (if s.thread.defects.any d.matches then s.thread.defects
       else if s.thread.defects.length < 32 then s.thread.defects ++ [d] else s.thread.defects) ∧
    (t.mgmt.latches.defectOverflow = true ↔ s.mgmt.latches.defectOverflow = true ∨
      (s.thread.defects.any d.matches = false ∧ 32 ≤ s.thread.defects.length)) ∧
    t.thread.presence = s.thread.presence ∧ t.thread.rethread = s.thread.rethread ∧
    t.thread.bobbinLow = s.thread.bobbinLow ∧ t.head = s.head ∧ t.line = s.line ∧ t.store = s.store ∧
    t.composer.previousWords = s.composer.previousWords ∧
    FormedIn s (.threadBreak p) g d ∧ SegmentEvaluated g s t ∧ (∀ l : Fin 8, s.lostNeedles l = s.lostCount l) ∧
    ∀ d e : Defect, d.matches e = true ↔
      d.kind = e.kind ∧ d.segment = e.segment ∧
        d.panelPlace.map PanelPlace.serial = e.panelPlace.map PanelPlace.serial

/-- The return window opens at outbound-complete with no position received (R114, R116). At its expiry (R118, R119, R123)
every position not received counts one bad return of an answering segment; the transmitter is FREE, or LOOP when a test
has claimed it. -/
def Obligations.ReturnWindowOpensAndExpires : Prop :=
  (∀ (s : State) (f : Frame), s.head.tx = .sending f →
    exec .outboundComplete s = .next { s with head.tx := .window (List.replicate f.words.length false) }) ∧
  ∀ (s : State) (received : List Bool), s.head.tx = .window received →
    ∃ t, exec .returnWindowExpiry s = .next t ∧
      t.head.tx = (if s.head.claim then .loop none else .free) ∧
      (∀ g : Fin 16, t.head.segments[g] =
        if received[g.val]? = some false then s.head.segments[g].afterBad else s.head.segments[g]) ∧
      t.head.frameSerial = s.head.frameSerial ∧ t.line = s.line ∧ t.strokes = s.strokes ∧ t.store = s.store ∧
      t.thread.presence = s.thread.presence ∧ t.thread.faultMask = s.thread.faultMask ∧
      t.thread.rethread = s.thread.rethread

/-- The looped frame and its completion (R123 to R125, R85, R173), and that the slots as sent pass (R124). -/
def Obligations.LoopTestRunsToCompletion : Prop :=
  ∀ (s : State) (x : Slot),
    (s.head.tx = .loop none ∨ s.head.tx = .free ∧ s.head.claim = true →
      exec .loopedFrameBegin s =
        .next { s with head.tx := .loop (some { count := s.head.segmentCount, passed := [] }) }) ∧
    (∀ test, s.head.tx = .loop (some test) → test.passed.length + 1 < test.count →
      exec (.testSlot x) s =
        .next { s with
          head.tx := .loop
            (some { count := test.count, passed := test.passed ++ [x.testPass test.passed.length] }) }) ∧
    (∀ test c rest, s.head.tx = .loop (some test) → test.count ≤ test.passed.length + 1 →
      s.mgmt.commands = c :: rest →
      exec (.testSlot x) s =
        .next (answered c .done (le16 (bitsToNat (test.passed ++ [x.testPass test.passed.length])))
          { s with head.tx := .free, head.claim := false, line.state := .idle, mgmt.reserved := false })) ∧
    (∀ k < 16, ∃ a b c, testSlotBytes k = [a, b, c] ∧
      Slot.testPass k { byte0 := a, byte1 := b, check := c, framing := false } = true)

/-! ### The stroke link -/

/-- A byte received while the line is at mark and no all-space byte waits, by the receiver's state (R152, R153). -/
def Obligations.ReceivedByteByReceiverState : Prop :=
  ∀ (s : State) (d : Byte), s.link.heldSpace = false → s.link.breakState = false →
    (s.link.receiver = .ready → d = 0x53 →
      exec (.receivedByte d true) s = .next { s with
        link.receiver := .inCell { kind := .stroke, length := none, payload := [], check := crc8 [d] } }) ∧
    (s.link.receiver = .ready → d = 0x43 →
      exec (.receivedByte d true) s = .next { s with
        link.receiver := .inCell { kind := .command, length := none, payload := [], check := crc8 [d] } }) ∧
    (s.link.receiver = .ready → d ≠ 0x53 → d ≠ 0x43 →
      exec (.receivedByte d true) s = .next (discarded .waitGap s)) ∧
    (∀ c, s.link.receiver = .inCell c → c.length = none →
      exec (.receivedByte d true) s = .next
        (if d.toNat ≤ 32 ∧ (c.kind = .command → 2 ≤ d.toNat) then
          { s with link.receiver := .inCell { c with length := some d.toNat, check := crcByte c.check d } }
         else discarded .waitGap s)) ∧
    (∀ c n, s.link.receiver = .inCell c → c.length = some n → c.payload.length < n →
      exec (.receivedByte d true) s = .next { s with
        link.receiver := .inCell { c with payload := c.payload ++ [d], check := crcByte c.check d } }) ∧
    (∀ c n, s.link.receiver = .inCell c → c.length = some n → n ≤ c.payload.length → d ≠ c.check →
      exec (.receivedByte d true) s = .next (discarded .waitGap s)) ∧
    (∀ c n, s.link.receiver = .inCell c → c.length = some n → n ≤ c.payload.length → d = c.check →
      c.kind = .stroke →
      exec (.receivedByte d true) s = exec (.strokeCell c.payload) { s with link.receiver := .ready }) ∧
    (∀ c n tag code args, s.link.receiver = .inCell c → c.length = some n → n ≤ c.payload.length → d = c.check →
      c.kind = .command → c.payload = tag :: code :: args →
      exec (.receivedByte d true) s =
        exec (.commandCell { tag := tag, code := code, args := args }) { s with link.receiver := .ready }) ∧
    (s.link.receiver = .waitGap → exec (.receivedByte d true) s = .next s)

/-- Framing errors, the all-space byte, the cell gap, the return to mark, the end of a break (R149, R152, R153, R156,
R157). -/
def Obligations.FramingGapAndMark : Prop :=
  ∀ (s : State) (d : Byte),
    (s.link.heldSpace = false → s.link.breakState = false →
      exec (.receivedByte 0 false) s = .next { s with link.heldSpace := true } ∧
      (d ≠ 0 → s.link.receiver = .ready ∨ (∃ c, s.link.receiver = .inCell c) →
        exec (.receivedByte d false) s = .next (discarded .waitGap s)) ∧
      (d ≠ 0 → s.link.receiver = .waitGap → exec (.receivedByte d false) s = .next s) ∧
      (s.link.receiver = .ready → exec .cellGap s = .next s) ∧
      (∀ c, s.link.receiver = .inCell c → exec .cellGap s = .next (discarded .ready s)) ∧
      (s.link.receiver = .waitGap → exec .cellGap s = .next { s with link.receiver := .ready })) ∧
    (s.link.heldSpace = true → s.link.breakState = false →
      (s.link.receiver = .ready ∨ (∃ c, s.link.receiver = .inCell c) →
        exec .returnToMark s = .next (discarded .waitGap { s with link.heldSpace := false })) ∧
      (s.link.receiver = .waitGap → exec .returnToMark s = .next { s with link.heldSpace := false })) ∧
    (s.link.breakState = true →
      exec .breakEnd s = .next { s with link.breakState := false, link.receiver := .waitGap })

/-- The bytes of a whole cell, received from READY, do what the arrival of the cell does (R150, R151, R152, R155, R161,
R162). -/
def Obligations.CellBytesAreOneArrival : Prop :=
  ∀ s : State, s.link.receiver = .ready → s.link.heldSpace = false → s.link.breakState = false →
    (∀ payload : List Byte, payload.length ≤ 32 →
      execAll ((cellBytes 0x53 payload).map fun b => .receivedByte b true) s = exec (.strokeCell payload) s) ∧
    (∀ (tag code : Byte) (args : List Byte), args.length ≤ 30 →
      execAll ((cellBytes 0x43 (tag :: code :: args)).map fun b => .receivedByte b true) s =
        exec (.commandCell { tag := tag, code := code, args := args }) s)

/-- The arrival of a STROKE cell (R88): appended in IDLE, RUNNING and CHANGEOVER while the queue holds fewer than 4,
else refused with STROKE_REFUSED. Where the receiver lets no cell arrive this is the model's choice (log entry 25). -/
def Obligations.StrokeCellAcceptedOrRefused : Prop :=
  ∀ (s : State) (payload : List Byte),
    (∀ low high feed, payload = [low, high, feed] →
      s.line.state = .idle ∨ s.line.state = .running ∨ s.line.state = .changeover → s.strokes.queue.length < 4 →
      exec (.strokeCell payload) s =
        .next { s with
          strokes.queue := s.strokes.queue ++ [{ serial := BitVec.ofNat 16 (wordOf low high), feed := feed }] }) ∧
    (payload.length ≠ 3 ∨ 4 ≤ s.strokes.queue.length ∨ s.line.state.isHalted = true ∨ s.line.state = .looptest →
      exec (.strokeCell payload) s = .next { s with mgmt.latches.strokeRefused := true })

/-- The arrival of a COMMAND cell (R171). Where the receiver lets no cell arrive this is the model's choice (log entry
25). -/
def Obligations.CommandCellQueuedBusyOrDropped : Prop :=
  ∀ (s : State) (c : Command),
    (c.code = 0x61 → s.mgmt.commands.any Command.isReadCode = true →
      s.mgmt.answers.length + s.mgmt.reserved.toNat < 8 →
      exec (.commandCell c) s =
        .next (arbitrate { s with
          mgmt.answers := s.mgmt.answers ++
            [{ tag := c.tag, code := c.code, reply := { result := .busy, data := [] } }] })) ∧
    (c.code = 0x61 → s.mgmt.commands.any Command.isReadCode = true →
      8 ≤ s.mgmt.answers.length + s.mgmt.reserved.toNat →
      exec (.commandCell c) s = .next { s with mgmt.latches.commandDropped := true }) ∧
    (c.code ≠ 0x61 ∨ s.mgmt.commands.any Command.isReadCode = false → 6 ≤ s.mgmt.commands.length →
      exec (.commandCell c) s = .next { s with mgmt.latches.commandDropped := true }) ∧
    (c.code ≠ 0x61 ∨ s.mgmt.commands.any Command.isReadCode = false → s.mgmt.commands.length < 6 →
      exec (.commandCell c) s = .next { s with mgmt.commands := s.mgmt.commands ++ [c] })

/-- A break begin (R156, R77, R78): the break state is set, a cell being assembled and a waiting all-space byte are
dropped uncounted; a RUNNING or CHANGEOVER line halts with cause BREAK, any other line keeps its state. -/
def Obligations.BreakBeginHaltsSewingLine : Prop :=
  ∀ s : State,
    let b : State := { s with link.breakState := true, link.receiver := .inBreak, link.heldSpace := false }
    (∀ w : ResumeState, s.line.state = w.lineState →
      exec .breakBegin s = .next { b with
        line.state := .halted .linkBreak w, strokes.queue := [], strokes.consecutive := 0 }) ∧
    (s.line.state = .idle ∨ s.line.state.isHalted = true ∨ s.line.state = .looptest → exec .breakBegin s = .next b)

/-- The return transmitter becomes free: the REPORT first, else the oldest answer, else it stays FREE (R158, R159). -/
def Obligations.TransmitterFreeTakesReportThenAnswer : Prop :=
  ∀ s : State,
    (∀ r, s.strokes.slot = some r →
      exec .transmitterFree s = .next { s with link.tx := some (.report r), strokes.slot := none }) ∧
    (∀ a rest, s.strokes.slot = none → s.mgmt.answers = a :: rest →
      exec .transmitterFree s = .next { s with link.tx := some (.answer a), mgmt.answers := rest }) ∧
    (s.strokes.slot = none → s.mgmt.answers = [] → exec .transmitterFree s = .next { s with link.tx := none })

/-! ### Commands: common form, motif store -/

/-- Stages 1 and 2 of R169 and the first checks of SET and READ (R177, R179): an unknown code is answered UNKNOWN, arguments of
the wrong length and an unknown item RANGE; nothing else changes. A front command may execute exactly when the answer queue
has a free place and no LOOP_TEST has been executed at the front, whatever the line state; else it stays (R172). The model's
own in this: a LOAD_PART of the wrong length keeps the assembler (log entry 12), any row of its code executes it and a SET
or READ of no item (log entry 4), and a row that cannot occur leaves the state (log entry 2). -/
def Obligations.CommandFormJudgedFirst : Prop :=
  ∀ (s : State) (c : Command),
    (s.frontReady c → c.code ∉ knownCodes → exec .unknownCommand s = .next (answered c .unknown [] s)) ∧
    (s.frontReady c →
      ∀ x ∈ ([(.defineMotif, 0x01, 8), (.undefineMotif, 0x02, 1), (.loadPartFragment0, 0x03, 6),
          (.loadPartFragment1, 0x03, 6), (.loadPartFragment2, 0x03, 6), (.loadFlush, 0x04, 0), (.panelBegin, 0x10, 7),
          (.panelLane, 0x11, 7), (.panelCommit, 0x12, 0), (.panelDiscard, 0x13, 0), (.run, 0x20, 0), (.halt, 0x21, 0),
          (.resume, 0x22, 0), (.lineReset, 0x23, 0), (.loopTest, 0x24, 0), (.laneHold, 0x30, 1),
          (.laneRelease, 0x31, 1), (.laneStop, 0x32, 1), (.segmentRestore, 0x40, 1), (.needleRelease, 0x50, 1),
          (.takeDefect, 0x51, 0), (.clearCounts, 0x62, 0)] : List (Instr × Byte × Nat)),
        c.code = x.2.1 → c.args.length ≠ x.2.2 → exec x.1 s = .next (answered c .range [] s)) ∧
    (s.frontReady c →
      ∀ x ∈ ([(.setLaneMapEntry, 0x60, 1, 3), (.setSegmentCount, 0x60, 2, 2), (.setOperatorMask, 0x60, 3, 3),
          (.setDropLimit, 0x60, 4, 3), (.setUnderrunLimit, 0x60, 5, 2), (.setPackingOrder, 0x60, 6, 2),
          (.readLine, 0x61, 1, 1), (.readLane, 0x61, 2, 2), (.readSegment, 0x61, 3, 2), (.readMotif, 0x61, 4, 2),
          (.readRecord, 0x61, 5, 4), (.readPanel, 0x61, 6, 3), (.readDefects, 0x61, 7, 1),
          (.readAttention, 0x61, 8, 1), (.readCounts, 0x61, 9, 1), (.readConfig, 0x61, 10, 2),
          (.readAssembler, 0x61, 11, 1)] : List (Instr × Byte × Nat × Nat)),
        c.code = x.2.1 → itemOf c.args = x.2.2.1 → c.args.length ≠ x.2.2.2 →
          exec x.1 s = .next (answered c .range [] s)) ∧
    (s.frontReady c → c.code = 0x60 → itemOf c.args = 0 ∨ 6 < itemOf c.args →
      exec .setLaneMapEntry s = .next (answered c .range [] s)) ∧
    (s.frontReady c → c.code = 0x61 → itemOf c.args = 0 ∨ 11 < itemOf c.args →
      exec .readLine s = .next (answered c .range [] s)) ∧
    (s.mgmt.commands.head? = some c → 8 ≤ s.mgmt.answers.length + s.mgmt.reserved.toNat ∨ s.mgmt.reserved = true →
      exec .lineReset s = .next s ∧ exec .readLine s = .next s ∧ exec .loadFlush s = .next s) ∧
    (s.frontReady c ↔
      s.mgmt.commands.head? = some c ∧ s.mgmt.answers.length < 8 ∧ s.mgmt.reserved = false)

/-- An accepted DEFINE_MOTIF (R8, R9): the entry, END in every record of the motif, every other place as before, a
partial for the motif discarded. -/
def Obligations.DefineMotifFillsWithEnd : Prop :=
  ∀ (s : State) (c : Command) (m : Fin 64) (m8 first count lenLow lenHigh flags loopLow loopHigh : Byte),
    s.frontReady c → c.code = 0x01 → c.args = [m8, first, count, lenLow, lenHigh, flags, loopLow, loopHigh] →
    m8.toNat = m.val →
    let length := wordOf lenLow lenHigh
    let loop := if flags.getLsbD 0 then some (wordOf loopLow loopHigh) else none
    defineArguments first.toNat count.toNat length loop → StoreLaw s.store →
    ¬ rangeTaken m first.toNat count.toNat s.store → s.store.directory[m].inUse = 0 →
    ∃ st, exec .defineMotif s = .next (answered c .done [] { s with store := st }) ∧
      st.directory = s.store.directory.set m
        { defined := true, firstPage := first.toNat, pageCount := count.toNat, length := length, loopIndex := loop,
          inUse := 0 } ∧
      (∀ a, st.records.read a =
        if first.toNat * 64 ≤ a ∧ a < first.toNat * 64 + length then 0 else s.store.records.read a) ∧
      st.assembler = keptPartial m s.store.assembler ∧ st.packing = s.store.packing ∧
      ∀ i < length, st.recordAt m i = .endRecord

/-- A refused DEFINE_MOTIF, in the order of R8, changes nothing. -/
def Obligations.DefineMotifRefusedInOrder : Prop :=
  ∀ (s : State) (c : Command) (m8 first count lenLow lenHigh flags loopLow loopHigh : Byte),
    s.frontReady c → c.code = 0x01 → c.args = [m8, first, count, lenLow, lenHigh, flags, loopLow, loopHigh] →
    StoreLaw s.store →
    let length := wordOf lenLow lenHigh
    let loop := if flags.getLsbD 0 then some (wordOf loopLow loopHigh) else none
    (64 ≤ m8.toNat ∨ ¬ defineArguments first.toNat count.toNat length loop →
      exec .defineMotif s = .next (answered c .range [] s)) ∧
    (∀ m : Fin 64, m8.toNat = m.val → defineArguments first.toNat count.toNat length loop →
      rangeTaken m first.toNat count.toNat s.store → exec .defineMotif s = .next (answered c .overlap [] s)) ∧
    (∀ m : Fin 64, m8.toNat = m.val → defineArguments first.toNat count.toNat length loop →
      ¬ rangeTaken m first.toNat count.toNat s.store → 0 < s.store.directory[m].inUse →
      exec .defineMotif s = .next (answered c .inUse [] s))

/-- UNDEFINE_MOTIF (R10). -/
def Obligations.UndefineMotifFreesOrRefuses : Prop :=
  ∀ (s : State) (c : Command) (m8 : Byte), s.frontReady c → c.code = 0x02 → c.args = [m8] →
    (64 ≤ m8.toNat → exec .undefineMotif s = .next (answered c .range [] s)) ∧
    ∀ m : Fin 64, m8.toNat = m.val →
      (s.store.directory[m].defined = false → exec .undefineMotif s = .next (answered c .notDefined [] s)) ∧
      (s.store.directory[m].defined = true → 0 < s.store.directory[m].inUse →
        exec .undefineMotif s = .next (answered c .inUse [] s)) ∧
      (s.store.directory[m].defined = true → s.store.directory[m].inUse = 0 →
        exec .undefineMotif s = .next (answered c .done []
          { s with
            store.directory := s.store.directory.set m
              { defined := false, firstPage := 0, pageCount := 0, length := 0, loopIndex := none, inUse := 0 }
            store.assembler := keptPartial m s.store.assembler }))

/-- The checks every LOAD_PART passes first, in order (R13): each refusal discards the partial and writes no record. That a
fragment above 2 executes at each of the three rows is the model's choice (log entry 4). -/
def Obligations.LoadPartCheckedFirst : Prop :=
  ∀ (s : State) (c : Command) (m8 low high fragment dataLow dataHigh : Byte),
    s.frontReady c → c.code = 0x03 → c.args = [m8, low, high, fragment, dataLow, dataHigh] →
    ∀ x ∈ ([(.loadPartFragment0, 0), (.loadPartFragment1, 1), (.loadPartFragment2, 2)] : List (Instr × Nat)),
      fragment.toNat = x.2 ∨ 2 < fragment.toNat →
      let refused (r : Result) := Host.Outcome.next (answered c r [] { s with store.assembler := none })
      (64 ≤ m8.toNat ∨ 8191 < wordOf low high ∨ 2 < fragment.toNat → exec x.1 s = refused .range) ∧
      ∀ m : Fin 64, m8.toNat = m.val → wordOf low high ≤ 8191 → fragment.toNat ≤ 2 →
        (s.store.directory[m].defined = false → exec x.1 s = refused .notDefined) ∧
        (s.store.directory[m].defined = true → s.store.directory[m].length ≤ wordOf low high →
          exec x.1 s = refused .range) ∧
        (s.store.directory[m].defined = true → wordOf low high < s.store.directory[m].length →
          0 < s.store.directory[m].inUse → exec x.1 s = refused .inUse)

/-- Fragments 0 and 1 that pass the checks of R13 (R14, R15). -/
def Obligations.LoadPartFragmentsHeld : Prop :=
  ∀ (s : State) (c : Command) (m : Fin 64) (m8 low high fragment dataLow dataHigh : Byte),
    s.frontReady c → c.code = 0x03 → c.args = [m8, low, high, fragment, dataLow, dataHigh] → m8.toNat = m.val →
    wordOf low high ≤ 8191 → s.store.directory[m].defined = true →
    wordOf low high < s.store.directory[m].length → s.store.directory[m].inUse = 0 →
    (fragment = 0 →
      exec .loadPartFragment0 s = .next (answered c .partHeld [1]
        { s with
          store.assembler :=
            some { motif := m, index := wordOf low high, fragment0 := dataHigh ++ dataLow, fragment1 := none } })) ∧
    (fragment = 1 →
      (∀ f0, s.store.assembler =
          some { motif := m, index := wordOf low high, fragment0 := f0, fragment1 := none } →
        exec .loadPartFragment1 s = .next (answered c .partHeld [2]
          { s with
            store.assembler :=
              some { motif := m, index := wordOf low high, fragment0 := f0,
                     fragment1 := some (dataHigh ++ dataLow) } })) ∧
      ((∀ f0, s.store.assembler ≠
          some { motif := m, index := wordOf low high, fragment0 := f0, fragment1 := none }) →
        exec .loadPartFragment1 s = .next (answered c .sequence [] { s with store.assembler := none })))

/-- Fragment 2 that passes the checks of R13 (R15, R16): the joined record, if valid, is written to its place and to no
other; an invalid one is refused RANGE, one out of sequence SEQUENCE, each discarding the partial. -/
def Obligations.LoadPartWritesOneRecord : Prop :=
  ∀ (s : State) (c : Command) (m : Fin 64) (m8 low high dataLow dataHigh : Byte),
    s.frontReady c → c.code = 0x03 → c.args = [m8, low, high, 2, dataLow, dataHigh] → m8.toNat = m.val →
    wordOf low high ≤ 8191 → s.store.directory[m].defined = true →
    wordOf low high < s.store.directory[m].length → s.store.directory[m].inUse = 0 → s.store.records.wf = true →
    (∀ f0 f1, s.store.assembler =
        some { motif := m, index := wordOf low high, fragment0 := f0, fragment1 := some f1 } →
      let w : RecordWord :=
        if s.store.packing = .highFirst then f0 ++ f1 ++ (dataHigh ++ dataLow) else (dataHigh ++ dataLow) ++ f1 ++ f0
      (validWord w = true → ∃ records,
        exec .loadPartFragment2 s =
          .next (answered c .done [] { s with store := { s.store with records := records, assembler := none } }) ∧
        records.read ((s.store.directory[m].firstPage + wordOf low high / 64) * 64 + wordOf low high % 64) = w ∧
        ∀ a, a ≠ (s.store.directory[m].firstPage + wordOf low high / 64) * 64 + wordOf low high % 64 →
          records.read a = s.store.records.read a) ∧
      (validWord w = false →
        exec .loadPartFragment2 s = .next (answered c .range [] { s with store.assembler := none }))) ∧
    ((∀ f0 f1, s.store.assembler ≠
        some { motif := m, index := wordOf low high, fragment0 := f0, fragment1 := some f1 }) →
      exec .loadPartFragment2 s = .next (answered c .sequence [] { s with store.assembler := none }))

/-- LOAD_FLUSH (R17). -/
def Obligations.LoadFlushDiscardsPartial : Prop :=
  ∀ (s : State) (c : Command), s.frontReady c → c.code = 0x04 → c.args = [] →
    (∀ x, s.store.assembler = some x →
      exec .loadFlush s = .next (answered c .done [] { s with store.assembler := none })) ∧
    (s.store.assembler = none → exec .loadFlush s = .next (answered c .empty [] s))

/-! ### Staging -/

/-- PANEL_BEGIN (R24). -/
def Obligations.PanelBeginOpensBuffer : Prop :=
  ∀ (s : State) (c : Command) (tag0 tag1 len0 len1 gap0 gap1 rep : Byte),
    s.frontReady c → c.code = 0x10 → c.args = [tag0, tag1, len0, len1, gap0, gap1, rep] →
    (wordOf len0 len1 = 0 ∨ 4095 < wordOf gap0 gap1 ∨ (rep ≠ 0 ∧ rep ≠ 1) →
      exec .panelBegin s = .next (answered c .range [] s)) ∧
    (wordOf len0 len1 ≠ 0 → wordOf gap0 gap1 ≤ 4095 → rep = 0 ∨ rep = 1 →
      exec .panelBegin s = .next (answered c .done []
        { s with
          stager.staging :=
            some { tag := tag1 ++ tag0, length := wordOf len0 len1, seamGap := wordOf gap0 gap1,
                   repeats := decide (rep = 1), assignments := [] } }))

/-- PANEL_LANE (R25). -/
def Obligations.PanelLaneAppends : Prop :=
  ∀ (s : State) (c : Command) (lane motif scale off0 off1 loop tension : Byte),
    s.frontReady c → c.code = 0x11 → c.args = [lane, motif, scale, off0, off1, loop, tension] →
    (s.stager.staging = none → exec .panelLane s = .next (answered c .sequence [] s)) ∧
    ∀ p, s.stager.staging = some p →
      (7 < lane.toNat ∨ 63 < motif.toNat ∨ scale ∉ ([1, 2, 4, 8] : List Byte) ∨ (loop ≠ 0 ∧ loop ≠ 1) ∨
          15 < tension.toNat ∨ 8 ≤ p.assignments.length →
        exec .panelLane s = .next (answered c .range [] s)) ∧
      ∀ (l : Fin 8) (m : Fin 64) (x : Scale), lane.toNat = l.val → motif.toNat = m.val → scale.toNat = x.factor →
        loop = 0 ∨ loop = 1 → tension.toNat ≤ 15 → p.assignments.length < 8 →
        exec .panelLane s = .next (answered c .done []
          { s with
            stager.staging := some { p with
              assignments := p.assignments ++
                [{ lane := l, motif := m, scale := x, startOffset := wordOf off0 off1, loopAllowed := decide (loop = 1),
                   tension := tension.extractLsb' 0 4 }] } })

/-- PANEL_COMMIT (R26 to R28): SEQUENCE, LATE, INVALID with the first failing entry and reason, DONE or REPLACED; the
releases of the replaced panel come before the gains of the new one. -/
def Obligations.PanelCommitJudgedInOrder : Prop :=
  ∀ (s : State) (c : Command), s.frontReady c → c.code = 0x12 → c.args = [] →
    (s.stager.staging = none → exec .panelCommit s = .next (answered c .sequence [] s)) ∧
    ∀ p, s.stager.staging = some p →
      (s.line.state.feedsSeam = true → exec .panelCommit s = .next (answered c .late [] s)) ∧
      (s.line.state.feedsSeam = false → p.assignments = [] →
        exec .panelCommit s = .next (answered c .invalid [4, 0] { s with stager.staging := none })) ∧
      (s.line.state.feedsSeam = false → ∀ earlier a rest, p.assignments = earlier ++ a :: rest →
        (∀ e b r, earlier = e ++ b :: r → s.entryPasses e b) → ¬ s.entryPasses earlier a →
        exec .panelCommit s = .next (answered c .invalid [refusalReason s a, BitVec.ofNat 8 earlier.length]
          { s with stager.staging := none })) ∧
      (s.line.state.feedsSeam = false → p.assignments ≠ [] →
        (∀ e b r, p.assignments = e ++ b :: r → s.entryPasses e b) →
        ∃ directory : Vector DirEntry 64,
          (∀ m : Fin 64, directory[m] =
            { s.store.directory[m] with
              inUse := s.store.directory[m].inUse - namesIn s.stager.pendingPanel m + p.names m }) ∧
          exec .panelCommit s = .next (answered c (if s.stager.pendingPanel = none then .done else .replaced)
            ((s.stager.pendingPanel.map fun old => le16 old.tag.toNat).getD [])
            { s with
              stager := { staging := none, pendingPanel := some p }
              store.directory := directory }))

/-- PANEL_DISCARD (R31). -/
def Obligations.PanelDiscardReleases : Prop :=
  ∀ (s : State) (c : Command), s.frontReady c → c.code = 0x13 → c.args = [] →
    (s.stager.pendingPanel = none → exec .panelDiscard s = .next (answered c .empty [] s)) ∧
    ∀ p, s.stager.pendingPanel = some p →
      ∃ directory : Vector DirEntry 64,
        (∀ m : Fin 64, directory[m] =
          { s.store.directory[m] with inUse := s.store.directory[m].inUse - p.names m }) ∧
        exec .panelDiscard s = .next (answered c .done []
          { s with stager.pendingPanel := none, store.directory := directory })

/-! ### Line commands -/

/-- RUN (R68 to R70, R41 to R43, R57, R110, R135, R147): checks in order; else the pending panel becomes ACTIVE at position 0
with the next panel serial, unassigned lanes are VACANT, assigned lanes are loaded and skip-walked and, if SEWING then,
stopped by DROP exactly when their lost needles after the release reach their limit; the segments of a stopped lane are
centred, rethreaded needles are released, and no marker is raised. A shaft index that waited through a loop test and is
still due is served first, in IDLE as R85 has it: the RUN starts from what WAITED_SHAFT_INDEX leaves, which is the state
itself when none is due (the model's reading, log entry 8). -/
def Obligations.RunStartsPendingPanel : Prop :=
  ∀ (s : State) (c : Command), s.frontReady c → c.code = 0x20 → c.args = [] →
    (s.link.breakState = true → exec .run s = .next (answered c .breakActive [] s)) ∧
    (s.link.breakState = false → s.line.state ≠ .idle → exec .run s = .next (answered c .wrongState [] s)) ∧
    (s.link.breakState = false → s.line.state = .idle → s.stager.pendingPanel = none →
      exec .run s = .next (answered c .noPanel [] s)) ∧
    ∀ p, s.link.breakState = false → s.line.state = .idle → s.stager.pendingPanel = some p →
      let u := serveWaited s
      exec .waitedShaftIndex s = .next u ∧ (s.head.waiting = false → u = s) ∧ u.line = s.line ∧ u.stager = s.stager ∧
      u.store = s.store ∧
      ∃ t, exec .run s =
          .next (answered c .done (le16 (s.line.serial + 1).toNat ++ le16 p.tag.toNat) t) ∧
        t.line = { state := .running, program := some { role := .active, panel := p }, position := 0, seam := 0,
                   serial := s.line.serial + 1 } ∧
        t.stager = { s.stager with pendingPanel := none } ∧ t.store = s.store ∧ t.strokes = u.strokes ∧
        t.engine.markers = u.engine.markers ∧ t.head = u.head ∧ t.mgmt = u.mgmt ∧ t.link = u.link ∧
        (∀ l : Fin 8, p.assignmentOf l = none → t.lane l = { u.lane l with state := .vacant }) ∧
        (∀ (l : Fin 8) (a : Assignment), p.assignmentOf l = some a →
          t.lane l = startLane s.store a (u.lane l) ∨
            (startLane s.store a (u.lane l)).state = .sewing ∧
              t.lane l = (startLane s.store a (u.lane l)).stop .drop) ∧
        (∀ l : Fin 8, t.lane l = u.startedLane p l) ∧
        (∀ (g : Fin 16) (l : Fin 8) (k : StopCause), u.composer.laneMap[g] = some l →
          (t.lane l).state = .stopped k → t.composer.lastLateral[g] = 0) ∧
        (∀ g : Fin 16, (∀ (l : Fin 8) (k : StopCause), u.composer.laneMap[g] = some l → (t.lane l).state ≠ .stopped k) →
          t.composer.lastLateral[g] = u.composer.lastLateral[g]) ∧
        ∀ g : Fin 16, t.thread.faultMask[g] = u.thread.faultMask[g] &&& ~~~u.thread.rethread[g] ∧
          t.thread.rethread[g] = u.thread.rethread[g] &&& ~~~u.thread.faultMask[g] ∧
          t.thread.presence[g] = u.thread.presence[g]

/-- HALT and RESUME (R78 to R80). -/
def Obligations.HaltAndResume : Prop :=
  ∀ (s : State) (c : Command), s.frontReady c → c.args = [] →
    (c.code = 0x21 →
      (s.line.state = .running →
        exec .halt s = .next (answered c .done [0x3B]
          { s with line.state := .halted .command .running, strokes.queue := [], strokes.consecutive := 0 })) ∧
      (s.line.state = .changeover →
        exec .halt s = .next (answered c .done [0x5B]
          { s with line.state := .halted .command .changeover, strokes.queue := [], strokes.consecutive := 0 })) ∧
      (s.line.state = .idle ∨ s.line.state.isHalted = true →
        exec .halt s = .next (answered c .wrongState [] s))) ∧
    (c.code = 0x22 →
      (s.line.state.isHalted = false → exec .resume s = .next (answered c .wrongState [] s)) ∧
      (s.line.state.isHalted = true → s.link.breakState = true →
        exec .resume s = .next (answered c .breakActive [] s)) ∧
      ∀ cause, s.link.breakState = false →
        (s.line.state = .halted cause .running →
          exec .resume s = .next (answered c .done [1] { s with line.state := .running })) ∧
        (s.line.state = .halted cause .changeover →
          exec .resume s = .next (answered c .done [2] { s with line.state := .changeover })))

/-- LINE_RESET (R5, R11, R32, R39, R58, R82, R89, R94, R102): the whole of what it changes; under the in-use law every
in-use count becomes 0. -/
def Obligations.LineResetReturnsToIdle : Prop :=
  ∀ (s : State) (c : Command), s.frontReady c → c.code = 0x23 → c.args = [] → InUseLaw s →
    ∃ directory : Vector DirEntry 64,
      (∀ m : Fin 64, directory[m] = { s.store.directory[m] with inUse := 0 }) ∧
      exec .lineReset s = .next (answered c .done []
        { s with
          store.directory := directory
          store.assembler := none
          stager := { staging := none, pendingPanel := none }
          engine := { lanes := Vector.replicate 8 LaneContext.blank, markers := [] }
          line := { state := .idle, program := none, position := 0, seam := 0, serial := s.line.serial }
          strokes.queue := []
          strokes.consecutive := 0
          strokes.slot := none })

/-- LOOP_TEST (R84, R89, R123, R173): refused outside IDLE; in IDLE the line is LOOPTEST, the stroke queue empty, the
transmitter claimed and an answer place reserved, no answer is given and the command stays; a FREE transmitter begins the
looped frame at once. A shaft index still due from an earlier test is served first, as at a RUN, and the test then waits for
its frame and window (the model's reading, log entry 8). -/
def Obligations.LoopTestClaimsTransmitter : Prop :=
  ∀ (s : State) (c : Command), s.frontReady c → c.code = 0x24 → c.args = [] →
    (s.line.state ≠ .idle → exec .loopTest s = .next (answered c .wrongState [] s)) ∧
    (s.line.state = .idle →
      let u := serveWaited s
      exec .waitedShaftIndex s = .next u ∧ (s.head.waiting = false → u = s) ∧
      (s.head.waiting = true → s.head.claim = false → s.hldirOutbound = false →
        u.head.waiting = false ∧ ∃ f, u.head.tx = .sending f) ∧
      (u.head.tx = .free →
        exec .loopTest s = .next
          { u with
            line.state := .looptest
            strokes.queue := []
            head.claim := true
            mgmt.reserved := true
            head.tx := .loop (some { count := u.head.segmentCount, passed := [] }) }) ∧
      ((∃ f, u.head.tx = .sending f) ∨ (∃ received, u.head.tx = .window received) →
        exec .loopTest s = .next
          { u with line.state := .looptest, strokes.queue := [], head.claim := true, mgmt.reserved := true }))

/-! ### Lane, segment, needle and defect commands -/

/-- LANE_HOLD and LANE_RELEASE (R60 to R62). -/
def Obligations.LaneHoldAndRelease : Prop :=
  ∀ (s : State) (c : Command) (lane : Byte), s.frontReady c → c.args = [lane] →
    (c.code = 0x30 →
      (7 < lane.toNat → exec .laneHold s = .next (answered c .range [] s)) ∧
      ∀ l : Fin 8, lane.toNat = l.val →
        ((s.lane l).state = .sewing →
          exec .laneHold s = .next (answered c .done [3] (s.setLane l { s.lane l with state := .held }))) ∧
        ((s.lane l).state ≠ .sewing → exec .laneHold s = .next (answered c .wrongState [] s))) ∧
    (c.code = 0x31 →
      (7 < lane.toNat → exec .laneRelease s = .next (answered c .range [] s)) ∧
      ∀ l : Fin 8, lane.toNat = l.val →
        ((s.lane l).state = .held →
          exec .laneRelease s = .next (answered c .done [2] (s.setLane l { s.lane l with state := .sewing }))) ∧
        ((s.lane l).state ≠ .held → exec .laneRelease s = .next (answered c .wrongState [] s)))

/-- LANE_STOP (R56, R60, R63, R110): STOPPED with cause COMMAND at current lateral 0, all else of the lane kept, the last
laterals of its segments 0. -/
def Obligations.LaneStopCentresLane : Prop :=
  ∀ (s : State) (c : Command) (lane : Byte), s.frontReady c → c.code = 0x32 → c.args = [lane] →
    (7 < lane.toNat → exec .laneStop s = .next (answered c .range [] s)) ∧
    ∀ l : Fin 8, lane.toNat = l.val →
      ((s.lane l).state = .sewing ∨ (s.lane l).state = .held ∨ (s.lane l).state = .finished →
        ∃ laterals : Vector Lateral 16,
          (∀ g : Fin 16, laterals[g] =
            if s.composer.laneMap[g] = some l then 0 else s.composer.lastLateral[g]) ∧
          exec .laneStop s = .next (answered c .done [5]
            { s with
              engine.lanes := s.engine.lanes.set l { s.lane l with state := .stopped .command, currentLateral := 0 }
              composer.lastLateral := laterals })) ∧
      ((s.lane l).state = .vacant ∨ (s.lane l).state = .standby ∨ (∃ k, (s.lane l).state = .stopped k) →
        exec .laneStop s = .next (answered c .wrongState [] s))

/-- SEGMENT_RESTORE and NEEDLE_RELEASE (R122, R129, R136, R138). -/
def Obligations.SegmentRestoreAndNeedleRelease : Prop :=
  ∀ (s : State) (c : Command) (n : Byte), s.frontReady c → c.args = [n] →
    (c.code = 0x40 →
      (16 ≤ n.toNat ∨ s.head.segmentCount ≤ n.toNat →
        exec .segmentRestore s = .next (answered c .range [] s)) ∧
      ∀ g : Fin 16, n.toNat = g.val → g.val < s.head.segmentCount →
        exec .segmentRestore s = .next
          (answered c .done [BitVec.ofNat 8 s.head.segments[g].state.code]
            { s with
              head.segments := s.head.segments.set g { state := .online, badReturns := 0 }
              thread.presence := s.thread.presence.set g (Vector.replicate 8 .unknown)
              thread.bobbinLow := s.thread.bobbinLow.set g false
              mgmt.latches.segmentChange :=
                s.mgmt.latches.segmentChange || decide (s.head.segments[g].state ≠ .online) })) ∧
    (c.code = 0x50 →
      (127 < n.toNat → exec .needleRelease s = .next (answered c .range [] s)) ∧
      (n.toNat ≤ 127 → s.line.state ≠ .idle → s.line.state.isHalted = false →
        exec .needleRelease s = .next (answered c .wrongState [] s)) ∧
      ∀ (g : Fin 16) (p : Fin 8), n.toNat = 8 * g.val + p.val →
        s.line.state = .idle ∨ s.line.state.isHalted = true →
        exec .needleRelease s = .next
          (answered c .done
            [BitVec.ofNat 8 ((s.thread.faultMask[g].getLsbD p).toNat + 2 * (s.thread.rethread[g].getLsbD p).toNat)]
            { s with
              thread.faultMask := s.thread.faultMask.set g (s.thread.faultMask[g] &&& ~~~(1#8 <<< p.val))
              thread.rethread := s.thread.rethread.set g (s.thread.rethread[g] &&& ~~~(1#8 <<< p.val)) }))

/-- TAKE_DEFECT and CLEAR_COUNTS (R143, R183, R191). -/
def Obligations.TakeDefectAndClearCounts : Prop :=
  ∀ (s : State) (c : Command), s.frontReady c → c.args = [] →
    (c.code = 0x51 →
      (∀ d rest, s.thread.defects = d :: rest → d.bytes.length = 13 ∧ d.bytes = d.fields ∧
        exec .takeDefect s = .next (answered c .done d.bytes { s with thread.defects := rest })) ∧
      (s.thread.defects = [] → exec .takeDefect s = .next (answered c .empty [] s))) ∧
    (c.code = 0x62 →
      exec .clearCounts s = .next
        (answered c .done (le16 s.link.errorCount ++ le16 s.strokes.total ++ le16 s.thread.totalBreaks)
          { s with link.errorCount := 0, strokes.total := 0, thread.totalBreaks := 0 }))

/-! ### SET and READ -/

/-- The SET items of IDLE: lane map entry and segment count (R104, R105, R129, R138, R177). -/
def Obligations.SetLaneMapAndSegmentCount : Prop :=
  ∀ (s : State) (c : Command), s.frontReady c → c.code = 0x60 →
    (∀ seg lane : Byte, c.args = [1, seg, lane] →
      (15 < seg.toNat ∨ 8 < lane.toNat → exec .setLaneMapEntry s = .next (answered c .range [] s)) ∧
      (seg.toNat ≤ 15 → lane.toNat ≤ 8 → s.line.state ≠ .idle →
        exec .setLaneMapEntry s = .next (answered c .wrongState [] s)) ∧
      (∀ (g : Fin 16) (l : Fin 8), seg.toNat = g.val → lane.toNat = l.val → s.line.state = .idle →
        exec .setLaneMapEntry s =
          .next (answered c .done [] { s with composer.laneMap := s.composer.laneMap.set g (some l) })) ∧
      (∀ g : Fin 16, seg.toNat = g.val → lane = 8 → s.line.state = .idle →
        exec .setLaneMapEntry s =
          .next (answered c .done [] { s with composer.laneMap := s.composer.laneMap.set g none }))) ∧
    (∀ n : Byte, c.args = [2, n] →
      (n.toNat = 0 ∨ 16 < n.toNat → exec .setSegmentCount s = .next (answered c .range [] s)) ∧
      (1 ≤ n.toNat → n.toNat ≤ 16 → s.line.state ≠ .idle →
        exec .setSegmentCount s = .next (answered c .wrongState [] s)) ∧
      (1 ≤ n.toNat → n.toNat ≤ 16 → s.line.state = .idle → (∀ g : Fin 16, s.head.segments[g].wf) →
        ∃ (segments : Vector Segment 16) (presence : Vector (Vector Presence 8) 16) (low : Vector Bool 16) (change : Bool),
          (∀ g : Fin 16,
            let included := decide (g.val < n.toNat ∧ s.head.segments[g].state = .off)
            segments[g] =
              (if n.toNat ≤ g.val then { state := .off, badReturns := 0 }
               else if s.head.segments[g].state = .off then { state := .online, badReturns := 0 }
               else s.head.segments[g]) ∧
            presence[g] = (if included then Vector.replicate 8 .unknown else s.thread.presence[g]) ∧
            low[g] = (if included then false else s.thread.bobbinLow[g])) ∧
          (change = true ↔ s.mgmt.latches.segmentChange = true ∨
            ∃ g : Fin 16, segments[g].state ≠ s.head.segments[g].state) ∧
          exec .setSegmentCount s = .next (answered c .done []
            { s with
              head.segmentCount := n.toNat
              head.segments := segments
              thread.presence := presence
              thread.bobbinLow := low
              mgmt.latches.segmentChange := change })))

/-- The SET items of any line state (R12, R96, R106, R145, R177). -/
def Obligations.SetMaskLimitsAndPacking : Prop :=
  ∀ (s : State) (c : Command), s.frontReady c → c.code = 0x60 →
    (∀ seg mask : Byte, c.args = [3, seg, mask] →
      (15 < seg.toNat → exec .setOperatorMask s = .next (answered c .range [] s)) ∧
      ∀ g : Fin 16, seg.toNat = g.val →
        exec .setOperatorMask s =
          .next (answered c .done [] { s with composer.operatorMask := s.composer.operatorMask.set g mask })) ∧
    (∀ lane limit : Byte, c.args = [4, lane, limit] →
      (7 < lane.toNat ∨ 128 < limit.toNat → exec .setDropLimit s = .next (answered c .range [] s)) ∧
      ∀ l : Fin 8, lane.toNat = l.val → limit.toNat ≤ 128 →
        exec .setDropLimit s =
          .next (answered c .done [] { s with thread.dropLimit := s.thread.dropLimit.set l limit.toNat })) ∧
    (∀ limit : Byte, c.args = [5, limit] →
      (limit.toNat = 0 ∨ 15 < limit.toNat → exec .setUnderrunLimit s = .next (answered c .range [] s)) ∧
      (1 ≤ limit.toNat → limit.toNat ≤ 15 →
        exec .setUnderrunLimit s = .next (answered c .done []
          { s with
            strokes.limit := limit.toNat
            strokes.consecutive := if limit.toNat ≤ s.strokes.consecutive then 0 else s.strokes.consecutive }))) ∧
    (∀ order : Byte, c.args = [6, order] →
      (1 < order.toNat → exec .setPackingOrder s = .next (answered c .range [] s)) ∧
      ∀ o : PackingOrder, order.toNat = o.code →
        exec .setPackingOrder s = .next (answered c .done []
          { s with
            store.packing := o
            store.assembler := if o = s.store.packing then s.store.assembler else none }))

/-- The READ items without arguments (R20, R86, R144, R163, R179, R182, R183, R188, R190, R191): DONE with the item's data,
field by field as its layout gives them; nothing changes, but that READ ATTENTION clears the nine latches. -/
def Obligations.ReadsWithoutArguments : Prop :=
  ∀ (s : State) (c : Command), s.frontReady c → c.code = 0x61 →
    (c.args = [1] → s.lineData.length = 11 ∧
      (∀ x ∈ ([(none, 0), (some .active, 1), (some .incoming, 2)] : List (Option Role × Nat)),
        s.line.program.map LineProgram.role = x.1 → s.lineData =
          [s.line.state.statusByte, BitVec.ofNat 8 (s.link.breakState.toNat + 2 * x.2)] ++ le16 s.line.serial.toNat ++
            le16 ((s.line.program.map fun q => q.panel.tag.toNat).getD 0) ++ le16 s.line.position ++ le16 s.line.seam ++
            [BitVec.ofNat 8 s.strokes.consecutive]) ∧
      (∀ x ∈ ([(.idle, 0x00), (.running, 0x01), (.changeover, 0x02), (.looptest, 0x04),
          (.halted .linkBreak .running, 0x2B), (.halted .underrun .running, 0x33), (.halted .command .running, 0x3B),
          (.halted .linkBreak .changeover, 0x4B), (.halted .underrun .changeover, 0x53),
          (.halted .command .changeover, 0x5B)] : List (LineState × Byte)), x.1.statusByte = x.2) ∧
      exec .readLine s = .next (answered c .done s.lineData s)) ∧
    (c.args = [7] → (defectsData s.thread.defects).length = 14 ∧
      (s.thread.defects = [] → defectsData s.thread.defects = List.replicate 14 0) ∧
      (∀ d rest, s.thread.defects = d :: rest →
        defectsData s.thread.defects = BitVec.ofNat 8 (rest.length + 1) :: d.fields) ∧
      exec .readDefects s = .next (answered c .done (defectsData s.thread.defects) s)) ∧
    (c.args = [8] →
      exec .readAttention s = .next
        (answered c .done
          [BitVec.ofNat 8 (bitsToNat [s.mgmt.latches.defectOverflow, s.mgmt.latches.markerLost,
              s.mgmt.latches.segmentChange, s.mgmt.latches.underrunSeen, s.mgmt.latches.linkError,
              s.mgmt.latches.commandDropped, s.mgmt.latches.bobbinLow, s.mgmt.latches.shaftEarly]),
           BitVec.ofNat 8 s.mgmt.latches.strokeRefused.toNat]
          { s with
            mgmt.latches :=
              { defectOverflow := false, markerLost := false, segmentChange := false, underrunSeen := false,
                linkError := false, commandDropped := false, bobbinLow := false, shaftEarly := false,
                strokeRefused := false } })) ∧
    (c.args = [9] →
      exec .readCounts s = .next
        (answered c .done (le16 s.link.errorCount ++ le16 s.strokes.total ++ le16 s.thread.totalBreaks) s)) ∧
    (c.args = [11] → s.store.assemblerData.length = 9 ∧
      (∀ x ∈ ([(.highFirst, 0), (.lowFirst, 1)] : List (PackingOrder × Nat)), s.store.packing = x.1 →
        (s.store.assembler = none →
          s.store.assemblerData = [BitVec.ofNat 8 (2 * x.2), 0, 0, 0, 0, 0, 0, 0, 0]) ∧
        (∀ m index f0, s.store.assembler = some { motif := m, index := index, fragment0 := f0, fragment1 := none } →
          s.store.assemblerData =
            [BitVec.ofNat 8 (1 + 2 * x.2), BitVec.ofNat 8 m.val] ++ le16 index ++ [1] ++ le16 f0.toNat ++ [0, 0]) ∧
        ∀ m index f0 f1,
          s.store.assembler = some { motif := m, index := index, fragment0 := f0, fragment1 := some f1 } →
          s.store.assemblerData =
            [BitVec.ofNat 8 (1 + 2 * x.2), BitVec.ofNat 8 m.val] ++ le16 index ++ [2] ++ le16 f0.toNat ++
              le16 f1.toNat) ∧
      exec .readAssembler s = .next (answered c .done s.store.assemblerData s))

/-- The READ items with arguments (R18, R19, R35, R36, R64, R126, R180, R185, R186, R188 to R190): DONE with the item's
data, field by field as its layout gives them, or the refusal of its rule; nothing changes. -/
def Obligations.ReadsWithArguments : Prop :=
  ∀ (s : State) (c : Command), s.frontReady c → c.code = 0x61 →
    (∀ n : Byte, c.args = [2, n] →
      (7 < n.toNat → exec .readLane s = .next (answered c .range [] s)) ∧
      ∀ l : Fin 8, n.toNat = l.val → (s.lane l).data.length = 14 ∧
        (∀ x ∈ ([(.vacant, 0x00), (.standby, 0x01), (.sewing, 0x02), (.held, 0x03), (.finished, 0x04),
            (.stopped .command, 0x0D), (.stopped .drop, 0x15), (.stopped .loopFault, 0x1D)] : List (LaneState × Nat)),
          (s.lane l).state = x.1 → (s.lane l).data =
            [BitVec.ofNat 8 (x.2 + 32 * (s.lane l).lockOdd.toNat + 64 * (s.lane l).loopAllowed.toNat),
             BitVec.ofNat 8 (s.lane l).motif.val, BitVec.ofNat 8 (s.lane l).scale.factor] ++
              le16 (s.lane l).recordIndex ++ le16 ((s.lane l).fromLateral.signExtend 16).toNat ++
              le16 (s.lane l).leftInStep ++ le16 ((s.lane l).currentLateral.signExtend 16).toNat ++
              [BitVec.ofNat 8 (s.lane l).tension.toNat, BitVec.ofNat 8 (s.lane l).loopPasses, (s.lane l).engage]) ∧
        exec .readLane s = .next (answered c .done (s.lane l).data s)) ∧
    (∀ n : Byte, c.args = [3, n] →
      (15 < n.toNat → exec .readSegment s = .next (answered c .range [] s)) ∧
      ∀ g : Fin 16, n.toNat = g.val → (s.segmentData g).length = 9 ∧
        (∀ x ∈ ([(.off, 0), (.online, 1), (.suspect, 2), (.lost, 3)] : List (SegmentState × Nat)),
          s.head.segments[g].state = x.1 → ∃ known present : Byte,
            (∀ p : Fin 8, (known.getLsbD p = true ↔ s.thread.presence[g][p] ≠ .unknown) ∧
              (present.getLsbD p = true ↔ s.thread.presence[g][p] = .present)) ∧
            s.segmentData g =
              [BitVec.ofNat 8 (x.2 + 4 * s.head.segments[g].badReturns + 16 * s.thread.bobbinLow[g].toNat),
               BitVec.ofNat 8 ((s.composer.laneMap[g].map Fin.val).getD 8)] ++
                le16 (s.composer.lastLateral[g].signExtend 16).toNat ++
                [s.composer.operatorMask[g], known, present, s.thread.faultMask[g], s.thread.rethread[g]]) ∧
        exec .readSegment s = .next (answered c .done (s.segmentData g) s)) ∧
    (∀ n : Byte, c.args = [4, n] →
      (63 < n.toNat → exec .readMotif s = .next (answered c .range [] s)) ∧
      ∀ m : Fin 64, n.toNat = m.val → s.store.directory[m].data.length = 8 ∧
        s.store.directory[m].data =
          [BitVec.ofNat 8 (s.store.directory[m].defined.toNat + 2 * s.store.directory[m].loopIndex.isSome.toNat),
           BitVec.ofNat 8 s.store.directory[m].firstPage, BitVec.ofNat 8 s.store.directory[m].pageCount] ++
            le16 s.store.directory[m].length ++ le16 (s.store.directory[m].loopIndex.getD 0) ++
            [BitVec.ofNat 8 s.store.directory[m].inUse] ∧
        exec .readMotif s = .next (answered c .done s.store.directory[m].data s)) ∧
    (∀ n low high : Byte, c.args = [5, n, low, high] →
      (63 < n.toNat ∨ 8191 < wordOf low high → exec .readRecord s = .next (answered c .range [] s)) ∧
      ∀ m : Fin 64, n.toNat = m.val → wordOf low high ≤ 8191 →
        (s.store.directory[m].defined = false → exec .readRecord s = .next (answered c .notDefined [] s)) ∧
        (s.store.directory[m].defined = true → s.store.directory[m].length ≤ wordOf low high →
          exec .readRecord s = .next (answered c .range [] s)) ∧
        (s.store.directory[m].defined = true → wordOf low high < s.store.directory[m].length →
          (s.store.recordAt m (wordOf low high)).data.length = 9 ∧
            exec .readRecord s = .next (answered c .done (s.store.recordAt m (wordOf low high)).data s))) ∧
    (Record.endRecord.data = [0, 0, 0, 0, 0, 0, 0, 0, 0] ∧
      (∀ target span engage, (Record.move target span engage none).data =
        [1] ++ le16 (target.signExtend 16).toNat ++ le16 span ++ [engage, 0, 0, 0]) ∧
      (∀ target span engage tension, (Record.move target span engage (some tension)).data =
        [9] ++ le16 (target.signExtend 16).toNat ++ le16 span ++ [engage, BitVec.ofNat 8 tension.toNat, 0, 0]) ∧
      (∀ target span, (Record.jump target span).data =
        [2] ++ le16 (target.signExtend 16).toNat ++ le16 span ++ [0, 0, 0, 0]) ∧
      (∀ target span engage width, (Record.lock target span engage width).data =
        [3] ++ le16 (target.signExtend 16).toNat ++ le16 span ++ [engage, 0, width, 0]) ∧
      ∀ code, (Record.mark code).data = [4, 0, 0, 0, 0, 0, 0, 0, BitVec.ofNat 8 code.toNat]) ∧
    (∀ sel entry : Byte, c.args = [6, sel, entry] →
      (sel.toNat % 4 = 3 → exec .readPanel s = .next (answered c .range [] s)) ∧
      ∀ x ∈ ([(0, s.linePanel, s.line.program.map LineProgram.role), (1, s.stager.pendingPanel, none),
          (2, s.stager.staging, none)] : List (Nat × Option PanelProgram × Option Role)), sel.toNat % 4 = x.1 →
        (x.2.1 = none → exec .readPanel s = .next (answered c .empty [] s)) ∧
        ∀ p, x.2.1 = some p →
          (sel.toNat < 128 → exec .readPanel s = .next (answered c .done (p.headerData x.2.2) s)) ∧
          (128 ≤ sel.toNat → 7 < entry.toNat ∨ p.assignments.length ≤ entry.toNat →
            exec .readPanel s = .next (answered c .range [] s)) ∧
          (128 ≤ sel.toNat → entry.toNat ≤ 7 → ∀ a, p.assignments[entry.toNat]? = some a →
            exec .readPanel s = .next (answered c .done a.data s))) ∧
    (∀ (p : PanelProgram) (a : Assignment),
      (∀ x ∈ ([(none, 0), (some .active, 1), (some .incoming, 2)] : List (Option Role × Nat)), p.headerData x.1 =
        [BitVec.ofNat 8 (x.2 + 4 * p.repeats.toNat)] ++ le16 p.tag.toNat ++ le16 p.length ++ le16 p.seamGap ++
          [BitVec.ofNat 8 p.assignments.length]) ∧
      a.data = [BitVec.ofNat 8 a.lane.val, BitVec.ofNat 8 a.motif.val, BitVec.ofNat 8 a.scale.factor] ++
        le16 a.startOffset ++ [BitVec.ofNat 8 a.loopAllowed.toNat, BitVec.ofNat 8 a.tension.toNat]) ∧
    (∀ part : Byte, c.args = [10, part] →
      (1 < part.toNat → exec .readConfig s = .next (answered c .range [] s)) ∧
      (part = 0 → s.configData0.length = 19 ∧
        s.configData0[0]? = some (BitVec.ofNat 8 s.head.segmentCount) ∧
        s.configData0[1]? = some (BitVec.ofNat 8 s.strokes.limit) ∧
        s.configData0[2]? = some (if s.store.packing = .highFirst then 0 else 1) ∧
        (∀ (j : Fin 8) (g h : Fin 16), g.val = 2 * j.val → h.val = 2 * j.val + 1 →
          s.configData0[3 + j.val]? = some (BitVec.ofNat 8
            ((s.composer.laneMap[g].map Fin.val).getD 8 + 16 * (s.composer.laneMap[h].map Fin.val).getD 8))) ∧
        (∀ l : Fin 8, s.configData0[11 + l.val]? = some (BitVec.ofNat 8 s.thread.dropLimit[l])) ∧
        exec .readConfig s = .next (answered c .done s.configData0 s)) ∧
      (part = 1 → s.configData1.length = 16 ∧
        (∀ g : Fin 16, s.configData1[g.val]? = some s.composer.operatorMask[g]) ∧
        exec .readConfig s = .next (answered c .done s.configData1 s)))

/-! ### Lanes and panels -/

/-- A walk (R42, R46 to R51): a feed short of the step is taken from it; a feed that completes the step enters the next
record, and when that is spanned the walk goes on there with the rest of the feed. Entering: a MARK raises its marker and
the next record is entered; an END, or the passing of the last record, returns to the loop index when the motif has one
and the lane may loop, and else finishes the lane; the 64th MARK, END or passing without a spanned step stops it. The
number given to enterRecord is how many such entries are left, so it is 64 at the beginning of a walk and after a spanned
step. -/
def Obligations.WalkSpendsFeedStepByStep : Prop :=
  ∀ (st : Store) (c : LaneContext) (feed : Nat), StoreLaw st →
    (feed < c.leftInStep → walkLane st feed c = ({ c with leftInStep := c.leftInStep - feed }, [])) ∧
    (∀ target span engage target' span' engage',
      c.state = .sewing → 1 ≤ c.leftInStep → c.leftInStep ≤ feed →
      (st.recordAt c.motif c.recordIndex).spanned = some (target, span, engage) →
      c.recordIndex + 1 < st.directory[c.motif].length →
      (st.recordAt c.motif (c.recordIndex + 1)).spanned = some (target', span', engage') →
      walkLane st feed c = walkLane st (feed - c.leftInStep)
        { c with
          recordIndex := c.recordIndex + 1
          currentLateral := target
          fromLateral := target
          leftInStep := span' * c.scale.factor
          lockOdd := false
          engage := engage'
          tension := (st.recordAt c.motif (c.recordIndex + 1)).tensionFrom c.tension }) ∧
    -- the step completed, whatever record follows
    (∀ target span engage, c.state = .sewing → 1 ≤ c.leftInStep → c.leftInStep ≤ feed →
      (st.recordAt c.motif c.recordIndex).spanned = some (target, span, engage) →
      let entered := enterRecord st 64 (c.recordIndex + 1) { c with leftInStep := 0, currentLateral := target }
      (entered.1.state = .sewing → walkLane st feed c =
        ((walkLane st (feed - c.leftInStep) entered.1).1,
          entered.2 ++ (walkLane st (feed - c.leftInStep) entered.1).2)) ∧
      (entered.1.state ≠ .sewing → walkLane st feed c = entered)) ∧
    -- the load and skip walk
    (∀ a : Assignment,
      let entered := (enterRecord st 64 0
        { state := .sewing, motif := a.motif, scale := a.scale, loopAllowed := a.loopAllowed, recordIndex := 0,
          fromLateral := 0, leftInStep := 0, currentLateral := 0, tension := a.tension, lockOdd := false,
          loopPasses := 0, engage := 0 }).1
      (entered.state = .sewing → startLane st a c = (walkLane st a.startOffset entered).1) ∧
      (entered.state ≠ .sewing → startLane st a c = entered)) ∧
    -- record i entered
    ∀ n i : Nat,
      (∀ target span engage, i < st.directory[c.motif].length →
        (st.recordAt c.motif i).spanned = some (target, span, engage) →
        enterRecord st (n + 1) i c =
          ({ c with
              recordIndex := i
              leftInStep := span * c.scale.factor
              fromLateral := c.currentLateral
              lockOdd := false
              engage := engage
              tension := (st.recordAt c.motif i).tensionFrom c.tension }, [])) ∧
      (∀ code, i < st.directory[c.motif].length → st.recordAt c.motif i = .mark code →
        enterRecord st (n + 2) i c =
          ((enterRecord st (n + 1) (i + 1) { c with recordIndex := i }).1,
            code :: (enterRecord st (n + 1) (i + 1) { c with recordIndex := i }).2) ∧
        enterRecord st 1 i c =
          ({ c with recordIndex := i, state := .stopped .loopFault, currentLateral := 0 }, [])) ∧
      ∀ d : LaneContext,
        i < st.directory[c.motif].length ∧ st.recordAt c.motif i = .endRecord ∧ d = { c with recordIndex := i } ∨
          st.directory[c.motif].length ≤ i ∧ d = { c with recordIndex := st.directory[c.motif].length - 1 } →
        (∀ j, c.loopAllowed = true → st.directory[c.motif].loopIndex = some j →
          enterRecord st (n + 2) i c =
            enterRecord st (n + 1) j
              { d with loopPasses := if c.loopPasses < 255 then c.loopPasses + 1 else c.loopPasses }) ∧
        (c.loopAllowed = false ∨ st.directory[c.motif].loopIndex = none →
          enterRecord st (n + 2) i c = ({ d with state := .finished, leftInStep := 0 }, [])) ∧
        enterRecord st 1 i c = ({ d with state := .stopped .loopFault, currentLateral := 0 }, [])

/-- The zero-span guard (R51): a motif whose record 0 is END, sewn with loop allowed and loop index 0, starts STOPPED with
cause LOOP_FAULT and loop passes 63. -/
def Obligations.LoopOfEndRecordsStopsLane : Prop :=
  ∀ (st : Store) (a : Assignment) (c : LaneContext),
    0 < st.directory[a.motif].length → st.recordAt a.motif 0 = .endRecord →
    st.directory[a.motif].loopIndex = some 0 → a.loopAllowed = true →
    (startLane st a c).state = .stopped .loopFault ∧ (startLane st a c).loopPasses = 63 ∧
      (startLane st a c).recordIndex = 0 ∧ (startLane st a c).currentLateral = 0 ∧
      (startLane st a c).tension = a.tension

/-- The interpolated lateral is from-lateral plus (target − from) × done divided by the scaled span, the quotient rounded
toward zero; it lies between from-lateral and target, and is the from-lateral at the step's first output (R53). -/
def Obligations.InterpolationStaysBetween : Prop :=
  ∀ (origin target : Lateral) (done scaled : Nat), done < scaled →
    min origin.toInt target.toInt ≤ (interpolate origin target done scaled).toInt ∧
      (interpolate origin target done scaled).toInt ≤ max origin.toInt target.toInt ∧
      interpolate origin target 0 scaled = origin ∧
      (interpolate origin target done scaled).toInt =
        origin.toInt + ((target.toInt - origin.toInt) * (done : Int)).tdiv (scaled : Int)

/-- A boundary within one stroke (R40, R44, R73 to R76): the run ends; or the pending or repeated program becomes INCOMING
with what the excess leaves of the seam gap; or, the excess being at or above the gap (a gap of 0 included), the changeover
completes within the stroke: the program is started and walked by the leftover, its markers after the outgoing lanes', and
where the leftover reaches its length too, the run ends or it is repeated as often as the leftover spans its length and
gap. References are released accordingly. -/
def Obligations.BoundaryEndsPanel : Prop :=
  ∀ (s : State) (x : Stroke) (rest : List Stroke) (p : PanelProgram),
    s.serves → s.line.state = .running → s.linePanel = some p → s.strokes.queue = x :: rest →
    p.length ≤ s.line.position + x.feed.toNat → LineLaw s →
    let excess := s.line.position + x.feed.toNat - p.length
    (s.stager.pendingPanel = none → p.repeats = false →
      ∃ t, exec .shaftIndex s = .next t ∧
        t.line = { state := .idle, program := none, position := 0, seam := 0, serial := s.line.serial } ∧
        t.strokes.queue = rest ∧ (∀ l : Fin 8, (t.lane l).state = .vacant) ∧
        ∀ m : Fin 64, t.store.directory[m] =
          { s.store.directory[m] with inUse := s.store.directory[m].inUse - p.names m }) ∧
    (s.stager.pendingPanel = none → p.repeats = true → excess < p.seamGap →
      ∃ t, exec .shaftIndex s = .next t ∧
        t.line = { state := .changeover, program := some { role := .incoming, panel := p }, position := 0,
                   seam := p.seamGap - excess, serial := s.line.serial } ∧
        (∀ l : Fin 8, (t.lane l).state = if (p.assignmentOf l).isSome then .standby else .vacant) ∧
        t.store = s.store) ∧
    (∀ q, s.stager.pendingPanel = some q → excess < p.seamGap →
      ∃ t, exec .shaftIndex s = .next t ∧
        t.line = { state := .changeover, program := some { role := .incoming, panel := q }, position := 0,
                   seam := p.seamGap - excess, serial := s.line.serial } ∧
        t.stager = { s.stager with pendingPanel := none } ∧
        (∀ l : Fin 8, (t.lane l).state = if (q.assignmentOf l).isSome then .standby else .vacant) ∧
        ∀ m : Fin 64, t.store.directory[m] =
          { s.store.directory[m] with inUse := s.store.directory[m].inUse - p.names m }) ∧
    ∀ q, s.stager.pendingPanel = some q ∨ (s.stager.pendingPanel = none ∧ p.repeats = true ∧ q = p) →
      p.seamGap ≤ excess → 1 ≤ q.length →
      let leftover := excess - p.seamGap
      let released (m : Fin 64) := if s.stager.pendingPanel = none then 0 else p.names m
      (leftover < q.length → ∃ t r, exec .shaftIndex s = .next t ∧ reports s t r ∧ ReportTells s t r ∧
        let outgoing (l : Fin 8) := takeOutput s.store ((endWindow s).lane l)
        let started (l : Fin 8) := { endWindow s with store := t.store }.startedLane q l
        let raised := raisedBy s.store x.feed.toNat outgoing ++ raisedBy t.store leftover started
        t.line = { state := .running, program := some { role := .active, panel := q }, position := leftover, seam := 0,
                   serial := s.line.serial + 1 } ∧
        t.strokes.queue = rest ∧ t.stager = { s.stager with pendingPanel := none } ∧
        (∀ l : Fin 8, (q.assignmentOf l).isSome = true → t.lane l = (walkedBy t.store leftover (started l)).1) ∧
        (∀ l : Fin 8, (q.assignmentOf l).isSome = false → (t.lane l).state = .vacant) ∧
        r.markers = (queued s.engine.markers raised).take 8 ∧
        t.engine.markers = (queued s.engine.markers raised).drop 8 ∧ t.store.records = s.store.records ∧
        ∀ m : Fin 64, t.store.directory[m] =
          { s.store.directory[m] with inUse := s.store.directory[m].inUse - released m }) ∧
      (q.length ≤ leftover → q.repeats = false → ∃ t, exec .shaftIndex s = .next t ∧
        t.line = { state := .idle, program := none, position := 0, seam := 0, serial := s.line.serial + 1 } ∧
        t.strokes.queue = rest ∧ t.stager = { s.stager with pendingPanel := none } ∧
        (∀ l : Fin 8, (t.lane l).state = .vacant) ∧
        ∀ m : Fin 64, t.store.directory[m] =
          { s.store.directory[m] with inUse := s.store.directory[m].inUse - released m - q.names m }) ∧
      (q.repeats = true → ∃ t, exec .shaftIndex s = .next t ∧
        let period := q.length + q.seamGap
        let place := leftover % period
        let serial := s.line.serial + 1 + BitVec.ofNat 16 (leftover / period)
        t.line =
          (if place < q.length then
            { state := .running, program := some { role := .active, panel := q }, position := place, seam := 0,
              serial := serial }
           else
            { state := .changeover, program := some { role := .incoming, panel := q }, position := 0,
              seam := period - place, serial := serial }) ∧
        t.strokes.queue = rest ∧ t.stager = { s.stager with pendingPanel := none } ∧
        ∀ m : Fin 64, t.store.directory[m] =
          { s.store.directory[m] with inUse := s.store.directory[m].inUse - released m })

/-! ### Laws every step keeps -/

/-- No command but POWER_ON_RESET, DEFINE_MOTIF and LOAD_PART fragment 2 changes what any place of the record store
reads as (R1, R9, R16); and no record of a motif with a non-zero in-use count is written, nor its entry moved (R4). -/
def Obligations.RecordsOfUsedMotifKept : Prop :=
  (∀ (i : Instr) (s t : State) (a : Nat), exec i s = .next t →
    i ≠ .powerOnReset → i ≠ .defineMotif → i ≠ .loadPartFragment2 →
    t.store.records.read a = s.store.records.read a) ∧
  ∀ (i : Instr) (s t : State) (m : Fin 64), StoreLaw s.store → exec i s = .next t → i ≠ .powerOnReset →
    0 < s.store.directory[m].inUse →
    (t.store.directory[m].defined = true ∧ t.store.directory[m].firstPage = s.store.directory[m].firstPage ∧
      t.store.directory[m].pageCount = s.store.directory[m].pageCount ∧
      t.store.directory[m].length = s.store.directory[m].length ∧
      t.store.directory[m].loopIndex = s.store.directory[m].loopIndex) ∧
    ∀ k < s.store.directory[m].length, t.store.recordAt m k = s.store.recordAt m k

/-- Every step keeps the law of the store (R1 to R3, R6). -/
def Obligations.StepKeepsStoreLaw : Prop :=
  ∀ s t : State, StoreLaw s.store → step s = .next t → StoreLaw t.store

/-- Every step keeps the law of the loop test and the capacities of the queues (R58, R87, R142, R170, R173). That an index
waits only in LOOPTEST or IDLE, and no slot is sent while one waits, holds by the model's reading of log entry 8 (an
accepted RUN or LOOP_TEST serves a due index first, a further index is early). -/
def Obligations.StepKeepsLoopAndQueueLaws : Prop :=
  ∀ s t : State, LoopLaw s → QueueLaw s → step s = .next t → LoopLaw t ∧ QueueLaw t

/-- Every step keeps the law of the line and the form of the programs held (R21, R22, R29, R66, R67, R71). -/
def Obligations.StepKeepsLineLaw : Prop :=
  ∀ s t : State, LoopLaw s → ProgramLaw s → LineLaw s → step s = .next t → ProgramLaw t ∧ LineLaw t

/-- Every step keeps the in-use law (R4). -/
def Obligations.StepKeepsInUseLaw : Prop :=
  ∀ s t : State, StoreLaw s.store → LineLaw s → InUseLaw s → step s = .next t → InUseLaw t

/-- Every step keeps the law of the lanes: a SEWING or HELD lane stands on a spanned record of its motif (R37). -/
def Obligations.StepKeepsLaneLaw : Prop :=
  ∀ s t : State, StoreLaw s.store → InUseLaw s → ProgramLaw s → LineLaw s → LaneLaw s → step s = .next t → LaneLaw t

/-- Every step keeps the bounds of the counts, the law of the segments, the rethread law and the law of the stroke link
(R94 to R96, R105, R119, R134, R152, R156, R158). -/
def Obligations.StepKeepsCountSegmentThreadLinkLaws : Prop :=
  ∀ s t : State, step s = .next t →
    (CountLaw s → CountLaw t) ∧ (SegmentLaw s → SegmentLaw t) ∧ (RethreadLaw s → RethreadLaw t) ∧
      (LinkLaw s → LinkLaw t)

/-- The state after reset obeys every law. -/
def Obligations.LawsHoldAtReset : Prop :=
  StoreLaw State.reset.store ∧ InUseLaw State.reset ∧ ProgramLaw State.reset ∧ LineLaw State.reset ∧
    LaneLaw State.reset ∧ LoopLaw State.reset ∧ QueueLaw State.reset ∧ CountLaw State.reset ∧
    SegmentLaw State.reset ∧ RethreadLaw State.reset ∧ LinkLaw State.reset
end

