-- ==== Sys2Proof/Laws/State.lean ====
section
/-! SUPPORT. Field lemmas: what the smallest updates of State leave in each block, and the entries of a tabulated file. -/

namespace Sys2Proof.Machine

/-! ### Files of like things -/

@[simp] theorem tabulate_getElem {α : Type} {n : Nat} (f : Fin n → α) (i : Nat) (h : i < n) :
    (tabulate f)[i] = f ⟨i, h⟩ := by
  simp [tabulate]

@[simp] theorem finOf_val {n : Nat} (k : Fin n) : finOf n k.val = some k := by simp [finOf]

theorem finOf_eq_some {n x : Nat} (k : Fin n) (h : x = k.val) : finOf n x = some k := by rw [h, finOf_val]

theorem finOf_eq_none {n x : Nat} (h : n ≤ x) : finOf n x = none := by simp [finOf, Nat.not_lt.mpr h]

/-! ### The queue of the model -/

@[simp] theorem withPending_pending (s : State) (q : List Instr) : (s.withPending q).pending = q := rfl
@[simp] theorem withPending_store (s : State) (q : List Instr) : (s.withPending q).store = s.store := rfl
@[simp] theorem withPending_stager (s : State) (q : List Instr) : (s.withPending q).stager = s.stager := rfl
@[simp] theorem withPending_engine (s : State) (q : List Instr) : (s.withPending q).engine = s.engine := rfl
@[simp] theorem withPending_line (s : State) (q : List Instr) : (s.withPending q).line = s.line := rfl
@[simp] theorem withPending_strokes (s : State) (q : List Instr) : (s.withPending q).strokes = s.strokes := rfl
@[simp] theorem withPending_composer (s : State) (q : List Instr) : (s.withPending q).composer = s.composer := rfl
@[simp] theorem withPending_head (s : State) (q : List Instr) : (s.withPending q).head = s.head := rfl
@[simp] theorem withPending_thread (s : State) (q : List Instr) : (s.withPending q).thread = s.thread := rfl
@[simp] theorem withPending_link (s : State) (q : List Instr) : (s.withPending q).link = s.link := rfl
@[simp] theorem withPending_mgmt (s : State) (q : List Instr) : (s.withPending q).mgmt = s.mgmt := rfl

/-! ### A latch set -/

@[simp] theorem latch_latches (s : State) (l : Latch) : (s.latch l).mgmt.latches = s.mgmt.latches.set l := rfl
@[simp] theorem latch_commands (s : State) (l : Latch) : (s.latch l).mgmt.commands = s.mgmt.commands := rfl
@[simp] theorem latch_answers (s : State) (l : Latch) : (s.latch l).mgmt.answers = s.mgmt.answers := rfl
@[simp] theorem latch_reserved (s : State) (l : Latch) : (s.latch l).mgmt.reserved = s.mgmt.reserved := rfl
@[simp] theorem latch_store (s : State) (l : Latch) : (s.latch l).store = s.store := rfl
@[simp] theorem latch_stager (s : State) (l : Latch) : (s.latch l).stager = s.stager := rfl
@[simp] theorem latch_engine (s : State) (l : Latch) : (s.latch l).engine = s.engine := rfl
@[simp] theorem latch_line (s : State) (l : Latch) : (s.latch l).line = s.line := rfl
@[simp] theorem latch_strokes (s : State) (l : Latch) : (s.latch l).strokes = s.strokes := rfl
@[simp] theorem latch_composer (s : State) (l : Latch) : (s.latch l).composer = s.composer := rfl
@[simp] theorem latch_head (s : State) (l : Latch) : (s.latch l).head = s.head := rfl
@[simp] theorem latch_thread (s : State) (l : Latch) : (s.latch l).thread = s.thread := rfl
@[simp] theorem latch_link (s : State) (l : Latch) : (s.latch l).link = s.link := rfl
@[simp] theorem latch_pending (s : State) (l : Latch) : (s.latch l).pending = s.pending := rfl

@[simp] theorem set_get_same (ls : Latches) (l : Latch) : (ls.set l).get l = true := by cases l <;> rfl

theorem set_get_other (ls : Latches) {l k : Latch} (h : k ≠ l) : (ls.set l).get k = ls.get k := by
  cases l <;> cases k <;> first | rfl | exact absurd rfl h

/-! ### A lane context replaced -/

@[simp] theorem setLane_lane_same (s : State) (l : Fin 8) (c : LaneContext) : (s.setLane l c).lane l = c := by
  simp [State.setLane, State.lane]

theorem setLane_lane_other (s : State) {l k : Fin 8} (c : LaneContext) (h : k ≠ l) :
    (s.setLane l c).lane k = s.lane k := by
  have : l.val ≠ k.val := fun e => h (Fin.ext e.symm)
  simp [State.setLane, State.lane, this]

@[simp] theorem setLane_markers (s : State) (l : Fin 8) (c : LaneContext) :
    (s.setLane l c).engine.markers = s.engine.markers := rfl
@[simp] theorem setLane_store (s : State) (l : Fin 8) (c : LaneContext) : (s.setLane l c).store = s.store := rfl
@[simp] theorem setLane_stager (s : State) (l : Fin 8) (c : LaneContext) : (s.setLane l c).stager = s.stager := rfl
@[simp] theorem setLane_line (s : State) (l : Fin 8) (c : LaneContext) : (s.setLane l c).line = s.line := rfl
@[simp] theorem setLane_strokes (s : State) (l : Fin 8) (c : LaneContext) : (s.setLane l c).strokes = s.strokes := rfl
@[simp] theorem setLane_composer (s : State) (l : Fin 8) (c : LaneContext) : (s.setLane l c).composer = s.composer := rfl
@[simp] theorem setLane_head (s : State) (l : Fin 8) (c : LaneContext) : (s.setLane l c).head = s.head := rfl
@[simp] theorem setLane_thread (s : State) (l : Fin 8) (c : LaneContext) : (s.setLane l c).thread = s.thread := rfl
@[simp] theorem setLane_link (s : State) (l : Fin 8) (c : LaneContext) : (s.setLane l c).link = s.link := rfl
@[simp] theorem setLane_mgmt (s : State) (l : Fin 8) (c : LaneContext) : (s.setLane l c).mgmt = s.mgmt := rfl
@[simp] theorem setLane_pending (s : State) (l : Fin 8) (c : LaneContext) : (s.setLane l c).pending = s.pending := rfl

/-! ### The Thread Supervisor's sets -/

@[simp] theorem setPresence_presence (s : State) (g : Fin 16) (p : Fin 8) (v : Presence) :
    (setPresence g p v s).thread.presence = s.thread.presence.set g (s.thread.presence[g].set p v) := rfl
@[simp] theorem setPresence_faultMask (s : State) (g : Fin 16) (p : Fin 8) (v : Presence) :
    (setPresence g p v s).thread.faultMask = s.thread.faultMask := rfl
@[simp] theorem setPresence_rethread (s : State) (g : Fin 16) (p : Fin 8) (v : Presence) :
    (setPresence g p v s).thread.rethread = s.thread.rethread := rfl
@[simp] theorem joinFault_faultMask (s : State) (g : Fin 16) (p : Fin 8) :
    (joinFault g p s).thread.faultMask = s.thread.faultMask.set g (s.thread.faultMask[g] ||| bitOf p) := rfl
@[simp] theorem joinFault_rethread (s : State) (g : Fin 16) (p : Fin 8) :
    (joinFault g p s).thread.rethread = s.thread.rethread := rfl
@[simp] theorem joinRethread_rethread (s : State) (g : Fin 16) (p : Fin 8) :
    (joinRethread g p s).thread.rethread = s.thread.rethread.set g (s.thread.rethread[g] ||| bitOf p) := rfl
@[simp] theorem joinRethread_faultMask (s : State) (g : Fin 16) (p : Fin 8) :
    (joinRethread g p s).thread.faultMask = s.thread.faultMask := rfl
@[simp] theorem leaveRethread_rethread (s : State) (g : Fin 16) (p : Fin 8) :
    (leaveRethread g p s).thread.rethread = s.thread.rethread.set g (s.thread.rethread[g] &&& ~~~bitOf p) := rfl
@[simp] theorem leaveRethread_faultMask (s : State) (g : Fin 16) (p : Fin 8) :
    (leaveRethread g p s).thread.faultMask = s.thread.faultMask := rfl

theorem bitOf_getLsbD (p : Fin 8) (q : Nat) : (bitOf p).getLsbD q = decide (q = p.val) := by
  by_cases hq : q < 8
  · have : ∀ (p : Fin 8) (q : Fin 8), (bitOf p).getLsbD q.val = decide (q.val = p.val) := by decide
    exact this p ⟨q, hq⟩
  · have h1 : (bitOf p).getLsbD q = false := BitVec.getLsbD_of_ge _ _ (by omega)
    have h2 : ¬ q = p.val := by omega
    simp [h1, h2]

end Sys2Proof.Machine
end

