-- ==== Sys2Proof/Laws/Commands.lean ====
section
/-! SUPPORT. The execution of a command: what executeFront does, what an answer does to each queue, what the arbiter
does. -/

namespace Sys2Proof.Machine

/-- The front of a queue that has one. -/
theorem cons_of_head {s : State} {c : Command} (h : s.mgmt.commands.head? = some c) :
    ∃ rest, s.mgmt.commands = c :: rest := by
  cases hc : s.mgmt.commands with
  | nil => rw [hc] at h; exact absurd h (by simp)
  | cons a r => rw [hc] at h; exact ⟨r, by simp at h; rw [h]⟩

/-- A front command that may execute is executed by its row. -/
theorem executeFront_ready {s : State} {c : Command} (h : s.frontReady c) {row : Command → Bool} (hr : row c = true)
    (effect : List Byte → State → Effect) : executeFront row effect s = settle c (effect c.args s) := by
  obtain ⟨rest, hc⟩ := cons_of_head h.1
  simp [executeFront, hc, hr, h.2]

/-- A front command that may not execute stays. -/
theorem executeFront_stalled {s : State} {c : Command} (h : s.mgmt.commands.head? = some c)
    (hx : s.canExecute = false) (row : Command → Bool) (effect : List Byte → State → Effect) :
    executeFront row effect s = s := by
  obtain ⟨rest, hc⟩ := cons_of_head h
  simp [executeFront, hc, hx]

/-- All an execution event can do: nothing, or the effect of the front command settled. -/
theorem executeFront_cases (row : Command → Bool) (effect : List Byte → State → Effect) (s : State) :
    executeFront row effect s = s ∨
      ∃ c rest, s.mgmt.commands = c :: rest ∧ row c = true ∧ s.canExecute = true ∧
        executeFront row effect s = settle c (effect c.args s) := by
  cases hc : s.mgmt.commands with
  | nil => left; simp [executeFront, hc]
  | cons c rest =>
    by_cases h : (row c && s.canExecute) = true
    · right
      rw [Bool.and_eq_true] at h
      exact ⟨c, rest, rfl, h.1, h.2, by simp [executeFront, hc, h.1, h.2]⟩
    · left
      simp [executeFront, hc, h]

@[simp] theorem settle_replyWith (c : Command) (r : Result) (data : List Byte) (s : State) :
    settle c (replyWith r data s) = answered c r data s := rfl

@[simp] theorem settle_reply (c : Command) (r : Result) (s : State) : settle c (reply r s) = answered c r [] s := rfl

@[simp] theorem settle_silent (c : Command) (s : State) : settle c (s, none) = s := rfl

@[simp] theorem withLength_eq {n : Nat} {args : List Byte} (h : args.length = n) (body : Effect) (s : State) :
    withLength n args body s = body := by
  simp [withLength, h]

theorem withLength_ne {n : Nat} {args : List Byte} (h : args.length ≠ n) (body : Effect) (s : State) :
    withLength n args body s = reply .range s := by
  simp [withLength, h]

/-! ### The arbiter -/

/-- All the arbiter can do (R158). -/
theorem arbitrate_cases (s : State) :
    arbitrate s = s ∨
      (s.link.tx = none ∧ ∃ r, s.strokes.slot = some r ∧
        arbitrate s = { s with link.tx := some (.report r), strokes.slot := none }) ∨
      (s.link.tx = none ∧ s.strokes.slot = none ∧ ∃ a rest, s.mgmt.answers = a :: rest ∧
        arbitrate s = { s with link.tx := some (.answer a), mgmt.answers := rest }) := by
  cases ht : s.link.tx with
  | some c => left; simp [arbitrate, ht]
  | none =>
    cases hs : s.strokes.slot with
    | some r => right; left; exact ⟨rfl, r, rfl, by simp [arbitrate, ht, hs]⟩
    | none =>
      cases ha : s.mgmt.answers with
      | nil => left; simp [arbitrate, ht, hs, ha]
      | cons a rest => right; right; exact ⟨rfl, rfl, a, rest, rfl, by simp [arbitrate, ht, hs, ha]⟩

end Sys2Proof.Machine
end

