-- ==== Sys2Proof/Laws/Frames.lean ====
section
/-! SUPPORT. What each shared operation may change: one frame lemma for each, so that a proof over a step cites the
frame and never unfolds the operation. -/

namespace Sys2Proof.Machine

/-- Only lane contexts and last laterals differ. -/
def OnlyStops (s t : State) : Prop :=
  ∃ lanes laterals, t = { s with engine.lanes := lanes, composer.lastLateral := laterals }

/-- Only the Lane Engine, last laterals and latches differ. -/
def OnlyWalks (s t : State) : Prop :=
  ∃ engine laterals latches, t = { s with engine := engine, composer.lastLateral := laterals, mgmt.latches := latches }

/-- Only the Thread Supervisor, segments, lane contexts, last laterals and latches differ. -/
def OnlyThread (s t : State) : Prop :=
  ∃ thread segments lanes laterals latches,
    t = { s with thread := thread, head.segments := segments, engine.lanes := lanes,
                 composer.lastLateral := laterals, mgmt.latches := latches }

theorem OnlyStops.refl (s : State) : OnlyStops s s := ⟨_, _, rfl⟩

theorem OnlyWalks.refl (s : State) : OnlyWalks s s := ⟨_, _, _, rfl⟩

theorem OnlyThread.refl (s : State) : OnlyThread s s := ⟨_, _, _, _, _, rfl⟩

theorem OnlyStops.trans {s t u : State} (h : OnlyStops s t) (k : OnlyStops t u) : OnlyStops s u := by
  obtain ⟨a, b, rfl⟩ := h
  obtain ⟨c, d, rfl⟩ := k
  exact ⟨c, d, rfl⟩

theorem OnlyWalks.trans {s t u : State} (h : OnlyWalks s t) (k : OnlyWalks t u) : OnlyWalks s u := by
  obtain ⟨a, b, c, rfl⟩ := h
  obtain ⟨d, e, f, rfl⟩ := k
  exact ⟨d, e, f, rfl⟩

theorem OnlyThread.trans {s t u : State} (h : OnlyThread s t) (k : OnlyThread t u) : OnlyThread s u := by
  obtain ⟨a, b, c, d, e, rfl⟩ := h
  obtain ⟨f, g, h, i, j, rfl⟩ := k
  exact ⟨f, g, h, i, j, rfl⟩

theorem OnlyStops.toWalks {s t : State} (h : OnlyStops s t) : OnlyWalks s t := by
  obtain ⟨a, b, rfl⟩ := h
  exact ⟨_, _, _, rfl⟩

theorem OnlyStops.toThread {s t : State} (h : OnlyStops s t) : OnlyThread s t := by
  obtain ⟨a, b, rfl⟩ := h
  exact ⟨_, _, _, _, _, rfl⟩

/-- A relation that is reflexive and transitive holds over a fold whose every round obeys it. -/
theorem foldl_keeps {α : Type} {R : State → State → Prop} (refl : ∀ s, R s s)
    (trans : ∀ {s t u}, R s t → R t u → R s u) {f : State → α → State} (h : ∀ s a, R s (f s a)) (l : List α)
    (s : State) : R s (l.foldl f s) := by
  induction l generalizing s with
  | nil => exact refl s
  | cons a l ih => exact trans (h s a) (ih (f s a))

theorem stopNotice_only (l : Fin 8) (s : State) : OnlyStops s (stopNotice l s) := ⟨_, _, rfl⟩

theorem setLane_only (l : Fin 8) (c : LaneContext) (s : State) : OnlyStops s (s.setLane l c) := ⟨_, _, rfl⟩

theorem noticeIfStopped_only (l : Fin 8) (s : State) : OnlyStops s (noticeIfStopped l s) := by
  unfold noticeIfStopped
  split <;> first | exact stopNotice_only l s | exact OnlyStops.refl s

theorem stopLane_only (k : StopCause) (l : Fin 8) (s : State) : OnlyStops s (stopLane k l s) := ⟨_, _, rfl⟩

theorem dropStop_only (l : Fin 8) (s : State) : OnlyStops s (dropStop l s) := by
  unfold dropStop
  split <;> first | exact stopLane_only _ l s | exact OnlyStops.refl s

theorem dropEvaluation_only (l : Fin 8) (s : State) : OnlyStops s (dropEvaluation l s) := by
  unfold dropEvaluation
  split <;> first | exact dropStop_only l s | exact OnlyStops.refl s

theorem evaluateSegment_only (g : Fin 16) (s : State) : OnlyStops s (evaluateSegment g s) := by
  unfold evaluateSegment
  split <;> first | exact dropEvaluation_only _ s | exact OnlyStops.refl s

theorem latch_onlyThread (l : Latch) (s : State) : OnlyThread s (s.latch l) := ⟨_, _, _, _, _, rfl⟩

theorem latch_onlyWalks (l : Latch) (s : State) : OnlyWalks s (s.latch l) := ⟨_, _, _, rfl⟩

theorem offerDefect_only (d : Defect) (s : State) : OnlyThread s (offerDefect d s) := by
  unfold offerDefect
  split
  · exact OnlyThread.refl s
  · split
    · exact ⟨_, _, _, _, _, rfl⟩
    · exact latch_onlyThread _ s

theorem joinFault_only (g : Fin 16) (p : Fin 8) (s : State) : OnlyThread s (joinFault g p s) := ⟨_, _, _, _, _, rfl⟩

theorem threadBreak_only (g : Fin 16) (p : Fin 8) (s : State) : OnlyThread s (threadBreak g p s) :=
  OnlyThread.trans (t := { joinFault g p s with thread.totalBreaks := saturate s.thread.totalBreaks })
    ⟨_, _, _, _, _, rfl⟩ ((offerDefect_only _ _).trans (evaluateSegment_only g _).toThread)

theorem judgePosition_only (g : Fin 16) (r : Pattern) (s : State) (p : Fin 8) : OnlyThread s (judgePosition g r s p) := by
  have set (v : Presence) : OnlyThread s (setPresence g p v s) := ⟨_, _, _, _, _, rfl⟩
  have join (v : Presence) : OnlyThread s (joinRethread g p (setPresence g p v s)) := ⟨_, _, _, _, _, rfl⟩
  have leave (v : Presence) : OnlyThread s (leaveRethread g p (setPresence g p v s)) := ⟨_, _, _, _, _, rfl⟩
  simp only [judgePosition]
  split
  · exact set _
  · split
    · exact set _
    · exact set _
    · exact OnlyThread.refl s
    · split
      · exact leave _
      · exact (set _).trans (threadBreak_only g p _)
    · exact OnlyThread.refl s
    · split
      · exact join _
      · exact set _

theorem takeBobbin_only (g : Fin 16) (b : Bool) (s : State) : OnlyThread s (takeBobbin g b s) := by
  unfold takeBobbin
  simp only
  split <;> exact ⟨_, _, _, _, _, rfl⟩

theorem returnNotice_only (g : Fin 16) (r : Pattern) (b : Bool) (s : State) : OnlyThread s (returnNotice g r b s) :=
  (foldl_keeps OnlyThread.refl OnlyThread.trans (judgePosition_only g r) _ s).trans (takeBobbin_only g b _)

theorem includeNotice_only (g : Fin 16) (s : State) : OnlyThread s (includeNotice g s) := ⟨_, _, _, _, _, rfl⟩

theorem lossNotice_only (g : Fin 16) (s : State) : OnlyThread s (lossNotice g s) :=
  (offerDefect_only _ s).trans (evaluateSegment_only g _).toThread

theorem setSegment_only (g : Fin 16) (x : Segment) (s : State) : OnlyThread s (setSegment g x s) := by
  unfold setSegment
  simp only
  split <;> exact ⟨_, _, _, _, _, rfl⟩

theorem badReturn_only (g : Fin 16) (s : State) : OnlyThread s (badReturn g s) := by
  unfold badReturn
  split
  · exact setSegment_only g _ s
  · split
    · exact setSegment_only g _ s
    · exact (setSegment_only g _ s).trans (lossNotice_only g _)
  · exact OnlyThread.refl s
  · exact OnlyThread.refl s

theorem judgeSlot_only (g : Fin 16) (x : Slot) (s : State) : OnlyThread s (judgeSlot g x s) := by
  unfold judgeSlot
  split
  · split
    · exact (setSegment_only g _ s).trans (returnNotice_only g _ _ _)
    · exact badReturn_only g s
  · exact OnlyThread.refl s

theorem closePosition_only (received : List Bool) (s : State) (g : Fin 16) :
    OnlyThread s (closePosition received s g) := by
  unfold closePosition
  split
  · exact badReturn_only g s
  · exact OnlyThread.refl s
  · exact OnlyThread.refl s

theorem endWindow_of_window {s : State} {received : List Bool} (h : s.head.tx = .window received) :
    OnlyThread { s with head.tx := .free } (endWindow s) := by
  simp only [endWindow, h]
  exact foldl_keeps OnlyThread.refl OnlyThread.trans (closePosition_only received) _ _

theorem endWindow_of_no_window {s : State} (h : ∀ received, s.head.tx ≠ .window received) : endWindow s = s := by
  unfold endWindow
  split <;> simp_all

theorem pushMarker_only (m : Marker) (s : State) : OnlyWalks s (pushMarker m s) := by
  unfold pushMarker
  split
  · exact ⟨_, _, _, rfl⟩
  · exact latch_onlyWalks _ s

theorem pushMarkers_only (l : Fin 8) (codes : List (BitVec 5)) (s : State) : OnlyWalks s (pushMarkers l codes s) :=
  foldl_keeps OnlyWalks.refl OnlyWalks.trans (fun t _ => pushMarker_only _ t) codes s

theorem walkSewing_only (feed : Nat) (s : State) (l : Fin 8) : OnlyWalks s (walkSewing feed s l) := by
  unfold walkSewing
  split
  · exact (setLane_only l _ s).toWalks.trans ((pushMarkers_only l _ _).trans (noticeIfStopped_only l _).toWalks)
  all_goals exact OnlyWalks.refl s

theorem walkLanes_only (feed : Nat) (s : State) : OnlyWalks s (walkLanes feed s) :=
  foldl_keeps OnlyWalks.refl OnlyWalks.trans (walkSewing_only feed) _ s

theorem startOrVacate_only (p : PanelProgram) (s : State) (l : Fin 8) : OnlyStops s (startOrVacate p s l) := by
  unfold startOrVacate
  split
  · exact (setLane_only l _ s).trans (noticeIfStopped_only l _)
  · exact setLane_only l _ s

theorem startLanes_only (p : PanelProgram) (s : State) : OnlyStops s (startLanes p s) :=
  foldl_keeps OnlyStops.refl OnlyStops.trans (startOrVacate_only p) _ s

/-- What a panel start may change: panel serial and position as given, fault mask and rethread set as R135 says, lane
contexts and last laterals. -/
theorem panelStart_only (p : PanelProgram) (position : Nat) (s : State) :
    OnlyStops
      (releaseRethreaded { s with line.serial := s.line.serial + 1, line.position := position })
      (panelStart p position s) := by
  have h := startLanes_only p { s with line.serial := s.line.serial + 1, line.position := position }
  obtain ⟨a, b, e⟩ := h
  have k := foldl_keeps OnlyStops.refl OnlyStops.trans (fun t l => dropEvaluation_only l t) (List.finRange 8)
    (releaseRethreaded (startLanes p { s with line.serial := s.line.serial + 1, line.position := position }))
  refine OnlyStops.trans ?_ k
  rw [e]
  exact ⟨_, _, rfl⟩

/-- Only what a feed reaches differs: the Lane Engine, last laterals, latches, the line, the pending panel, the
directory, the fault mask and the rethread set. -/
def OnlyFeeds (s t : State) : Prop :=
  ∃ engine laterals latches line waiting directory fault rethread,
    t = { s with engine := engine, composer.lastLateral := laterals, mgmt.latches := latches, line := line,
                 stager.pendingPanel := waiting, store.directory := directory, thread.faultMask := fault,
                 thread.rethread := rethread }

theorem OnlyFeeds.refl (s : State) : OnlyFeeds s s := ⟨_, _, _, _, _, _, _, _, rfl⟩

theorem OnlyFeeds.trans {s t u : State} (h : OnlyFeeds s t) (k : OnlyFeeds t u) : OnlyFeeds s u := by
  obtain ⟨_, _, _, _, _, _, _, _, rfl⟩ := h
  obtain ⟨_, _, _, _, _, _, _, _, rfl⟩ := k
  exact ⟨_, _, _, _, _, _, _, _, rfl⟩

theorem OnlyWalks.toFeeds {s t : State} (h : OnlyWalks s t) : OnlyFeeds s t := by
  obtain ⟨_, _, _, rfl⟩ := h
  exact ⟨_, _, _, _, _, _, _, _, rfl⟩

theorem panelStart_onlyFeeds (p : PanelProgram) (position : Nat) (s : State) :
    OnlyFeeds s (panelStart p position s) :=
  OnlyFeeds.trans (t := releaseRethreaded { s with line.serial := s.line.serial + 1, line.position := position })
    ⟨_, _, _, _, _, _, _, _, rfl⟩ (panelStart_only p position s).toWalks.toFeeds

theorem completeChangeover_only (p : PanelProgram) (leftover : Nat) (s : State) :
    OnlyFeeds s (completeChangeover p leftover s) :=
  OnlyFeeds.trans
    (t := { s with line.seam := 0, line.program := some { role := .active, panel := p }, line.state := .running })
    ⟨_, _, _, _, _, _, _, _, rfl⟩
    ((panelStart_onlyFeeds p leftover _).trans (walkLanes_only leftover _).toFeeds)

theorem endRun_only (p : PanelProgram) (s : State) : OnlyFeeds s (endRun p s) := ⟨_, _, _, _, _, _, _, _, rfl⟩

theorem openChangeover_only (p q : PanelProgram) (seam : Nat) (s : State) : OnlyFeeds s (openChangeover p q seam s) :=
  ⟨_, _, _, _, _, _, _, _, rfl⟩

theorem boundary_only (fuel excess : Nat) (p : PanelProgram) (s : State) : OnlyFeeds s (boundary fuel excess p s) := by
  induction fuel generalizing excess p s with
  | zero => exact OnlyFeeds.refl s
  | succ fuel ih =>
    unfold boundary
    split
    · exact endRun_only p s
    · rename_i q _
      simp only
      split
      · exact openChangeover_only p q _ s
      · have h := (openChangeover_only p q (p.seamGap - excess) s).trans
          (completeChangeover_only q (excess - p.seamGap) _)
        split
        · exact h
        · exact h.trans (ih _ _ _)

theorem advance_only (p : PanelProgram) (position : Nat) (s : State) : OnlyFeeds s (advance p position s) := by
  unfold advance
  split
  · exact ⟨_, _, _, _, _, _, _, _, rfl⟩
  · exact boundary_only _ _ p s

theorem deliverFeed_only (feed : Nat) (s : State) : OnlyFeeds s (deliverFeed feed s) := by
  unfold deliverFeed
  split
  · unfold feedRunning
    split
    · exact (walkLanes_only feed s).toFeeds.trans (advance_only _ _ _)
    · exact OnlyFeeds.refl s
  · unfold feedChangeover
    split
    · split
      · exact ⟨_, _, _, _, _, _, _, _, rfl⟩
      · exact (completeChangeover_only _ _ s).trans (advance_only _ _ _)
    · exact OnlyFeeds.refl s
  all_goals exact OnlyFeeds.refl s

/-- What the stroke of an index may change. -/
theorem applyStroke_only (s : State) :
    ∃ queue consecutive total,
      OnlyFeeds { s with strokes.queue := queue, strokes.consecutive := consecutive, strokes.total := total }
        (applyStroke s).state := by
  have dwell : ∃ queue consecutive total,
      OnlyFeeds { s with strokes.queue := queue, strokes.consecutive := consecutive, strokes.total := total }
        (dwellStroke s) := by
    simp only [dwellStroke]
    split
    · exact ⟨_, _, _, ⟨_, _, _, _, _, _, _, _, rfl⟩⟩
    · unfold haltLine
      split <;> exact ⟨_, _, _, ⟨_, _, _, _, _, _, _, _, rfl⟩⟩
  have stay : ∃ queue consecutive total,
      OnlyFeeds { s with strokes.queue := queue, strokes.consecutive := consecutive, strokes.total := total } s :=
    ⟨_, _, _, OnlyFeeds.refl s⟩
  unfold applyStroke
  split
  all_goals first
    | exact stay
    | (split
       · exact ⟨_, _, _, deliverFeed_only _ _⟩
       · exact dwell)

/-- The placement of a REPORT, in both states of the return transmitter (R101, R158). -/
theorem placeReport_eq (r : Report) (s : State) :
    placeReport r s =
      match s.link.tx with
      | none =>
        { s with link.tx := some (.report { r with skipped := s.strokes.slot.isSome }), strokes.slot := none }
      | some _ => { s with strokes.slot := some { r with skipped := s.strokes.slot.isSome } } := by
  unfold placeReport arbitrate
  cases s.link.tx <;> rfl

/-- The frame an index forms changes the head frame serial, the transmitter, last laterals, previous words and lane
contexts alone (R54, R109, R113, R114). -/
theorem formFrame_only (kind : FrameKind) (s : State) :
    ∃ serial tx lanes laterals words, formFrame kind s =
      { s with head.frameSerial := serial, head.tx := tx, engine.lanes := lanes, composer.lastLateral := laterals,
               composer.previousWords := words } := ⟨_, _, _, _, _, rfl⟩

/-- Whatever an index does, the end of its window comes first, then its frame, its stroke and its REPORT (R91). -/
theorem serveIndex_eq (s : State) :
    serveIndex s = composeReport (applyStroke (formFrame (endWindow s).frameKind (endWindow s))) := rfl

/-- The end of a window changes what OnlyThread says, and the transmitter. -/
theorem endWindow_only (s : State) : ∃ tx, OnlyThread { s with head.tx := tx } (endWindow s) := by
  by_cases h : ∃ received, s.head.tx = .window received
  · obtain ⟨received, h⟩ := h
    exact ⟨_, endWindow_of_window h⟩
  · refine ⟨s.head.tx, ?_⟩
    rw [endWindow_of_no_window fun received e => h ⟨received, e⟩]
    exact OnlyThread.refl s

/-- The arrival of a STROKE cell changes the stroke queue or sets STROKE_REFUSED (R88). -/
theorem strokeArrives_cases (payload : List Byte) (s : State) :
    strokeArrives payload s = s.latch .strokeRefused ∨
      ∃ low high feed, payload = [low, high, feed] ∧ s.line.state.takesStrokes = true ∧
        s.strokes.queue.length < Config.strokeCapacity ∧
        strokeArrives payload s =
          { s with strokes.queue := s.strokes.queue ++ [{ serial := high ++ low, feed := feed }] } := by
  unfold strokeArrives
  split
  · rename_i low high feed
    split
    · rename_i h
      rw [Bool.and_eq_true, decide_eq_true_eq] at h
      exact Or.inr ⟨low, high, feed, rfl, h.1, h.2, rfl⟩
    · exact Or.inl rfl
  · exact Or.inl rfl

/-- The arrival of a COMMAND (R171): busy, dropped or queued. -/
theorem commandArrives_cases (c : Command) (s : State) :
    (s.answerRoom = true ∧ c.isReadCode = true ∧ s.mgmt.commands.any Command.isReadCode = true ∧
      commandArrives c s =
        enterAnswer { tag := c.tag, code := c.code, reply := { result := .busy, data := [] } } s) ∨
    commandArrives c s = s.latch .commandDropped ∨
    (s.mgmt.commands.length < Config.commandCapacity ∧
      (c.isReadCode = false ∨ s.mgmt.commands.any Command.isReadCode = false) ∧
      commandArrives c s = { s with mgmt.commands := s.mgmt.commands ++ [c] }) := by
  unfold commandArrives
  split
  · rename_i h
    rw [Bool.and_eq_true] at h
    split
    · rename_i hr
      exact Or.inl ⟨hr, h.1, h.2, rfl⟩
    · exact Or.inr (Or.inl rfl)
  · rename_i h
    split
    · rename_i hl
      refine Or.inr (Or.inr ⟨hl, ?_, rfl⟩)
      cases hc : c.isReadCode
      · exact Or.inl rfl
      · exact Or.inr (by simpa [hc] using h)
    · exact Or.inr (Or.inl rfl)

/-- Entry to HALTED from a line state that a resume state names (R78, R89, R94). -/
theorem haltLine_of {s : State} {w : ResumeState} (h : s.line.state = w.lineState) (cause : HaltCause) :
    haltLine cause s =
      { s with line.state := .halted cause w, strokes.queue := [], strokes.consecutive := 0 } := by
  cases w <;> simp only [haltLine, h, ResumeState.lineState]

/-- No halt in the other line states (R77). -/
theorem haltLine_stays {s : State} (h : s.line.state = .idle ∨ s.line.state.isHalted = true ∨ s.line.state = .looptest)
    (cause : HaltCause) : haltLine cause s = s := by
  unfold haltLine
  split <;> simp_all [LineState.isHalted]

end Sys2Proof.Machine
end

