-- ==== Sys2Proof/Laws/Lanes.lean ====
section
/-! SUPPORT. Walking a motif, lane by lane and for the eight lanes together. -/

namespace Sys2Proof.Machine

/-- What a walk keeps of a lane. -/
structure SameMotif (c d : LaneContext) : Prop where
  motif       : d.motif = c.motif
  scale       : d.scale = c.scale
  loopAllowed : d.loopAllowed = c.loopAllowed

theorem SameMotif.refl (c : LaneContext) : SameMotif c c := ⟨rfl, rfl, rfl⟩

theorem SameMotif.trans {c d e : LaneContext} (h : SameMotif c d) (k : SameMotif d e) : SameMotif c e :=
  ⟨k.motif.trans h.motif, k.scale.trans h.scale, k.loopAllowed.trans h.loopAllowed⟩

theorem Scale.factor_pos (x : Scale) : 0 < x.factor := by cases x <;> decide

/-- A spanned record is entered (R47). -/
theorem enterRecord_spanned {st : Store} {c : LaneContext} {i : Nat} (hi : i < st.directory[c.motif].length)
    {target : Lateral} {span : Nat} {engage : Pattern}
    (hr : (st.recordAt c.motif i).spanned = some (target, span, engage)) (left : Nat) :
    enterRecord st (left + 1) i c = (enterSpanned i (st.recordAt c.motif i) span engage c, []) := by
  rw [enterRecord]
  simp only [hi, if_true]
  cases h : st.recordAt c.motif i <;> rw [h] at hr <;> simp [Record.spanned] at hr <;> simp [hr]

/-- A MARK is reported and passed, unless the count of R51 is full (R49, R51). -/
theorem enterRecord_mark {st : Store} {c : LaneContext} {i : Nat} (hi : i < st.directory[c.motif].length)
    {code : BitVec 5} (hr : st.recordAt c.motif i = .mark code) (left : Nat) :
    enterRecord st (left + 1) i c =
      if left = 0 then ({ c with recordIndex := i }.stop .loopFault, [])
      else ((enterRecord st left (i + 1) { c with recordIndex := i }).1,
            code :: (enterRecord st left (i + 1) { c with recordIndex := i }).2) := by
  rw [enterRecord]
  simp only [hi, if_true, hr]

/-- The end of a pass in a context (R50, R51). -/
def passEnded (st : Store) (left : Nat) (c : LaneContext) : LaneContext × List (BitVec 5) :=
  if left = 0 then (c.stop .loopFault, [])
  else (loopTarget st c).elim (c.finish, []) fun j => enterRecord st left j c.countPass

/-- An END ends the pass (R50). -/
theorem enterRecord_end {st : Store} {c : LaneContext} {i : Nat} (hi : i < st.directory[c.motif].length)
    (hr : st.recordAt c.motif i = .endRecord) (left : Nat) :
    enterRecord st (left + 1) i c = passEnded st left { c with recordIndex := i } := by
  rw [enterRecord]
  simp only [hi, if_true, hr, passEnded]
  cases loopTarget st { c with recordIndex := i } <;> rfl

/-- The motif's last index passed ends the pass (R50). -/
theorem enterRecord_past {st : Store} {c : LaneContext} {i : Nat} (hi : st.directory[c.motif].length ≤ i) (left : Nat) :
    enterRecord st (left + 1) i c =
      passEnded st left { c with recordIndex := st.directory[c.motif].length - 1 } := by
  rw [enterRecord]
  simp only [Nat.not_lt.mpr hi, if_false, passEnded]
  cases loopTarget st { c with recordIndex := st.directory[c.motif].length - 1 } <;> rfl

theorem Record.spanned_none {r : Record} (h : r.spanned = none) : (∃ code, r = .mark code) ∨ r = .endRecord := by
  cases r <;> simp [Record.spanned] at h ⊢

/-- The lane stands at the start of a spanned record of its motif (R47). -/
def LaneContext.atStart (st : Store) (d : LaneContext) : Prop :=
  d.state = .sewing ∧ d.recordIndex < st.directory[d.motif].length ∧
    ∃ target span engage, (st.recordAt d.motif d.recordIndex).spanned = some (target, span, engage) ∧
      d.leftInStep = span * d.scale.factor ∧ d.engage = engage

/-- What entering records leaves of a SEWING lane (R47 to R51): it stands at the start of a spanned record of its motif,
or it is FINISHED, or STOPPED with cause LOOP_FAULT. -/
theorem enterRecord_result (st : Store) (left i : Nat) (c : LaneContext) (hc : c.state = .sewing) :
    SameMotif c (enterRecord st (left + 1) i c).1 ∧
      ((enterRecord st (left + 1) i c).1.state = .finished ∨
        (enterRecord st (left + 1) i c).1.state = .stopped .loopFault ∨
        (enterRecord st (left + 1) i c).1.atStart st) := by
  induction left generalizing i c with
  | zero =>
    have pass (d : LaneContext) (hd : SameMotif c d) : SameMotif c (passEnded st 0 d).1 ∧
        ((passEnded st 0 d).1.state = .finished ∨ (passEnded st 0 d).1.state = .stopped .loopFault ∨
          (passEnded st 0 d).1.atStart st) := ⟨⟨hd.1, hd.2, hd.3⟩, Or.inr (Or.inl rfl)⟩
    by_cases hi : i < st.directory[c.motif].length
    · cases hr : (st.recordAt c.motif i).spanned with
      | some x =>
        rw [enterRecord_spanned hi (target := x.1) (span := x.2.1) (engage := x.2.2) hr]
        exact ⟨⟨rfl, rfl, rfl⟩, Or.inr (Or.inr ⟨hc, hi, x.1, x.2.1, x.2.2, hr, rfl, rfl⟩)⟩
      | none =>
        rcases Record.spanned_none hr with ⟨code, hr⟩ | hr
        · rw [enterRecord_mark hi hr, if_pos rfl]
          exact ⟨⟨rfl, rfl, rfl⟩, Or.inr (Or.inl rfl)⟩
        · rw [enterRecord_end hi hr]
          exact pass _ ⟨rfl, rfl, rfl⟩
    · rw [enterRecord_past (Nat.not_lt.mp hi)]
      exact pass _ ⟨rfl, rfl, rfl⟩
  | succ left ih =>
    have pass (d : LaneContext) (hd : SameMotif c d) (hs : d.state = .sewing) :
        SameMotif c (passEnded st (left + 1) d).1 ∧
        ((passEnded st (left + 1) d).1.state = .finished ∨ (passEnded st (left + 1) d).1.state = .stopped .loopFault ∨
          (passEnded st (left + 1) d).1.atStart st) := by
      rw [passEnded, if_neg (Nat.succ_ne_zero left)]
      cases loopTarget st d with
      | none => exact ⟨⟨hd.1, hd.2, hd.3⟩, Or.inl rfl⟩
      | some j =>
        have h := ih j d.countPass hs
        exact ⟨⟨h.1.1.trans hd.1, h.1.2.trans hd.2, h.1.3.trans hd.3⟩, h.2⟩
    by_cases hi : i < st.directory[c.motif].length
    · cases hr : (st.recordAt c.motif i).spanned with
      | some x =>
        rw [enterRecord_spanned hi (target := x.1) (span := x.2.1) (engage := x.2.2) hr]
        exact ⟨⟨rfl, rfl, rfl⟩, Or.inr (Or.inr ⟨hc, hi, x.1, x.2.1, x.2.2, hr, rfl, rfl⟩)⟩
      | none =>
        rcases Record.spanned_none hr with ⟨code, hr⟩ | hr
        · rw [enterRecord_mark hi hr, if_neg (Nat.succ_ne_zero left)]
          have h := ih (i + 1) { c with recordIndex := i } hc
          exact ⟨⟨h.1.1, h.1.2, h.1.3⟩, h.2⟩
        · rw [enterRecord_end hi hr]
          exact pass _ ⟨rfl, rfl, rfl⟩ hc
    · rw [enterRecord_past (Nat.not_lt.mp hi)]
      exact pass _ ⟨rfl, rfl, rfl⟩ hc

theorem completeStep_same (st : Store) (c : LaneContext) : SameMotif c (completeStep st c) := by
  unfold completeStep
  split <;> exact ⟨rfl, rfl, rfl⟩

@[simp] theorem completeStep_state (st : Store) (c : LaneContext) : (completeStep st c).state = c.state := by
  unfold completeStep
  split <;> rfl

/-- A SEWING lane's place in its motif (R37). -/
def LaneContext.stands (st : Store) (d : LaneContext) : Prop :=
  d.state = .sewing ∧ d.recordIndex < st.directory[d.motif].length ∧
    ∃ target span engage, (st.recordAt d.motif d.recordIndex).spanned = some (target, span, engage) ∧
      1 ≤ d.leftInStep ∧ d.leftInStep ≤ span * d.scale.factor

/-- Every spanned record the store holds has a span above 0 (R6). -/
def SpansPositive (st : Store) : Prop :=
  ∀ (m : Fin 64) (i : Nat) target span engage,
    (st.recordAt m i).spanned = some (target, span, engage) → 1 ≤ span

theorem LaneContext.atStart.stands {st : Store} (hst : SpansPositive st) {d : LaneContext} (h : d.atStart st) :
    d.stands st := by
  obtain ⟨h1, h2, target, span, engage, h3, h4, -⟩ := h
  refine ⟨h1, h2, target, span, engage, h3, ?_, Nat.le_of_eq h4⟩
  rw [h4]
  exact Nat.mul_pos (hst _ _ _ _ _ h3) d.scale.factor_pos

/-- What spending feed leaves of a SEWING lane (R46): it stands in a step, or is FINISHED, or STOPPED. -/
theorem spendFeed_result {st : Store} (hst : SpansPositive st) (fuel feed : Nat) (c : LaneContext) (hc : c.stands st) :
    SameMotif c (spendFeed st fuel feed c).1 ∧
      ((spendFeed st fuel feed c).1.state = .finished ∨ (spendFeed st fuel feed c).1.state = .stopped .loopFault ∨
        (spendFeed st fuel feed c).1.stands st) := by
  induction fuel generalizing feed c with
  | zero => exact ⟨SameMotif.refl c, Or.inr (Or.inr hc)⟩
  | succ fuel ih =>
    unfold spendFeed
    by_cases hf : feed < c.leftInStep
    · rw [if_pos hf]
      obtain ⟨h1, h2, target, span, engage, h3, h4, h5⟩ := hc
      exact ⟨⟨rfl, rfl, rfl⟩, Or.inr (Or.inr ⟨h1, h2, target, span, engage, h3, by simp only; omega, by simp only; omega⟩)⟩
    · rw [if_neg hf]
      have hs : (completeStep st c).state = .sewing := by rw [completeStep_state]; exact hc.1
      obtain ⟨same, result⟩ := enterRecord_result st 63 (c.recordIndex + 1) (completeStep st c) hs
      have same := (completeStep_same st c).trans same
      simp only [Config.zeroSpanLimit]
      rcases result with h | h | h
      · rw [h]
        exact ⟨same, Or.inl h⟩
      · rw [h]
        exact ⟨same, Or.inr (Or.inl h)⟩
      · have k := ih (feed - c.leftInStep) _ (h.stands hst)
        rw [h.1]
        exact ⟨same.trans k.1, k.2⟩

/-- More fuel than feed changes nothing: each step completed spends at least one unit (R46; log entry 16). -/
theorem spendFeed_fuel {st : Store} (hst : SpansPositive st) {fuel more feed : Nat} {c : LaneContext}
    (hc : c.stands st) (h1 : feed < fuel) (h2 : feed < more) : spendFeed st fuel feed c = spendFeed st more feed c := by
  induction fuel generalizing more feed c with
  | zero => exact absurd h1 (Nat.not_lt_zero feed)
  | succ fuel ih =>
    cases more with
    | zero => exact absurd h2 (Nat.not_lt_zero feed)
    | succ more =>
      unfold spendFeed
      by_cases hf : feed < c.leftInStep
      · rw [if_pos hf, if_pos hf]
      · rw [if_neg hf, if_neg hf]
        have hs : (completeStep st c).state = .sewing := by rw [completeStep_state]; exact hc.1
        obtain ⟨-, result⟩ := enterRecord_result st 63 (c.recordIndex + 1) (completeStep st c) hs
        have pos : 1 ≤ c.leftInStep := by
          obtain ⟨_, _, _, _, _, _, h, _⟩ := hc
          exact h
        simp only [Config.zeroSpanLimit]
        rcases result with h | h | h
        · rw [h]
        · rw [h]
        · rw [h.1]
          rw [ih (more := more) (h.stands hst) (by omega) (by omega)]

/-- A store under its law has positive spans (R6). -/
theorem StoreLaw.spansPositive {st : Store} (h : StoreLaw st) : SpansPositive st := by
  have valid : ∀ a, validWord (st.records.read a) = true := by
    intro a
    have hc := h.contents
    generalize st.records = m at hc
    induction m with
    | nil => exact (by decide : validWord 0 = true)
    | cons x m ih =>
      rw [Memory.read]
      split
      · exact hc x (by simp)
      · exact ih fun cell hm => hc cell (by simp [hm])
  intro m i target span engage hr
  have hv := valid (st.place m i)
  simp only [validWord] at hv
  simp only [Store.recordAt, Store.wordAt] at hr
  cases hd : decodeRecord (st.records.read (st.place m i)) with
  | none => rw [hd] at hv; exact absurd hv (by simp)
  | some r =>
    rw [hd] at hv hr
    cases r <;> simp_all [Record.spanned, Record.valid] <;> omega

/-! ### The lanes together -/

/-- A lane by its number among all eight. -/
theorem lane_of_lanes {s t : State} (h : t.engine.lanes = s.engine.lanes) (l : Fin 8) : t.lane l = s.lane l := by
  simp only [State.lane, h]

@[simp] theorem pushMarker_lane (m : Marker) (s : State) (l : Fin 8) : (pushMarker m s).lane l = s.lane l := by
  unfold pushMarker
  split <;> rfl

@[simp] theorem pushMarkers_lane (k : Fin 8) (codes : List (BitVec 5)) (s : State) (l : Fin 8) :
    (pushMarkers k codes s).lane l = s.lane l :=
  foldl_keeps (R := fun s t => t.lane l = s.lane l) (fun _ => rfl) (fun h k => k.trans h)
    (fun t _ => pushMarker_lane _ t l) codes s

@[simp] theorem noticeIfStopped_lane (k : Fin 8) (s : State) (l : Fin 8) : (noticeIfStopped k s).lane l = s.lane l := by
  unfold noticeIfStopped
  split <;> rfl

/-- A walk of one lane by a feed leaves every other lane. -/
theorem walkSewing_lane_other (feed : Nat) (s : State) {l k : Fin 8} (h : k ≠ l) :
    (walkSewing feed s l).lane k = s.lane k := by
  unfold walkSewing
  split
  · simp [setLane_lane_other _ _ h]
  all_goals rfl

/-- A walk of one lane by a feed (R45). -/
theorem walkSewing_lane_same (feed : Nat) (s : State) (l : Fin 8) :
    (walkSewing feed s l).lane l =
      if (s.lane l).state = .sewing then (walkLane s.store feed (s.lane l)).1 else s.lane l := by
  unfold walkSewing
  split <;> rename_i h <;> simp [h]

/-- A fold over a list without repeats, each round of which changes one entry, read at an entry: the round of that entry
alone counts. Each round may also look at what no round changes (`fixed`). -/
theorem foldl_lane {f : State → Fin 8 → State} {g : State → LaneContext → Fin 8 → LaneContext} {P : State → State → Prop}
    (fixed : ∀ s l, P s (f s l)) (same : ∀ s l, (f s l).lane l = g s (s.lane l) l)
    (other : ∀ s l k, k ≠ l → (f s l).lane k = s.lane k) (looks : ∀ {s t} c l, P s t → g t c l = g s c l)
    (ls : List (Fin 8)) (hn : ls.Nodup) (s : State) (k : Fin 8) :
    (ls.foldl f s).lane k = if k ∈ ls then g s (s.lane k) k else s.lane k := by
  induction ls generalizing s with
  | nil => simp
  | cons l ls ih =>
    obtain ⟨hl, hn⟩ := List.nodup_cons.mp hn
    rw [List.foldl_cons, ih hn]
    by_cases hk : k = l
    · subst hk
      rw [if_neg hl, if_pos (by simp), same]
    · rw [other s l k hk]
      by_cases hm : k ∈ ls
      · rw [if_pos hm, if_pos (by simp [hm]), looks _ _ (fixed s l)]
      · rw [if_neg hm, if_neg (by simp [hk, hm])]

theorem OnlyWalks.store {s t : State} (h : OnlyWalks s t) : t.store = s.store := by
  obtain ⟨_, _, _, rfl⟩ := h
  rfl

/-- The lanes after a walk of all by a feed (R45). -/
theorem walkLanes_lane (feed : Nat) (s : State) (k : Fin 8) :
    (walkLanes feed s).lane k =
      if (s.lane k).state = .sewing then (walkLane s.store feed (s.lane k)).1 else s.lane k := by
  have h := foldl_lane (f := walkSewing feed) (P := OnlyWalks)
    (g := fun s c _ => if c.state = .sewing then (walkLane s.store feed c).1 else c)
    (walkSewing_only feed) (fun s l => walkSewing_lane_same feed s l)
    (fun s l k h => walkSewing_lane_other feed s h) (fun c l h => by rw [h.store]) (List.finRange 8)
    (List.nodup_finRange 8) s k
  rwa [if_pos (List.mem_finRange k)] at h

/-- The lanes after a panel start's loads and skip walks (R41). -/
theorem startLanes_lane (p : PanelProgram) (s : State) (k : Fin 8) :
    (startLanes p s).lane k =
      match p.assignmentOf k with
      | some a => startLane s.store a (s.lane k)
      | none => { s.lane k with state := .vacant } := by
  have h := foldl_lane (f := startOrVacate p) (P := OnlyWalks)
    (g := fun s c l =>
      match p.assignmentOf l with
      | some a => startLane s.store a c
      | none => { c with state := .vacant })
    (fun s l => (startOrVacate_only p s l).toWalks)
    (fun s l => by
      unfold startOrVacate
      cases p.assignmentOf l <;> simp)
    (fun s l k h => by
      unfold startOrVacate
      cases p.assignmentOf l <;> simp [setLane_lane_other _ _ h])
    (fun c l h => by rw [h.store]) (List.finRange 8) (List.nodup_finRange 8) s k
  rwa [if_pos (List.mem_finRange k)] at h

/-- A drop evaluation leaves every other lane. -/
theorem dropEvaluation_lane_other {l k : Fin 8} (h : k ≠ l) (s : State) : (dropEvaluation l s).lane k = s.lane k := by
  unfold dropEvaluation
  split
  · unfold dropStop
    split
    · exact setLane_lane_other s _ h
    · rfl
  · rfl

/-- A drop evaluation keeps its lane, or stops it with cause DROP when it is SEWING or HELD (R57, R147). -/
theorem dropEvaluation_lane_same (l : Fin 8) (s : State) :
    (dropEvaluation l s).lane l = s.lane l ∨
      (s.lane l).state.dropEvaluated = true ∧ (dropEvaluation l s).lane l = (s.lane l).stop .drop := by
  unfold dropEvaluation
  split
  · unfold dropStop
    split
    · rename_i h
      exact Or.inr ⟨h, setLane_lane_same s l _⟩
    · exact Or.inl rfl
  · exact Or.inl rfl

/-- Drop evaluations of all lanes keep each lane, or stop it with cause DROP when it is SEWING or HELD. -/
theorem dropEvaluations_lane (ls : List (Fin 8)) (s : State) (k : Fin 8) :
    (ls.foldl (fun t l => dropEvaluation l t) s).lane k = s.lane k ∨
      (s.lane k).state.dropEvaluated = true ∧
        (ls.foldl (fun t l => dropEvaluation l t) s).lane k = (s.lane k).stop .drop := by
  induction ls generalizing s with
  | nil => exact Or.inl rfl
  | cons l ls ih =>
    rw [List.foldl_cons]
    by_cases hk : k = l
    · subst hk
      rcases dropEvaluation_lane_same k s with h | ⟨h1, h2⟩
      · rw [← h]
        exact ih (dropEvaluation k s)
      · rcases ih (dropEvaluation k s) with h | ⟨h, -⟩
        · exact Or.inr ⟨h1, h.trans h2⟩
        · rw [h2] at h
          exact absurd h (by simp [LaneContext.stop, LaneState.dropEvaluated])
    · have := ih (dropEvaluation l s)
      rwa [dropEvaluation_lane_other hk] at this

@[simp] theorem releaseRethreaded_lane (s : State) (l : Fin 8) : (releaseRethreaded s).lane l = s.lane l := rfl

/-- A lane after a panel start that assigns it (R41, R69, R147). -/
theorem panelStart_lane_assigned {p : PanelProgram} {k : Fin 8} {a : Assignment} (h : p.assignmentOf k = some a)
    (position : Nat) (s : State) :
    (panelStart p position s).lane k = startLane s.store a (s.lane k) ∨
      (startLane s.store a (s.lane k)).state.dropEvaluated = true ∧
        (panelStart p position s).lane k = (startLane s.store a (s.lane k)).stop .drop := by
  have e := startLanes_lane p { s with line.serial := s.line.serial + 1, line.position := position } k
  rw [h] at e
  have d := dropEvaluations_lane (List.finRange 8)
    (releaseRethreaded (startLanes p { s with line.serial := s.line.serial + 1, line.position := position })) k
  rw [releaseRethreaded_lane, e] at d
  exact d

/-- A lane after a panel start that does not assign it (R41). -/
theorem panelStart_lane_unassigned {p : PanelProgram} {k : Fin 8} (h : p.assignmentOf k = none) (position : Nat)
    (s : State) : (panelStart p position s).lane k = { s.lane k with state := .vacant } := by
  have e := startLanes_lane p { s with line.serial := s.line.serial + 1, line.position := position } k
  rw [h] at e
  have d := dropEvaluations_lane (List.finRange 8)
    (releaseRethreaded (startLanes p { s with line.serial := s.line.serial + 1, line.position := position })) k
  rw [releaseRethreaded_lane, e] at d
  exact d.resolve_right fun h => absurd h.1 (by simp [LaneState.dropEvaluated])

/-- The state of a lane after its load and skip walk (R41, R42). -/
theorem startLane_result {st : Store} (hst : SpansPositive st) (a : Assignment) (c : LaneContext) :
    SameMotif (loadLane a c) (startLane st a c) ∧
      ((startLane st a c).state = .finished ∨ (startLane st a c).state = .stopped .loopFault ∨
        (startLane st a c).stands st) := by
  obtain ⟨same, result⟩ := enterRecord_result st 63 0 (loadLane a c) rfl
  unfold startLane
  simp only [Config.zeroSpanLimit]
  rcases result with h | h | h
  · rw [h]
    exact ⟨same, Or.inl h⟩
  · rw [h]
    exact ⟨same, Or.inr (Or.inl h)⟩
  · rw [h.1]
    have k := spendFeed_result hst (a.startOffset + 1) a.startOffset _ (h.stands hst)
    exact ⟨same.trans k.1, k.2⟩

/-- Which lanes a marking changes (R40, R74). -/
@[simp] theorem markLanes_getElem (p : PanelProgram) (x : LaneState) (lanes : Vector LaneContext 8) (l : Nat) (h : l < 8) :
    (markLanes p x lanes)[l] =
      if (p.assignmentOf ⟨l, h⟩).isSome then { lanes[l] with state := x } else lanes[l] := by
  simp only [markLanes, tabulate_getElem]
  rfl

end Sys2Proof.Machine
end

