-- ==== Sys2Proof/Laws/Thread.lean ====
section
/-! SUPPORT. The Thread Supervisor and the segment states: what a defect offer, a break, a notice and a bad return
do. -/

namespace Sys2Proof.Machine

/-! ### Defect records (R139 to R142) -/

/-- The three things an offer can do (R142): suppressed, appended, or refused with DEFECT_OVERFLOW. -/
theorem offerDefect_cases (d : Defect) (s : State) :
    (s.thread.defects.any d.matches = true ∧ offerDefect d s = s) ∨
    (s.thread.defects.any d.matches = false ∧ s.thread.defects.length < Config.defectCapacity ∧
      offerDefect d s = { s with thread.defects := s.thread.defects ++ [d] }) ∨
    (s.thread.defects.any d.matches = false ∧ Config.defectCapacity ≤ s.thread.defects.length ∧
      offerDefect d s = s.latch .defectOverflow) := by
  unfold offerDefect
  cases h : s.thread.defects.any d.matches
  · right
    by_cases hl : s.thread.defects.length < Config.defectCapacity
    · exact Or.inl ⟨rfl, hl, by simp [hl]⟩
    · exact Or.inr ⟨rfl, Nat.not_lt.mp hl, by simp [hl]⟩
  · exact Or.inl ⟨rfl, by simp⟩

theorem Defect.matches_symm (d e : Defect) : d.matches e = e.matches d := by
  simp only [Defect.matches, eq_comm (a := d.kind), eq_comm (a := d.segment), eq_comm (a := d.serial)]

/-- An offer leaves the rest of the Thread Supervisor, and every other block but the latches. -/
theorem offerDefect_keeps (d : Defect) (s : State) :
    ∃ defects latches, offerDefect d s = { s with thread.defects := defects, mgmt.latches := latches } := by
  rcases offerDefect_cases d s with ⟨-, h⟩ | ⟨-, -, h⟩ | ⟨-, -, h⟩ <;> rw [h] <;> exact ⟨_, _, rfl⟩

/-- A break, in its parts (R132). -/
theorem threadBreak_eq (g : Fin 16) (p : Fin 8) (s : State) :
    threadBreak g p s =
      evaluateSegment g
        (offerDefect (s.defectNow (.threadBreak p) g)
          { joinFault g p s with thread.totalBreaks := saturate s.thread.totalBreaks }) := rfl

/-- What a break leaves of the Thread Supervisor (R129, R132, R133): presence, rethread set, bobbin-low and drop limits
stay; the needle joins the fault mask and the count rises. -/
theorem threadBreak_thread (g : Fin 16) (p : Fin 8) (s : State) :
    ∃ defects, (threadBreak g p s).thread =
      { s.thread with
        faultMask := s.thread.faultMask.set g (s.thread.faultMask[g] ||| bitOf p)
        totalBreaks := saturate s.thread.totalBreaks
        defects := defects } := by
  rw [threadBreak_eq]
  obtain ⟨_, _, h⟩ := evaluateSegment_only g
    (offerDefect (s.defectNow (.threadBreak p) g)
      { joinFault g p s with thread.totalBreaks := saturate s.thread.totalBreaks })
  obtain ⟨_, _, k⟩ := offerDefect_keeps (s.defectNow (.threadBreak p) g)
    { joinFault g p s with thread.totalBreaks := saturate s.thread.totalBreaks }
  rw [h, k]
  exact ⟨_, rfl⟩

/-- A loss notice leaves the sets of the Thread Supervisor and the segments (R120, R141). -/
theorem lossNotice_keeps (g : Fin 16) (s : State) :
    ∃ defects latches lanes laterals, lossNotice g s =
      { s with thread.defects := defects, mgmt.latches := latches, engine.lanes := lanes,
               composer.lastLateral := laterals } := by
  rw [lossNotice]
  obtain ⟨_, _, h⟩ := evaluateSegment_only g (offerDefect (s.defectNow .loss g) s)
  obtain ⟨_, _, k⟩ := offerDefect_keeps (s.defectNow .loss g) s
  rw [h, k]
  exact ⟨_, _, _, _, rfl⟩

/-! ### Segment states (R119) -/

/-- A segment set: its entry, and SEGMENT_CHANGE when its state changes (R119, R181). -/
theorem setSegment_keeps (g : Fin 16) (x : Segment) (s : State) :
    ∃ latches, setSegment g x s =
      { s with head.segments := s.head.segments.set g x, mgmt.latches := latches } := by
  simp only [setSegment]
  split <;> exact ⟨_, rfl⟩

/-- A bad return moves its segment as R119 says, and nothing else of the head link, nor any set of the Thread
Supervisor. -/
theorem badReturn_keeps (g : Fin 16) (s : State) :
    ∃ defects latches lanes laterals, badReturn g s =
      { s with head.segments := s.head.segments.set g s.head.segments[g].afterBad, thread.defects := defects,
               mgmt.latches := latches, engine.lanes := lanes, composer.lastLateral := laterals } := by
  have set (x : Segment) : ∃ defects latches lanes laterals, setSegment g x s =
      { s with head.segments := s.head.segments.set g x, thread.defects := defects, mgmt.latches := latches,
               engine.lanes := lanes, composer.lastLateral := laterals } := by
    obtain ⟨_, h⟩ := setSegment_keeps g x s
    rw [h]
    exact ⟨_, _, _, _, rfl⟩
  have stay : s.head.segments.set g s.head.segments[g] = s.head.segments := by simp
  unfold badReturn Segment.afterBad
  cases h : s.head.segments[g].state with
  | online => exact set _
  | suspect =>
    simp only
    by_cases hb : s.head.segments[g].badReturns < 2
    · rw [if_pos hb, if_pos hb]
      exact set _
    · rw [if_neg hb, if_neg hb]
      obtain ⟨_, _, _, _, k⟩ := lossNotice_keeps g (setSegment g { state := .lost, badReturns := 3 } s)
      obtain ⟨_, h⟩ := setSegment_keeps g { state := .lost, badReturns := 3 } s
      rw [k, h]
      exact ⟨_, _, _, _, rfl⟩
  | lost =>
    simp only [stay]
    exact ⟨_, _, _, _, rfl⟩
  | off =>
    simp only [stay]
    exact ⟨_, _, _, _, rfl⟩

/-- The judgement of a position, row by row (R130, R131, R134). -/
theorem judgePosition_cases (g : Fin 16) (reported : Pattern) (s : State) (p : Fin 8) :
    (∃ v, judgePosition g reported s p = setPresence g p v s) ∨ judgePosition g reported s p = s ∨
    (s.thread.faultMask[g].getLsbD p = true ∧
      judgePosition g reported s p = leaveRethread g p (setPresence g p .absent s)) ∨
    (s.thread.faultMask[g].getLsbD p = false ∧
      judgePosition g reported s p = threadBreak g p (setPresence g p .absent s)) ∨
    (s.thread.faultMask[g].getLsbD p = true ∧
      judgePosition g reported s p = joinRethread g p (setPresence g p .present s)) := by
  simp only [judgePosition]
  split
  · exact Or.inl ⟨_, rfl⟩
  · cases hf : s.thread.faultMask[g].getLsbD p <;> split <;>
      first
        | exact Or.inl ⟨_, rfl⟩
        | exact Or.inr (Or.inl rfl)
        | exact Or.inr (Or.inr (Or.inl ⟨rfl, rfl⟩))
        | exact Or.inr (Or.inr (Or.inr (Or.inl ⟨rfl, rfl⟩)))
        | exact Or.inr (Or.inr (Or.inr (Or.inr ⟨rfl, rfl⟩)))

end Sys2Proof.Machine
end

