-- ==== Sys2Proof/Laws/Drops.lean ====
section
/-! SUPPORT. Lost needles, drop evaluations, defect records and return notices, each in one lemma that says all it
does. -/

namespace Sys2Proof.Machine

/-- A pattern's positions counted one by one. -/
theorem popCount_eq (p : Pattern) : popCount p = ∑ i : Fin 8, if p.getLsbD i = true then 1 else 0 := by
  revert p
  decide +kernel

/-- The lost needles of a lane are those of R146, counted one by one. -/
theorem lostNeedles_eq (s : State) (l : Fin 8) : s.lostNeedles l = s.lostCount l := by
  have e (f : Fin 16 → Bool) (h : Fin 16 → Nat) :
      (((List.finRange 16).filter f).map h).sum = ∑ g : Fin 16, if f g = true then h g else 0 := by
    rw [← List.sum_ofFn, List.ofFn_eq_map]
    generalize List.finRange 16 = gs
    induction gs with
    | nil => rfl
    | cons g gs ih => cases hg : f g <;> simp [hg, ih]
  rw [State.lostNeedles, e, State.lostCount]
  refine Finset.sum_congr rfl fun g _ => ?_
  simp only [State.servesLane, decide_eq_true_eq, State.lostIn]
  by_cases h1 : g.val < s.head.segmentCount ∧ s.composer.laneMap[g] = some l
  · rw [if_pos h1]
    by_cases h2 : s.head.segments[g].state = .lost
    · rw [if_pos h2, Finset.sum_congr rfl fun p _ => if_pos ⟨h1.1, h1.2, Or.inl h2⟩]
      simp
    · rw [if_neg h2, popCount_eq]
      exact Finset.sum_congr rfl fun p _ =>
        if_congr ⟨fun h => ⟨h1.1, h1.2, Or.inr h⟩, fun h => h.2.2.resolve_left h2⟩ rfl rfl
  · rw [if_neg h1]
    symm
    refine Finset.sum_eq_zero fun p _ => if_neg fun h => h1 ⟨h.1, h.2.1⟩

theorem dropEvaluated_iff (x : LaneState) : x.dropEvaluated = true ↔ x = .sewing ∨ x = .held := by
  cases x <;> simp [LaneState.dropEvaluated]

/-- Lost needles and limits are not lanes or last laterals. -/
theorem OnlyStops.reachesLimit {s t : State} (h : OnlyStops s t) (l : Fin 8) : t.reachesLimit l ↔ s.reachesLimit l := by
  obtain ⟨_, _, rfl⟩ := h
  exact Iff.rfl

/-- What a drop evaluation does (R57, R110, R147). -/
theorem dropEvaluation_evaluated (l : Fin 8) (s : State) : DropEvaluated l s (dropEvaluation l s) where
  stopped h1 h2 := by
    have h2 := ((dropEvaluation_only l s).reachesLimit l).mp h2
    rw [dropEvaluation, lostNeedles_eq, if_pos h2, dropStop, if_pos ((dropEvaluated_iff _).mpr h1)]
    refine ⟨setLane_lane_same s l _, fun g => ?_⟩
    simp only [stopLane, stopNotice, setLane_composer, Fin.getElem_fin, tabulate_getElem]
    exact if_congr Iff.rfl rfl rfl
  kept h := by
    rw [(dropEvaluation_only l s).reachesLimit, ← dropEvaluated_iff] at h
    rw [dropEvaluation, lostNeedles_eq]
    split
    · rename_i h2
      rw [dropStop, if_neg (h.resolve_right fun k => k h2)]
      exact ⟨rfl, rfl⟩
    · exact ⟨rfl, rfl⟩
  others k h := dropEvaluation_lane_other h s

/-- What the evaluation of a segment's lane does (R132, R141). -/
theorem evaluateSegment_evaluated (g : Fin 16) (s : State) : SegmentEvaluated g s (evaluateSegment g s) where
  mapped l h := by
    simp only [evaluateSegment, h]
    exact dropEvaluation_evaluated l s
  unmapped h := by
    simp only [evaluateSegment, h, and_self]

/-- An evaluation of a segment's lane from a state with the same lanes, last laterals and lane map. -/
theorem SegmentEvaluated.of_same {g : Fin 16} {s u t : State} (h : SegmentEvaluated g u t)
    (lanes : u.engine.lanes = s.engine.lanes) (composer : u.composer = s.composer) : SegmentEvaluated g s t where
  mapped l hl := by
    obtain ⟨h1, h2, h3⟩ := h.mapped l (by rw [composer]; exact hl)
    simp only [lane_of_lanes lanes, composer] at h1 h2 h3
    exact ⟨h1, h2, h3⟩
  unmapped hl := by
    have := h.unmapped (by rw [composer]; exact hl)
    rwa [lanes, composer] at this

/-- What an offer does (R142). -/
theorem offerDefect_offered (d : Defect) (s : State) : Offered d s (offerDefect d s) := by
  rcases offerDefect_cases d s with ⟨h1, e⟩ | ⟨h1, h2, e⟩ | ⟨h1, h2, e⟩
  · exact ⟨by rw [e, if_pos h1], by rw [e]; simp [h1]⟩
  · have h2 : s.thread.defects.length < 32 := h2
    exact ⟨by rw [e, h1]; simp [h2], by rw [e]; simp [Nat.not_le.mpr h2]⟩
  · have h2 : 32 ≤ s.thread.defects.length := h2
    refine ⟨by rw [e, h1]; simp [Nat.not_lt.mpr h2], ?_⟩
    rw [e]
    exact iff_of_true rfl (Or.inr ⟨h1, h2⟩)

/-- An offer has been made by what only evaluates a lane after it. -/
theorem Offered.before_stops {d : Defect} {s u t : State} (h : Offered d s u) (k : OnlyStops u t) : Offered d s t := by
  obtain ⟨_, _, rfl⟩ := k
  exact ⟨h.list, h.overflow⟩

/-- An offer from a state with the same records and latches. -/
theorem Offered.of_same {d : Defect} {s u t : State} (h : Offered d u t) (defects : u.thread.defects = s.thread.defects)
    (mgmt : u.mgmt = s.mgmt) : Offered d s t := by
  obtain ⟨h1, h2⟩ := h
  rw [defects] at h1 h2
  rw [mgmt] at h2
  exact ⟨h1, h2⟩

/-- A record formed now is as R139 and R140 say. -/
theorem defectNow_formed (s : State) (kind : DefectKind) (g : Fin 16) : FormedIn s kind g (s.defectNow kind g) where
  kind := rfl
  segment := rfl
  panel p h := by simp only [State.defectNow, State.panelPlace, h]
  noPanel h := by
    simp only [State.defectNow, State.panelPlace]
    split
    · rename_i h1
      exact absurd (by rw [h1]; rfl) h
    · rfl
    · rfl
  lane l h h2 := by simp only [State.defectNow, State.lanePlace, h, h2, if_true]
  noLane h := by
    simp only [State.defectNow, State.lanePlace]
    split
    · rename_i l h1
      rw [if_neg (by rw [h l h1]; simp)]
    · rfl

/-- What a loss notice does (R120, R141). -/
theorem lossNotice_done (g : Fin 16) (s : State) :
    Offered (s.defectNow .loss g) s (lossNotice g s) ∧ SegmentEvaluated g s (lossNotice g s) := by
  obtain ⟨_, _, k⟩ := offerDefect_keeps (s.defectNow .loss g) s
  exact ⟨(offerDefect_offered _ s).before_stops (evaluateSegment_only g _),
    (evaluateSegment_evaluated g _).of_same (by rw [k]) (by rw [k])⟩

/-- What a break does to the list and to its lane (R132). -/
theorem threadBreak_done (g : Fin 16) (p : Fin 8) (s : State) :
    Offered (s.defectNow (.threadBreak p) g) s (threadBreak g p s) ∧ SegmentEvaluated g s (threadBreak g p s) := by
  rw [threadBreak_eq]
  obtain ⟨_, _, k⟩ := offerDefect_keeps (s.defectNow (.threadBreak p) g)
    { joinFault g p s with thread.totalBreaks := saturate s.thread.totalBreaks }
  exact ⟨((offerDefect_offered _ _).before_stops (evaluateSegment_only g _)).of_same rfl rfl,
    (evaluateSegment_evaluated g _).of_same (by rw [k]; rfl) (by rw [k]; rfl)⟩

/-- Two records match as R142 says. -/
theorem Defect.matches_iff (d e : Defect) :
    d.matches e = true ↔ d.kind = e.kind ∧ d.segment = e.segment ∧
      d.panelPlace.map PanelPlace.serial = e.panelPlace.map PanelPlace.serial := by
  simp only [Defect.matches, Bool.and_eq_true, decide_eq_true_eq, and_assoc]
  exact Iff.rfl

/-- The judgements of a notice leave the bobbin-low states and the BOBBIN_LOW latch (R138). -/
theorem judgePositions_bobbin (g : Fin 16) (reported : Pattern) (ps : List (Fin 8)) (s : State) :
    (ps.foldl (judgePosition g reported) s).thread.bobbinLow = s.thread.bobbinLow ∧
      (ps.foldl (judgePosition g reported) s).mgmt.latches.bobbinLow = s.mgmt.latches.bobbinLow := by
  have brk (p : Fin 8) (u : State) : (threadBreak g p u).thread.bobbinLow = u.thread.bobbinLow ∧
      (threadBreak g p u).mgmt.latches.bobbinLow = u.mgmt.latches.bobbinLow := by
    obtain ⟨_, h⟩ := threadBreak_thread g p u
    refine ⟨by rw [h], ?_⟩
    rw [threadBreak_eq]
    obtain ⟨_, _, h⟩ := evaluateSegment_only g
      (offerDefect (u.defectNow (.threadBreak p) g)
        { joinFault g p u with thread.totalBreaks := saturate u.thread.totalBreaks })
    rw [h]
    rcases offerDefect_cases (u.defectNow (.threadBreak p) g)
      { joinFault g p u with thread.totalBreaks := saturate u.thread.totalBreaks } with ⟨-, e⟩ | ⟨-, -, e⟩ | ⟨-, -, e⟩ <;>
      rw [e] <;> rfl
  refine foldl_keeps (R := fun s t => t.thread.bobbinLow = s.thread.bobbinLow ∧
    t.mgmt.latches.bobbinLow = s.mgmt.latches.bobbinLow) (fun _ => ⟨rfl, rfl⟩)
    (fun h k => ⟨k.1.trans h.1, k.2.trans h.2⟩) (fun t p => ?_) ps s
  rcases judgePosition_cases g reported t p with ⟨v, e⟩ | e | ⟨-, e⟩ | ⟨-, e⟩ | ⟨-, e⟩ <;> rw [e]
  · exact ⟨rfl, rfl⟩
  · exact ⟨rfl, rfl⟩
  · exact ⟨rfl, rfl⟩
  · exact brk p (setPresence g p .absent t)
  · exact ⟨rfl, rfl⟩

/-- A return notice whole (R130, R138). -/
theorem returnNotice_eq (g : Fin 16) (reported : Pattern) (low : Bool) (s : State) :
    returnNotice g reported low s =
      let u := (List.finRange 8).foldl (judgePosition g reported) s
      { u with
        thread.bobbinLow := s.thread.bobbinLow.set g low
        mgmt.latches.bobbinLow := s.mgmt.latches.bobbinLow || (low && !s.thread.bobbinLow[g]) } := by
  obtain ⟨h1, h2⟩ := judgePositions_bobbin g reported (List.finRange 8) s
  simp only [returnNotice, takeBobbin, h1, ← h2]
  cases low <;> cases s.thread.bobbinLow[g] <;> simp [State.latch, Latches.set]

/-! ### Lanes a window's end keeps (R57, R118) -/

/-- The lane is neither SEWING nor HELD: no drop evaluation touches it (R57). -/
def LaneContext.idles (c : LaneContext) : Prop := ¬ (c.state = .sewing ∨ c.state = .held)

/-- An evaluation of a segment's lane keeps every lane that idles. -/
theorem evaluateSegment_lane_kept (g : Fin 16) (s : State) (l : Fin 8) (h : (s.lane l).idles) :
    (evaluateSegment g s).lane l = s.lane l := by
  have e := evaluateSegment_evaluated g s
  cases hm : s.composer.laneMap[g] with
  | none => exact lane_of_lanes (e.unmapped hm).1 l
  | some k =>
    by_cases hk : l = k
    · subst hk
      exact ((e.mapped l hm).kept (Or.inl h)).1
    · exact (e.mapped k hm).others l hk

theorem lossNotice_lane_kept (g : Fin 16) (s : State) (l : Fin 8) (h : (s.lane l).idles) :
    (lossNotice g s).lane l = s.lane l := by
  have same : (offerDefect (s.defectNow .loss g) s).lane l = s.lane l := by
    obtain ⟨_, _, e⟩ := offerDefect_keeps (s.defectNow .loss g) s
    rw [e]
    rfl
  rw [lossNotice, evaluateSegment_lane_kept g _ l (by rw [same]; exact h), same]

theorem setSegment_lane (g : Fin 16) (x : Segment) (s : State) (l : Fin 8) : (setSegment g x s).lane l = s.lane l := by
  obtain ⟨_, e⟩ := setSegment_keeps g x s
  rw [e]
  rfl

theorem badReturn_lane_kept (g : Fin 16) (s : State) (l : Fin 8) (h : (s.lane l).idles) :
    (badReturn g s).lane l = s.lane l := by
  unfold badReturn
  split
  · exact setSegment_lane g _ s l
  · split
    · exact setSegment_lane g _ s l
    · rw [lossNotice_lane_kept g _ l (by rw [setSegment_lane]; exact h), setSegment_lane]
  all_goals rfl

/-- The end of a window keeps every lane that idles. -/
theorem endWindow_lane_kept (s : State) (l : Fin 8) (h : (s.lane l).idles) : (endWindow s).lane l = s.lane l := by
  have close (received : List Bool) (u : State) (k : (u.lane l).idles) (g : Fin 16) :
      (closePosition received u g).lane l = u.lane l := by
    unfold closePosition
    split
    · exact badReturn_lane_kept g u l k
    all_goals rfl
  have all (received : List Bool) (gs : List (Fin 16)) (u : State) (k : (u.lane l).idles) :
      (gs.foldl (closePosition received) u).lane l = u.lane l := by
    induction gs generalizing u with
    | nil => rfl
    | cons g gs ih =>
      have one := close received u k g
      rw [List.foldl_cons, ih _ (by rw [one]; exact k), one]
  unfold endWindow
  split
  · rename_i received _
    exact all received _ { s with head.tx := .free } h
  all_goals rfl

end Sys2Proof.Machine
end

