-- ==== Sys2Proof/Laws/Formats.lean ====
section
/-! SUPPORT. The layouts field by field: bits, laterals, lane codes, records, latches (R181, R187 to R191). -/

namespace Sys2Proof.Machine

/-! ### Numbers and bits -/

/-- Bit i of a number made of bits is the i-th of them. -/
theorem bitsToNat_testBit (bits : List Bool) (i : Nat) : (bitsToNat bits).testBit i = bits.getD i false := by
  induction bits generalizing i with
  | nil => simp [bitsToNat]
  | cons b bits ih =>
    have half : bitsToNat (b :: bits) / 2 = bitsToNat bits := by
      cases b <;> simp only [bitsToNat, Bool.toNat_false, Bool.toNat_true] <;> omega
    cases i with
    | zero => cases b <;> simp [bitsToNat, Nat.testBit_zero]
    | succ i =>
      rw [Nat.testBit_succ, half, ih]
      rfl

@[simp] theorem le16_length (n : Nat) : (le16 n).length = 2 := rfl

@[simp] theorem lateral16_length (x : Lateral) : (lateral16 x).length = 2 := rfl

/-! ### Codes -/

@[simp] theorem Scale.byte_eq (x : Scale) : x.byte = x.factor := rfl

theorem laneCode_eq (x : Option (Fin 8)) : laneCode x = (x.map Fin.val).getD 8 := by cases x <;> rfl

/-! ### Answer data -/

/-- The lane map sent, byte by byte (R190). -/
theorem laneMapData_eq (map : Vector (Option (Fin 8)) 16) :
    laneMapData map.toList =
      (List.finRange 8).map fun j =>
        byteOf (laneCode map[2 * j.val] + 16 * laneCode map[2 * j.val + 1]) := by
  obtain ⟨⟨l⟩, h⟩ := map
  match l, h with
  | [_, _, _, _, _, _, _, _, _, _, _, _, _, _, _, _], _ => rfl

/-- The 13 bytes of a record are its fields (R191). -/
theorem Defect.bytes_eq_fields (d : Defect) : d.bytes = d.fields := by
  obtain ⟨kind, segment, lane, panel⟩ := d
  cases kind <;> cases lane <;> cases panel <;>
    simp [Defect.bytes, Defect.fields, Defect.needle, byteOf, orZero, bitsToNat, le16]

@[simp] theorem Defect.bytes_length (d : Defect) : d.bytes.length = 13 := by
  rw [Defect.bytes_eq_fields]
  rfl

/-- The two bytes of the latches (R181, R191). -/
theorem Latches.bytes_eq (ls : Latches) :
    le16 ls.word =
      [BitVec.ofNat 8 (bitsToNat [ls.defectOverflow, ls.markerLost, ls.segmentChange, ls.underrunSeen, ls.linkError,
          ls.commandDropped, ls.bobbinLow, ls.shaftEarly]),
       BitVec.ofNat 8 ls.strokeRefused.toNat] := by
  have split (a b c d e f g h i : Bool) : le16 (bitsToNat [a, b, c, d, e, f, g, h, i]) =
      [BitVec.ofNat 8 (bitsToNat [a, b, c, d, e, f, g, h]), BitVec.ofNat 8 i.toNat] := by
    revert a b c d e f g h i
    decide +kernel
  exact split _ _ _ _ _ _ _ _ _

@[simp] theorem Record.data_length (r : Record) : r.data.length = 9 := by cases r <;> rfl

end Sys2Proof.Machine
end

