-- ==== Sys2Proof/Laws/Index.lean ====
section
/-! SUPPORT. The shaft index: what the end of a return window keeps, what a served index leaves. -/

namespace Sys2Proof.Machine

/-! ### The end of a window -/

@[simp] theorem endWindow_store (s : State) : (endWindow s).store = s.store := by
  obtain ⟨_, _, _, _, _, _, e⟩ := endWindow_only s
  rw [e]

@[simp] theorem endWindow_stager (s : State) : (endWindow s).stager = s.stager := by
  obtain ⟨_, _, _, _, _, _, e⟩ := endWindow_only s
  rw [e]

@[simp] theorem endWindow_line (s : State) : (endWindow s).line = s.line := by
  obtain ⟨_, _, _, _, _, _, e⟩ := endWindow_only s
  rw [e]

@[simp] theorem endWindow_strokes (s : State) : (endWindow s).strokes = s.strokes := by
  obtain ⟨_, _, _, _, _, _, e⟩ := endWindow_only s
  rw [e]

@[simp] theorem endWindow_link (s : State) : (endWindow s).link = s.link := by
  obtain ⟨_, _, _, _, _, _, e⟩ := endWindow_only s
  rw [e]

@[simp] theorem endWindow_pending (s : State) : (endWindow s).pending = s.pending := by
  obtain ⟨_, _, _, _, _, _, e⟩ := endWindow_only s
  rw [e]

@[simp] theorem endWindow_markers (s : State) : (endWindow s).engine.markers = s.engine.markers := by
  obtain ⟨_, _, _, _, _, _, e⟩ := endWindow_only s
  rw [e]

@[simp] theorem endWindow_laneMap (s : State) : (endWindow s).composer.laneMap = s.composer.laneMap := by
  obtain ⟨_, _, _, _, _, _, e⟩ := endWindow_only s
  rw [e]

@[simp] theorem endWindow_operatorMask (s : State) : (endWindow s).composer.operatorMask = s.composer.operatorMask := by
  obtain ⟨_, _, _, _, _, _, e⟩ := endWindow_only s
  rw [e]

@[simp] theorem endWindow_previousWords (s : State) :
    (endWindow s).composer.previousWords = s.composer.previousWords := by
  obtain ⟨_, _, _, _, _, _, e⟩ := endWindow_only s
  rw [e]

@[simp] theorem endWindow_frameSerial (s : State) : (endWindow s).head.frameSerial = s.head.frameSerial := by
  obtain ⟨_, _, _, _, _, _, e⟩ := endWindow_only s
  rw [e]

@[simp] theorem endWindow_segmentCount (s : State) : (endWindow s).head.segmentCount = s.head.segmentCount := by
  obtain ⟨_, _, _, _, _, _, e⟩ := endWindow_only s
  rw [e]

@[simp] theorem endWindow_claim (s : State) : (endWindow s).head.claim = s.head.claim := by
  obtain ⟨_, _, _, _, _, _, e⟩ := endWindow_only s
  rw [e]

@[simp] theorem endWindow_waiting (s : State) : (endWindow s).head.waiting = s.head.waiting := by
  obtain ⟨_, _, _, _, _, _, e⟩ := endWindow_only s
  rw [e]

@[simp] theorem endWindow_commands (s : State) : (endWindow s).mgmt.commands = s.mgmt.commands := by
  obtain ⟨_, _, _, _, _, _, e⟩ := endWindow_only s
  rw [e]

@[simp] theorem endWindow_answers (s : State) : (endWindow s).mgmt.answers = s.mgmt.answers := by
  obtain ⟨_, _, _, _, _, _, e⟩ := endWindow_only s
  rw [e]

@[simp] theorem endWindow_reserved (s : State) : (endWindow s).mgmt.reserved = s.mgmt.reserved := by
  obtain ⟨_, _, _, _, _, _, e⟩ := endWindow_only s
  rw [e]

@[simp] theorem endWindow_frameKind (s : State) : (endWindow s).frameKind = s.frameKind := by
  simp only [State.frameKind, endWindow_line, endWindow_strokes]

/-! ### The service of an index -/

/-- The stroke of an index served at s. -/
def State.strokeOutcome (s : State) : StrokeOutcome := applyStroke (formFrame s.frameKind (endWindow s))

theorem serveIndex_outcome (s : State) : serveIndex s = composeReport s.strokeOutcome := by
  rw [serveIndex_eq, endWindow_frameKind]
  rfl

/-- The REPORT of an index served at s. -/
def State.indexReport (s : State) : Report :=
  { s.strokeOutcome.state.reportNow s.strokeOutcome.serial s.strokeOutcome.dwell with
    skipped := s.strokes.slot.isSome }

/-- The stroke of an index leaves the transmitters, the report slot and the words formed. -/
theorem strokeOutcome_keeps (s : State) :
    s.strokeOutcome.state.head = (formFrame s.frameKind (endWindow s)).head ∧
      s.strokeOutcome.state.composer.previousWords = (formFrame s.frameKind (endWindow s)).composer.previousWords ∧
      s.strokeOutcome.state.link = s.link ∧ s.strokeOutcome.state.strokes.slot = s.strokes.slot ∧
      s.strokeOutcome.state.strokes.limit = s.strokes.limit := by
  obtain ⟨_, _, _, _, _, _, _, _, _, _, _, h⟩ := applyStroke_only (formFrame s.frameKind (endWindow s))
  rw [State.strokeOutcome, h]
  simp [formFrame]

/-- A served index: the state its stroke leaves, with up to 8 markers gone into its REPORT, which is taken at once or
placed in the slot (R59, R98, R101). -/
theorem serveIndex_result (s : State) :
    serveIndex s =
      { s.strokeOutcome.state with
        engine.markers := s.strokeOutcome.state.engine.markers.drop 8
        link.tx := if s.link.tx = none then some (.report s.indexReport) else s.link.tx
        strokes.slot := if s.link.tx = none then none else some s.indexReport } := by
  obtain ⟨-, -, h1, h2, -⟩ := strokeOutcome_keeps s
  rw [serveIndex_outcome, composeReport, placeReport_eq]
  simp only [h1, h2, State.indexReport, Config.reportMarkers]
  generalize s.link = link
  obtain ⟨_, _, _, _, tx⟩ := link
  cases tx <;> simp

theorem serveIndex_reports (s : State) : reports s (serveIndex s) s.indexReport := by
  rw [serveIndex_result]
  refine ⟨rfl, ?_⟩
  split <;> simp [*]

/-- A shaft index that is served (R90). -/
theorem exec_shaftIndex_served {s : State} (h : s.serves) : exec .shaftIndex s = .next (serveIndex s) := by
  obtain ⟨h1, h2, h3⟩ := h
  have : s.indexFate = .served := by
    unfold State.indexFate
    unfold State.hldirOutbound at h1
    cases ht : s.head.tx <;> simp_all
  simp only [exec, execShaftIndex, takeIndex, this]

/-- The configured segments in order: segment k is the k-th (R105). -/
theorem configured_getElem? (s : State) (k : Nat) :
    s.configured[k]? = if h : k < 16 ∧ k < s.head.segmentCount then some ⟨k, h.1⟩ else none := by
  have key : ∀ n, n ≤ 16 → (List.finRange 16).filter (fun g => decide (g.val < n)) =
      (List.finRange 16).take n := by
    intro n hn
    interval_cases n <;> decide
  unfold State.configured
  by_cases hn : s.head.segmentCount ≤ 16
  · rw [key _ hn]
    by_cases h : k < 16 ∧ k < s.head.segmentCount
    · rw [dif_pos h, List.getElem?_take, if_pos h.2, List.getElem?_eq_getElem (by simpa using h.1)]
      simp
    · rw [dif_neg h, List.getElem?_eq_none]
      simp only [List.length_take, List.length_finRange]
      omega
  · have : (List.finRange 16).filter (fun g => decide (g.val < s.head.segmentCount)) = List.finRange 16 := by
      rw [List.filter_eq_self]
      intro g _
      have := g.isLt
      simp only [decide_eq_true_eq]
      omega
    rw [this]
    by_cases h : k < 16
    · rw [dif_pos ⟨h, by omega⟩, List.getElem?_eq_getElem (by simpa using h)]
      simp
    · rw [dif_neg (fun e => h e.1), List.getElem?_eq_none]
      simp only [List.length_finRange]
      omega

end Sys2Proof.Machine
end

