-- ==== Sys2Proof/Laws/Memory.lean ====
section
/-! SUPPORT. The record store: every operation keeps the canonical form, and what a place reads as after each. -/

namespace Sys2Proof.Machine

namespace Memory

theorem wf_cons {a : Nat} {w : RecordWord} {m : Memory} :
    wf ((a, w) :: m) = true ↔ w ≠ 0 ∧ (∀ cell ∈ m, a < cell.1) ∧ wf m = true := by
  simp [wf, and_assoc]

/-- A place below every listed one reads as END. -/
theorem read_of_lt {m : Memory} {a : Nat} (h : ∀ cell ∈ m, a < cell.1) : m.read a = 0 := by
  induction m with
  | nil => rfl
  | cons x m ih =>
    obtain ⟨b, w⟩ := x
    have hb : a < b := h (b, w) (by simp)
    rw [read, if_neg (by omega)]
    exact ih fun c hc => h c (by simp [hc])

/-- Every cell of a written store was listed before, or is the one written. -/
theorem mem_write {m : Memory} {a : Nat} {w : RecordWord} {cell : Nat × RecordWord} (h : cell ∈ m.write a w) :
    cell ∈ m ∨ cell = (a, w) ∧ w ≠ 0 := by
  induction m with
  | nil =>
    rw [write] at h
    split at h
    · exact absurd h (by simp)
    · rename_i hw
      exact Or.inr ⟨by simpa using h, hw⟩
  | cons x m ih =>
    obtain ⟨b, v⟩ := x
    simp only [write] at h
    split at h
    · split at h
      · exact Or.inl h
      · rcases List.mem_cons.mp h with h | h
        · exact Or.inr ⟨h, by assumption⟩
        · exact Or.inl h
    · split at h
      · split at h
        · exact Or.inl (List.mem_cons_of_mem _ h)
        · rcases List.mem_cons.mp h with h | h
          · exact Or.inr ⟨h, by assumption⟩
          · exact Or.inl (List.mem_cons_of_mem _ h)
      · rcases List.mem_cons.mp h with h | h
        · exact Or.inl (by simp [h])
        · rcases ih h with h | h
          · exact Or.inl (List.mem_cons_of_mem _ h)
          · exact Or.inr h

/-- A write keeps the canonical form. -/
theorem wf_write {m : Memory} (h : m.wf = true) (a : Nat) (w : RecordWord) : (m.write a w).wf = true := by
  induction m with
  | nil =>
    rw [write]
    split
    · rfl
    · rename_i hw
      exact wf_cons.mpr ⟨hw, by simp, rfl⟩
  | cons x m ih =>
    obtain ⟨b, v⟩ := x
    obtain ⟨hv, hlt, hm⟩ := wf_cons.mp h
    simp only [write]
    split
    · rename_i hab
      split
      · exact h
      · rename_i hw
        refine wf_cons.mpr ⟨hw, fun cell hc => ?_, h⟩
        rcases List.mem_cons.mp hc with rfl | hc
        · exact hab
        · exact Nat.lt_trans hab (hlt cell hc)
    · split
      · rename_i hab
        subst hab
        split
        · exact hm
        · rename_i hw
          exact wf_cons.mpr ⟨hw, hlt, hm⟩
      · refine wf_cons.mpr ⟨hv, fun cell hc => ?_, ih hm⟩
        rcases mem_write hc with hc | ⟨rfl, _⟩
        · exact hlt cell hc
        · show b < a
          omega

/-- What a place reads as after a write. -/
theorem read_write {m : Memory} (h : m.wf = true) (a : Nat) (w : RecordWord) (b : Nat) :
    Memory.read (m.write a w) b = if b = a then w else m.read b := by
  induction m with
  | nil =>
    by_cases hw : w = 0
    · subst hw
      simp [write, read]
    · rw [write, if_neg hw]
      rfl
  | cons x m ih =>
    obtain ⟨c, v⟩ := x
    obtain ⟨hv, hlt, hm⟩ := wf_cons.mp h
    have low : ∀ k ≤ c, Memory.read m k = 0 := fun k hk => read_of_lt (m := m) fun cell hc => Nat.lt_of_le_of_lt hk (hlt cell hc)
    by_cases hac : a < c
    · by_cases hw : w = 0
      · by_cases hb : b = a
        · subst hb
          rw [write, if_pos hac, if_pos hw, read, if_neg (by omega), low b (by omega), if_pos rfl, hw]
        · rw [write, if_pos hac, if_pos hw, if_neg hb]
      · rw [write, if_pos hac, if_neg hw, read]
    · by_cases hac' : a = c
      · subst hac'
        by_cases hw : w = 0
        · rw [write, if_neg (by omega), if_pos rfl, if_pos hw]
          by_cases hb : b = a
          · rw [if_pos hb, hb, low a (Nat.le_refl a), hw]
          · rw [if_neg hb, read, if_neg hb]
        · rw [write, if_neg (by omega), if_pos rfl, if_neg hw, read, read]
          split <;> rfl
      · rw [write, if_neg hac, if_neg hac', read, ih hm, read]
        by_cases hb : b = a
        · rw [if_pos hb, if_neg (by omega), if_pos hb]
        · rw [if_neg hb, if_neg hb]

/-- The END fill keeps the canonical form. -/
theorem wf_fillEnd {m : Memory} (h : m.wf = true) (base n : Nat) : Memory.wf (fillEnd base n m) = true := by
  induction m with
  | nil => rfl
  | cons x m ih =>
    obtain ⟨a, w⟩ := x
    obtain ⟨hw, hlt, hm⟩ := wf_cons.mp h
    rw [fillEnd, List.filter_cons]
    split
    · exact wf_cons.mpr ⟨hw, fun cell hc => hlt cell (List.mem_of_mem_filter hc), ih hm⟩
    · exact ih hm

/-- What a place reads as after the END fill. -/
theorem read_fillEnd (m : Memory) (base n a : Nat) :
    Memory.read (fillEnd base n m) a = if base ≤ a ∧ a < base + n then 0 else m.read a := by
  induction m with
  | nil => simp [fillEnd, read]
  | cons x m ih =>
    obtain ⟨b, w⟩ := x
    rw [fillEnd] at ih
    rw [fillEnd, List.filter_cons]
    by_cases hb : b < base ∨ base + n ≤ b
    · rw [if_pos (by simpa using hb), read, ih, read]
      by_cases hab : a = b
      · rw [if_pos hab, if_neg (by omega), if_pos hab]
      · rw [if_neg hab, if_neg hab]
    · rw [if_neg (by simpa using hb), ih, read]
      by_cases hab : a = b
      · rw [if_pos (by omega), if_pos (by omega)]
      · rw [if_neg hab]

theorem mem_fillEnd {m : Memory} {base n : Nat} {cell : Nat × RecordWord} (h : cell ∈ fillEnd base n m) : cell ∈ m :=
  List.mem_of_mem_filter h

end Memory

/-- Reset memory has the canonical form. -/
theorem reset_records_wf : State.reset.store.records.wf = true := rfl

/-- The place of a record, with the place in the page as a remainder. -/
theorem place_eq (st : Store) (m : Fin 64) (i : Nat) : st.place m i = st.directory[m].firstPage * 64 + i := by
  simp only [Store.place]
  omega

/-- The DEFINE check on pages, in terms of owned pages (R8, check 5). -/
theorem overlapsOther_iff {st : Store} {m : Fin 64} {first count : Nat} (h : StoreLaw st) (hc : 1 ≤ count) :
    overlapsOther m first count st.directory = true ↔ rangeTaken m first count st := by
  simp only [overlapsOther, rangeTaken, List.any_eq_true, List.mem_finRange, true_and, Bool.and_eq_true,
    decide_eq_true_eq, DirEntry.ownsPage]
  constructor
  · rintro ⟨k, ⟨⟨hk, hd⟩, h2⟩, h3⟩
    have hw := h.entries k
    simp only [DirEntry.wf, hd, if_true] at hw
    exact ⟨k, hk, max first st.directory[k].firstPage, by omega, by omega, hd, by omega, by omega⟩
  · rintro ⟨k, hk, page, h2, h3, hd, h4, h5⟩
    exact ⟨k, ⟨⟨hk, hd⟩, by omega⟩, by omega⟩

theorem defineInRange_iff {first count length : Nat} {loop : Option Nat} :
    defineInRange first count length loop = true ↔ defineArguments first count length loop := by
  simp only [defineInRange, defineArguments, Bool.and_eq_true, decide_eq_true_eq]
  cases loop <;> simp <;> omega

/-- A motif in use is defined. -/
theorem StoreLaw.defined_of_inUse {st : Store} (h : StoreLaw st) {m : Fin 64} (hu : 0 < st.directory[m].inUse) :
    st.directory[m].defined = true := by
  have hw := h.entries m
  by_contra hd
  rw [DirEntry.wf, if_neg hd] at hw
  rw [hw] at hu
  exact absurd hu (by decide)

end Sys2Proof.Machine
end

