-- ==== Sys2Proof/Laws/Panels.lean ====
section
/-! SUPPORT. What a feed does to the lanes, the marker queue and the last laterals, lane by lane; what a panel start does
to them; and the boundaries that pass a whole seam gap within one event. -/

namespace Sys2Proof.Machine

/-! ### Markers -/

theorem queued_nil (old : List Marker) : queued old [] = old := by simp [queued]

theorem queued_append (old a b : List Marker) : queued (queued old a) b = queued old (a ++ b) := by
  simp only [queued, List.length_append, List.length_take, List.append_assoc, List.take_append]
  congr 3
  omega

theorem not_markersLost_nil (old : List Marker) : ¬ markersLost old [] := Nat.not_lt_zero _

theorem markersLost_append (old a b : List Marker) :
    markersLost old (a ++ b) ↔ markersLost old a ∨ markersLost (queued old a) b := by
  simp only [markersLost, queued, List.length_append, List.length_take]
  omega

/-- Markers have been raised from s to t (R58). -/
structure Raised (raised : List Marker) (s t : State) : Prop where
  markers : t.engine.markers = queued s.engine.markers raised
  lost    : t.mgmt.latches.markerLost = true ↔
    s.mgmt.latches.markerLost = true ∨ markersLost s.engine.markers raised

theorem Raised.none {s t : State} (h : t.engine.markers = s.engine.markers)
    (k : t.mgmt.latches.markerLost = s.mgmt.latches.markerLost) : Raised [] s t :=
  ⟨by rw [h, queued_nil], by rw [k]; simp [not_markersLost_nil]⟩

theorem Raised.trans {a b : List Marker} {s t u : State} (h : Raised a s t) (k : Raised b t u) :
    Raised (a ++ b) s u := by
  refine ⟨by rw [k.markers, h.markers, queued_append], ?_⟩
  rw [k.lost, h.lost, h.markers, markersLost_append, or_assoc]

theorem pushMarker_raised (m : Marker) (s : State) : Raised [m] s (pushMarker m s) := by
  unfold pushMarker
  by_cases h : s.engine.markers.length < Config.markerCapacity
  · rw [if_pos h]
    have h : s.engine.markers.length < 16 := h
    refine ⟨?_, ?_⟩
    · rw [queued, List.take_of_length_le (by simp only [List.length_singleton]; omega)]
    · exact (or_iff_left (by simp only [markersLost, List.length_singleton]; omega)).symm
  · rw [if_neg h]
    have h : ¬ s.engine.markers.length < 16 := h
    refine ⟨?_, iff_of_true rfl (Or.inr ?_)⟩
    · rw [queued, show 16 - s.engine.markers.length = 0 by omega]
      simp
    · simp only [markersLost, List.length_singleton]
      omega

theorem pushMarkers_raised (l : Fin 8) (codes : List (BitVec 5)) (s : State) :
    Raised (codes.map fun code => { lane := l, code := code }) s (pushMarkers l codes s) := by
  induction codes generalizing s with
  | nil => exact Raised.none rfl rfl
  | cons code codes ih => exact (pushMarker_raised _ s).trans (ih _)

theorem noticeIfStopped_raised (l : Fin 8) (s : State) : Raised [] s (noticeIfStopped l s) := by
  unfold noticeIfStopped
  split <;> exact Raised.none rfl rfl

theorem walkSewing_raised (feed : Nat) (s : State) (l : Fin 8) :
    Raised ((walkedBy s.store feed (s.lane l)).2.map fun code => { lane := l, code := code }) s
      (walkSewing feed s l) := by
  unfold walkSewing
  split <;> rename_i h
  · rw [walkedBy, if_pos h]
    have h1 : Raised [] s (s.setLane l (walkLane s.store feed (s.lane l)).1) := Raised.none rfl rfl
    have := (h1.trans (pushMarkers_raised l (walkLane s.store feed (s.lane l)).2 _)).trans (noticeIfStopped_raised l _)
    simpa using this
  all_goals
    rw [walkedBy, if_neg (by rw [h]; simp)]
    exact Raised.none rfl rfl

/-- The markers a walk of all lanes raises (R45, R49, R58). -/
theorem walkLanes_raised (feed : Nat) (s : State) : Raised (raisedBy s.store feed s.lane) s (walkLanes feed s) := by
  unfold raisedBy walkLanes
  have nodup := List.nodup_finRange 8
  generalize hl : List.finRange 8 = ls at nodup
  clear hl
  induction ls generalizing s with
  | nil => exact Raised.none rfl rfl
  | cons l ls ih =>
    obtain ⟨hl, hn⟩ := List.nodup_cons.mp nodup
    rw [List.flatMap_cons, List.foldl_cons]
    have := ih (walkSewing feed s l) hn
    rw [(walkSewing_only feed s l).store] at this
    have e : ls.flatMap (fun k => (walkedBy s.store feed ((walkSewing feed s l).lane k)).2.map
          fun code => ({ lane := k, code := code } : Marker)) =
        ls.flatMap fun k => (walkedBy s.store feed (s.lane k)).2.map fun code => { lane := k, code := code } := by
      simp only [List.flatMap_def]
      refine congrArg List.flatten (List.map_congr_left fun k hk => ?_)
      rw [walkSewing_lane_other feed s (fun h : k = l => hl (h ▸ hk))]
    rw [e] at this
    exact (walkSewing_raised feed s l).trans this

/-- The state a walk leaves a SEWING lane in (R46, R50, R51). -/
theorem walkLane_state (st : Store) (feed : Nat) (c : LaneContext) (hc : c.state = .sewing) :
    (walkLane st feed c).1.state = .sewing ∨ (walkLane st feed c).1.state = .finished ∨
      (walkLane st feed c).1.state = .stopped .loopFault := by
  have walk : ∀ fuel feed (c : LaneContext), c.state = .sewing →
      (spendFeed st fuel feed c).1.state = .sewing ∨ (spendFeed st fuel feed c).1.state = .finished ∨
        (spendFeed st fuel feed c).1.state = .stopped .loopFault := by
    intro fuel
    induction fuel with
    | zero => intro feed c h; exact Or.inl h
    | succ fuel ih =>
      intro feed c h
      unfold spendFeed
      split
      · exact Or.inl h
      · obtain ⟨-, result⟩ := enterRecord_result st 63 (c.recordIndex + 1) (completeStep st c)
          (by rw [completeStep_state]; exact h)
        simp only [Config.zeroSpanLimit]
        rcases result with h | h | h
        · rw [h]
          exact Or.inr (Or.inl h)
        · rw [h]
          exact Or.inr (Or.inr h)
        · rw [h.1]
          exact ih _ _ h.1
  exact walk _ _ _ hc

theorem walkLanes_walkedBy (feed : Nat) (s : State) (l : Fin 8) :
    (walkLanes feed s).lane l = (walkedBy s.store feed (s.lane l)).1 := by
  rw [walkLanes_lane, walkedBy]
  split <;> rfl

/-- The last laterals after a walk of all lanes: 0 for the segments of a lane that the walk has stopped (R51, R56,
R110). -/
theorem walkLanes_lastLateral (feed : Nat) (s : State) (g : Fin 16) :
    (walkLanes feed s).composer.lastLateral[g] =
      if ∃ l, s.composer.laneMap[g] = some l ∧ (s.lane l).state = .sewing ∧
          (walkLane s.store feed (s.lane l)).1.state = .stopped .loopFault
      then 0 else s.composer.lastLateral[g] := by
  classical
  have one (u : State) (l : Fin 8) : (walkSewing feed u l).composer.lastLateral[g] =
      if u.composer.laneMap[g] = some l ∧ (u.lane l).state = .sewing ∧
          (walkLane u.store feed (u.lane l)).1.state = .stopped .loopFault
      then 0 else u.composer.lastLateral[g] := by
    unfold walkSewing
    split <;> rename_i h
    · have e : (pushMarkers l (walkLane u.store feed (u.lane l)).2
          (u.setLane l (walkLane u.store feed (u.lane l)).1)).composer = u.composer := by
        refine foldl_keeps (R := fun s t => t.composer = s.composer) (fun _ => rfl) (fun h k => k.trans h)
          (fun t code => ?_) _ _
        unfold pushMarker
        split <;> rfl
      unfold noticeIfStopped
      simp only []
      rw [pushMarkers_lane, setLane_lane_same]
      rcases walkLane_state u.store feed (u.lane l) h with hk | hk | hk
      · simp only [hk, e]
        simp
      · simp only [hk, e]
        simp
      · simp only [hk, h, stopNotice, e, Fin.getElem_fin, tabulate_getElem, and_true]
    all_goals simp [h]
  unfold walkLanes
  have nodup := List.nodup_finRange 8
  have key : ∀ (ls : List (Fin 8)), ls.Nodup → ∀ u : State,
      (ls.foldl (walkSewing feed) u).composer.lastLateral[g] =
        if ∃ l ∈ ls, u.composer.laneMap[g] = some l ∧ (u.lane l).state = .sewing ∧
            (walkLane u.store feed (u.lane l)).1.state = .stopped .loopFault
        then 0 else u.composer.lastLateral[g] := by
    intro ls
    induction ls with
    | nil => intro _ u; simp
    | cons l ls ih =>
      intro nodup u
      obtain ⟨hl, hn⟩ := List.nodup_cons.mp nodup
      rw [List.foldl_cons, ih hn, (walkSewing_only feed u l).store]
      have map : (walkSewing feed u l).composer.laneMap = u.composer.laneMap := by
        obtain ⟨_, _, _, e⟩ := walkSewing_only feed u l
        rw [e]
      rw [map, one]
      have lane : ∀ k ∈ ls, (walkSewing feed u l).lane k = u.lane k := fun k hk =>
        walkSewing_lane_other feed u fun e => hl (e ▸ hk)
      by_cases h1 : ∃ k ∈ ls, u.composer.laneMap[g] = some k ∧ (u.lane k).state = .sewing ∧
          (walkLane u.store feed (u.lane k)).1.state = .stopped .loopFault
      · obtain ⟨k, hk, h⟩ := h1
        rw [if_pos ⟨k, hk, by rw [lane k hk]; exact h⟩, if_pos ⟨k, by simp [hk], h⟩]
      · rw [if_neg fun ⟨k, hk, h⟩ => h1 ⟨k, hk, by rw [lane k hk] at h; exact h⟩]
        refine if_congr ⟨fun h => ⟨l, by simp, h⟩, fun ⟨k, hk, h⟩ => ?_⟩ rfl rfl
        rcases List.mem_cons.mp hk with e | hk
        · exact e ▸ h
        · exact absurd ⟨k, hk, h⟩ h1
  rw [key _ nodup]
  exact if_congr ⟨fun ⟨l, _, h⟩ => ⟨l, h⟩, fun ⟨l, h⟩ => ⟨l, List.mem_finRange l, h⟩⟩ rfl rfl

/-! ### The panel start -/

/-- A load sets every field of the context. -/
theorem startLane_any (st : Store) (a : Assignment) (c d : LaneContext) : startLane st a c = startLane st a d := rfl

theorem startLane_not_held (st : Store) (a : Assignment) (c : LaneContext) : (startLane st a c).state ≠ .held := by
  obtain ⟨-, result⟩ := enterRecord_result st 63 0 (loadLane a c) rfl
  unfold startLane
  simp only [Config.zeroSpanLimit]
  rcases result with h | h | h
  · simp [h]
  · simp [h]
  · rw [h.1]
    rcases walkLane_state st a.startOffset _ h.1 with h | h | h <;> simp [h]

theorem foldl_dropEvaluation_only (ls : List (Fin 8)) (s : State) :
    OnlyStops s (ls.foldl (fun t l => dropEvaluation l t) s) :=
  foldl_keeps OnlyStops.refl OnlyStops.trans (fun t l => dropEvaluation_only l t) ls s

/-- The drop evaluations of all lanes, lane by lane (R57, R147). -/
theorem dropEvaluations_lane_eq (s : State) (k : Fin 8) :
    ((List.finRange 8).foldl (fun t l => dropEvaluation l t) s).lane k =
      if ((s.lane k).state = .sewing ∨ (s.lane k).state = .held) ∧ s.reachesLimit k then (s.lane k).stop .drop
      else s.lane k := by
  classical
  have h := foldl_lane (f := fun t l => dropEvaluation l t) (P := OnlyStops)
    (g := fun s c l => if (c.state = .sewing ∨ c.state = .held) ∧ s.reachesLimit l then c.stop .drop else c)
    (fun s l => dropEvaluation_only l s)
    (fun s l => by
      have h := dropEvaluation_evaluated l s
      have same := (dropEvaluation_only l s).reachesLimit l
      by_cases hc : ((s.lane l).state = .sewing ∨ (s.lane l).state = .held) ∧ s.reachesLimit l
      · rw [if_pos hc]
        exact (h.stopped hc.1 (same.mpr hc.2)).1
      · rw [if_neg hc]
        exact (h.kept (not_and_or.mp fun e => hc ⟨e.1, same.mp e.2⟩)).1)
    (fun s l k h => dropEvaluation_lane_other h s)
    (fun c l h => by simp only [h.reachesLimit])
    (List.finRange 8) (List.nodup_finRange 8) s k
  rw [if_pos (List.mem_finRange k)] at h
  rw [h]

/-- A lane after a panel start (R41 to R43, R147). -/
theorem panelStart_lane (p : PanelProgram) (position : Nat) (s : State) (k : Fin 8) :
    (panelStart p position s).lane k = s.startedLane p k := by
  obtain ⟨a, b, e⟩ := startLanes_only p { s with line.serial := s.line.serial + 1, line.position := position }
  have lanes := startLanes_lane p { s with line.serial := s.line.serial + 1, line.position := position } k
  have limit : (releaseRethreaded (startLanes p
      { s with line.serial := s.line.serial + 1, line.position := position })).reachesLimit k ↔
      (releaseRethreaded s).reachesLimit k := by
    rw [e]
    exact Iff.rfl
  simp only [panelStart]
  rw [dropEvaluations_lane_eq, if_congr (and_congr_right fun _ => limit) rfl rfl, releaseRethreaded_lane, lanes,
    State.startedLane]
  cases p.assignmentOf k with
  | none =>
    rw [if_neg fun h => absurd h.1 (by simp)]
    rfl
  | some a =>
    have lane : State.lane { s with line.serial := s.line.serial + 1, line.position := position } k = s.lane k := rfl
    simp only [lane]
    exact if_congr (and_congr_left fun _ => or_iff_left (startLane_not_held s.store a (s.lane k))) rfl rfl

/-- A panel start raises no marker (R42). -/
theorem panelStart_raised (p : PanelProgram) (position : Nat) (s : State) : Raised [] s (panelStart p position s) := by
  have start (u : State) : ((List.finRange 8).foldl (startOrVacate p) u).engine.markers = u.engine.markers := by
    refine foldl_keeps (R := fun s t => t.engine.markers = s.engine.markers) (fun _ => rfl) (fun h k => k.trans h)
      (fun t l => ?_) _ _
    unfold startOrVacate
    split
    · unfold noticeIfStopped
      split <;> rfl
    · rfl
  have drop (u : State) :
      ((List.finRange 8).foldl (fun t l => dropEvaluation l t) u).engine.markers = u.engine.markers := by
    refine foldl_keeps (R := fun s t => t.engine.markers = s.engine.markers) (fun _ => rfl) (fun h k => k.trans h)
      (fun t l => ?_) _ _
    unfold dropEvaluation dropStop
    split
    · split <;> rfl
    · rfl
  obtain ⟨_, _, e⟩ := panelStart_only p position s
  refine Raised.none ?_ (by rw [e]; rfl)
  simp only [panelStart]
  rw [drop]
  exact start _

/-! ### Last laterals at a panel start -/

/-- A fold over all lanes, each round of which changes its own lane and the last laterals of that lane's segments: the
last lateral of a segment is what the round of its lane makes of it. -/
theorem foldl_lastLateral {f : State → Fin 8 → State} (only : ∀ s l, OnlyStops s (f s l))
    (other : ∀ s l k, k ≠ l → (f s l).lane k = s.lane k) {g : Fin 16}
    (lateral : ∀ s l, s.composer.laneMap[g] ≠ some l → (f s l).composer.lastLateral[g] = s.composer.lastLateral[g])
    (s : State) :
    (s.composer.laneMap[g] = none →
      ((List.finRange 8).foldl f s).composer.lastLateral[g] = s.composer.lastLateral[g]) ∧
    ∀ l, s.composer.laneMap[g] = some l → ∃ u, OnlyStops s u ∧ u.lane l = s.lane l ∧
      u.composer.lastLateral[g] = s.composer.lastLateral[g] ∧
      ((List.finRange 8).foldl f s).composer.lastLateral[g] = (f u l).composer.lastLateral[g] ∧
      ((List.finRange 8).foldl f s).lane l = (f u l).lane l := by
  have map {u v : State} (h : OnlyStops u v) : v.composer.laneMap = u.composer.laneMap := by
    obtain ⟨_, _, rfl⟩ := h
    rfl
  have skip (ls : List (Fin 8)) (u : State) (h : ∀ l ∈ ls, u.composer.laneMap[g] ≠ some l) :
      (ls.foldl f u).composer.lastLateral[g] = u.composer.lastLateral[g] := by
    induction ls generalizing u with
    | nil => rfl
    | cons l ls ih =>
      rw [List.foldl_cons, ih _ (fun k hk => by rw [map (only u l)]; exact h k (by simp [hk])),
        lateral u l (h l (by simp))]
  have skipLane (ls : List (Fin 8)) (u : State) (k : Fin 8) (h : k ∉ ls) : (ls.foldl f u).lane k = u.lane k := by
    induction ls generalizing u with
    | nil => rfl
    | cons l ls ih =>
      rw [List.foldl_cons, ih _ (fun hk => h (by simp [hk])), other u l k fun e => h (by simp [e])]
  refine ⟨fun h => skip _ s fun l _ => by rw [h]; simp, fun l hl => ?_⟩
  have nodup := List.nodup_finRange 8
  obtain ⟨before, after, e⟩ := List.append_of_mem (List.mem_finRange l)
  rw [e] at nodup ⊢
  have hb : ∀ k ∈ before, k ≠ l := fun k hk h =>
    (List.nodup_append.mp nodup).2.2 k hk l (by simp) h
  have ha : ∀ k ∈ after, k ≠ l := fun k hk h =>
    (List.nodup_cons.mp (List.nodup_append.mp nodup).2.1).1 (h ▸ hk)
  have reached : OnlyStops s (before.foldl f s) := foldl_keeps OnlyStops.refl OnlyStops.trans only before s
  refine ⟨before.foldl f s, reached, skipLane before s l fun h => hb l h rfl,
    skip before s fun k hk => by rw [hl]; simpa using fun e => hb k hk e.symm, ?_, ?_⟩
  · rw [List.foldl_append, List.foldl_cons]
    refine skip after _ fun k hk => ?_
    rw [map (only _ l), map reached, hl]
    simpa using fun e => ha k hk e.symm
  · rw [List.foldl_append, List.foldl_cons]
    exact skipLane after _ l fun h => ha l h rfl

theorem noticeIfStopped_lastLateral (l : Fin 8) (s : State) (g : Fin 16) :
    (s.composer.laneMap[g] ≠ some l → (noticeIfStopped l s).composer.lastLateral[g] = s.composer.lastLateral[g]) ∧
    (s.composer.laneMap[g] = some l →
      (∀ k, (s.lane l).state = .stopped k → (noticeIfStopped l s).composer.lastLateral[g] = 0) ∧
      ((∀ k, (s.lane l).state ≠ .stopped k) →
        (noticeIfStopped l s).composer.lastLateral[g] = s.composer.lastLateral[g])) := by
  unfold noticeIfStopped
  cases h : (s.lane l).state <;> simp only [stopNotice, Fin.getElem_fin, tabulate_getElem]
  case stopped k =>
    refine ⟨fun h => if_neg h, fun h => ⟨fun _ _ => if_pos h, fun h => absurd rfl (h k)⟩⟩
  all_goals simp

/-- The last lateral of a segment after a panel start: 0 when its lane is STOPPED then, else as before (R42, R57, R110). -/
theorem panelStart_lastLateral (p : PanelProgram) (position : Nat) (s : State) (g : Fin 16) :
    (∀ (l : Fin 8) (k : StopCause), s.composer.laneMap[g] = some l → ((panelStart p position s).lane l).state = .stopped k →
      (panelStart p position s).composer.lastLateral[g] = 0) ∧
    ((∀ (l : Fin 8) (k : StopCause), s.composer.laneMap[g] = some l →
        ((panelStart p position s).lane l).state ≠ .stopped k) →
      (panelStart p position s).composer.lastLateral[g] = s.composer.lastLateral[g]) := by
  obtain ⟨c, hc⟩ : ∃ c, c = { s with line.serial := s.line.serial + 1, line.position := position } := ⟨_, rfl⟩
  have start := foldl_lastLateral (f := startOrVacate p) (startOrVacate_only p)
    (fun s l k h => by
      unfold startOrVacate
      cases p.assignmentOf l <;> simp [setLane_lane_other _ _ h])
    (g := g) (fun s l h => by
      unfold startOrVacate
      cases p.assignmentOf l with
      | none => rfl
      | some a => exact (noticeIfStopped_lastLateral l _ g).1 h) c
  obtain ⟨r, hr⟩ : ∃ r, r = releaseRethreaded ((List.finRange 8).foldl (startOrVacate p) c) := ⟨_, rfl⟩
  have drop := foldl_lastLateral (f := fun t l => dropEvaluation l t) (fun s l => dropEvaluation_only l s)
    (fun s l k h => dropEvaluation_lane_other h s) (g := g)
    (fun s l h => by
      have e := dropEvaluation_evaluated l s
      by_cases hd : ((s.lane l).state = .sewing ∨ (s.lane l).state = .held) ∧ (dropEvaluation l s).reachesLimit l
      · rw [(e.stopped hd.1 hd.2).2 g, if_neg h]
      · rw [(e.kept (not_and_or.mp hd)).2]) r
  have whole : panelStart p position s = (List.finRange 8).foldl (fun t l => dropEvaluation l t) r := by
    rw [hr, hc]
    rfl
  have mapC : c.composer = s.composer := by rw [hc]
  have only := foldl_keeps OnlyStops.refl OnlyStops.trans (startOrVacate_only p) (List.finRange 8) c
  have mapR : r.composer.laneMap = s.composer.laneMap := by
    rw [hr]
    obtain ⟨_, _, e⟩ := only
    rw [e, ← mapC]
    rfl
  have latR : r.composer.lastLateral = ((List.finRange 8).foldl (startOrVacate p) c).composer.lastLateral := by
    rw [hr]
    rfl
  rw [whole]
  rw [mapR] at drop
  rw [mapC] at start
  cases hm : s.composer.laneMap[g] with
  | none =>
    refine ⟨fun l k h => by simp at h, fun _ => ?_⟩
    rw [drop.1 hm, latR, start.1 hm]
  | some l =>
    obtain ⟨u, hu, hul, hug, h1, h2⟩ := drop.2 l hm
    obtain ⟨v, hv, hvl, hvg, k1, k2⟩ := start.2 l hm
    have uMap : u.composer.laneMap[g] = some l := by
      obtain ⟨_, _, rfl⟩ := hu
      rw [← hm, ← mapR]
    have vMap : v.composer.laneMap[g] = some l := by
      obtain ⟨_, _, rfl⟩ := hv
      rw [← hm, ← mapC]
    have e := dropEvaluation_evaluated l u
    have laneR : r.lane l = (startOrVacate p v l).lane l := by
      rw [hr, releaseRethreaded_lane, k2]
    have vac : ∀ k, ((startOrVacate p v l).lane l).state = .stopped k →
        (startOrVacate p v l).composer.lastLateral[g] = 0 := by
      intro k
      unfold startOrVacate
      cases p.assignmentOf l with
      | none => simp
      | some a =>
        intro h
        rw [noticeIfStopped_lane] at h
        exact ((noticeIfStopped_lastLateral l (v.setLane l (startLane v.store a (v.lane l))) g).2 vMap).1 k h
    have stay : (∀ k, ((startOrVacate p v l).lane l).state ≠ .stopped k) →
        (startOrVacate p v l).composer.lastLateral[g] = v.composer.lastLateral[g] := by
      unfold startOrVacate
      cases p.assignmentOf l with
      | none => intro; rfl
      | some a =>
        intro h
        simp only [noticeIfStopped_lane] at h
        exact ((noticeIfStopped_lastLateral l (v.setLane l (startLane v.store a (v.lane l))) g).2 vMap).2 h
    by_cases hd : ((u.lane l).state = .sewing ∨ (u.lane l).state = .held) ∧ (dropEvaluation l u).reachesLimit l
    · obtain ⟨h3, h4⟩ := e.stopped hd.1 hd.2
      have zero : (dropEvaluation l u).composer.lastLateral[g] = 0 := by rw [h4 g, if_pos uMap]
      rw [h1]
      refine ⟨fun _ _ _ _ => zero, fun h => absurd ?_ (h l .drop rfl)⟩
      rw [h2, h3]
    · obtain ⟨h3, h4⟩ := e.kept (not_and_or.mp hd)
      have same : (dropEvaluation l u).composer.lastLateral[g] = (startOrVacate p v l).composer.lastLateral[g] := by
        rw [h4, hug, latR, k1]
      have lane : (dropEvaluation l u).lane l = (startOrVacate p v l).lane l := by rw [h3, hul, laneR]
      rw [h1, same]
      refine ⟨fun l' k h hk => ?_, fun h => ?_⟩
      · obtain rfl : l = l' := by simpa using h
        rw [h2, lane] at hk
        exact vac k hk
      · rw [stay fun k => ?_, hvg]
        have := h l k rfl
        rwa [h2, lane] at this

/-! ### The REPORT of a served index (R98 to R100) -/

theorem placeNow_eq (s : State) : s.place = placeField s.line := by
  unfold State.place placeField
  cases h : s.line.state with
  | halted cause resume => cases resume <;> simp [LineState.feedsSeam, LineState.sewsPanel]
  | _ => simp [LineState.feedsSeam, LineState.sewsPanel]

/-- The REPORT of a served index tells of the part as the index leaves it. -/
theorem serveIndex_tells (s : State) : ReportTells s (serveIndex s) s.indexReport := by
  obtain ⟨head, -⟩ := strokeOutcome_keeps s
  have commands : s.strokeOutcome.state.mgmt.commands = s.mgmt.commands := by
    obtain ⟨_, _, _, _, _, _, _, _, _, _, _, h⟩ := applyStroke_only (formFrame s.frameKind (endWindow s))
    rw [State.strokeOutcome, h]
    simp [formFrame]
  constructor
  · simp [State.indexReport, State.reportNow, head, formFrame]
  · rw [serveIndex_result]
    rfl
  · rw [serveIndex_result]
    rfl
  · rw [serveIndex_result]
    simp [State.indexReport, State.reportNow, placeNow_eq]
  · simp [State.indexReport, State.reportNow, commands, Config.commandCapacity]
  · rw [serveIndex_result]
    simp [State.indexReport, State.reportNow, State.attn]

/-- What forming a frame keeps of the state it is formed in. -/
theorem formed_keeps (s : State) :
    (formFrame s.frameKind (endWindow s)).line = s.line ∧
      (formFrame s.frameKind (endWindow s)).stager = s.stager ∧
      (formFrame s.frameKind (endWindow s)).store = s.store ∧
      (formFrame s.frameKind (endWindow s)).strokes = s.strokes ∧
      (formFrame s.frameKind (endWindow s)).engine.markers = s.engine.markers := by
  simp [formFrame]

/-- A stroke consumed (R92). -/
theorem strokeOutcome_consumed {s : State} {x : Stroke} {rest : List Stroke}
    (moving : s.line.state = .running ∨ s.line.state = .changeover) (queue : s.strokes.queue = x :: rest) :
    s.strokeOutcome =
      { state := consumeStroke x rest (formFrame s.frameKind (endWindow s)), serial := some x.serial, dwell := false } := by
  obtain ⟨line, -, -, strokes, -⟩ := formed_keeps s
  unfold State.strokeOutcome applyStroke
  rcases moving with h | h <;> simp only [line, strokes, queue, h]

/-- A dwell stroke taken (R93). -/
theorem strokeOutcome_dwell {s : State} (moving : s.line.state = .running ∨ s.line.state = .changeover)
    (queue : s.strokes.queue = []) :
    s.strokeOutcome =
      { state := dwellStroke (formFrame s.frameKind (endWindow s)), serial := none, dwell := true } := by
  obtain ⟨line, -, -, strokes, -⟩ := formed_keeps s
  unfold State.strokeOutcome applyStroke
  rcases moving with h | h <;> simp only [line, strokes, queue, h]

/-- No stroke is taken outside RUNNING and CHANGEOVER (R97). -/
theorem strokeOutcome_still {s : State} (still : s.line.state = .idle ∨ s.line.state.isHalted = true) :
    s.strokeOutcome = { state := formFrame s.frameKind (endWindow s), serial := none, dwell := false } := by
  obtain ⟨line, -⟩ := formed_keeps s
  unfold State.strokeOutcome applyStroke
  cases h : s.line.state <;> rw [h] at still <;> simp [LineState.isHalted] at still <;> simp only [line, h]

/-! ### The shaft index that waited through a loop test (R85, R97) -/

/-- The state in which the waited index is served: none waits any more. -/
def State.unwaited (s : State) : State := { s with head.waiting := false }

theorem serveWaited_not_waiting {s : State} (h : s.head.waiting = false) : serveWaited s = s := by
  simp [serveWaited, State.indexDue, h]

theorem serveWaited_due {s : State} (waits : s.head.waiting = true) (unclaimed : s.head.claim = false)
    (clear : s.hldirOutbound = false) : serveWaited s = serveIndex s.unwaited := by
  simp [serveWaited, State.indexDue, waits, unclaimed, clear, State.unwaited]

/-- All serving the waited index can do: nothing, or the service of an index that is due. -/
theorem serveWaited_cases (s : State) :
    serveWaited s = s ∨
      s.head.waiting = true ∧ s.head.claim = false ∧ s.hldirOutbound = false ∧
        serveWaited s = serveIndex s.unwaited := by
  unfold serveWaited
  by_cases h : (s.indexDue && !s.hldirOutbound) = true
  · rw [if_pos h]
    simp only [State.indexDue, Bool.and_eq_true, Bool.not_eq_true'] at h
    exact Or.inr ⟨h.1.1, h.1.2, h.2, rfl⟩
  · rw [if_neg h]
    exact Or.inl rfl

/-- An index served leaves its frame being sent, with the next serial; claim and waiting index stay (R114, R115). -/
theorem serveIndex_head (s : State) :
    (∃ f, (serveIndex s).head.tx = .sending f) ∧ (serveIndex s).head.frameSerial = s.head.frameSerial + 1 ∧
      (serveIndex s).head.claim = s.head.claim ∧ (serveIndex s).head.waiting = s.head.waiting ∧
      (serveIndex s).head.segmentCount = s.head.segmentCount := by
  obtain ⟨head, -⟩ := strokeOutcome_keeps s
  rw [serveIndex_result]
  simp only [head]
  refine ⟨⟨_, rfl⟩, ?_, ?_, ?_, ?_⟩ <;> simp [formFrame]

/-- An index served in IDLE or HALTED leaves line, staging, store, strokes queued and the command and answer queues
(R97). -/
theorem serveIndex_still {s : State} (still : s.line.state = .idle ∨ s.line.state.isHalted = true) :
    (serveIndex s).line = s.line ∧ (serveIndex s).stager = s.stager ∧ (serveIndex s).store = s.store ∧
      (serveIndex s).strokes.queue = s.strokes.queue ∧ (serveIndex s).mgmt.commands = s.mgmt.commands ∧
      (serveIndex s).mgmt.answers = s.mgmt.answers ∧ (serveIndex s).mgmt.reserved = s.mgmt.reserved ∧
      (serveIndex s).link.breakState = s.link.breakState ∧ (serveIndex s).pending = s.pending := by
  rw [serveIndex_result, strokeOutcome_still still]
  simp [formFrame]

/-- The waited index served in IDLE leaves the same. -/
theorem serveWaited_idle {s : State} (idle : s.line.state = .idle) :
    (serveWaited s).line = s.line ∧ (serveWaited s).stager = s.stager ∧ (serveWaited s).store = s.store ∧
      (serveWaited s).strokes.queue = s.strokes.queue ∧ (serveWaited s).mgmt.commands = s.mgmt.commands ∧
      (serveWaited s).mgmt.answers = s.mgmt.answers ∧ (serveWaited s).mgmt.reserved = s.mgmt.reserved ∧
      (serveWaited s).link.breakState = s.link.breakState ∧ (serveWaited s).pending = s.pending := by
  rcases serveWaited_cases s with h | ⟨-, -, -, h⟩
  · simp only [h, and_self]
  · rw [h]
    exact serveIndex_still (s := s.unwaited) (Or.inl idle)

/-- A panel start leaves the head link port. -/
theorem startRun_head (p : PanelProgram) (s : State) : (startRun p s).head = s.head := by
  obtain ⟨_, _, e⟩ := panelStart_only p 0
    { s with
      stager.pendingPanel := none
      line.program := some { role := .active, panel := p }
      line.seam := 0
      line.state := .running }
  rw [startRun, e]
  rfl

/-! ### Boundaries that pass a whole seam gap (R74 to R76) -/

/-- A boundary whose excess reaches the gap, the program that follows being known: the changeover completes within the
event, and a further boundary follows when the leftover reaches that program's length. -/
theorem boundary_through {fuel excess : Nat} {p q : PanelProgram} {s : State} (next : s.nextPanel p = some q)
    (gap : p.seamGap ≤ excess) :
    boundary (fuel + 1) excess p s =
      if excess - p.seamGap < q.length then
        completeChangeover q (excess - p.seamGap) (openChangeover p q 0 s)
      else
        boundary fuel (excess - p.seamGap - q.length) q
          (completeChangeover q (excess - p.seamGap) (openChangeover p q 0 s)) := by
  rw [boundary]
  simp only [next]
  rw [if_neg (Nat.not_lt.mpr gap), Nat.sub_eq_zero_of_le gap]

/-- The line, the stager and the store after a changeover completed within the event. -/
theorem completed_line (p q : PanelProgram) (leftover : Nat) (s : State) :
    (completeChangeover q leftover (openChangeover p q 0 s)).line =
      { state := .running, program := some { role := .active, panel := q }, position := leftover, seam := 0,
        serial := s.line.serial + 1 } := by
  obtain ⟨_, _, _, e⟩ := walkLanes_only leftover (panelStart q leftover
    { openChangeover p q 0 s with
      line.seam := 0, line.program := some { role := .active, panel := q }, line.state := .running })
  obtain ⟨_, _, k⟩ := panelStart_only q leftover
    { openChangeover p q 0 s with
      line.seam := 0, line.program := some { role := .active, panel := q }, line.state := .running }
  rw [completeChangeover, e, k]
  rfl

theorem completeChangeover_keeps (q : PanelProgram) (leftover : Nat) (s : State) :
    (completeChangeover q leftover s).stager = s.stager ∧ (completeChangeover q leftover s).store = s.store ∧
      (completeChangeover q leftover s).strokes = s.strokes := by
  obtain ⟨_, _, _, e⟩ := walkLanes_only leftover (panelStart q leftover
    { s with line.seam := 0, line.program := some { role := .active, panel := q }, line.state := .running })
  obtain ⟨_, _, k⟩ := panelStart_only q leftover
    { s with line.seam := 0, line.program := some { role := .active, panel := q }, line.state := .running }
  rw [completeChangeover, e, k]
  exact ⟨rfl, rfl, rfl⟩

/-- The line after a leftover has been spent on a repeated panel: the panel and its gap are one round, and the leftover
goes round as often as it holds one (R76). -/
def roundLine (q : PanelProgram) (leftover : Nat) (serial : Serial) : Sequencer :=
  if leftover % (q.length + q.seamGap) < q.length then
    { state := .running, program := some { role := .active, panel := q },
      position := leftover % (q.length + q.seamGap), seam := 0,
      serial := serial + BitVec.ofNat 16 (leftover / (q.length + q.seamGap)) }
  else
    { state := .changeover, program := some { role := .incoming, panel := q }, position := 0,
      seam := q.length + q.seamGap - leftover % (q.length + q.seamGap),
      serial := serial + BitVec.ofNat 16 (leftover / (q.length + q.seamGap)) }

theorem roundLine_of_lt {q : PanelProgram} {leftover : Nat} (h : leftover < q.length) (serial : Serial) :
    roundLine q leftover serial =
      { state := .running, program := some { role := .active, panel := q }, position := leftover, seam := 0,
        serial := serial } := by
  have h1 : leftover % (q.length + q.seamGap) = leftover := Nat.mod_eq_of_lt (by omega)
  have h2 : leftover / (q.length + q.seamGap) = 0 := Nat.div_eq_of_lt (by omega)
  simp [roundLine, h1, h2, h]

theorem roundLine_of_gap {q : PanelProgram} {leftover : Nat} (h : q.length ≤ leftover)
    (k : leftover - q.length < q.seamGap) (serial : Serial) :
    roundLine q leftover serial =
      { state := .changeover, program := some { role := .incoming, panel := q }, position := 0,
        seam := q.seamGap - (leftover - q.length), serial := serial } := by
  have h1 : leftover % (q.length + q.seamGap) = leftover := Nat.mod_eq_of_lt (by omega)
  have h2 : leftover / (q.length + q.seamGap) = 0 := Nat.div_eq_of_lt (by omega)
  simp only [roundLine, h1, h2, if_neg (Nat.not_lt.mpr h)]
  simp
  omega

theorem roundLine_round {q : PanelProgram} {leftover : Nat} (pos : 1 ≤ q.length) (h : q.length + q.seamGap ≤ leftover)
    (serial : Serial) :
    roundLine q (leftover - q.length - q.seamGap) (serial + 1) = roundLine q leftover serial := by
  have h0 : leftover - q.length - q.seamGap = leftover - (q.length + q.seamGap) := by omega
  have h1 : (leftover - (q.length + q.seamGap)) % (q.length + q.seamGap) = leftover % (q.length + q.seamGap) :=
    (Nat.mod_eq_sub_mod h).symm
  have h2 : leftover / (q.length + q.seamGap) = (leftover - (q.length + q.seamGap)) / (q.length + q.seamGap) + 1 :=
    Nat.div_eq_sub_div (by omega) h
  have h3 : serial + 1 + BitVec.ofNat 16 ((leftover - (q.length + q.seamGap)) / (q.length + q.seamGap)) =
      serial + BitVec.ofNat 16 (leftover / (q.length + q.seamGap)) := by
    rw [h2, BitVec.ofNat_add, BitVec.add_assoc, BitVec.add_comm 1]
    rfl
  simp only [roundLine, h0, h1, h3]

/-- The boundaries of a repeated panel with none pending (R73 to R76). -/
theorem boundary_rounds {q : PanelProgram} (repeats : q.repeats = true) (pos : 1 ≤ q.length) (fuel excess : Nat)
    (enough : excess < fuel) (s : State) (none : s.stager.pendingPanel = none) :
    (boundary fuel excess q s).line = roundLine q (q.length + excess) s.line.serial ∧
      (boundary fuel excess q s).stager = s.stager ∧ (boundary fuel excess q s).store = s.store ∧
      (boundary fuel excess q s).strokes = s.strokes := by
  induction fuel generalizing excess s with
  | zero => omega
  | succ fuel ih =>
    have next : s.nextPanel q = some q := by simp [State.nextPanel, none, repeats]
    by_cases gap : excess < q.seamGap
    · have e : boundary (fuel + 1) excess q s = openChangeover q q (q.seamGap - excess) s := by
        rw [boundary]
        simp only [next]
        rw [if_pos gap]
      rw [e, roundLine_of_gap (by omega) (by omega)]
      refine ⟨?_, ?_, ?_, rfl⟩
      · simp only [openChangeover]
        rw [show q.seamGap - (q.length + excess - q.length) = q.seamGap - excess by omega]
      · simp only [openChangeover, ← none]
      · simp only [openChangeover, none]
        rfl
    · have gap : q.seamGap ≤ excess := Nat.not_lt.mp gap
      obtain ⟨u, hu⟩ : ∃ u, u = completeChangeover q (excess - q.seamGap) (openChangeover q q 0 s) := ⟨_, rfl⟩
      have line := completed_line q q (excess - q.seamGap) s
      obtain ⟨stager, store, strokes⟩ := completeChangeover_keeps q (excess - q.seamGap) (openChangeover q q 0 s)
      rw [← hu] at line stager store strokes
      have stager : u.stager = s.stager := by rw [stager]; simp only [openChangeover, ← none]
      have store : u.store = s.store := by
        rw [store]
        simp only [openChangeover, none]
        rfl
      rw [boundary_through next gap, ← hu]
      have rounds := roundLine_round (q := q) (leftover := q.length + excess) pos (by omega) s.line.serial
      rw [show q.length + excess - q.length - q.seamGap = excess - q.seamGap by omega] at rounds
      split
      · rename_i h
        rw [← rounds, roundLine_of_lt h]
        exact ⟨line, stager, store, strokes⟩
      · rename_i h
        obtain ⟨i1, i2, i3, i4⟩ := ih (excess - q.seamGap - q.length) (by omega) u (by rw [stager]; exact none)
        rw [i1, i2, i3, i4, ← rounds]
        refine ⟨?_, stager, store, strokes⟩
        rw [show q.length + (excess - q.seamGap - q.length) = excess - q.seamGap by omega, line]

end Sys2Proof.Machine
end

