-- ==== Sys2Proof/Tests/Slice0.lean ====
section
/-! SUPPORT. Tests: ill-formed commands, the manual's worked values, and for each statement with hypotheses concrete
states and operands that meet them. -/

namespace Sys2Proof.Tests

open Sys2Proof Sys2Proof.Machine

/-! ### Ill-formed commands -/

theorem test_wellFormed_refuses_return_position_16 :
    (Instr.returnSlot 16 { byte0 := 0, byte1 := 0, check := 0, framing := false }).wellFormed = false ∧
      (Instr.returnSlot 15 { byte0 := 0, byte1 := 0, check := 0, framing := false }).wellFormed = true := by decide

theorem test_wellFormed_refuses_stroke_payload_33 :
    (Instr.strokeCell (List.replicate 33 0)).wellFormed = false ∧
      (Instr.strokeCell (List.replicate 32 0)).wellFormed = true := by decide

theorem test_wellFormed_refuses_31_argument_bytes :
    (Instr.commandCell { tag := 0, code := 0x61, args := List.replicate 31 0 }).wellFormed = false ∧
      (Instr.commandCell { tag := 0, code := 0x61, args := List.replicate 30 0 }).wellFormed = true := by decide

theorem test_no_word_spells_a_command : decodeTableWord 8 0 = none ∧ decodeTableWord 16 0xFFFF = none := by decide

/-! ### Small states -/

/-- A state whose command queue holds one command. -/
def front (code : Byte) (args : List Byte) (s : State) : State :=
  { s with mgmt.commands := [{ tag := 0x11, code := code, args := args }] }

/-- Motif 3: pages 5 and 6, length 70, loop index 1, one reference. -/
def motif3 : DirEntry :=
  { defined := true, firstPage := 5, pageCount := 2, length := 70, loopIndex := some 1, inUse := 1 }

/-- Lane 0 assigned to motif 3. -/
def entry0 : Assignment :=
  { lane := 0, motif := 3, scale := .x1, startOffset := 0, loopAllowed := true, tension := 5 }

/-- A panel of one assignment. -/
def panel7 : PanelProgram := { tag := 7, length := 1000, seamGap := 40, repeats := false, assignments := [entry0] }

/-- Lane 0 on record 0 of motif 3, 25 feed units left. -/
def lane0 : LaneContext :=
  { state := .sewing, motif := 3, scale := .x1, loopAllowed := true, recordIndex := 0, fromLateral := 0,
    leftInStep := 25, currentLateral := 0, tension := 9, lockOdd := false, loopPasses := 0, engage := 0xFF }

/-- The store of the small states: motif 3 holds the MOVE of the manual's packing example as record 0. -/
def store3 : Store :=
  { directory := (Vector.replicate 64 DirEntry.blank).set 3 motif3
    records := [(320, 0x20F0051FF900)]
    assembler := none
    packing := .highFirst }

/-- RUNNING panel 7 at position 100, segments 0 and 1 on lane 0, one stroke queued. -/
def sewing : State :=
  { State.reset with
    store := store3
    engine.lanes := (Vector.replicate 8 LaneContext.blank).set 0 lane0
    line := { state := .running, program := some { role := .active, panel := panel7 }, position := 100, seam := 0,
              serial := 1 }
    strokes.queue := [{ serial := 1, feed := 20 }]
    composer.laneMap := ((Vector.replicate 16 none).set 0 (some 0)).set 1 (some 0) }

/-- The same line in CHANGEOVER to panel 7, 30 feed units of seam left. -/
def seaming : State :=
  { sewing with
    engine.lanes := (Vector.replicate 8 LaneContext.blank).set 0 { lane0 with state := .standby }
    line := { state := .changeover, program := some { role := .incoming, panel := panel7 }, position := 0, seam := 30,
              serial := 1 } }

/-- The same line HALTED from RUNNING. -/
def halted : State := { sewing with line.state := .halted .command .running, strokes.queue := [] }

/-- A loop test in progress, no slot checked yet. -/
def testing : State :=
  { State.reset with
    line.state := .looptest
    head.claim := true
    head.tx := .loop (some { count := 16, passed := [] })
    mgmt.commands := [{ tag := 0x11, code := 0x24, args := [] }]
    mgmt.reserved := true }

/-- The transmitter of a state. -/
def withTx (tx : HeadTx) (s : State) : State := { s with head.tx := tx }

/-- A lane of a state put in another lane state. -/
def laneIn (x : LaneState) (s : State) : State := s.setLane 0 { s.lane 0 with state := x }

/-- The state an event leaves. -/
def after (i : Instr) (s : State) : State :=
  match exec i s with
  | .next t => t
  | .fault _ => s
  | .refused _ => s

/-- A shaft index that waited through a loop test is due. -/
def overdue (s : State) : State := { s with head.waiting := true }

/-- Panel 7 pending in IDLE, its reference held. -/
def committed : State :=
  { State.reset with store := store3, stager.pendingPanel := some panel7, composer.laneMap := sewing.composer.laneMap }

/-- The lost needles of lane 0 at its limit: needle 0 in the fault mask, drop limit 1. -/
def limited (s : State) : State :=
  { s with thread.faultMask := s.thread.faultMask.set 0 1, thread.dropLimit := s.thread.dropLimit.set 0 1 }

/-! ### The manual's worked values -/

theorem test_packing_example :
    joinFragments .highFirst 0x20F0 0x051F 0xF900 = 0x20F0051FF900 ∧
      joinFragments .lowFirst 0xF900 0x051F 0x20F0 = 0x20F0051FF900 ∧
      decodeRecord 0x20F0051FF900 = some (.move 120 40 0xFF (some 9)) ∧
      decodeRecord 0x840000000000 = some (.mark 4) := by decide +kernel

theorem test_invalid_records :
    validWord 0xA00000000000 = false ∧ validWord 0x20F000000000 = false ∧ validWord 0x800000000000 = false ∧
      validWord 0 = true := by decide +kernel

/-- Motif 14 of the walk example, in page 0. -/
def store14 : Store :=
  { directory := (Vector.replicate 64 DirEntry.blank).set 14
      { defined := true, firstPage := 0, pageCount := 1, length := 5, loopIndex := some 1, inUse := 1 }
    records := [(0, 0x219006_41F700), (1, 0x5F3801400000), (2, 0x890000000000), (3, 0x7F380081E0C0),
                (4, 0x200003C1E000)]
    assembler := none
    packing := .highFirst }

theorem test_walk_example_records :
    store14.recordAt 14 0 = .move 200 50 0x0F (some 7) ∧ store14.recordAt 14 1 = .jump (-100) 10 ∧
      store14.recordAt 14 2 = .mark 9 ∧ store14.recordAt 14 3 = .lock (-100) 4 0x0F 6 ∧
      store14.recordAt 14 4 = .move 0 30 0x0F none := by decide +kernel

/-- Lane 3 of the walk example after its panel start. -/
def started14 : LaneContext :=
  startLane store14
    { lane := 3, motif := 14, scale := .x1, startOffset := 20, loopAllowed := true, tension := 4 } LaneContext.blank

theorem test_walk_example_start :
    started14.recordIndex = 0 ∧ started14.leftInStep = 30 ∧ started14.tension = 7 ∧
      (laneOutput store14 started14).bind LaneOutput.lateral = some 80 := by decide +kernel

theorem test_walk_example_stroke_2 :
    let c := (walkLane store14 24 (walkLane store14 24 started14).1)
    c.2 = [9] ∧ c.1.recordIndex = 4 ∧ c.1.leftInStep = 26 ∧ c.1.fromLateral = -100 ∧
      (laneOutput store14 c.1).bind LaneOutput.lateral = some (-87) := by decide +kernel

theorem test_lock_limited : lockLateral true 2000 100 = 2047 ∧ lockLateral false 2000 100 = 2000 := by decide +kernel

/-- Motif 3 of store3 holds END from record 1 on; loop index 0 makes every pass end on record 0. -/
theorem test_zero_span_guard :
    let st : Store :=
      { store3 with
        directory := store3.directory.set 3 { motif3 with loopIndex := some 0 }
        records := [] }
    (startLane st entry0 LaneContext.blank).state = .stopped .loopFault ∧
      (startLane st entry0 LaneContext.blank).loopPasses = 63 := by decide +kernel

theorem test_status_bytes :
    (LineState.halted .command .running).statusByte = 0x3B ∧
      (LineState.halted .underrun .changeover).statusByte = 0x53 ∧ LineState.looptest.statusByte = 4 := by decide

theorem test_crc8_of_nothing_and_of_a_kind_byte : crc8 [] = 0xFF ∧ crcByte 0xFF 0x53 = crc8 [0x53] := by decide

theorem test_pass_mask : le16 (bitsToNat [true, true, true, true]) = [0x0F, 0x00] := by decide

/-! ### The hypotheses of the statements are met -/

theorem test_hyp_StepRunsFrontCommand : State.reset.pending = [] := by decide

theorem test_hyp_ShaftIndexMeetsTransmitter :
    (withTx (.sending { serial := 1, parkAll := true, words := [] }) sewing).head.tx =
        .sending { serial := 1, parkAll := true, words := [] } ∧
      (testing.hldirOutbound = false ∧ testing.head.claim = true ∧ testing.head.waiting = false) ∧
      (({ testing with head.waiting := true }).hldirOutbound = false ∧
        ({ testing with head.waiting := true }).head.claim = true ∧
        ({ testing with head.waiting := true }).head.waiting = true) ∧
      sewing.serves := by
  unfold State.serves; decide +kernel

theorem test_hyp_ServedIndexSendsOneFrame : sewing.serves ∧ (withTx (.window [false]) sewing).serves := by
  unfold State.serves; decide +kernel

theorem test_hyp_IdleIndexConsumesNothing :
    (State.reset.serves ∧ State.reset.line.state = .idle) ∧ (halted.serves ∧ halted.line.state.isHalted = true) := by
  unfold State.serves; decide +kernel

/-- The last place short of the boundary; the last short of the seam; the completion with nothing left over; a SEWING lane
that the walk leaves SEWING, and one that the zero-span guard stops. -/
theorem test_hyp_ConsumedStrokeMovesLine :
    (let s := { sewing with line.position := 979 }
     s.serves ∧ s.strokes.queue = [{ serial := 1, feed := 20 }] ∧ s.linePanel = some panel7 ∧
       s.line.state = .running ∧ s.line.position + (20 : Byte).toNat < panel7.length) ∧
    (let s := { seaming with line.seam := 21 }
     s.serves ∧ s.strokes.queue = [{ serial := 1, feed := 20 }] ∧ s.linePanel = some panel7 ∧
       s.line.state = .changeover ∧ (20 : Byte).toNat < s.line.seam) ∧
    (let s := { seaming with line.seam := 20 }
     s.serves ∧ s.strokes.queue = [{ serial := 1, feed := 20 }] ∧ s.linePanel = some panel7 ∧
       s.line.state = .changeover ∧ s.line.seam ≤ (20 : Byte).toNat ∧
       (20 : Byte).toNat - s.line.seam < panel7.length) ∧
    (sewing.composer.laneMap[1] = some 0 ∧ (takeOutput sewing.store ((endWindow sewing).lane 0)).state = .sewing ∧
      ((after .shaftIndex sewing).lane 0).state = .sewing) ∧
    (let s := { sewing with strokes.queue := [{ serial := 1, feed := 25 }] }
     (takeOutput s.store ((endWindow s).lane 0)).state = .sewing ∧
       ((after .shaftIndex s).lane 0).state = .stopped .loopFault) := by
  unfold State.serves; decide +kernel

/-- Dwells below the limit and at it, in RUNNING and in CHANGEOVER. -/
theorem test_hyp_DwellStrokeCountsAndHalts :
    (let s := { sewing with strokes.queue := [], strokes.consecutive := 1 }
     s.serves ∧ s.strokes.queue = [] ∧ s.line.state = ResumeState.running.lineState ∧
       s.strokes.consecutive + 1 < s.strokes.limit) ∧
    (let s := { seaming with strokes.queue := [], strokes.consecutive := 2 }
     s.serves ∧ s.strokes.queue = [] ∧ s.line.state = ResumeState.changeover.lineState ∧
       s.strokes.limit ≤ s.strokes.consecutive + 1) := by
  unfold State.serves; decide +kernel

/-- The words of the frame being sent. -/
def sentWords (s : State) : List SegWord :=
  match s.head.tx with
  | .sending f => f.words
  | .free | .window _ | .loop _ => []

theorem test_hyp_FrameEngagesOnlyAllowedNeedles :
    sewing.hldirOutbound = false ∧ sewing.frameKind = .composed ∧
      ((sentWords (after .shaftIndex sewing))[1]?.map fun w => w.engage.getLsbD 7) = some true ∧
      (after .shaftIndex sewing).hldirOutbound = true := by decide +kernel

theorem test_hyp_ParkFrameParksEverySegment :
    (seaming.serves ∧ seaming.line.state ≠ .running) ∧
      (halted.serves ∧ halted.line.state ≠ .running ∧ halted.line.state ≠ .changeover) := by
  unfold State.serves; decide +kernel

/-- The walk example's lane 3 as lane 0, on a record of its motif. -/
def onRecord (i : Nat) : State :=
  { sewing with
    store := store14
    engine.lanes := (Vector.replicate 8 LaneContext.blank).set 0 { started14 with recordIndex := i } }

/-- No lane; a lane not SEWING; a SEWING lane with a previous word and without one; the last configured segment and the
first that is not; the three kinds of frame; VACANT, HELD, FINISHED and STOPPED; a MOVE, a JUMP and a LOCK. -/
theorem test_hyp_RepeatedWordsAndRecordedLaterals :
    sewing.composer.laneMap[2] = none ∧
    (sewing.composer.laneMap[0] = some 0 ∧ ((laneIn .held sewing).lane 0).state ≠ .sewing) ∧
    ((after .shaftIndex sewing).composer.laneMap[0] = some 0 ∧ ((after .shaftIndex sewing).lane 0).state = .sewing ∧
      (after .shaftIndex sewing).composer.previousWords[0].isSome = true) ∧
    (sewing.composer.laneMap[1] = some 0 ∧ (sewing.lane 0).state = .sewing ∧
      sewing.composer.previousWords[1] = none) ∧
    (let s := { sewing with head.segmentCount := 8 }
     (7 : Fin 16).val < s.head.segmentCount ∧ s.head.segmentCount ≤ (8 : Fin 16).val) ∧
    ((sewing.line.state = .running ∧ sewing.strokes.queue ≠ []) ∧
      ({ sewing with strokes.queue := [] }).strokes.queue = [] ∧ seaming.line.state ≠ .running) ∧
    (∀ x ∈ ([.vacant, .held, .finished, .stopped .command, .stopped .drop, .stopped .loopFault] : List LaneState),
      (laneIn x sewing).composer.laneMap[0] = some 0 ∧ ((laneIn x sewing).lane 0).state = x) ∧
    (∀ i ∈ [0, 1, 3], ((onRecord i).lane 0).state = .sewing) ∧
    store14.recordAt 14 0 = .move 200 50 0x0F (some 7) ∧ store14.recordAt 14 1 = .jump (-100) 10 ∧
    store14.recordAt 14 3 = .lock (-100) 4 0x0F 6 := by decide +kernel

theorem test_hyp_WaitedIndexServedInIdle :
    let s : State := { State.reset with head.waiting := true }
    s.head.waiting = true ∧ s.head.claim = false ∧ s.hldirOutbound = false ∧ s.line.state = .idle := by decide

/-- A good return slot of segment 15: number 15, all present. -/
def slot15 : Slot := { byte0 := 0x0F, byte1 := 0xFF, check := crc8 [0x0F, 0xFF], framing := false }

/-- Position 15, the last one: received before; of a LOST and an OFF segment; good; bad towards SUSPECT and LOST. -/
theorem test_hyp_ReturnSlotJudgedBySegmentState :
    (List.replicate 16 true)[(15 : Fin 16).val]? = some true ∧
    (List.replicate 16 false)[(15 : Fin 16).val]? = some false ∧
    (sewing.head.segments.set 15 { state := .lost, badReturns := 3 })[15].state = .lost ∧
    (sewing.head.segments.set 15 { state := .off, badReturns := 0 })[15].state = .off ∧
    (sewing.head.segments[15].state = .online ∧ slot15.goodReturn 15 = true) ∧
    ({ slot15 with check := 0 }.goodReturn 15 = false ∧
      Segment.afterBad { state := .online, badReturns := 0 } = { state := .suspect, badReturns := 1 } ∧
      Segment.afterBad { state := .suspect, badReturns := 1 } = { state := .suspect, badReturns := 2 } ∧
      Segment.afterBad { state := .suspect, badReturns := 2 } = { state := .lost, badReturns := 3 }) := by
  decide +kernel

/-- What a LOSS or BREAK record and the evaluation of its lane look at: an ACTIVE panel and none; a placed lane, one not
placed and none; a SEWING and a HELD lane at the limit, and below it. -/
theorem test_hyp_defect_record_and_drop_evaluation :
    (sewing.line.program = some { role := .active, panel := panel7 } ∧
      seaming.line.program.map LineProgram.role ≠ some .active) ∧
    (sewing.composer.laneMap[0] = some 0 ∧ (sewing.lane 0).state.placed = true ∧
      (seaming.lane 0).state.placed = false ∧ sewing.composer.laneMap[15] = none) ∧
    ((limited sewing).reachesLimit 0 ∧ ((limited sewing).lane 0).state = .sewing ∧
      ((laneIn .held (limited sewing)).lane 0).state = .held ∧ ¬ sewing.reachesLimit 0) := by
  decide +kernel

/-- Needle 127, the last one: presence, fault mask, operator mask and report of each row of the table. -/
theorem test_hyp_NeedleJudgementTable :
    let s (v : Presence) (fault mask : Pattern) : State :=
      { sewing with
        thread.presence := sewing.thread.presence.set 15 ((Vector.replicate 8 .unknown).set 7 v)
        thread.faultMask := sewing.thread.faultMask.set 15 fault
        composer.operatorMask := sewing.composer.operatorMask.set 15 mask }
    (s .present 0 0x80).composer.operatorMask[15].getLsbD 7 = true ∧
      (s .unknown 0 0x7F).composer.operatorMask[15].getLsbD 7 = false ∧
      (s .unknown 0 0x7F).thread.presence[15][7] = .unknown ∧ (s .present 0x7F 0).thread.presence[15][7] = .present ∧
      (s .absent 0x80 0).thread.presence[15][7] = .absent ∧
      (s .present 0x7F 0).thread.faultMask[15].getLsbD 7 = false ∧
      (s .absent 0x80 0).thread.faultMask[15].getLsbD 7 = true ∧ (0x80 : Pattern).getLsbD 7 = true ∧
      (0x7F : Pattern).getLsbD 7 = false := by decide +kernel

theorem test_hyp_ReturnWindowOpensAndExpires :
    (withTx (.sending { serial := 1, parkAll := true, words := [] }) sewing).head.tx =
        .sending { serial := 1, parkAll := true, words := [] } ∧
      (withTx (.window [false, true]) sewing).head.tx = .window [false, true] := by decide +kernel

/-- A test not begun, in LOOP and with a FREE transmitter; one slot to go but one; the last slot. -/
theorem test_hyp_LoopTestRunsToCompletion :
    (withTx (.loop none) testing).head.tx = .loop none ∧
    ((withTx .free testing).head.tx = .free ∧ (withTx .free testing).head.claim = true) ∧
    (testing.head.tx = .loop (some { count := 16, passed := [] }) ∧ ([] : List Bool).length + 1 < 16) ∧
    (let test : LoopedFrame := { count := 16, passed := List.replicate 15 true }
     (withTx (.loop (some test)) testing).head.tx = .loop (some test) ∧ test.count ≤ test.passed.length + 1 ∧
       testing.mgmt.commands = [{ tag := 0x11, code := 0x24, args := [] }]) := by decide +kernel

/-- A receiver of a state. -/
def receiving (r : Receiver) : State := { State.reset with link.receiver := r }

/-- A cell being assembled. -/
def cell (kind : CellKind) (length : Option Nat) (payload : List Byte) : PartCell :=
  { kind := kind, length := length, payload := payload, check := 0x3C }

/-- Every receiver state; lengths 32 and 33 and, of a COMMAND, 1 and 2; the last payload byte; a check that differs and one
that matches, of both kinds. -/
theorem test_hyp_ReceivedByteByReceiverState :
    ((receiving .ready).link.heldSpace = false ∧ (receiving .ready).link.breakState = false ∧
      (receiving .ready).link.receiver = .ready ∧ (0x52 : Byte) ≠ 0x53 ∧ (0x52 : Byte) ≠ 0x43) ∧
    ((receiving (.inCell (cell .stroke none []))).link.receiver = .inCell (cell .stroke none []) ∧
      (cell .stroke none []).length = none ∧ (32 : Byte).toNat ≤ 32 ∧ ¬ (33 : Byte).toNat ≤ 32 ∧
      (cell .command none []).kind = .command ∧ ¬ 2 ≤ (1 : Byte).toNat ∧ 2 ≤ (2 : Byte).toNat) ∧
    ((cell .stroke (some 3) [1, 2]).length = some 3 ∧ (cell .stroke (some 3) [1, 2]).payload.length < 3) ∧
    ((cell .stroke (some 3) [1, 2, 3]).length = some 3 ∧ 3 ≤ (cell .stroke (some 3) [1, 2, 3]).payload.length ∧
      (0x3D : Byte) ≠ (cell .stroke (some 3) [1, 2, 3]).check ∧
      (0x3C : Byte) = (cell .stroke (some 3) [1, 2, 3]).check ∧
      (cell .stroke (some 3) [1, 2, 3]).kind = .stroke) ∧
    (2 ≤ (cell .command (some 2) [0x11, 0x61]).payload.length ∧ (cell .command (some 2) [0x11, 0x61]).kind = .command ∧
      (cell .command (some 2) [0x11, 0x61]).payload = 0x11 :: 0x61 :: []) ∧
    (receiving .waitGap).link.receiver = .waitGap := by decide +kernel

theorem test_hyp_FramingGapAndMark :
    ((receiving .ready).link.heldSpace = false ∧ (receiving .ready).link.breakState = false ∧ (1 : Byte) ≠ 0 ∧
      (receiving .ready).link.receiver = .ready ∧ (receiving .waitGap).link.receiver = .waitGap ∧
      (receiving (.inCell (cell .stroke none []))).link.receiver = .inCell (cell .stroke none [])) ∧
    (let s := { receiving .ready with link.heldSpace := true }
     s.link.heldSpace = true ∧ s.link.breakState = false ∧ s.link.receiver = .ready) ∧
    (let s := { receiving .waitGap with link.heldSpace := true }
     s.link.heldSpace = true ∧ s.link.breakState = false ∧ s.link.receiver = .waitGap) ∧
    ({ receiving .inBreak with link.breakState := true }).link.breakState = true := by decide +kernel

theorem test_hyp_CellBytesAreOneArrival :
    (receiving .ready).link.receiver = .ready ∧ (receiving .ready).link.heldSpace = false ∧
      (receiving .ready).link.breakState = false ∧ (List.replicate 32 (0 : Byte)).length ≤ 32 ∧
      (List.replicate 30 (0 : Byte)).length ≤ 30 := by decide +kernel

/-- A queue of three accepts; one of four, a HALTED line, a test, and a payload of two or four bytes refuse. -/
theorem test_hyp_StrokeCellAcceptedOrRefused :
    let three : List Stroke := List.replicate 3 { serial := 1, feed := 20 }
    ({ sewing with strokes.queue := three }).strokes.queue.length < 4 ∧ State.reset.line.state = .idle ∧
      sewing.line.state = .running ∧ seaming.line.state = .changeover ∧
      4 ≤ ({ sewing with strokes.queue := { serial := 2, feed := 20 } :: three }).strokes.queue.length ∧
      halted.line.state.isHalted = true ∧ testing.line.state = .looptest ∧ ([1, 2] : List Byte).length ≠ 3 ∧
      ([1, 2, 3, 4] : List Byte).length ≠ 3 := by decide +kernel

/-- A READ behind a READ with seven and with eight answer places taken; a queue of six and of five. -/
theorem test_hyp_CommandCellQueuedBusyOrDropped :
    let read : Command := { tag := 0x11, code := 0x61, args := [1] }
    let other : Command := { tag := 0x12, code := 0x04, args := [] }
    let answer : Answer := { tag := 0, code := 0, reply := { result := .done, data := [] } }
    let held (n : Nat) : State :=
      { front 0x61 [1] State.reset with mgmt.answers := List.replicate n answer, mgmt.reserved := true }
    read.code = 0x61 ∧ (held 6).mgmt.commands.any Command.isReadCode = true ∧
      (held 6).mgmt.answers.length + (held 6).mgmt.reserved.toNat < 8 ∧
      8 ≤ (held 7).mgmt.answers.length + (held 7).mgmt.reserved.toNat ∧ other.code ≠ 0x61 ∧
      State.reset.mgmt.commands.any Command.isReadCode = false ∧
      6 ≤ ({ State.reset with mgmt.commands := List.replicate 6 other }).mgmt.commands.length ∧
      ({ State.reset with mgmt.commands := List.replicate 5 other }).mgmt.commands.length < 6 := by decide +kernel

theorem test_hyp_BreakBeginHaltsSewingLine :
    sewing.line.state = ResumeState.running.lineState ∧ seaming.line.state = ResumeState.changeover.lineState ∧
      State.reset.line.state = .idle ∧ halted.line.state.isHalted = true ∧ testing.line.state = .looptest := by
  decide +kernel

theorem test_hyp_TransmitterFreeTakesReportThenAnswer :
    let answer : Answer := { tag := 0, code := 0, reply := { result := .done, data := [] } }
    let r := sewing.reportNow none false
    let s : State := { sewing with mgmt.answers := [answer] }
    ({ s with strokes.slot := some r }).strokes.slot = some r ∧ s.strokes.slot = none ∧ s.mgmt.answers = [answer] ∧
      sewing.strokes.slot = none ∧ sewing.mgmt.answers = [] := by decide +kernel

/-- A state with these answers waiting. -/
def answering (answers : List Answer) (s : State) : State := { s with mgmt.answers := answers }

/-- An unknown code; a known one with an argument too many; an item with one too few; items 0, 7 and 12; a full answer
queue; a reserved place; seven answers, and a RUN while a waited index is due. -/
theorem test_hyp_CommandFormJudgedFirst :
    let answer : Answer := { tag := 0, code := 0, reply := { result := .done, data := [] } }
    ((front 0x00 [] sewing).frontReady { tag := 0x11, code := 0x00, args := [] } ∧ (0x00 : Byte) ∉ knownCodes) ∧
    ((front 0x04 [0] sewing).frontReady { tag := 0x11, code := 0x04, args := [0] } ∧ ([0] : List Byte).length ≠ 0) ∧
    ((front 0x60 [1, 0] sewing).frontReady { tag := 0x11, code := 0x60, args := [1, 0] } ∧ itemOf [1, 0] = 1 ∧
      ([1, 0] : List Byte).length ≠ 3) ∧
    ((front 0x60 [7] sewing).frontReady { tag := 0x11, code := 0x60, args := [7] } ∧ 6 < itemOf [7] ∧
      itemOf [] = 0) ∧
    ((front 0x61 [12] sewing).frontReady { tag := 0x11, code := 0x61, args := [12] } ∧ 11 < itemOf [12]) ∧
    (8 ≤ (answering (List.replicate 8 answer) (front 0x23 [] sewing)).mgmt.answers.length +
        (front 0x23 [] sewing).mgmt.reserved.toNat ∧ testing.mgmt.reserved = true) ∧
    (let s := answering (List.replicate 7 answer) (overdue (front 0x20 [0] committed))
     s.frontReady { tag := 0x11, code := 0x20, args := [0] } ∧ s.mgmt.answers.length < 8 ∧
       s.mgmt.reserved = false) := by
  unfold State.frontReady; decide +kernel

/-! ### Hypotheses: the motif store -/

/-- The store of the small states with its motif in no use, in a queue with one command at the front. -/
def idleStore (code : Byte) (args : List Byte) : State :=
  front code args { State.reset with store := { store3 with directory := store3.directory.set 3 { motif3 with inUse := 0 } } }

theorem store3_law (k : Nat) :
    StoreLaw { store3 with directory := store3.directory.set 3 { motif3 with inUse := k } } where
  entries := by
    intro m
    simp only [Fin.getElem_fin, store3, Vector.getElem_set]
    split
    · simp [DirEntry.wf, motif3, Config.pages, Config.pageRecords]
    · simp [DirEntry.wf, DirEntry.blank]
  pages := by
    intro m n hmn hm hn
    have only : ∀ m : Fin 64, (store3.directory.set 3 { motif3 with inUse := k })[m].defined = true → m = 3 := by
      intro m hm
      simp only [Fin.getElem_fin, store3, Vector.getElem_set] at hm
      by_cases h : 3 = m.val
      · exact Fin.ext h.symm
      · simp [h, DirEntry.blank] at hm
    exact absurd ((only m hm).trans (only n hn).symm) hmn
  form := (by decide +kernel : store3.records.wf = true)
  places := (by decide +kernel : ∀ cell ∈ store3.records, cell.1 < Config.storePlaces)
  contents := (by decide +kernel : ∀ cell ∈ store3.records, validWord cell.2 = true)

theorem not_rangeTaken (k first count : Nat) :
    ¬ rangeTaken 3 first count { store3 with directory := store3.directory.set 3 { motif3 with inUse := k } } := by
  rintro ⟨m, hm, page, -, -, h⟩
  simp only [Fin.getElem_fin, store3, Vector.getElem_set, DirEntry.ownsPage] at h
  by_cases e : 3 = m.val
  · exact hm (Fin.ext e.symm)
  · simp [e, DirEntry.blank] at h

/-- The whole store: first page 0, page count 128, length 8192, loop index 8191. -/
theorem test_hyp_DefineMotifFillsWithEnd :
    (let args : List Byte := [3, 0, 128, 0x00, 0x20, 1, 0xFF, 0x1F]
     (idleStore 0x01 args).frontReady { tag := 0x11, code := 0x01, args := args } ∧ (3 : Byte).toNat = (3 : Fin 64).val ∧
       wordOf 0x00 0x20 = 8192 ∧ wordOf 0xFF 0x1F = 8191 ∧ (idleStore 0x01 args).store.directory[3].inUse = 0) ∧
    defineArguments (0 : Byte).toNat (128 : Byte).toNat 8192 (some 8191) ∧
    StoreLaw (idleStore 0x01 []).store ∧
    ¬ rangeTaken 3 (0 : Byte).toNat (128 : Byte).toNat (idleStore 0x01 []).store := by
  refine ⟨?_, ?_, store3_law 0, not_rangeTaken 0 0 128⟩
  · unfold State.frontReady; decide +kernel
  · simp [defineArguments]

/-- Motif 64; one page too many; a length one too long; page 6, owned by motif 3; motif 3 in use. -/
theorem test_hyp_DefineMotifRefusedInOrder :
    (64 ≤ (64 : Byte).toNat ∧ ¬ defineArguments 127 2 1 none ∧ ¬ defineArguments 0 1 65 none ∧
      ¬ defineArguments 0 1 64 (some 64) ∧ defineArguments 127 1 64 none) ∧
    rangeTaken 4 6 1 sewing.store ∧
    (¬ rangeTaken 3 6 1 sewing.store ∧ 0 < sewing.store.directory[3].inUse ∧ StoreLaw sewing.store) ∧
    (front 0x01 [3, 6, 1, 1, 0, 0, 0, 0] sewing).frontReady
      { tag := 0x11, code := 0x01, args := [3, 6, 1, 1, 0, 0, 0, 0] } := by
  refine ⟨by simp [defineArguments], ⟨3, by decide, 6, by decide, by decide, by decide +kernel⟩,
    ⟨not_rangeTaken 1 6 1, by decide +kernel, store3_law 1⟩, ?_⟩
  unfold State.frontReady; decide +kernel

theorem test_hyp_UndefineMotifFreesOrRefuses :
    (idleStore 0x02 [3]).frontReady { tag := 0x11, code := 0x02, args := [3] } ∧ 64 ≤ (64 : Byte).toNat ∧
      (63 : Byte).toNat = (63 : Fin 64).val ∧ sewing.store.directory[63].defined = false ∧
      sewing.store.directory[3].defined = true ∧ 0 < sewing.store.directory[3].inUse ∧
      (idleStore 0x02 [3]).store.directory[3].inUse = 0 := by
  unfold State.frontReady; decide +kernel

/-- Motif 64, index 8192, fragment 3; an undefined motif; an index at the length; a motif in use. -/
theorem test_hyp_LoadPartCheckedFirst :
    (idleStore 0x03 [3, 0, 0, 3, 0, 0]).frontReady { tag := 0x11, code := 0x03, args := [3, 0, 0, 3, 0, 0] } ∧
      64 ≤ (64 : Byte).toNat ∧ 8191 < wordOf 0x00 0x20 ∧ wordOf 0xFF 0x1F ≤ 8191 ∧ 2 < (3 : Byte).toNat ∧
      sewing.store.directory[63].defined = false ∧ sewing.store.directory[3].defined = true ∧
      sewing.store.directory[3].length ≤ wordOf 70 0 ∧ wordOf 69 0 < sewing.store.directory[3].length ∧
      0 < sewing.store.directory[3].inUse := by
  unfold State.frontReady; decide +kernel

/-- An assembler holding fragment 0, or fragments 0 and 1, of record 69, the last of motif 3. -/
def holding (f1 : Option (BitVec 16)) (s : State) : State :=
  { s with store.assembler := some { motif := 3, index := 69, fragment0 := 0x20F0, fragment1 := f1 } }

theorem test_hyp_LoadPartFragmentsHeld :
    (idleStore 0x03 [3, 69, 0, 0, 0xF0, 0x20]).frontReady
        { tag := 0x11, code := 0x03, args := [3, 69, 0, 0, 0xF0, 0x20] } ∧
      (holding none (idleStore 0x03 [3, 69, 0, 1, 0x1F, 0x05])).frontReady
        { tag := 0x11, code := 0x03, args := [3, 69, 0, 1, 0x1F, 0x05] } ∧
      (3 : Byte).toNat = (3 : Fin 64).val ∧ wordOf 69 0 ≤ 8191 ∧
      (idleStore 0x03 []).store.directory[3].defined = true ∧
      wordOf 69 0 < (idleStore 0x03 []).store.directory[3].length ∧
      (idleStore 0x03 []).store.directory[3].inUse = 0 ∧
      (holding none (idleStore 0x03 [])).store.assembler =
        some { motif := 3, index := wordOf 69 0, fragment0 := 0x20F0, fragment1 := none } ∧
      (idleStore 0x03 []).store.assembler = none := by
  unfold State.frontReady; decide +kernel

theorem test_hyp_LoadPartWritesOneRecord :
    (holding (some 0x051F) (idleStore 0x03 [3, 69, 0, 2, 0x00, 0xF9])).frontReady
        { tag := 0x11, code := 0x03, args := [3, 69, 0, 2, 0x00, 0xF9] } ∧
      (holding (some 0x051F) (idleStore 0x03 [])).store.assembler =
        some { motif := 3, index := wordOf 69 0, fragment0 := 0x20F0, fragment1 := some 0x051F } ∧
      (idleStore 0x03 []).store.records.wf = true ∧
      validWord (0x20F0#16 ++ 0x051F#16 ++ (0xF9#8 ++ 0x00#8)) = true ∧
      validWord (0xA0F0#16 ++ 0x051F#16 ++ (0xF9#8 ++ 0x00#8)) = false ∧
      (holding none (idleStore 0x03 [])).store.assembler ≠
        some { motif := 3, index := wordOf 69 0, fragment0 := 0x20F0, fragment1 := some 0x051F } := by
  unfold State.frontReady; decide +kernel

theorem test_hyp_LoadFlushDiscardsPartial :
    (front 0x04 [] sewing).frontReady { tag := 0x11, code := 0x04, args := [] } ∧ sewing.store.assembler = none ∧
      (holding none (front 0x04 [] sewing)).store.assembler.isSome = true := by
  unfold State.frontReady; decide +kernel

/-! ### Hypotheses: staging -/

/-- Length 0, seam gap 4096, repeat byte 2; length 1 and 65535, seam gap 4095, repeat byte 1. -/
theorem test_hyp_PanelBeginOpensBuffer :
    (front 0x10 [7, 0, 0xFF, 0xFF, 0xFF, 0x0F, 1] sewing).frontReady
        { tag := 0x11, code := 0x10, args := [7, 0, 0xFF, 0xFF, 0xFF, 0x0F, 1] } ∧
      wordOf 0 0 = 0 ∧ 4095 < wordOf 0x00 0x10 ∧ ((2 : Byte) ≠ 0 ∧ (2 : Byte) ≠ 1) ∧ wordOf 0xFF 0xFF ≠ 0 ∧
      wordOf 1 0 ≠ 0 ∧ wordOf 0xFF 0x0F ≤ 4095 := by
  unfold State.frontReady; decide +kernel

/-- A staging buffer holding a program. -/
def staging (p : PanelProgram) (s : State) : State := { s with stager.staging := some p }

/-- Lane 8, motif 64, scale 3, loop byte 2, tension 16, eight entries; lane 7, motif 63, scale 8, tension 15, seven. -/
theorem test_hyp_PanelLaneAppends :
    let args : List Byte := [7, 63, 8, 0xFF, 0xFF, 1, 15]
    let full (n : Nat) : PanelProgram := { panel7 with assignments := List.replicate n entry0 }
    (staging (full 7) (front 0x11 args sewing)).frontReady { tag := 0x11, code := 0x11, args := args } ∧
      sewing.stager.staging = none ∧ 7 < (8 : Byte).toNat ∧ 63 < (64 : Byte).toNat ∧
      (3 : Byte) ∉ ([1, 2, 4, 8] : List Byte) ∧ ((2 : Byte) ≠ 0 ∧ (2 : Byte) ≠ 1) ∧ 15 < (16 : Byte).toNat ∧
      8 ≤ (full 8).assignments.length ∧ (full 7).assignments.length < 8 ∧ (7 : Byte).toNat = (7 : Fin 8).val ∧
      (63 : Byte).toNat = (63 : Fin 64).val ∧ (8 : Byte).toNat = Scale.x8.factor ∧ (15 : Byte).toNat ≤ 15 := by
  unfold State.frontReady; decide +kernel

theorem entry0_passes : sewing.entryPasses [] entry0 :=
  ⟨by decide +kernel, ⟨0, by decide +kernel⟩, by simp⟩

/-- No program; LATE; no assignment; entry 1 naming lane 0 twice; a valid program. -/
theorem test_hyp_PanelCommitJudgedInOrder :
    (staging panel7 (front 0x12 [] sewing)).frontReady { tag := 0x11, code := 0x12, args := [] } ∧
      sewing.stager.staging = none ∧ seaming.line.state.feedsSeam = true ∧ sewing.line.state.feedsSeam = false ∧
      ({ panel7 with assignments := [] }).assignments = [] ∧
      (([entry0, entry0] = [entry0] ++ entry0 :: []) ∧
        (∀ e b r, [entry0] = e ++ b :: r → sewing.entryPasses e b) ∧ ¬ sewing.entryPasses [entry0] entry0) ∧
      (panel7.assignments ≠ [] ∧ ∀ e b r, panel7.assignments = e ++ b :: r → sewing.entryPasses e b) := by
  have one : ∀ e b r, [entry0] = e ++ b :: r → sewing.entryPasses e b := by
    intro e b r h
    cases e with
    | nil =>
      obtain ⟨rfl, -⟩ := List.cons.inj h
      exact entry0_passes
    | cons x e => exact absurd (congrArg List.length h) (by simp)
  refine ⟨by unfold State.frontReady; decide +kernel, by decide +kernel, by decide +kernel, by decide +kernel, rfl,
    ⟨rfl, one, ?_⟩, by decide, one⟩
  rintro ⟨-, -, h⟩
  exact h entry0 (by simp) rfl

theorem test_hyp_PanelDiscardReleases :
    (front 0x13 [] committed).frontReady { tag := 0x11, code := 0x13, args := [] } ∧
      (front 0x13 [] committed).stager.pendingPanel = some panel7 ∧ sewing.stager.pendingPanel = none := by
  unfold State.frontReady; decide +kernel

/-! ### Hypotheses: the line -/

theorem test_hyp_RunStartsPendingPanel :
    (front 0x20 [] committed).frontReady { tag := 0x11, code := 0x20, args := [] } ∧
      committed.link.breakState = false ∧ committed.line.state = .idle ∧
      committed.stager.pendingPanel = some panel7 ∧ State.reset.stager.pendingPanel = none ∧
      sewing.line.state ≠ .idle ∧ ({ committed with link.breakState := true }).link.breakState = true ∧
      panel7.assignmentOf 0 = some entry0 ∧ panel7.assignmentOf 7 = none ∧
      ((after .run (front 0x20 [] committed)).lane 0).state = .sewing ∧
      ((after .run (front 0x20 [] (limited committed))).lane 0).state = .stopped .drop ∧
      (limited committed).composer.laneMap[0] = some 0 ∧ committed.head.waiting = false ∧
      (overdue (front 0x20 [] committed)).frontReady { tag := 0x11, code := 0x20, args := [] } := by
  unfold State.frontReady; decide +kernel

theorem test_hyp_HaltAndResume :
    (front 0x21 [] sewing).frontReady { tag := 0x11, code := 0x21, args := [] } ∧
      (front 0x22 [] halted).frontReady { tag := 0x11, code := 0x22, args := [] } ∧ sewing.line.state = .running ∧
      seaming.line.state = .changeover ∧ State.reset.line.state = .idle ∧ halted.line.state.isHalted = true ∧
      sewing.line.state.isHalted = false ∧ halted.link.breakState = false ∧
      ({ halted with link.breakState := true }).link.breakState = true ∧
      halted.line.state = .halted .command .running ∧
      ({ seaming with line.state := .halted .underrun .changeover }).line.state = .halted .underrun .changeover := by
  unfold State.frontReady; decide +kernel

theorem sewing_inUse : InUseLaw sewing := by
  unfold InUseLaw
  decide +kernel

theorem test_hyp_LineResetReturnsToIdle :
    (front 0x23 [] sewing).frontReady { tag := 0x11, code := 0x23, args := [] } ∧
      InUseLaw (front 0x23 [] sewing) :=
  ⟨by unfold State.frontReady; decide +kernel, sewing_inUse⟩

/-- IDLE with the transmitter FREE, in a window, sending; another line state; a waited index due. -/
theorem test_hyp_LoopTestClaimsTransmitter :
    let s := front 0x24 [] State.reset
    let c : Command := { tag := 0x11, code := 0x24, args := [] }
    (s.frontReady c ∧ s.line.state = .idle ∧ s.head.tx = .free) ∧
    ((withTx (.window [false]) s).frontReady c ∧ (withTx (.window [false]) s).head.tx = .window [false]) ∧
    (withTx (.sending { serial := 1, parkAll := true, words := [] }) s).frontReady c ∧
    ((front 0x24 [] sewing).frontReady c ∧ sewing.line.state ≠ .idle) ∧
    ((overdue s).frontReady c ∧ (overdue s).line.state = .idle ∧ (overdue s).head.waiting = true ∧
      (overdue s).head.claim = false ∧ (overdue s).hldirOutbound = false) := by
  unfold State.frontReady; decide +kernel

/-! ### Hypotheses: lanes, segments, needles, defects, SET and READ -/

/-- Lane 8 and lane 7; lane 0 in each state a lane command judges. -/
theorem test_hyp_LaneHoldAndRelease :
    (front 0x30 [0] sewing).frontReady { tag := 0x11, code := 0x30, args := [0] } ∧
      (front 0x31 [0] sewing).frontReady { tag := 0x11, code := 0x31, args := [0] } ∧ 7 < (8 : Byte).toNat ∧
      (7 : Byte).toNat = (7 : Fin 8).val ∧ (sewing.lane 0).state = .sewing ∧ (sewing.lane 7).state ≠ .sewing ∧
      ((laneIn .held sewing).lane 0).state = .held ∧ (sewing.lane 0).state ≠ .held := by
  unfold State.frontReady; decide +kernel

theorem test_hyp_LaneStopCentresLane :
    (front 0x32 [0] sewing).frontReady { tag := 0x11, code := 0x32, args := [0] } ∧ 7 < (8 : Byte).toNat ∧
      (sewing.lane 0).state = .sewing ∧ ((laneIn .held sewing).lane 0).state = .held ∧
      ((laneIn .finished sewing).lane 0).state = .finished ∧ (sewing.lane 7).state = .vacant ∧
      (seaming.lane 0).state = .standby ∧ ((laneIn (.stopped .drop) sewing).lane 0).state = .stopped .drop := by
  unfold State.frontReady; decide +kernel

/-- Segment 15 of sixteen, of eight, and 16; needle 127 = 8 × 15 + 7 and 128; each line state. -/
theorem test_hyp_SegmentRestoreAndNeedleRelease :
    (front 0x40 [15] sewing).frontReady { tag := 0x11, code := 0x40, args := [15] } ∧
      (front 0x50 [127] halted).frontReady { tag := 0x11, code := 0x50, args := [127] } ∧ 16 ≤ (16 : Byte).toNat ∧
      ({ sewing with head.segmentCount := 8 }).head.segmentCount ≤ (8 : Byte).toNat ∧
      (15 : Byte).toNat = (15 : Fin 16).val ∧ (15 : Fin 16).val < sewing.head.segmentCount ∧
      127 < (128 : Byte).toNat ∧ (127 : Byte).toNat ≤ 127 ∧ sewing.line.state ≠ .idle ∧
      sewing.line.state.isHalted = false ∧ (127 : Byte).toNat = 8 * (15 : Fin 16).val + (7 : Fin 8).val ∧
      State.reset.line.state = .idle ∧ halted.line.state.isHalted = true := by
  unfold State.frontReady; decide +kernel

theorem test_hyp_TakeDefectAndClearCounts :
    (front 0x51 [] sewing).frontReady { tag := 0x11, code := 0x51, args := [] } ∧
      (front 0x62 [] sewing).frontReady { tag := 0x11, code := 0x62, args := [] } ∧ sewing.thread.defects = [] ∧
      (threadBreak 15 7 sewing).thread.defects = [sewing.defectNow (.threadBreak 7) 15] := by
  unfold State.frontReady; decide +kernel

/-- Segment 16 and lane 9 out of range; segment 15, lane 7 and none; counts 0, 17, 1 and 16. -/
theorem test_hyp_SetLaneMapAndSegmentCount :
    ((front 0x60 [1, 15, 7] State.reset).frontReady { tag := 0x11, code := 0x60, args := [1, 15, 7] } ∧
      15 < (16 : Byte).toNat ∧ 8 < (9 : Byte).toNat ∧ (15 : Byte).toNat ≤ 15 ∧ (8 : Byte).toNat ≤ 8 ∧
      (15 : Byte).toNat = (15 : Fin 16).val ∧ (7 : Byte).toNat = (7 : Fin 8).val ∧ State.reset.line.state = .idle ∧
      sewing.line.state ≠ .idle) ∧
    ((front 0x60 [2, 16] State.reset).frontReady { tag := 0x11, code := 0x60, args := [2, 16] } ∧ (0 : Byte).toNat = 0 ∧
      16 < (17 : Byte).toNat ∧ 1 ≤ (1 : Byte).toNat ∧ (16 : Byte).toNat ≤ 16) ∧
    ∀ g : Fin 16, sewing.head.segments[g].wf := by
  refine ⟨by unfold State.frontReady; decide +kernel, by unfold State.frontReady; decide +kernel, fun g => ?_⟩
  simp [sewing, State.reset, Segment.wf]

/-- Drop limits 128 and 129; underrun limits 0, 1, 15 and 16, at the count and above it; packing orders 1 and 2. -/
theorem test_hyp_SetMaskLimitsAndPacking :
    ((front 0x60 [3, 15, 0xFF] sewing).frontReady { tag := 0x11, code := 0x60, args := [3, 15, 0xFF] } ∧
      15 < (16 : Byte).toNat ∧ (15 : Byte).toNat = (15 : Fin 16).val) ∧
    ((front 0x60 [4, 7, 128] sewing).frontReady { tag := 0x11, code := 0x60, args := [4, 7, 128] } ∧
      7 < (8 : Byte).toNat ∧ 128 < (129 : Byte).toNat ∧ (128 : Byte).toNat ≤ 128) ∧
    ((front 0x60 [5, 15] sewing).frontReady { tag := 0x11, code := 0x60, args := [5, 15] } ∧ (0 : Byte).toNat = 0 ∧
      15 < (16 : Byte).toNat ∧ 1 ≤ (1 : Byte).toNat ∧ (15 : Byte).toNat ≤ 15) ∧
    ((front 0x60 [6, 1] sewing).frontReady { tag := 0x11, code := 0x60, args := [6, 1] } ∧ 1 < (2 : Byte).toNat ∧
      (1 : Byte).toNat = PackingOrder.lowFirst.code ∧ (0 : Byte).toNat = PackingOrder.highFirst.code) := by
  unfold State.frontReady; decide +kernel

/-- Every item; a line program of each role and none; a defect list with records and without; an assembler that holds
nothing, one fragment and two; both packing orders. -/
theorem test_hyp_ReadsWithoutArguments :
    (∀ item ∈ ([1, 7, 8, 9, 11] : List Byte),
      (front 0x61 [item] sewing).frontReady { tag := 0x11, code := 0x61, args := [item] }) ∧
    (State.reset.line.program.map LineProgram.role = none ∧
      sewing.line.program.map LineProgram.role = some .active ∧
      seaming.line.program.map LineProgram.role = some .incoming) ∧
    (sewing.thread.defects = [] ∧ (threadBreak 15 7 sewing).thread.defects.length = 1) ∧
    (sewing.store.assembler = none ∧
      (holding none sewing).store.assembler =
        some { motif := 3, index := 69, fragment0 := 0x20F0, fragment1 := none } ∧
      (holding (some 0x051F) sewing).store.assembler =
        some { motif := 3, index := 69, fragment0 := 0x20F0, fragment1 := some 0x051F }) ∧
    (sewing.store.packing = .highFirst ∧
      ({ sewing with store.packing := .lowFirst }).store.packing = .lowFirst) := by
  unfold State.frontReady; decide +kernel

/-- Each item at the last value in range and the first outside it; every lane state and every segment state. -/
theorem test_hyp_ReadsWithArguments :
    (∀ args ∈ ([[2, 7], [3, 15], [4, 63], [5, 3, 69, 0], [6, 0x80, 7], [10, 1]] : List (List Byte)),
      (front 0x61 args sewing).frontReady { tag := 0x11, code := 0x61, args := args }) ∧
    (7 < (8 : Byte).toNat ∧ 15 < (16 : Byte).toNat ∧ 63 < (64 : Byte).toNat ∧ 8191 < wordOf 0x00 0x20 ∧
      wordOf 0xFF 0x1F ≤ 8191) ∧
    (sewing.store.directory[63].defined = false ∧ sewing.store.directory[3].defined = true ∧
      sewing.store.directory[3].length ≤ wordOf 70 0 ∧ wordOf 69 0 < sewing.store.directory[3].length) ∧
    ((3 : Byte).toNat % 4 = 3 ∧ (0 : Byte).toNat % 4 = 0 ∧ (1 : Byte).toNat % 4 = 1 ∧ (2 : Byte).toNat % 4 = 2 ∧
      sewing.stager.staging = none ∧ sewing.linePanel = some panel7 ∧ (0x7F : Byte).toNat < 128 ∧
      128 ≤ (0x80 : Byte).toNat ∧ 7 < (8 : Byte).toNat ∧ panel7.assignments.length ≤ (1 : Byte).toNat ∧
      panel7.assignments[(0 : Byte).toNat]? = some entry0) ∧
    1 < (2 : Byte).toNat ∧
    (∀ x ∈ ([.vacant, .standby, .sewing, .held, .finished, .stopped .command, .stopped .drop, .stopped .loopFault] :
        List LaneState), ((laneIn x sewing).lane 0).state = x) ∧
    ∀ x ∈ ([.off, .online, .suspect, .lost] : List SegmentState),
      (sewing.head.segments.set 15 { state := x, badReturns := 0 })[15].state = x := by
  unfold State.frontReady; decide +kernel

/-! ### Hypotheses: walks, boundaries, laws -/

/-- Feed one short of the step; feed that completes record 0 of motif 14 and enters record 1; feed that completes record 0
of motif 3 and meets only END; a load that stays SEWING and one that ends; a spanned record, a MARK and an END entered, and
the passing of the last record, by a lane that loops and by one that does not. -/
theorem test_hyp_WalkSpendsFeedStepByStep :
    (24 < lane0.leftInStep ∧ StoreLaw sewing.store) ∧
    (started14.state = .sewing ∧ 1 ≤ started14.leftInStep ∧ started14.leftInStep ≤ 30 ∧
      (store14.recordAt started14.motif started14.recordIndex).spanned = some (200, 50, 0x0F) ∧
      started14.recordIndex + 1 < store14.directory[started14.motif].length ∧
      (store14.recordAt started14.motif (started14.recordIndex + 1)).spanned = some (-100, 10, 0)) ∧
    ((enterRecord store14 64 1 { started14 with leftInStep := 0, currentLateral := 200 }).1.state = .sewing ∧
      (enterRecord store3 64 1 { lane0 with leftInStep := 0, currentLateral := 120 }).1.state ≠ .sewing) ∧
    ((startLane store3 entry0 lane0).state = .sewing ∧
      (startLane { store3 with records := [] } entry0 lane0).state ≠ .sewing) ∧
    (2 < store14.directory[started14.motif].length ∧ store14.recordAt started14.motif 2 = .mark 9) ∧
    (1 < store3.directory[lane0.motif].length ∧ store3.recordAt lane0.motif 1 = .endRecord ∧
      store3.directory[lane0.motif].length ≤ 70) ∧
    (lane0.loopAllowed = true ∧ store3.directory[lane0.motif].loopIndex = some 1 ∧
      ({ lane0 with loopAllowed := false }).loopAllowed = false ∧
      ({ motif3 with loopIndex := none }).loopIndex = none) :=
  ⟨⟨by decide, store3_law 1⟩, by decide +kernel⟩

theorem test_hyp_LoopOfEndRecordsStopsLane :
    let st : Store := { store3 with directory := store3.directory.set 3 { motif3 with loopIndex := some 0 }, records := [] }
    0 < st.directory[entry0.motif].length ∧ st.recordAt entry0.motif 0 = .endRecord ∧
      st.directory[entry0.motif].loopIndex = some 0 ∧ entry0.loopAllowed = true := by decide +kernel

theorem test_hyp_InterpolationStaysBetween : 39 < 40 ∧ interpolate 0 120 39 40 = 117 := by decide +kernel

/-- A placed lane of panel 7 at a position is lawful, whatever the seam gap. -/
theorem lawful_line {s : State} {gap : Nat}
    (h : s.line.program = some { role := .active, panel := { panel7 with seamGap := gap } })
    (hr : s.line.state = .running) (hp : s.line.position < 1000) (hs : s.line.seam = 0)
    (hl : ∀ l : Fin 8, if l = 0 then (s.lane l).state.placed = true else (s.lane l).state = .vacant) : LineLaw s where
  role := by rw [h, hr]; rfl
  noPending := by simp [hr, LineState.feedsSeam]
  position := by simpa [h, State.linePanel, hr, LineState.sewsPanel, panel7] using hp
  noPosition := by simp [hr, LineState.sewsPanel]
  seam := by simp [hr, LineState.feedsSeam]
  noSeam := fun _ => hs
  lanes := by
    intro l
    have ha : s.assigned l = decide (l = 0) := by
      have : ∀ l : Fin 8, (PanelProgram.assignmentOf { panel7 with seamGap := gap } l).isSome = decide (l = 0) :=
        fun l => (by decide : ∀ l : Fin 8, (panel7.assignmentOf l).isSome = decide (l = 0)) l
      simp [State.assigned, State.linePanel, h, this]
    have := hl l
    by_cases e : l = 0 <;> simp_all [State.laneFits, LineState.sewsPanel]

theorem sewing_line : LineLaw sewing := lawful_line (gap := 40) rfl rfl (by decide) rfl (by decide +kernel)

/-- A boundary reached exactly, with no panel pending, with a repeat, with a panel pending; an excess that reaches the gap,
a gap of 0 included, with a leftover short of the next panel's length, at it, and that panel repeated. -/
theorem test_hyp_BoundaryEndsPanel :
    (let s : State := { sewing with line.position := 980 }
     s.serves ∧ s.line.state = .running ∧ s.linePanel = some panel7 ∧
       s.strokes.queue = [{ serial := 1, feed := 20 }] ∧ panel7.length ≤ s.line.position + (20 : Byte).toNat ∧
       s.stager.pendingPanel = none ∧ panel7.repeats = false ∧
       s.line.position + (20 : Byte).toNat - panel7.length < panel7.seamGap) ∧
    LineLaw { sewing with line.position := 980 } ∧
    LineLaw
      { sewing with
        line.position := 981, line.program := some { role := .active, panel := { panel7 with seamGap := 0 } } } ∧
    (let p : PanelProgram := { panel7 with repeats := true }
     p.repeats = true ∧ p.length = panel7.length ∧
       ({ sewing with stager.pendingPanel := some p }).stager.pendingPanel = some p) ∧
    (let p : PanelProgram := { panel7 with seamGap := 0 }
     let q : PanelProgram := { panel7 with length := 1 }
     let s : State := { sewing with line.position := 981, line.program := some { role := .active, panel := p } }
     let excess := s.line.position + (20 : Byte).toNat - p.length
     s.serves ∧ s.linePanel = some p ∧ p.length ≤ s.line.position + (20 : Byte).toNat ∧ p.seamGap ≤ excess ∧
       1 ≤ q.length ∧ excess - p.seamGap < panel7.length ∧ q.length ≤ excess - p.seamGap ∧ q.repeats = false ∧
       ({ q with repeats := true }).repeats = true ∧
       ({ s with stager.pendingPanel := some q }).stager.pendingPanel = some q ∧ s.stager.pendingPanel = none ∧
       (q.assignmentOf 0).isSome = true ∧ (q.assignmentOf 7).isSome = false) := by
  refine ⟨by unfold State.serves; decide +kernel, ?_, ?_, by unfold State.serves; decide +kernel⟩
  · exact lawful_line (gap := 40) rfl rfl (by decide) rfl (by decide +kernel)
  · exact lawful_line (gap := 0) rfl rfl (by decide) rfl (by decide +kernel)

theorem sewing_programs : ProgramLaw sewing where
  staging := by simp [sewing, State.reset]
  waiting := by simp [sewing, State.reset]
  onLine := by
    have : panel7.wf := by
      refine ⟨⟨by decide, by decide, by decide, by decide, ?_⟩, by decide, by decide⟩
      intro a ha
      simp only [panel7, List.mem_singleton] at ha
      subst ha
      decide
    simpa [sewing, State.linePanel] using this

theorem sewing_lanes : LaneLaw sewing where
  motifs := by
    intro l
    by_cases h : l = 0
    · subst h
      exact fun _ => ⟨panel7, rfl, entry0, rfl, rfl⟩
    · have : (sewing.lane l).state = .vacant := by
        revert l
        decide +kernel
      intro hp
      rw [this] at hp
      exact absurd hp (by decide)
  standing := by
    intro l
    by_cases h : l = 0
    · subst h
      exact fun _ => ⟨by decide +kernel, (120, 40, 0xFF), by decide +kernel, by decide +kernel, by decide +kernel⟩
    · have : (sewing.lane l).state = .vacant := by
        revert l
        decide +kernel
      intro hp
      rw [this] at hp
      exact absurd hp (by decide)
  passes := by decide +kernel

theorem testing_loop : LoopLaw testing where
  reserved := rfl
  claim := rfl
  looped := fun _ => rfl
  busy := fun _ h => by simp [testing] at h
  front := fun _ => by decide +kernel
  waiting := fun h => by simp [testing, State.reset] at h
  clear := fun _ => rfl
  count := by decide
  slots := fun t h => by
    simp only [testing, HeadTx.loop.injEq, Option.some.injEq] at h
    subst h
    decide

theorem sewing_loop : LoopLaw sewing where
  reserved := rfl
  claim := rfl
  looped := fun h => by simp [sewing, State.reset, HeadTx.inLoop] at h
  busy := fun h => by simp [sewing] at h
  front := fun h => by simp [sewing] at h
  waiting := fun h => by simp [sewing, State.reset] at h
  clear := fun _ => rfl
  count := by decide
  slots := fun t h => by simp [sewing, State.reset] at h

theorem sewing_queues : QueueLaw sewing where
  strokes := by decide
  noStroke := fun h => by simp [sewing, LineState.takesStrokes] at h
  markers := by decide
  commands := by decide
  oneRead := by decide
  answers := by decide
  defects := by decide
  distinct := by simp [sewing, State.reset]

/-- A step that runs with every law in force: a SEWING line takes a shaft index. -/
theorem test_hyp_StepKeepsLaws :
    let s : State := { sewing with pending := [.shaftIndex] }
    StoreLaw s.store ∧ InUseLaw s ∧ ProgramLaw s ∧ LineLaw s ∧ LaneLaw s ∧ LoopLaw s ∧ QueueLaw s ∧
      ∃ t, step s = .next t := by
  exact ⟨store3_law 1, sewing_inUse,
    ⟨sewing_programs.staging, sewing_programs.waiting, sewing_programs.onLine⟩,
    lawful_line (gap := 40) rfl rfl (by decide) rfl (by decide +kernel),
    ⟨sewing_lanes.motifs, sewing_lanes.standing, sewing_lanes.passes⟩,
    ⟨sewing_loop.reserved, sewing_loop.claim, sewing_loop.looped, sewing_loop.busy, sewing_loop.front,
      sewing_loop.waiting, sewing_loop.clear, sewing_loop.count, sewing_loop.slots⟩,
    ⟨sewing_queues.strokes, sewing_queues.noStroke, sewing_queues.markers, sewing_queues.commands,
      sewing_queues.oneRead, sewing_queues.answers, sewing_queues.defects, sewing_queues.distinct⟩, _, rfl⟩

/-- The counts, segments, rethread set and stroke link of the small state obey their laws. -/
theorem test_hyp_StepKeepsCountSegmentThreadLinkLaws :
    CountLaw sewing ∧ SegmentLaw sewing ∧ RethreadLaw sewing ∧ LinkLaw sewing := by
  refine ⟨⟨by decide, by decide, by decide, by decide, by decide, by decide +kernel⟩, ⟨fun g => ?_, by decide +kernel⟩,
    ?_, ⟨by decide, fun _ => rfl, fun c h => ?_, fun _ => ⟨rfl, rfl⟩⟩⟩
  · simp [sewing, State.reset, Segment.wf]
  · unfold RethreadLaw
    decide +kernel
  · simp [sewing, State.reset] at h

/-- Motif 3 of the small state is in use, so its records stand. -/
theorem test_hyp_RecordsOfUsedMotifKept :
    StoreLaw sewing.store ∧ 0 < sewing.store.directory[3].inUse ∧ 69 < sewing.store.directory[3].length ∧
      Instr.shaftIndex ≠ .powerOnReset := by
  exact ⟨store3_law 1, by decide +kernel, by decide +kernel, by decide⟩

/-! ### One command on a small state -/

theorem test_loopTest_completes_with_pass_mask :
    let last := withTx (.loop (some { count := 16, passed := List.replicate 15 true })) testing
    (after (.testSlot { byte0 := 0x1F, byte1 := 0xAA, check := crc8 [0x1F, 0xAA], framing := false }) last).link.tx =
      some (.answer { tag := 0x11, code := 0x24, reply := { result := .done, data := [0xFF, 0xFF] } }) := by
  decide +kernel

theorem test_run_starts_lane :
    ((after .run (front 0x20 [] committed)).lane 0).leftInStep = 40 ∧
      ((after .run (front 0x20 [] committed)).lane 0).tension = 9 ∧
      (after .run (front 0x20 [] committed)).line.serial = 1 := by decide +kernel

/-- What a served index reports: line state, dwell or not. -/
def reported (s : State) : Option (LineState × Bool) :=
  match s.link.tx with
  | some (.report r) => some (r.lineState, r.dwell)
  | some (.answer _) => none
  | none => none

/-- A waited index is served in IDLE and the RUN starts the panel; a RUN to be refused leaves the index due. -/
theorem test_run_serves_a_due_index_first :
    (let t := after .run (front 0x20 [] (overdue committed))
     t.line.state = .running ∧ t.head.waiting = false ∧ t.head.frameSerial = 1 ∧ t.hldirOutbound = true ∧
       reported t = some (.idle, false) ∧ t.mgmt.commands = []) ∧
    (let t := after .run (front 0x20 [] (overdue State.reset))
     t.line.state = .idle ∧ t.head.waiting = true ∧ t.mgmt.commands = []) := by decide +kernel

theorem test_loopTest_serves_a_due_index_first :
    let t := after .loopTest (front 0x24 [] (overdue State.reset))
    t.line.state = .looptest ∧ t.head.waiting = false ∧ t.head.claim = true ∧ t.hldirOutbound = true ∧
      reported t = some (.idle, false) := by decide +kernel

theorem test_composed_word_of_the_small_state :
    (sentWords (after .shaftIndex sewing))[0]? =
      some { lateral := 45, engage := 0xFF, tension := 9, lock := false, park := false } := by decide +kernel

theorem test_thread_break_masks_needle :
    let s := { sewing with thread.presence := sewing.thread.presence.set 0 ((Vector.replicate 8 .unknown).set 7 .present) }
    (returnNotice 0 0x7F true s).thread.faultMask[0] = 0x80 ∧
      (returnNotice 0 0x7F true s).mgmt.latches.bobbinLow = true ∧
      (returnNotice 0 0x7F true s).thread.totalBreaks = 1 := by decide +kernel

end Sys2Proof.Tests
end

section
/-! What a command does to the motifs and to the programs that name them: the directory, the record store, the pending
panel and the panel of the line program, apart from all other state. One inversion lemma, `exec_move`, says all a command
can do to them; the laws of the store and of the in-use counts follow from it. -/

namespace Sys2Proof.Machine

/-! ### The holdings: motifs, and the programs that hold references to them (R1, R3, R4) -/

/-- Directory, record store, pending panel and panel of the line program: all that the laws of the Motif Store and of the
in-use counts speak of. -/
structure Holdings where
  directory : Vector DirEntry 64
  records   : Memory
  waiting   : Option PanelProgram
  onLine    : Option PanelProgram

/-- The holdings of a state. -/
def State.holdings (s : State) : Holdings :=
  { directory := s.store.directory, records := s.store.records, waiting := s.stager.pendingPanel, onLine := s.linePanel }

theorem linePanel_of_holdings {s t : State} (h : t.holdings = s.holdings) : t.linePanel = s.linePanel :=
  congrArg Holdings.onLine h

theorem OnlyStops.holdings {s t : State} (h : OnlyStops s t) : t.holdings = s.holdings := by
  obtain ⟨_, _, rfl⟩ := h
  rfl

theorem OnlyWalks.holdings {s t : State} (h : OnlyWalks s t) : t.holdings = s.holdings := by
  obtain ⟨_, _, _, rfl⟩ := h
  rfl

theorem OnlyThread.holdings {s t : State} (h : OnlyThread s t) : t.holdings = s.holdings := by
  obtain ⟨_, _, _, _, _, rfl⟩ := h
  rfl

@[simp] theorem latch_holdings (l : Latch) (s : State) : (s.latch l).holdings = s.holdings := rfl

@[simp] theorem setLane_holdings (l : Fin 8) (c : LaneContext) (s : State) : (s.setLane l c).holdings = s.holdings := rfl

@[simp] theorem arbitrate_holdings (s : State) : (arbitrate s).holdings = s.holdings := by
  rcases arbitrate_cases s with h | ⟨-, _, -, h⟩ | ⟨-, -, _, _, -, h⟩ <;> rw [h] <;> rfl

@[simp] theorem settle_holdings (c : Command) (e : Effect) : (settle c e).holdings = e.1.holdings := by
  unfold settle
  split
  · exact arbitrate_holdings _
  · rfl

@[simp] theorem endWindow_holdings (s : State) : (endWindow s).holdings = s.holdings := by
  obtain ⟨_, h⟩ := endWindow_only s
  exact h.holdings

@[simp] theorem haltLine_holdings (cause : HaltCause) (s : State) : (haltLine cause s).holdings = s.holdings := by
  unfold haltLine
  split <;> rfl

@[simp] theorem panelStart_holdings (p : PanelProgram) (position : Nat) (s : State) :
    (panelStart p position s).holdings = s.holdings :=
  (panelStart_only p position s).holdings

/-! ### Events that leave the holdings -/

@[simp] theorem strokeArrives_holdings (payload : List Byte) (s : State) :
    (strokeArrives payload s).holdings = s.holdings := by
  rcases strokeArrives_cases payload s with h | ⟨_, _, _, -, -, -, h⟩ <;> rw [h] <;> rfl

@[simp] theorem commandArrives_holdings (c : Command) (s : State) : (commandArrives c s).holdings = s.holdings := by
  rcases commandArrives_cases c s with ⟨-, -, -, h⟩ | h | ⟨-, -, h⟩ <;> rw [h]
  · exact arbitrate_holdings _
  · rfl
  · rfl

@[simp] theorem cellArrives_holdings (kind : CellKind) (payload : List Byte) (s : State) :
    (cellArrives kind payload s).holdings = s.holdings := by
  cases kind
  · exact strokeArrives_holdings _ _
  · exact commandArrives_holdings _ _

@[simp] theorem discardCell_holdings (next : Receiver) (s : State) : (discardCell next s).holdings = s.holdings := rfl

theorem framingError_holdings (s : State) : (framingError s).holdings = s.holdings := by
  unfold framingError
  split <;> rfl

theorem goodByte_holdings (d : Byte) (s : State) : (goodByte d s).holdings = s.holdings := by
  unfold goodByte
  split
  · unfold kindByte
    split
    · rfl
    · split <;> rfl
  · unfold bodyByte
    split
    · split <;> rfl
    · split
      · rfl
      · split
        · exact cellArrives_holdings _ _ s
        · rfl
  · rfl
  · rfl

theorem byteArrives_holdings (d : Byte) (stop : Bool) (s : State) : (byteArrives d stop s).holdings = s.holdings := by
  unfold byteArrives
  split
  · rfl
  · split
    · exact goodByte_holdings d s
    · split
      · rfl
      · exact framingError_holdings s

theorem gapPasses_holdings (s : State) : (gapPasses s).holdings = s.holdings := by
  unfold gapPasses
  split
  · rfl
  · split <;> rfl

theorem markReturns_holdings (s : State) : (markReturns s).holdings = s.holdings := by
  unfold markReturns
  split
  · exact framingError_holdings _
  · rfl

theorem breakEnds_holdings (s : State) : (breakEnds s).holdings = s.holdings := by
  unfold breakEnds
  split <;> rfl

theorem outboundComplete_holdings (s : State) : (outboundComplete s).holdings = s.holdings := by
  unfold outboundComplete
  split <;> rfl

theorem returnArrives_holdings (position : Nat) (x : Slot) (s : State) :
    (returnArrives position x s).holdings = s.holdings := by
  unfold returnArrives
  split
  · split
    · exact (judgeSlot_only _ x _).holdings
    · rfl
    · rfl
  all_goals rfl

theorem windowExpires_holdings (s : State) : (windowExpires s).holdings = s.holdings := by
  unfold windowExpires
  split
  · dsimp only
    split
    · exact endWindow_holdings s
    · exact endWindow_holdings s
  all_goals rfl

@[simp] theorem beginLoopedFrame_holdings (s : State) : (beginLoopedFrame s).holdings = s.holdings := by
  unfold beginLoopedFrame
  split
  · rfl
  · split <;> rfl
  all_goals rfl

theorem completeLoopTest_holdings (passed : List Bool) (s : State) :
    (completeLoopTest passed s).holdings = s.holdings := by
  unfold completeLoopTest
  dsimp only
  split
  · exact arbitrate_holdings _
  · rfl

theorem testSlotArrives_holdings (x : Slot) (s : State) : (testSlotArrives x s).holdings = s.holdings := by
  unfold testSlotArrives
  split
  · dsimp only
    split
    · rfl
    · exact completeLoopTest_holdings _ s
  all_goals rfl

/-! ### What a feed does to the holdings: the boundaries it passes (R73, R74) -/

/-- What one boundary does to the holdings: the run ends, or the pending panel takes the place of the outgoing one. (A
repeated panel leaves them as they are.) -/
inductive FeedMove (h : Holdings) : Holdings → Prop where
  | ended (p : PanelProgram) (outgoing : h.onLine = some p) :
      FeedMove h { h with directory := releaseAll p h.directory, onLine := none }
  | changed (p q : PanelProgram) (outgoing : h.onLine = some p) (incoming : h.waiting = some q) :
      FeedMove h { h with directory := releaseAll p h.directory, waiting := none, onLine := some q }

/-- What a chain of boundaries does to the holdings. -/
abbrev FeedMoves : Holdings → Holdings → Prop := Relation.ReflTransGen FeedMove

theorem endRun_move {p : PanelProgram} {s : State} (line : s.linePanel = some p) :
    FeedMove s.holdings (endRun p s).holdings :=
  .ended p line

theorem openChangeover_linePanel (p q : PanelProgram) (seam : Nat) (s : State) :
    (openChangeover p q seam s).linePanel = some q := rfl

/-- The changeover a boundary opens takes the pending panel, or leaves the holdings when it repeats the outgoing one. -/
theorem openChangeover_moves {p q : PanelProgram} {s : State} (line : s.linePanel = some p)
    (next : s.nextPanel p = some q) (seam : Nat) : FeedMoves s.holdings (openChangeover p q seam s).holdings := by
  have after : (openChangeover p q seam s).holdings =
      { s.holdings with
        directory := if s.stager.pendingPanel.isSome then releaseAll p s.store.directory else s.store.directory
        waiting := none
        onLine := some q } := rfl
  rw [after]
  unfold State.nextPanel at next
  cases pending : s.stager.pendingPanel with
  | some r =>
    rw [pending] at next
    obtain rfl := Option.some.inj next
    exact .single (.changed p r line pending)
  | none =>
    rw [pending] at next
    obtain rfl : p = q := by
      dsimp only at next
      split at next
      · exact Option.some.inj next
      · exact absurd next (by simp)
    have same : s.holdings = { s.holdings with directory := s.store.directory, waiting := none, onLine := some p } := by
      simp [State.holdings, line, pending]
    exact same ▸ .refl

theorem completeChangeover_holdings (p : PanelProgram) (leftover : Nat) (s : State) :
    (completeChangeover p leftover s).holdings = { s.holdings with onLine := some p } :=
  (walkLanes_only leftover _).holdings.trans (panelStart_holdings p leftover _)

/-- A changeover completed by the panel on the line leaves the holdings. -/
theorem completeChangeover_stays {p : PanelProgram} {s : State} (line : s.linePanel = some p) (leftover : Nat) :
    (completeChangeover p leftover s).holdings = s.holdings := by
  rw [completeChangeover_holdings, ← line]
  rfl

theorem boundary_moves (fuel excess : Nat) {p : PanelProgram} {s : State} (line : s.linePanel = some p) :
    FeedMoves s.holdings (boundary fuel excess p s).holdings := by
  induction fuel generalizing excess p s with
  | zero => exact .refl
  | succ fuel ih =>
    unfold boundary
    split
    · exact .single (endRun_move line)
    · rename_i q next
      have opened := openChangeover_moves line next (p.seamGap - excess)
      have stays := completeChangeover_stays (openChangeover_linePanel p q (p.seamGap - excess) s)
        (excess - p.seamGap)
      dsimp only
      split
      · exact opened
      · split
        · rw [stays]
          exact opened
        · have onLine : (completeChangeover q (excess - p.seamGap)
              (openChangeover p q (p.seamGap - excess) s)).linePanel = some q :=
            (linePanel_of_holdings stays).trans (openChangeover_linePanel _ _ _ _)
          refine .trans ?_ (ih _ onLine)
          rw [stays]
          exact opened

theorem advance_moves (position : Nat) {p : PanelProgram} {s : State} (line : s.linePanel = some p) :
    FeedMoves s.holdings (advance p position s).holdings := by
  unfold advance
  split
  · exact .refl
  · exact boundary_moves _ _ line

theorem deliverFeed_moves (feed : Nat) (s : State) : FeedMoves s.holdings (deliverFeed feed s).holdings := by
  unfold deliverFeed
  split
  · unfold feedRunning
    split
    · rename_i p line
      have walked : (walkLanes feed s).holdings = s.holdings := (walkLanes_only feed s).holdings
      rw [← walked]
      exact advance_moves _ ((linePanel_of_holdings walked).trans line)
    · exact .refl
  · unfold feedChangeover
    split
    · rename_i p line
      split
      · exact .refl
      · have completed := completeChangeover_stays line (feed - s.line.seam)
        dsimp only
        rw [← completed]
        exact advance_moves _ ((linePanel_of_holdings completed).trans line)
    · exact .refl
  all_goals exact .refl

theorem dwellStroke_holdings (s : State) : (dwellStroke s).holdings = s.holdings := by
  unfold dwellStroke
  dsimp only
  split
  · rfl
  · exact haltLine_holdings _ _

theorem consumeStroke_moves (x : Stroke) (rest : List Stroke) (s : State) :
    FeedMoves s.holdings (consumeStroke x rest s).holdings :=
  deliverFeed_moves x.feed.toNat { s with strokes.queue := rest, strokes.consecutive := 0 }

theorem applyStroke_moves (s : State) : FeedMoves s.holdings (applyStroke s).state.holdings := by
  unfold applyStroke
  split
  case h_1 | h_2 =>
    split
    · exact consumeStroke_moves _ _ s
    · dsimp only
      rw [dwellStroke_holdings]
  all_goals exact .refl

/-- A served index does to the holdings what the stroke it applies does. -/
theorem serveIndex_moves (s : State) : FeedMoves s.holdings (serveIndex s).holdings := by
  have formed : (formFrame s.frameKind (endWindow s)).holdings = s.holdings := endWindow_holdings s
  have reported : (serveIndex s).holdings = s.strokeOutcome.state.holdings := by
    rw [serveIndex_result]
    rfl
  rw [reported, ← formed]
  exact applyStroke_moves _

theorem serveWaited_moves (s : State) : FeedMoves s.holdings (serveWaited s).holdings := by
  rcases serveWaited_cases s with h | ⟨-, -, -, h⟩ <;> rw [h]
  exact serveIndex_moves s.unwaited

theorem takeIndex_moves (s : State) : FeedMoves s.holdings (takeIndex s).holdings := by
  unfold takeIndex
  split
  · exact serveIndex_moves s
  · exact .refl
  · exact .refl

/-- In IDLE the service of a waited index leaves the holdings. -/
theorem serveWaited_idle_holdings {s : State} (idle : s.line.state = .idle) : (serveWaited s).holdings = s.holdings := by
  obtain ⟨line, stager, store, -⟩ := serveWaited_idle idle
  simp only [State.holdings, State.linePanel, line, stager, store]

end Sys2Proof.Machine
end

section
/-! All a command can do to the holdings (`exec_move`). -/

namespace Sys2Proof.Machine

open Sys2Proof

/-! ### What a command does to the holdings, when its event executes -/

/-- An execution event leaves the holdings, or does to them what the effect of its command does. -/
theorem executeFront_holdings {P : Holdings → Prop} {row : Command → Bool} {effect : List Byte → State → Effect}
    {s : State} (stay : P s.holdings) (acts : ∀ args, P (effect args s).1.holdings) :
    P (executeFront row effect s).holdings := by
  rcases executeFront_cases row effect s with h | ⟨c, _, -, -, -, h⟩ <;> rw [h]
  · exact stay
  · rw [settle_holdings]
    exact acts c.args

/-- The same of a command that asks for a length of its arguments (R169). -/
theorem lengthCommand_holdings {P : Holdings → Prop} {row : Command → Bool} {n : Nat}
    {effect : List Byte → State → Effect} {s : State} (stay : P s.holdings)
    (acts : ∀ args, P (effect args s).1.holdings) :
    P (executeFront row (fun args t => withLength n args (effect args t) t) s).holdings := by
  refine executeFront_holdings stay fun args => ?_
  unfold withLength
  split
  · exact acts args
  · exact stay

/-- The same of a SET or READ item (R177, R179). -/
theorem itemCommand_holdings {P : Holdings → Prop} {row : Command → Bool} {item n : Nat}
    {effect : List Byte → State → Effect} {s : State} (stay : P s.holdings)
    (acts : ∀ args, P (effect args s).1.holdings) :
    P (executeFront row (fun args t => withItem item n args (effect args t) t) s).holdings := by
  refine executeFront_holdings stay fun args => ?_
  unfold withItem withLength
  split
  · split
    · exact acts args
    · exact stay
  · exact stay

/-! ### Commands that leave the holdings -/

theorem loadFragment0_holdings (args : List Byte) (s : State) : (loadFragment0 args s).1.holdings = s.holdings := by
  unfold loadFragment0
  split <;> rfl

theorem loadFragment1_holdings (args : List Byte) (s : State) : (loadFragment1 args s).1.holdings = s.holdings := by
  unfold loadFragment1
  split
  · rfl
  · split
    · split <;> rfl
    · rfl
    · rfl

theorem judgeFlush_holdings (s : State) : (judgeFlush s).1.holdings = s.holdings := by
  unfold judgeFlush
  split <;> rfl

theorem judgeBegin_holdings (tag : Serial) (length seamGap : Nat) (repeats : Option Bool) (s : State) :
    (judgeBegin tag length seamGap repeats s).1.holdings = s.holdings := by
  unfold judgeBegin
  split
  · rfl
  · split <;> rfl

theorem judgeLane_holdings (a : Option Assignment) (s : State) : (judgeLane a s).1.holdings = s.holdings := by
  unfold judgeLane
  split
  · rfl
  · split
    · rfl
    · split <;> rfl

theorem judgeHalt_holdings (s : State) : (judgeHalt s).1.holdings = s.holdings := by
  unfold judgeHalt
  split
  case h_1 | h_2 => exact haltLine_holdings _ s
  all_goals rfl

theorem judgeResume_holdings (s : State) : (judgeResume s).1.holdings = s.holdings := by
  unfold judgeResume
  split
  · split <;> rfl
  all_goals rfl

theorem judgeLoopTest_holdings (s : State) : (judgeLoopTest s).1.holdings = s.holdings := by
  unfold judgeLoopTest
  split
  · rename_i idle
    exact (beginLoopedFrame_holdings _).trans (serveWaited_idle_holdings idle)
  · rfl

theorem judgeHold_holdings (lane : Nat) (s : State) : (judgeHold lane s).1.holdings = s.holdings := by
  unfold judgeHold
  split
  · rfl
  · split <;> rfl

theorem judgeRelease_holdings (lane : Nat) (s : State) : (judgeRelease lane s).1.holdings = s.holdings := by
  unfold judgeRelease
  split
  · rfl
  · split <;> rfl

theorem judgeStop_holdings (lane : Nat) (s : State) : (judgeStop lane s).1.holdings = s.holdings := by
  unfold judgeStop
  split
  · rfl
  · split
    · exact (stopLane_only _ _ s).holdings
    · rfl

theorem judgeRestore_holdings (segment : Nat) (s : State) : (judgeRestore segment s).1.holdings = s.holdings := by
  unfold judgeRestore
  split
  · rfl
  · split
    · exact ((setSegment_only _ _ s).trans (includeNotice_only _ _)).holdings
    · rfl

theorem judgeNeedle_holdings (needle : Nat) (s : State) : (judgeNeedle needle s).1.holdings = s.holdings := by
  unfold judgeNeedle
  split
  · split <;> rfl
  · rfl
  · rfl

theorem judgeTake_holdings (s : State) : (judgeTake s).1.holdings = s.holdings := by
  unfold judgeTake
  split <;> rfl

theorem judgeLaneMap_holdings (segment lane : Nat) (s : State) :
    (judgeLaneMap segment lane s).1.holdings = s.holdings := by
  unfold judgeLaneMap
  split
  · split <;> rfl
  · rfl
  · rfl

theorem judgeCount_holdings (n : Nat) (s : State) : (judgeCount n s).1.holdings = s.holdings := by
  unfold judgeCount
  split
  · rfl
  · split
    · dsimp only [reply, replyWith]
      unfold takeSegmentCount
      dsimp only
      split <;> rfl
    · rfl

theorem judgeMask_holdings (segment : Nat) (mask : Pattern) (s : State) :
    (judgeMask segment mask s).1.holdings = s.holdings := by
  unfold judgeMask
  split <;> rfl

theorem judgeDropLimit_holdings (lane limit : Nat) (s : State) :
    (judgeDropLimit lane limit s).1.holdings = s.holdings := by
  unfold judgeDropLimit
  split
  · split <;> rfl
  · rfl

theorem judgeUnderrun_holdings (limit : Nat) (s : State) : (judgeUnderrun limit s).1.holdings = s.holdings := by
  unfold judgeUnderrun
  split <;> rfl

theorem judgePacking_holdings (order : Option PackingOrder) (s : State) :
    (judgePacking order s).1.holdings = s.holdings := by
  unfold judgePacking
  split
  · rfl
  · split <;> rfl

/-! ### The READ items change nothing (R179, R180) -/

theorem judgeReadLane_state (lane : Nat) (s : State) : (judgeReadLane lane s).1 = s := by
  unfold judgeReadLane
  split <;> rfl

theorem judgeReadSegment_state (segment : Nat) (s : State) : (judgeReadSegment segment s).1 = s := by
  unfold judgeReadSegment
  split <;> rfl

theorem judgeReadMotif_state (motif : Nat) (s : State) : (judgeReadMotif motif s).1 = s := by
  unfold judgeReadMotif
  split <;> rfl

theorem judgeReadRecord_state (motif index : Nat) (s : State) : (judgeReadRecord motif index s).1 = s := by
  unfold judgeReadRecord
  split
  · rfl
  · split
    · rfl
    · split
      · rfl
      · split <;> rfl

theorem readProgram_state (role : Option Role) (program : Option PanelProgram) (entry : Option Nat) (s : State) :
    (readProgram role program entry s).1 = s := by
  unfold readProgram
  split
  · rfl
  · split
    · rfl
    · split
      · split <;> rfl
      · rfl

theorem judgeReadPanel_state (selector entry : Byte) (s : State) : (judgeReadPanel selector entry s).1 = s := by
  unfold judgeReadPanel
  dsimp only
  split
  · exact readProgram_state _ _ _ s
  · exact readProgram_state _ _ _ s
  · exact readProgram_state _ _ _ s
  · rfl

theorem judgeReadConfig_state (part : Nat) (s : State) : (judgeReadConfig part s).1 = s := by
  unfold judgeReadConfig
  split <;> rfl

/-! ### All a command can do to the holdings -/

/-- What a command can do to the programs held and to the counts that follow them: pass boundaries, or commit, discard or
start a panel, or reset the line (R4, R28, R31, R68, R73, R82). -/
inductive PanelMove (s : State) : Instr → Holdings → Prop where
  | fed (i : Instr) (h : Holdings) (moves : FeedMoves s.holdings h) : PanelMove s i h
  | committed (p : PanelProgram) (defined : ∀ a ∈ p.assignments, s.store.directory[a.motif].defined = true) :
      PanelMove s .panelCommit
        { s.holdings with
          directory := gainAll p (releaseOption s.stager.pendingPanel s.store.directory), waiting := some p }
  | discarded (p : PanelProgram) (waiting : s.stager.pendingPanel = some p) :
      PanelMove s .panelDiscard { s.holdings with directory := releaseAll p s.store.directory, waiting := none }
  | started (p : PanelProgram) (waiting : s.stager.pendingPanel = some p) (idle : s.line.state = .idle) :
      PanelMove s .run { s.holdings with waiting := none, onLine := some p }
  | lineReset :
      PanelMove s .lineReset
        { s.holdings with
          directory := releaseOption s.linePanel (releaseOption s.stager.pendingPanel s.store.directory)
          waiting := none
          onLine := none }

/-- The motif may be defined anew, undefined or loaded: no reference is held to it, if it is defined (R8, R10, R13). -/
def Store.unused (st : Store) (m : Fin 64) : Prop := st.directory[m].defined = true → st.directory[m].inUse = 0

/-- All a command can do to the holdings (R5, R9, R10, R16). -/
inductive Move (s : State) : Instr → Holdings → Prop where
  | panels (i : Instr) (h : Holdings) (move : PanelMove s i h) : Move s i h
  | reset : Move s .powerOnReset State.reset.holdings
  | defined (m : Fin 64) (first count length : Nat) (loop : Option Nat)
      (args : defineArguments first count length loop)
      (apart : overlapsOther m first count s.store.directory = false) (unused : s.store.unused m) :
      Move s .defineMotif
        { s.holdings with
          directory := s.store.directory.set m
            { defined := true, firstPage := first, pageCount := count, length := length, loopIndex := loop, inUse := 0 }
          records := s.store.records.fillEnd (first * 64) length }
  | undefined (m : Fin 64) (unused : s.store.unused m) :
      Move s .undefineMotif { s.holdings with directory := s.store.directory.set m DirEntry.blank }
  | written (m : Fin 64) (k : Nat) (w : RecordWord) (defined : s.store.directory[m].defined = true)
      (unused : s.store.unused m) (index : k < s.store.directory[m].length) (valid : validWord w = true) :
      Move s .loadPartFragment2 { s.holdings with records := s.store.records.write (s.store.place m k) w }

theorem Move.stay (s : State) (i : Instr) : Move s i s.holdings := .panels i _ (.fed i _ .refl)

theorem Move.of_eq {s : State} {i : Instr} {h : Holdings} (same : h = s.holdings) : Move s i h := same ▸ .stay s i

theorem Move.of_feed {s : State} {i : Instr} {h : Holdings} (moves : FeedMoves s.holdings h) : Move s i h :=
  .panels i h (.fed i h moves)

/-! ### The commands that move the holdings, one by one -/

theorem judgeDefine_move (motif first count length : Nat) (loop : Option Nat) (s : State) :
    Move s .defineMotif (judgeDefine motif first count length loop s).1.holdings := by
  unfold judgeDefine
  split
  · exact .stay s _
  · rename_i m _
    split
    · exact .stay s _
    · rename_i args
      split
      · exact .stay s _
      · rename_i apart
        split
        · exact .stay s _
        · rename_i free
          refine .defined m first count length loop ?_ (by simpa using apart) ?_
          · exact defineInRange_iff.mp (by simpa using args)
          · simpa [Store.unused] using free

theorem judgeUndefine_move (motif : Nat) (s : State) :
    Move s .undefineMotif (judgeUndefine motif s).1.holdings := by
  unfold judgeUndefine
  split
  · exact .stay s _
  · rename_i m _
    split
    · exact .stay s _
    · split
      · exact .stay s _
      · rename_i free
        exact .undefined m fun _ => Nat.eq_zero_of_not_pos free

/-- The motif a LOAD_PART has passed the checks of R13 for. -/
theorem partTarget_ok {args : List Byte} {st : Store} {m : Fin 64} (h : partTarget args st = .ok m) :
    st.directory[m].defined = true ∧ argWord args 1 < st.directory[m].length ∧ st.directory[m].inUse = 0 := by
  unfold partTarget at h
  split at h
  · exact absurd h (by simp)
  · rename_i k _
    split at h
    · exact absurd h (by simp)
    · split at h
      · exact absurd h (by simp)
      · rename_i defined
        split at h
        · exact absurd h (by simp)
        · rename_i index
          split at h
          · exact absurd h (by simp)
          · rename_i free
            obtain rfl : k = m := by simpa using h
            exact ⟨by simpa using defined, Nat.lt_of_not_le index, Nat.eq_zero_of_not_pos free⟩

theorem loadFragment2_move (args : List Byte) (s : State) :
    Move s .loadPartFragment2 (loadFragment2 args s).1.holdings := by
  unfold loadFragment2
  split
  · exact .stay s _
  · rename_i m target
    obtain ⟨defined, index, free⟩ := partTarget_ok target
    split
    · split
      · rename_i here
        obtain ⟨rfl, rfl⟩ := here
        dsimp only
        split
        · rename_i valid
          exact .written _ _ _ defined (fun _ => free) index valid
        · exact .stay s _
      · exact .stay s _
    · exact .stay s _
    · exact .stay s _

/-- A program that passes validation names defined motifs alone (R27). -/
theorem firstFailure_none {s : State} {earlier rest : List Assignment} (h : firstFailure s earlier rest = none) :
    ∀ a ∈ rest, s.store.directory[a.motif].defined = true := by
  induction rest generalizing earlier with
  | nil => simp
  | cons b rest ih =>
    unfold firstFailure at h
    split at h
    · exact absurd h (by simp)
    · rename_i passes
      have defined : s.store.directory[b.motif].defined = true := by
        unfold assignmentFailure at passes
        split at passes
        · exact absurd passes (by simp)
        · rename_i d
          simpa using d
      intro a ha
      rcases List.mem_cons.mp ha with rfl | ha
      · exact defined
      · exact ih h a ha

theorem validationFailure_none {s : State} {p : PanelProgram} (h : validationFailure s p = none) :
    ∀ a ∈ p.assignments, s.store.directory[a.motif].defined = true := by
  unfold validationFailure at h
  split at h
  · exact absurd h (by simp)
  · exact firstFailure_none (by simpa using h)

theorem judgeCommit_move (s : State) : Move s .panelCommit (judgeCommit s).1.holdings := by
  unfold judgeCommit
  split
  · exact .stay s _
  · rename_i p _
    split
    · exact .stay s _
    · split
      · exact .stay s _
      · rename_i valid
        have committed : Move s .panelCommit (commitPanel p s).holdings :=
          .panels _ _ (.committed p (validationFailure_none valid))
        split <;> exact committed

theorem judgeDiscard_move (s : State) : Move s .panelDiscard (judgeDiscard s).1.holdings := by
  unfold judgeDiscard
  split
  · rename_i p waiting
    exact .panels _ _ (.discarded p waiting)
  · exact .stay s _

theorem startRun_holdings (p : PanelProgram) (s : State) :
    (startRun p s).holdings = { s.holdings with waiting := none, onLine := some p } := by
  rw [startRun, panelStart_holdings]
  rfl

theorem judgeRun_move (s : State) : Move s .run (judgeRun s).1.holdings := by
  unfold judgeRun
  split
  · exact .stay s _
  · split
    · exact .stay s _
    · rename_i idle
      have idle : s.line.state = .idle := not_not.mp idle
      split
      · exact .stay s _
      · rename_i p waiting
        dsimp only [replyWith]
        rw [startRun_holdings, serveWaited_idle_holdings idle]
        exact .panels _ _ (.started p waiting idle)

/-- All a command can do to the holdings, in one lemma. -/
theorem exec_move {i : Instr} {s t : State} (h : exec i s = .next t) : Move s i t.holdings := by
  have stay := Move.stay s i
  cases i with
  | powerOnReset => cases h; exact .reset
  | shaftIndex => cases h; exact .of_feed (takeIndex_moves s)
  | waitedShaftIndex => cases h; exact .of_feed (serveWaited_moves s)
  | outboundComplete => cases h; exact .of_eq (outboundComplete_holdings s)
  | returnSlot position slot => cases h; exact .of_eq (returnArrives_holdings position slot s)
  | returnWindowExpiry => cases h; exact .of_eq (windowExpires_holdings s)
  | loopedFrameBegin => cases h; exact .of_eq (beginLoopedFrame_holdings s)
  | testSlot slot => cases h; exact .of_eq (testSlotArrives_holdings slot s)
  | receivedByte data stop => cases h; exact .of_eq (byteArrives_holdings data stop s)
  | cellGap => cases h; exact .of_eq (gapPasses_holdings s)
  | strokeCell payload => cases h; exact .of_eq (strokeArrives_holdings payload s)
  | commandCell command => cases h; exact .of_eq (commandArrives_holdings command s)
  | breakBegin => cases h; exact .of_eq (haltLine_holdings _ _)
  | breakEnd => cases h; exact .of_eq (breakEnds_holdings s)
  | returnToMark => cases h; exact .of_eq (markReturns_holdings s)
  | transmitterFree => cases h; exact .of_eq (arbitrate_holdings _)
  | unknownCommand => cases h; exact executeFront_holdings stay fun _ => stay
  | defineMotif => cases h; exact lengthCommand_holdings stay fun _ => judgeDefine_move _ _ _ _ _ s
  | undefineMotif => cases h; exact lengthCommand_holdings stay fun _ => judgeUndefine_move _ s
  | loadPartFragment0 => cases h; exact lengthCommand_holdings stay fun args => .of_eq (loadFragment0_holdings args s)
  | loadPartFragment1 => cases h; exact lengthCommand_holdings stay fun args => .of_eq (loadFragment1_holdings args s)
  | loadPartFragment2 => cases h; exact lengthCommand_holdings stay fun args => loadFragment2_move args s
  | loadFlush => cases h; exact lengthCommand_holdings stay fun _ => .of_eq (judgeFlush_holdings s)
  | panelBegin => cases h; exact lengthCommand_holdings stay fun _ => .of_eq (judgeBegin_holdings _ _ _ _ s)
  | panelLane => cases h; exact lengthCommand_holdings stay fun _ => .of_eq (judgeLane_holdings _ s)
  | panelCommit => cases h; exact lengthCommand_holdings stay fun _ => judgeCommit_move s
  | panelDiscard => cases h; exact lengthCommand_holdings stay fun _ => judgeDiscard_move s
  | run => cases h; exact lengthCommand_holdings stay fun _ => judgeRun_move s
  | halt => cases h; exact lengthCommand_holdings stay fun _ => .of_eq (judgeHalt_holdings s)
  | resume => cases h; exact lengthCommand_holdings stay fun _ => .of_eq (judgeResume_holdings s)
  | lineReset => cases h; exact lengthCommand_holdings stay fun _ => .panels _ _ .lineReset
  | loopTest => cases h; exact lengthCommand_holdings stay fun _ => .of_eq (judgeLoopTest_holdings s)
  | laneHold => cases h; exact lengthCommand_holdings stay fun _ => .of_eq (judgeHold_holdings _ s)
  | laneRelease => cases h; exact lengthCommand_holdings stay fun _ => .of_eq (judgeRelease_holdings _ s)
  | laneStop => cases h; exact lengthCommand_holdings stay fun _ => .of_eq (judgeStop_holdings _ s)
  | segmentRestore => cases h; exact lengthCommand_holdings stay fun _ => .of_eq (judgeRestore_holdings _ s)
  | needleRelease => cases h; exact lengthCommand_holdings stay fun _ => .of_eq (judgeNeedle_holdings _ s)
  | takeDefect => cases h; exact lengthCommand_holdings stay fun _ => .of_eq (judgeTake_holdings s)
  | clearCounts => cases h; exact lengthCommand_holdings stay fun _ => stay
  | setLaneMapEntry => cases h; exact itemCommand_holdings stay fun _ => .of_eq (judgeLaneMap_holdings _ _ s)
  | setSegmentCount => cases h; exact itemCommand_holdings stay fun _ => .of_eq (judgeCount_holdings _ s)
  | setOperatorMask => cases h; exact itemCommand_holdings stay fun _ => .of_eq (judgeMask_holdings _ _ s)
  | setDropLimit => cases h; exact itemCommand_holdings stay fun _ => .of_eq (judgeDropLimit_holdings _ _ s)
  | setUnderrunLimit => cases h; exact itemCommand_holdings stay fun _ => .of_eq (judgeUnderrun_holdings _ s)
  | setPackingOrder => cases h; exact itemCommand_holdings stay fun _ => .of_eq (judgePacking_holdings _ s)
  | readLane => cases h; exact itemCommand_holdings stay fun _ => .of_eq (congrArg _ (judgeReadLane_state _ s))
  | readSegment => cases h; exact itemCommand_holdings stay fun _ => .of_eq (congrArg _ (judgeReadSegment_state _ s))
  | readMotif => cases h; exact itemCommand_holdings stay fun _ => .of_eq (congrArg _ (judgeReadMotif_state _ s))
  | readRecord => cases h; exact itemCommand_holdings stay fun _ => .of_eq (congrArg _ (judgeReadRecord_state _ _ s))
  | readPanel => cases h; exact itemCommand_holdings stay fun _ => .of_eq (congrArg _ (judgeReadPanel_state _ _ s))
  | readConfig => cases h; exact itemCommand_holdings stay fun _ => .of_eq (congrArg _ (judgeReadConfig_state _ s))
  | readLine | readDefects | readAttention | readCounts | readAssembler =>
    cases h
    exact itemCommand_holdings stay fun _ => stay

end Sys2Proof.Machine
end

section
/-! The laws of the Motif Store and of the in-use counts are kept by every step, and the motifs in use by every command but
the power-on reset. -/

namespace Sys2Proof.Machine

open Sys2Proof

/-- All a step can do: idle, or execute the front command of the model's queue. -/
theorem step_cases {s t : State} (h : step s = .next t) :
    s = t ∨ ∃ i rest, s.pending = i :: rest ∧ exec i (s.withPending rest) = .next t := by
  unfold step at h
  split at h
  · exact .inl (Host.Outcome.next.inj h)
  · rename_i i rest pending
    exact .inr ⟨i, rest, pending, h⟩

/-! ### Gains and releases (R4) -/

theorem gainAll_getElem (p : PanelProgram) (d : Vector DirEntry 64) (m : Fin 64) :
    (gainAll p d)[m] = { d[m] with inUse := d[m].inUse + p.names m } := by
  simp [gainAll]

theorem releaseAll_getElem (p : PanelProgram) (d : Vector DirEntry 64) (m : Fin 64) :
    (releaseAll p d)[m] = { d[m] with inUse := d[m].inUse - p.names m } := by
  simp [releaseAll]

theorem releaseOption_getElem (p : Option PanelProgram) (d : Vector DirEntry 64) (m : Fin 64) :
    (releaseOption p d)[m] = { d[m] with inUse := d[m].inUse - namesIn p m } := by
  cases p with
  | none => rfl
  | some p => exact releaseAll_getElem p d m

theorem set_getElem_self (d : Vector DirEntry 64) (m : Fin 64) (e : DirEntry) : (d.set m e)[m] = e := by simp

theorem set_getElem_other (d : Vector DirEntry 64) {m k : Fin 64} (e : DirEntry) (h : k ≠ m) :
    (d.set m e)[k] = d[k] := by
  have : m.val ≠ k.val := fun same => h (Fin.ext same.symm)
  simp [this]

/-- A program that names defined motifs alone names an undefined one nowhere. -/
theorem names_undefined {p : PanelProgram} {d : Vector DirEntry 64} {m : Fin 64}
    (named : ∀ a ∈ p.assignments, d[a.motif].defined = true) (undefined : d[m].defined = false) : p.names m = 0 := by
  refine List.countP_eq_zero.mpr fun a ha => ?_
  have : a.motif ≠ m := by
    rintro rfl
    exact absurd undefined (by rw [named a ha]; decide)
  simpa using this

/-- Two directories differ in in-use counts alone, and an undefined motif without references has gained none. -/
structure Recounted (d e : Vector DirEntry 64) : Prop where
  entry     : ∀ m : Fin 64, e[m] = { d[m] with inUse := e[m].inUse }
  undefined : ∀ m : Fin 64, d[m].defined = false → d[m].inUse = 0 → e[m].inUse = 0

theorem Recounted.refl (d : Vector DirEntry 64) : Recounted d d := ⟨fun _ => rfl, fun _ _ h => h⟩

theorem Recounted.trans {d e f : Vector DirEntry 64} (h : Recounted d e) (k : Recounted e f) : Recounted d f where
  entry m := by rw [k.entry m, h.entry m]
  undefined m undefined zero := by
    refine k.undefined m ?_ (h.undefined m undefined zero)
    rw [h.entry m]
    exact undefined

theorem releaseAll_recounted (p : PanelProgram) (d : Vector DirEntry 64) : Recounted d (releaseAll p d) where
  entry m := by rw [releaseAll_getElem]
  undefined m _ zero := by rw [releaseAll_getElem, zero]; exact Nat.zero_sub _

theorem releaseOption_recounted (p : Option PanelProgram) (d : Vector DirEntry 64) :
    Recounted d (releaseOption p d) := by
  cases p with
  | none => exact .refl d
  | some p => exact releaseAll_recounted p d

theorem gainAll_recounted {p : PanelProgram} {d : Vector DirEntry 64}
    (named : ∀ a ∈ p.assignments, d[a.motif].defined = true) : Recounted d (gainAll p d) where
  entry m := by rw [gainAll_getElem]
  undefined m undefined zero := by rw [gainAll_getElem, zero, names_undefined named undefined]

theorem FeedMoves.recounted {h k : Holdings} (moves : FeedMoves h k) :
    Recounted h.directory k.directory ∧ k.records = h.records := by
  induction moves with
  | refl => exact ⟨.refl _, rfl⟩
  | tail _ move ih =>
    cases move with
    | ended p _ => exact ⟨ih.1.trans (releaseAll_recounted p _), ih.2⟩
    | changed p _ _ _ => exact ⟨ih.1.trans (releaseAll_recounted p _), ih.2⟩

/-- The moves of the programs write no record and change the directory in its in-use counts alone. -/
theorem PanelMove.recounted {s : State} {i : Instr} {h : Holdings} (move : PanelMove s i h) :
    Recounted s.store.directory h.directory ∧ h.records = s.store.records := by
  cases move with
  | fed _ _ moves => exact moves.recounted
  | committed p defined =>
    have released := releaseOption_recounted s.stager.pendingPanel s.store.directory
    refine ⟨released.trans (gainAll_recounted fun a ha => ?_), rfl⟩
    rw [released.entry]
    exact defined a ha
  | discarded p _ => exact ⟨releaseAll_recounted p _, rfl⟩
  | started p _ _ => exact ⟨.refl _, rfl⟩
  | lineReset => exact ⟨(releaseOption_recounted _ _).trans (releaseOption_recounted _ _), rfl⟩

/-! ### Places of motifs (R1, R2) -/

/-- A record of a defined motif lies in the motif's pages. -/
theorem StoreLaw.place_in_pages {st : Store} (law : StoreLaw st) {m : Fin 64} (defined : st.directory[m].defined = true)
    {k : Nat} (index : k < st.directory[m].length) :
    st.directory[m].firstPage * 64 ≤ st.place m k ∧
      st.place m k < (st.directory[m].firstPage + st.directory[m].pageCount) * 64 := by
  have wf := law.entries m
  simp only [DirEntry.wf, defined, if_true, Config.pages, Config.pageRecords] at wf
  rw [place_eq]
  omega

/-- Records of two defined motifs lie in different places. -/
theorem StoreLaw.place_ne {st : Store} (law : StoreLaw st) {m n : Fin 64} (other : m ≠ n)
    (hm : st.directory[m].defined = true) (hn : st.directory[n].defined = true) {j k : Nat}
    (hj : j < st.directory[m].length) (hk : k < st.directory[n].length) : st.place m j ≠ st.place n k := by
  have inM := law.place_in_pages hm hj
  have inN := law.place_in_pages hn hk
  have apart := law.pages m n other hm hn
  omega

/-- What check 5 of R8 says of another defined motif: its pages lie outside the range. -/
theorem outside_of_not_overlapsOther {m k : Fin 64} {first count : Nat} {d : Vector DirEntry 64}
    (h : overlapsOther m first count d = false) (other : k ≠ m) (defined : d[k].defined = true) :
    d[k].firstPage + d[k].pageCount ≤ first ∨ first + count ≤ d[k].firstPage := by
  simp only [overlapsOther, List.any_eq_false, List.mem_finRange, true_implies, Bool.and_eq_true,
    decide_eq_true_eq] at h
  have := h k
  simp only [other, defined, ne_eq, not_false_eq_true, true_and, and_true] at this
  omega

/-! ### The law of the store (R1 to R3, R6) -/

/-- The law of the store speaks of directory and records alone. -/
theorem StoreLaw.of_same {st tt : Store} (law : StoreLaw st) (directory : tt.directory = st.directory)
    (records : tt.records = st.records) : StoreLaw tt where
  entries := by rw [directory]; exact law.entries
  pages := by rw [directory]; exact law.pages
  form := by rw [records]; exact law.form
  places := by rw [records]; exact law.places
  contents := by rw [records]; exact law.contents

theorem DirEntry.wf_recount {e : DirEntry} (h : e.wf) {n : Nat} (undefined : e.defined = false → n = 0) :
    DirEntry.wf { e with inUse := n } := by
  unfold DirEntry.wf at h ⊢
  split at h
  · rename_i defined
    simpa only [defined, if_true] using h
  · rename_i defined
    rw [if_neg defined, undefined (by simpa using defined), h]
    rfl

/-- An undefined entry has no references. -/
theorem DirEntry.wf.inUse_of_undefined {e : DirEntry} (h : e.wf) (undefined : e.defined = false) : e.inUse = 0 := by
  rw [DirEntry.wf, if_neg (by simp [undefined])] at h
  rw [h]
  rfl

theorem StoreLaw.recounted {st tt : Store} (law : StoreLaw st) (counts : Recounted st.directory tt.directory)
    (records : tt.records = st.records) : StoreLaw tt where
  entries m := by
    rw [counts.entry m]
    exact DirEntry.wf_recount (law.entries m) fun undefined =>
      counts.undefined m undefined ((law.entries m).inUse_of_undefined undefined)
  pages m k other := by
    rw [counts.entry m, counts.entry k]
    exact law.pages m k other
  form := by rw [records]; exact law.form
  places := by rw [records]; exact law.places
  contents := by rw [records]; exact law.contents

theorem DirEntry.disjoint_symm {d e : DirEntry} (h : d.disjoint e) : e.disjoint d :=
  fun he hd => (h hd he).symm

/-- One entry of the directory replaced by one that is as R3 says and shares no page with another motif. -/
theorem StoreLaw.set_entry {st : Store} (law : StoreLaw st) {m : Fin 64} {e : DirEntry} (wf : e.wf)
    (apart : ∀ k : Fin 64, k ≠ m → e.disjoint st.directory[k]) :
    StoreLaw { st with directory := st.directory.set m e } where
  entries k := by
    by_cases here : k = m
    · subst here
      rw [set_getElem_self]
      exact wf
    · rw [set_getElem_other _ _ here]
      exact law.entries k
  pages j k other := by
    by_cases hj : j = m
    · subst hj
      rw [set_getElem_self, set_getElem_other _ _ other.symm]
      exact apart k other.symm
    · rw [set_getElem_other _ _ hj]
      by_cases hk : k = m
      · subst hk
        rw [set_getElem_self]
        exact DirEntry.disjoint_symm (apart j hj)
      · rw [set_getElem_other _ _ hk]
        exact law.pages j k other
  form := law.form
  places := law.places
  contents := law.contents

/-- The END fill keeps the law (R9). -/
theorem StoreLaw.fillEnd {st : Store} (law : StoreLaw st) (base n : Nat) :
    StoreLaw { st with records := st.records.fillEnd base n } where
  entries := law.entries
  pages := law.pages
  form := Memory.wf_fillEnd law.form base n
  places cell h := law.places cell (Memory.mem_fillEnd h)
  contents cell h := law.contents cell (Memory.mem_fillEnd h)

/-- A valid record written to one of the places of the store keeps the law (R16). -/
theorem StoreLaw.write {st : Store} (law : StoreLaw st) {a : Nat} {w : RecordWord} (place : a < Config.storePlaces)
    (valid : validWord w = true) : StoreLaw { st with records := st.records.write a w } where
  entries := law.entries
  pages := law.pages
  form := Memory.wf_write law.form a w
  places cell h := by
    rcases Memory.mem_write h with h | ⟨rfl, -⟩
    · exact law.places cell h
    · exact place
  contents cell h := by
    rcases Memory.mem_write h with h | ⟨rfl, -⟩
    · exact law.contents cell h
    · exact valid

theorem reset_storeLaw : StoreLaw State.reset.store where
  entries m := by simp [State.reset, DirEntry.wf, DirEntry.blank]
  pages m k _ defined := by simp [State.reset, DirEntry.blank] at defined
  form := rfl
  places := by simp [State.reset]
  contents := by simp [State.reset]

/-- The store the holdings are of, as far as the law of the store looks. -/
def Holdings.store (h : Holdings) : Store :=
  { directory := h.directory, records := h.records, assembler := none, packing := .highFirst }

theorem Move.storeLaw {s : State} {i : Instr} {h : Holdings} (move : Move s i h) (law : StoreLaw s.store) :
    StoreLaw h.store := by
  cases move with
  | panels _ _ move =>
    obtain ⟨counts, records⟩ := move.recounted
    exact law.recounted (tt := h.store) counts records
  | reset => exact reset_storeLaw.of_same rfl rfl
  | defined m first count length loop args apart _ =>
    obtain ⟨-, hcount, -, hlength, hrange, hfit, hloop⟩ := args
    have wf : DirEntry.wf { defined := true, firstPage := first, pageCount := count, length := length,
                            loopIndex := loop, inUse := 0 } := by
      simp only [DirEntry.wf, if_true, Config.pages, Config.pageRecords]
      exact ⟨hcount, hrange, hlength, hfit, fun i hi => (hloop i hi).2⟩
    have entered := law.set_entry (m := m) wf fun k other _ defined =>
      (outside_of_not_overlapsOther apart other defined).symm
    exact (entered.fillEnd (first * 64) length).of_same rfl rfl
  | undefined m _ =>
    have blank : DirEntry.blank.wf := rfl
    exact (law.set_entry (m := m) blank fun k _ defined => absurd defined (by decide)).of_same rfl rfl
  | written m k w defined _ index valid =>
    obtain ⟨-, below⟩ := law.place_in_pages defined index
    have wf := law.entries m
    simp only [DirEntry.wf, defined, if_true, Config.pages] at wf
    have place : s.store.place m k < Config.storePlaces := by
      simp only [Config.storePlaces]
      omega
    exact (law.write place valid).of_same rfl rfl

theorem exec_storeLaw {i : Instr} {s t : State} (h : exec i s = .next t) (law : StoreLaw s.store) : StoreLaw t.store :=
  ((exec_move h).storeLaw law).of_same rfl rfl

/-- Settles O54: whatever a command does to the motifs is one of the moves, and each move keeps the law. -/
theorem stepKeepsStoreLaw : Obligations.StepKeepsStoreLaw := by
  intro s t law h
  rcases step_cases h with rfl | ⟨i, rest, -, h⟩
  · exact law
  · exact exec_storeLaw h law

/-! ### Motifs in use (R4, R8, R10, R13) -/

/-- Only the power-on reset, DEFINE_MOTIF and LOAD_PART fragment 2 change records. -/
theorem Move.records_kept {s : State} {i : Instr} {h : Holdings} (move : Move s i h) (noReset : i ≠ .powerOnReset)
    (noDefine : i ≠ .defineMotif) (noPart : i ≠ .loadPartFragment2) : h.records = s.store.records := by
  cases move with
  | panels _ _ move => exact move.recounted.2
  | reset => exact absurd rfl noReset
  | defined => exact absurd rfl noDefine
  | undefined => rfl
  | written => exact absurd rfl noPart

/-- A motif in use is not the one that is defined anew, undefined or loaded. -/
theorem StoreLaw.ne_of_unused {st : Store} (law : StoreLaw st) {m k : Fin 64} (used : 0 < st.directory[m].inUse)
    (unused : st.unused k) : m ≠ k := by
  rintro rfl
  have := unused (law.defined_of_inUse used)
  omega

/-- The entry of a motif in use changes in its in-use count alone. -/
theorem Move.entry_of_used {s : State} {i : Instr} {h : Holdings} (move : Move s i h) (law : StoreLaw s.store)
    (noReset : i ≠ .powerOnReset) {m : Fin 64} (used : 0 < s.store.directory[m].inUse) :
    h.directory[m] = { s.store.directory[m] with inUse := h.directory[m].inUse } := by
  cases move with
  | panels _ _ move => exact move.recounted.1.entry m
  | reset => exact absurd rfl noReset
  | defined k _ _ _ _ _ _ unused => rw [set_getElem_other _ _ (law.ne_of_unused used unused)]
  | undefined k unused => rw [set_getElem_other _ _ (law.ne_of_unused used unused)]
  | written => rfl

/-- The places of a motif in use are not written. -/
theorem Move.reads_of_used {s : State} {i : Instr} {h : Holdings} (move : Move s i h) (law : StoreLaw s.store)
    (noReset : i ≠ .powerOnReset) {m : Fin 64} (used : 0 < s.store.directory[m].inUse) {k : Nat}
    (index : k < s.store.directory[m].length) :
    h.records.read (s.store.place m k) = s.store.records.read (s.store.place m k) := by
  have defined := law.defined_of_inUse used
  cases move with
  | panels _ _ move => rw [move.recounted.2]
  | reset => exact absurd rfl noReset
  | defined n first count length loop args apart unused =>
    have inPages := law.place_in_pages defined index
    have outside := outside_of_not_overlapsOther apart (law.ne_of_unused used unused) defined
    obtain ⟨-, -, -, -, -, fit, -⟩ := args
    dsimp only
    rw [Memory.read_fillEnd, if_neg (by omega)]
  | undefined => rfl
  | written n j w loaded unused below valid =>
    have other := law.place_ne (law.ne_of_unused used unused) defined loaded index below
    dsimp only
    rw [Memory.read_write law.form, if_neg other]

/-- Settles O53: a command that writes records or moves entries does so for a motif without references, whose pages no
other motif shares. -/
theorem recordsOfUsedMotifKept : Obligations.RecordsOfUsedMotifKept := by
  refine ⟨fun i s t a h noReset noDefine noPart => ?_, fun i s t m law h noReset used => ?_⟩
  · have records : t.store.records = s.store.records := (exec_move h).records_kept noReset noDefine noPart
    rw [records]
  · have defined := law.defined_of_inUse used
    have entry : t.store.directory[m] = { s.store.directory[m] with inUse := t.store.directory[m].inUse } :=
      (exec_move h).entry_of_used law noReset used
    refine ⟨by rw [entry]; exact ⟨defined, rfl, rfl, rfl, rfl⟩, fun k index => ?_⟩
    have place : t.store.place m k = s.store.place m k := by rw [place_eq, place_eq, entry]
    have reads : t.store.records.read (s.store.place m k) = s.store.records.read (s.store.place m k) :=
      (exec_move h).reads_of_used law noReset used index
    rw [Store.recordAt, Store.recordAt, Store.wordAt, Store.wordAt, place, reads]

/-! ### The in-use law (R4) -/

/-- The in-use law of the holdings. -/
def Holdings.counted (h : Holdings) : Prop :=
  ∀ m : Fin 64, h.directory[m].inUse = namesIn h.waiting m + namesIn h.onLine m

theorem inUseLaw_iff (s : State) : InUseLaw s ↔ s.holdings.counted := Iff.rfl

theorem reset_counted : State.reset.holdings.counted := by
  intro m
  simp [State.holdings, State.reset, State.linePanel, DirEntry.blank, namesIn]

theorem FeedMove.counted {h k : Holdings} (move : FeedMove h k) (law : h.counted) : k.counted := by
  intro m
  have count := law m
  cases move with
  | ended p outgoing =>
    rw [outgoing] at count
    dsimp only
    rw [releaseAll_getElem]
    simp only [namesIn] at count ⊢
    omega
  | changed p q outgoing incoming =>
    rw [outgoing, incoming] at count
    dsimp only
    rw [releaseAll_getElem]
    simp only [namesIn] at count ⊢
    omega

theorem FeedMoves.counted {h k : Holdings} (moves : FeedMoves h k) (law : h.counted) : k.counted := by
  induction moves with
  | refl => exact law
  | tail _ move ih => exact move.counted ih

/-- Each move of the programs gains and releases what the law asks for, if no program is on the line in IDLE. -/
theorem PanelMove.counted {s : State} {i : Instr} {h : Holdings} (move : PanelMove s i h) (law : s.holdings.counted)
    (idleLine : s.line.state = .idle → s.linePanel = none) : h.counted := by
  cases move with
  | fed _ _ moves => exact moves.counted law
  | committed p _ =>
    intro m
    have count := law m
    dsimp only
    rw [gainAll_getElem, releaseOption_getElem]
    simp only [namesIn, State.holdings] at count ⊢
    omega
  | discarded p waiting =>
    intro m
    have count := law m
    simp only [State.holdings, waiting] at count ⊢
    rw [releaseAll_getElem]
    simp only [namesIn] at count ⊢
    omega
  | started p waiting idle =>
    intro m
    have count := law m
    simp only [State.holdings, waiting, idleLine idle] at count ⊢
    simp only [namesIn] at count ⊢
    omega
  | lineReset =>
    intro m
    have count := law m
    simp only [State.holdings] at count ⊢
    rw [releaseOption_getElem, releaseOption_getElem]
    simp only [count, namesIn]
    omega

/-- A motif without references stays so when its entry is replaced by one with in-use count 0. -/
theorem counted_set {h : Holdings} (law : h.counted) {m : Fin 64} {e : DirEntry} (before : h.directory[m].inUse = 0)
    (after : e.inUse = 0) : Holdings.counted { h with directory := h.directory.set m e } := by
  intro k
  dsimp only
  by_cases here : k = m
  · subst here
    rw [set_getElem_self, after, ← before]
    exact law k
  · rw [set_getElem_other _ _ here]
    exact law k

theorem StoreLaw.inUse_of_unused {st : Store} (law : StoreLaw st) {m : Fin 64} (unused : st.unused m) :
    st.directory[m].inUse = 0 := by
  cases defined : st.directory[m].defined with
  | true => exact unused defined
  | false => exact (law.entries m).inUse_of_undefined defined

theorem Move.counted {s : State} {i : Instr} {h : Holdings} (move : Move s i h) (store : StoreLaw s.store)
    (law : s.holdings.counted) (idleLine : s.line.state = .idle → s.linePanel = none) : h.counted := by
  cases move with
  | panels _ _ move => exact move.counted law idleLine
  | reset => exact reset_counted
  | defined m first count length loop _ _ unused =>
    exact counted_set (h := s.holdings) law (store.inUse_of_unused unused) rfl
  | undefined m unused => exact counted_set (h := s.holdings) law (store.inUse_of_unused unused) rfl
  | written => exact law

/-- In IDLE there is no line program (R66). -/
theorem LineLaw.idle_linePanel {s : State} (law : LineLaw s) (idle : s.line.state = .idle) : s.linePanel = none := by
  have role := law.role
  rw [idle] at role
  rw [State.linePanel, Option.map_eq_none_iff.mp role]
  rfl

theorem exec_inUseLaw {i : Instr} {s t : State} (h : exec i s = .next t) (store : StoreLaw s.store) (line : LineLaw s)
    (law : InUseLaw s) : InUseLaw t :=
  (exec_move h).counted store law line.idle_linePanel

/-- The model's own queue is nothing the law of the line looks at. -/
theorem LineLaw.withPending {s : State} (law : LineLaw s) (rest : List Instr) : LineLaw (s.withPending rest) :=
  ⟨law.role, law.noPending, law.position, law.noPosition, law.seam, law.noSeam, law.lanes⟩

/-- Settles O57: each move keeps the count of the references held by the pending panel and the line program. -/
theorem stepKeepsInUseLaw : Obligations.StepKeepsInUseLaw := by
  intro s t store line law h
  rcases step_cases h with rfl | ⟨i, rest, -, h⟩
  · exact law
  · exact exec_inUseLaw h store (line.withPending rest) law

end Sys2Proof.Machine
end

section
/-! The commands of the Motif Store (chapter 1), judged on the arguments their cells carry: DEFINE_MOTIF, UNDEFINE_MOTIF,
LOAD_PART and LOAD_FLUSH. -/

namespace Sys2Proof.Machine

open Sys2Proof

/-! ### A front command that executes -/

/-- A front command with the arguments its code asks for does what its rule says (R169, R172). -/
theorem lengthCommand_ready {s : State} {c : Command} (ready : s.frontReady c) {row : Command → Bool}
    (isRow : row c = true) {n : Nat} (len : c.args.length = n) (effect : List Byte → State → Effect) :
    executeFront row (fun args t => withLength n args (effect args t) t) s = settle c (effect c.args s) := by
  rw [executeFront_ready ready isRow, withLength_eq len]

/-- A front SET or READ with the arguments its item asks for does what its rule says (R177, R179). -/
theorem itemCommand_ready {s : State} {c : Command} (ready : s.frontReady c) {row : Command → Bool}
    (isRow : row c = true) {item n : Nat} (isItem : itemOf c.args = item) (len : c.args.length = n + 1)
    (effect : List Byte → State → Effect) :
    executeFront row (fun args t => withItem item n args (effect args t) t) s = settle c (effect c.args s) := by
  rw [executeFront_ready ready isRow, withItem, if_pos isItem, withLength_eq len]

theorem hasCode_of {c : Command} {code : Byte} (h : c.code = code) : c.hasCode code = true := by
  simp [Command.hasCode, h]

/-! ### DEFINE_MOTIF and UNDEFINE_MOTIF (R8 to R10) -/

theorem discardFor_eq (m : Fin 64) (x : Option Assembly) : discardFor m x = keptPartial m x := by
  cases x with
  | none => rfl
  | some a =>
    by_cases target : a.motif = m
    · simp [discardFor, keptPartial, Option.filter, target]
    · simp [discardFor, keptPartial, Option.filter, target]

theorem judgeDefine_noMotif {motif : Nat} (h : 64 ≤ motif) (first count length : Nat) (loop : Option Nat) (s : State) :
    judgeDefine motif first count length loop s = reply .range s := by
  rw [judgeDefine, finOf_eq_none h]

theorem judgeDefine_arguments {first count length : Nat} {loop : Option Nat}
    (h : ¬ defineArguments first count length loop) (motif : Nat) (s : State) :
    judgeDefine motif first count length loop s = reply .range s := by
  have refused : defineInRange first count length loop = false := by
    simpa using mt defineInRange_iff.mp h
  unfold judgeDefine
  split
  · rfl
  · simp [refused]

/-- Checks 5 and 6 of R8, for a motif and numbers that pass the others. -/
theorem judgeDefine_of {m : Fin 64} {first count length : Nat} {loop : Option Nat}
    (h : defineArguments first count length loop) {motif : Nat} (target : motif = m.val) (s : State) :
    judgeDefine motif first count length loop s =
      if overlapsOther m first count s.store.directory then reply .overlap s
      else if s.store.directory[m].defined && decide (0 < s.store.directory[m].inUse) then reply .inUse s
      else reply .done { s with store := defineMotif m first count length loop s.store } := by
  simp [judgeDefine, finOf_eq_some m target, defineInRange_iff.mpr h]

/-- What the arguments of a DEFINE_MOTIF ask for (R186). -/
theorem exec_defineMotif {s : State} {c : Command} {m8 first count lenLow lenHigh flags loopLow loopHigh : Byte}
    (ready : s.frontReady c) (code : c.code = 0x01)
    (args : c.args = [m8, first, count, lenLow, lenHigh, flags, loopLow, loopHigh]) :
    exec .defineMotif s = .next (settle c (judgeDefine m8.toNat first.toNat count.toNat (wordOf lenLow lenHigh)
      (if flags.getLsbD 0 then some (wordOf loopLow loopHigh) else none) s)) := by
  have executed := lengthCommand_ready ready (hasCode_of code) (n := 8) (by rw [args]; rfl) fun args t =>
    judgeDefine (argByte args 0) (argByte args 1) (argByte args 2) (argWord args 3) (loopArgument args) t
  rw [args] at executed
  exact congrArg Host.Outcome.next executed

theorem decodeRecord_zero : decodeRecord 0 = some .endRecord := by decide

/-- After an accepted DEFINE_MOTIF every record of the motif is END (R9). -/
theorem defineMotif_recordAt {m : Fin 64} (first count length : Nat) (loop : Option Nat) (st : Store) {k : Nat}
    (index : k < length) : (defineMotif m first count length loop st).recordAt m k = .endRecord := by
  have place : (defineMotif m first count length loop st).place m k = first * 64 + k := by
    simp [place_eq, defineMotif]
  have fill : (defineMotif m first count length loop st).records = st.records.fillEnd (first * 64) length := rfl
  rw [Store.recordAt, Store.wordAt, place, fill, Memory.read_fillEnd, if_pos (by omega), decodeRecord_zero]
  rfl

/-- Settles O26: with the pages free and no reference held, the checks of R8 pass, and the END fill covers the motif's
places alone. -/
theorem defineMotifFillsWithEnd : Obligations.DefineMotifFillsWithEnd := by
  intro s c m m8 first count lenLow lenHigh flags loopLow loopHigh ready code args target length loop inRange law free
    unused
  have apart : overlapsOther m first.toNat count.toNat s.store.directory = false := by
    simpa using mt (overlapsOther_iff law inRange.2.1).mp free
  have accepted : judgeDefine m8.toNat first.toNat count.toNat length loop s =
      reply .done { s with store := defineMotif m first.toNat count.toNat length loop s.store } := by
    rw [judgeDefine_of inRange target, apart, unused]
    simp
  refine ⟨defineMotif m first.toNat count.toNat length loop s.store, ?_, rfl, fun a => ?_, discardFor_eq _ _, rfl,
    fun i index => defineMotif_recordAt _ _ _ _ _ index⟩
  · rw [exec_defineMotif ready code args, accepted, settle_reply]
  · exact Memory.read_fillEnd _ _ _ _

/-- Settles O27: the checks of R8 in their order, the fifth in terms of owned pages. -/
theorem defineMotifRefusedInOrder : Obligations.DefineMotifRefusedInOrder := by
  intro s c m8 first count lenLow lenHigh flags loopLow loopHigh ready code args law length loop
  rw [exec_defineMotif ready code args]
  refine ⟨fun refused => ?_, fun m target inRange taken => ?_, fun m target inRange free used => ?_⟩
  · rcases refused with motif | arguments
    · rw [judgeDefine_noMotif motif, settle_reply]
    · rw [judgeDefine_arguments arguments, settle_reply]
  · rw [judgeDefine_of inRange target, if_pos ((overlapsOther_iff law inRange.2.1).mpr taken), settle_reply]
  · have defined := law.defined_of_inUse used
    rw [judgeDefine_of inRange target, if_neg (mt (overlapsOther_iff law inRange.2.1).mp free),
      if_pos (by simpa using ⟨defined, used⟩), settle_reply]

theorem exec_undefineMotif {s : State} {c : Command} {m8 : Byte} (ready : s.frontReady c) (code : c.code = 0x02)
    (args : c.args = [m8]) : exec .undefineMotif s = .next (settle c (judgeUndefine m8.toNat s)) := by
  have executed := lengthCommand_ready ready (hasCode_of code) (n := 1) (by rw [args]; rfl) fun args t =>
    judgeUndefine (argByte args 0) t
  rw [args] at executed
  exact congrArg Host.Outcome.next executed

/-- The checks of R10 on a motif of the directory. -/
theorem judgeUndefine_of {m : Fin 64} {motif : Nat} (target : motif = m.val) (s : State) :
    judgeUndefine motif s =
      if !s.store.directory[m].defined then reply .notDefined s
      else if 0 < s.store.directory[m].inUse then reply .inUse s
      else reply .done { s with store := undefineMotif m s.store } := by
  rw [judgeUndefine, finOf_eq_some m target]

/-- Settles O28: the checks of R10 in their order. -/
theorem undefineMotifFreesOrRefuses : Obligations.UndefineMotifFreesOrRefuses := by
  intro s c m8 ready code args
  rw [exec_undefineMotif ready code args]
  refine ⟨fun high => ?_, fun m target => ?_⟩
  · rw [judgeUndefine, finOf_eq_none high]
    rfl
  · rw [judgeUndefine_of target]
    refine ⟨fun undefined => ?_, fun defined used => ?_, fun defined unused => ?_⟩
    · rw [undefined]
      rfl
    · rw [defined, if_neg (by simp), if_pos used, settle_reply]
    · rw [defined, if_neg (by simp), if_neg (by omega), settle_reply, undefineMotif, discardFor_eq]
      rfl

/-! ### LOAD_PART (R11 to R16) -/

theorem partTarget_range {m8 low high fragment dataLow dataHigh : Byte}
    (h : 64 ≤ m8.toNat ∨ 8191 < wordOf low high ∨ 2 < fragment.toNat) (st : Store) :
    partTarget [m8, low, high, fragment, dataLow, dataHigh] st = .error .range := by
  have index : argWord [m8, low, high, fragment, dataLow, dataHigh] 1 = wordOf low high := rfl
  have part : argByte [m8, low, high, fragment, dataLow, dataHigh] 3 = fragment.toNat := rfl
  rw [partTarget, index, part]
  split
  · rfl
  · rename_i m target
    have motif : ¬ 64 ≤ m8.toNat := by
      intro outside
      rw [show argByte [m8, low, high, fragment, dataLow, dataHigh] 0 = m8.toNat from rfl, finOf_eq_none outside]
        at target
      exact absurd target (by simp)
    rw [if_pos (by simpa using h.resolve_left motif)]

/-- The checks of R13 on a motif of the directory, with index and fragment in range. -/
theorem partTarget_of {m8 low high fragment dataLow dataHigh : Byte} {m : Fin 64} (target : m8.toNat = m.val)
    (index : wordOf low high ≤ 8191) (part : fragment.toNat ≤ 2) (st : Store) :
    partTarget [m8, low, high, fragment, dataLow, dataHigh] st =
      if !st.directory[m].defined then .error .notDefined
      else if st.directory[m].length ≤ wordOf low high then .error .range
      else if 0 < st.directory[m].inUse then .error .inUse
      else .ok m := by
  have motif : finOf 64 (argByte [m8, low, high, fragment, dataLow, dataHigh] 0) = some m := finOf_eq_some m target
  have inRange : ¬ (8191 < wordOf low high || 2 < fragment.toNat) = true := by
    simp only [Bool.or_eq_true, decide_eq_true_eq]
    omega
  simp only [partTarget, motif]
  exact if_neg inRange

/-- A LOAD_PART that passes the checks of R13. -/
theorem partTarget_passed {m8 low high fragment dataLow dataHigh : Byte} {m : Fin 64} {st : Store}
    (target : m8.toNat = m.val) (index : wordOf low high ≤ 8191) (part : fragment.toNat ≤ 2)
    (defined : st.directory[m].defined = true) (below : wordOf low high < st.directory[m].length)
    (unused : st.directory[m].inUse = 0) :
    partTarget [m8, low, high, fragment, dataLow, dataHigh] st = .ok m := by
  rw [partTarget_of target index part, defined, if_neg (by simp), if_neg (Nat.not_le.mpr below), if_neg (by omega)]

/-- The 16 data bits, the high byte first (R164, R186). -/
theorem partData_eq (m8 low high fragment dataLow dataHigh : Byte) :
    partData [m8, low, high, fragment, dataLow, dataHigh] = dataHigh ++ dataLow := by
  have word : argWord [m8, low, high, fragment, dataLow, dataHigh] 4 = dataLow.toNat + 256 * dataHigh.toNat := rfl
  apply BitVec.eq_of_toNat_eq
  have low := dataLow.isLt
  have high := dataHigh.isLt
  rw [partData, word, BitVec.toNat_ofNat, BitVec.toNat_append, ← Nat.shiftLeft_add_eq_or_of_lt low, Nat.shiftLeft_eq]
  omega

theorem isPart_of {c : Command} {m8 low high fragment dataLow dataHigh : Byte} (code : c.code = 0x03)
    (args : c.args = [m8, low, high, fragment, dataLow, dataHigh]) {n : Nat}
    (part : fragment.toNat = n ∨ 2 < fragment.toNat) : c.isPart n = true := by
  have byte : argByte [m8, low, high, fragment, dataLow, dataHigh] 3 = fragment.toNat := rfl
  simpa [Command.isPart, code, args, byte] using part

/-- What a LOAD_PART does at its row, by its fragment. -/
theorem exec_loadPart {s : State} {c : Command} {m8 low high fragment dataLow dataHigh : Byte} (ready : s.frontReady c)
    (code : c.code = 0x03) (args : c.args = [m8, low, high, fragment, dataLow, dataHigh]) :
    (fragment.toNat = 0 ∨ 2 < fragment.toNat →
      exec .loadPartFragment0 s =
        .next (settle c (loadFragment0 [m8, low, high, fragment, dataLow, dataHigh] s))) ∧
    (fragment.toNat = 1 ∨ 2 < fragment.toNat →
      exec .loadPartFragment1 s =
        .next (settle c (loadFragment1 [m8, low, high, fragment, dataLow, dataHigh] s))) ∧
    (fragment.toNat = 2 ∨ 2 < fragment.toNat →
      exec .loadPartFragment2 s =
        .next (settle c (loadFragment2 [m8, low, high, fragment, dataLow, dataHigh] s))) := by
  have executed (n : Nat) (part : fragment.toNat = n ∨ 2 < fragment.toNat) (effect : List Byte → State → Effect) :=
    lengthCommand_ready ready (isPart_of code args part) (n := 6) (by rw [args]; rfl) effect
  rw [args] at executed
  exact ⟨fun part => congrArg Host.Outcome.next (executed 0 part loadFragment0),
    fun part => congrArg Host.Outcome.next (executed 1 part loadFragment1),
    fun part => congrArg Host.Outcome.next (executed 2 part loadFragment2)⟩

theorem loadFragment_refused {args : List Byte} {s : State} {r : Result} (h : partTarget args s.store = .error r) :
    loadFragment0 args s = refusePart r s ∧ loadFragment1 args s = refusePart r s ∧
      loadFragment2 args s = refusePart r s := by
  simp only [loadFragment0, loadFragment1, loadFragment2, h, and_self]

/-- Settles O29: the three rows judge a LOAD_PART by the same checks, and refuse it alike. -/
theorem loadPartCheckedFirst : Obligations.LoadPartCheckedFirst := by
  intro s c m8 low high fragment dataLow dataHigh ready code args x rows part refused
  have refusal {r : Result} (h : partTarget [m8, low, high, fragment, dataLow, dataHigh] s.store = .error r) :
      exec x.1 s = refused r := by
    obtain ⟨fragment0, fragment1, fragment2⟩ := loadFragment_refused h
    obtain ⟨row0, row1, row2⟩ := exec_loadPart ready code args
    simp only [List.mem_cons, List.not_mem_nil, or_false] at rows
    rcases rows with rfl | rfl | rfl
    · rw [row0 part, fragment0]
      rfl
    · rw [row1 part, fragment1]
      rfl
    · rw [row2 part, fragment2]
      rfl
  refine ⟨fun outside => refusal (partTarget_range outside s.store), fun m target index inRange => ?_⟩
  have checks := partTarget_of (dataLow := dataLow) (dataHigh := dataHigh) target index inRange s.store
  refine ⟨fun undefined => refusal ?_, fun defined past => refusal ?_, fun defined below used => refusal ?_⟩
  · rw [checks, undefined]
    rfl
  · rw [checks, defined, if_neg (by simp), if_pos past]
  · rw [checks, defined, if_neg (by simp), if_neg (Nat.not_le.mpr below), if_pos used]

/-- Fragment 1 in sequence (R15). -/
theorem loadFragment1_held {args : List Byte} {s : State} {m : Fin 64} {f0 : BitVec 16}
    (target : partTarget args s.store = .ok m)
    (held : s.store.assembler = some { motif := m, index := argWord args 1, fragment0 := f0, fragment1 := none }) :
    loadFragment1 args s = replyWith .partHeld [2]
      { s with
        store.assembler :=
          some { motif := m, index := argWord args 1, fragment0 := f0, fragment1 := some (partData args) } } := by
  simp [loadFragment1, target, held]

/-- Fragment 1 out of sequence (R15). -/
theorem loadFragment1_sequence {args : List Byte} {s : State} {m : Fin 64} (target : partTarget args s.store = .ok m)
    (h : ∀ f0, s.store.assembler ≠
      some { motif := m, index := argWord args 1, fragment0 := f0, fragment1 := none }) :
    loadFragment1 args s = refusePart .sequence s := by
  unfold loadFragment1
  rw [target]
  dsimp only
  split
  · rename_i held
    split
    · rename_i here
      obtain ⟨rfl, rfl⟩ := here
      exact absurd held (h _)
    · rfl
  · rfl
  · rfl

/-- Settles O30: what the assembler holds decides whether fragment 1 is in sequence. -/
theorem loadPartFragmentsHeld : Obligations.LoadPartFragmentsHeld := by
  intro s c m m8 low high fragment dataLow dataHigh ready code args target index defined below unused
  obtain ⟨row0, row1, -⟩ := exec_loadPart ready code args
  have passed (part : fragment.toNat ≤ 2) := partTarget_passed (dataLow := dataLow) (dataHigh := dataHigh) target index
    part defined below unused
  refine ⟨?_, ?_⟩
  · rintro rfl
    rw [row0 (.inl rfl), loadFragment0, passed (by decide), partData_eq]
    rfl
  · rintro rfl
    rw [row1 (.inl rfl)]
    refine ⟨fun f0 held => ?_, fun sequence => ?_⟩
    · rw [loadFragment1_held (passed (by decide)) held, partData_eq]
      rfl
    · rw [loadFragment1_sequence (passed (by decide)) sequence]
      rfl

/-- Fragment 2 in sequence: the record is joined, judged and written (R15, R16). -/
theorem loadFragment2_joined {args : List Byte} {s : State} {m : Fin 64} {f0 f1 : BitVec 16}
    (target : partTarget args s.store = .ok m)
    (held : s.store.assembler =
      some { motif := m, index := argWord args 1, fragment0 := f0, fragment1 := some f1 }) :
    loadFragment2 args s =
      if validWord (joinFragments s.store.packing f0 f1 (partData args)) then
        reply .done
          { s with
            store.records := s.store.records.write (s.store.place m (argWord args 1))
              (joinFragments s.store.packing f0 f1 (partData args))
            store.assembler := none }
      else refusePart .range s := by
  simp [loadFragment2, target, held]

/-- Fragment 2 out of sequence (R15). -/
theorem loadFragment2_sequence {args : List Byte} {s : State} {m : Fin 64} (target : partTarget args s.store = .ok m)
    (h : ∀ f0 f1, s.store.assembler ≠
      some { motif := m, index := argWord args 1, fragment0 := f0, fragment1 := some f1 }) :
    loadFragment2 args s = refusePart .sequence s := by
  unfold loadFragment2
  rw [target]
  dsimp only
  split
  · rename_i held
    split
    · rename_i here
      obtain ⟨rfl, rfl⟩ := here
      exact absurd held (h _ _)
    · rfl
  · rfl
  · rfl

theorem joinFragments_eq (order : PackingOrder) (f0 f1 f2 : BitVec 16) :
    joinFragments order f0 f1 f2 = if order = .highFirst then f0 ++ f1 ++ f2 else f2 ++ f1 ++ f0 := by
  cases order <;> rfl

/-- Settles O31: fragment 2 in sequence is joined and judged, and a write changes the one place it names. -/
theorem loadPartWritesOneRecord : Obligations.LoadPartWritesOneRecord := by
  intro s c m m8 low high dataLow dataHigh ready code args target index defined below unused form
  obtain ⟨-, -, row2⟩ := exec_loadPart ready code args
  have passed := partTarget_passed (dataLow := dataLow) (dataHigh := dataHigh) (fragment := 2) target index (by decide)
    defined below unused
  have executed := row2 (.inl rfl)
  refine ⟨?_, fun sequence => ?_⟩
  · intro f0 f1 held w
    have joined := loadFragment2_joined passed held
    rw [partData_eq, joinFragments_eq] at joined
    refine ⟨fun valid => ?_, fun invalid => ?_⟩
    · rw [if_pos valid] at joined
      have place : s.store.place m (wordOf low high) =
          (s.store.directory[m].firstPage + wordOf low high / 64) * 64 + wordOf low high % 64 := by
        simp only [Store.place]
        omega
      refine ⟨s.store.records.write (s.store.place m (wordOf low high)) w, ?_, ?_, fun a other => ?_⟩
      · rw [executed, joined]
        rfl
      · rw [Memory.read_write form, place, if_pos rfl]
      · rw [Memory.read_write form, place, if_neg other]
    · rw [executed, joined, if_neg (by rw [invalid]; decide)]
      rfl
  · rw [executed, loadFragment2_sequence passed sequence]
    rfl

/-! ### LOAD_FLUSH (R17) -/

/-- Settles O32, by whether the assembler holds a partial. -/
theorem loadFlushDiscardsPartial : Obligations.LoadFlushDiscardsPartial := by
  intro s c ready code args
  have executed : exec .loadFlush s = .next (settle c (judgeFlush s)) :=
    congrArg Host.Outcome.next
      (lengthCommand_ready ready (hasCode_of code) (n := 0) (by rw [args]; rfl) fun _ t => judgeFlush t)
  rw [executed]
  refine ⟨fun x holding => ?_, fun empty => ?_⟩
  · rw [judgeFlush, holding, settle_reply]
  · rw [judgeFlush, empty, settle_reply]

end Sys2Proof.Machine
end

section
/-! LINE_RESET, the SET items of any line state, the power-on reset, and the laws in the state after it. -/

namespace Sys2Proof.Machine

open Sys2Proof

/-! ### LINE_RESET (R82) -/

/-- Under the in-use law the releases of LINE_RESET leave no reference (R4, R5). -/
theorem InUseLaw.released {s : State} (law : InUseLaw s) (m : Fin 64) :
    (releaseOption s.linePanel (releaseOption s.stager.pendingPanel s.store.directory))[m] =
      { s.store.directory[m] with inUse := 0 } := by
  rw [releaseOption_getElem, releaseOption_getElem]
  simp only [DirEntry.mk.injEq, true_and]
  rw [law m]
  omega

/-- Settles O39: the two releases give back every reference the in-use law counts. -/
theorem lineResetReturnsToIdle : Obligations.LineResetReturnsToIdle := by
  intro s c ready code args law
  refine ⟨_, law.released, ?_⟩
  exact congrArg Host.Outcome.next
    (lengthCommand_ready ready (hasCode_of code) (n := 0) (by rw [args]; rfl) fun _ t => reply .done (resetLine t))

/-! ### The SET items of any line state (R12, R96, R106, R145) -/

theorem isSet_of {c : Command} (code : c.code = 0x60) {item : Nat} (h : itemOf c.args = item) :
    c.isSet item = true := by
  simp [Command.isSet, code, h]

/-- A front SET with the arguments of its item does what its rule says (R177). -/
theorem set_ready {s : State} {c : Command} (ready : s.frontReady c) (code : c.code = 0x60) {item n : Nat}
    (isItem : itemOf c.args = item) (len : c.args.length = n + 1) (effect : List Byte → State → Effect) :
    executeFront (Command.isSet item) (fun args t => withItem item n args (effect args t) t) s =
      settle c (effect c.args s) :=
  itemCommand_ready ready (isSet_of code isItem) isItem len effect

theorem setOperatorMask_judged {s : State} {c : Command} (ready : s.frontReady c) (code : c.code = 0x60)
    (seg mask : Byte) (args : c.args = [3, seg, mask]) :
    (15 < seg.toNat → exec .setOperatorMask s = .next (answered c .range [] s)) ∧
    ∀ g : Fin 16, seg.toNat = g.val →
      exec .setOperatorMask s =
        .next (answered c .done [] { s with composer.operatorMask := s.composer.operatorMask.set g mask }) := by
  have executed := set_ready ready code (item := 3) (n := 2) (by rw [args]; rfl) (by rw [args]; rfl) fun args t =>
    judgeMask (argByte args 1) (args.getD 2 0) t
  rw [args] at executed
  have executed : exec .setOperatorMask s = .next (settle c (judgeMask seg.toNat mask s)) :=
    congrArg Host.Outcome.next executed
  rw [executed]
  refine ⟨fun high => ?_, fun g target => ?_⟩
  · rw [judgeMask, finOf_eq_none (by omega), settle_reply]
  · rw [judgeMask, finOf_eq_some g target, settle_reply]

theorem setDropLimit_judged {s : State} {c : Command} (ready : s.frontReady c) (code : c.code = 0x60)
    (lane limit : Byte) (args : c.args = [4, lane, limit]) :
    (7 < lane.toNat ∨ 128 < limit.toNat → exec .setDropLimit s = .next (answered c .range [] s)) ∧
    ∀ l : Fin 8, lane.toNat = l.val → limit.toNat ≤ 128 →
      exec .setDropLimit s =
        .next (answered c .done [] { s with thread.dropLimit := s.thread.dropLimit.set l limit.toNat }) := by
  have executed := set_ready ready code (item := 4) (n := 2) (by rw [args]; rfl) (by rw [args]; rfl) fun args t =>
    judgeDropLimit (argByte args 1) (argByte args 2) t
  rw [args] at executed
  have executed : exec .setDropLimit s = .next (settle c (judgeDropLimit lane.toNat limit.toNat s)) :=
    congrArg Host.Outcome.next executed
  rw [executed]
  refine ⟨fun outside => ?_, fun l target inRange => ?_⟩
  · have refused : judgeDropLimit lane.toNat limit.toNat s = reply .range s := by
      unfold judgeDropLimit
      split
      · rename_i l target
        have lane : ¬ 7 < lane.toNat := fun high => by
          rw [finOf_eq_none (by omega)] at target
          exact absurd target (by simp)
        rw [if_neg (Nat.not_le.mpr (outside.resolve_left lane))]
      · rfl
    rw [refused, settle_reply]
  · rw [judgeDropLimit, finOf_eq_some l target]
    dsimp only
    rw [if_pos inRange, settle_reply]

theorem setUnderrunLimit_judged {s : State} {c : Command} (ready : s.frontReady c) (code : c.code = 0x60)
    (limit : Byte) (args : c.args = [5, limit]) :
    (limit.toNat = 0 ∨ 15 < limit.toNat → exec .setUnderrunLimit s = .next (answered c .range [] s)) ∧
    (1 ≤ limit.toNat → limit.toNat ≤ 15 →
      exec .setUnderrunLimit s = .next (answered c .done []
        { s with
          strokes.limit := limit.toNat
          strokes.consecutive := if limit.toNat ≤ s.strokes.consecutive then 0 else s.strokes.consecutive })) := by
  have executed := set_ready ready code (item := 5) (n := 1) (by rw [args]; rfl) (by rw [args]; rfl) fun args t =>
    judgeUnderrun (argByte args 1) t
  rw [args] at executed
  have executed : exec .setUnderrunLimit s = .next (settle c (judgeUnderrun limit.toNat s)) :=
    congrArg Host.Outcome.next executed
  rw [executed]
  refine ⟨fun outside => ?_, fun low high => ?_⟩
  · rw [judgeUnderrun, if_pos (by simpa [Nat.lt_one_iff] using outside), settle_reply]
  · rw [judgeUnderrun, if_neg (by simp only [Bool.or_eq_true, decide_eq_true_eq]; omega), settle_reply]

theorem packingOf_code (o : PackingOrder) : packingOf o.code = some o := by cases o <;> rfl

theorem packingOf_outside {b : Nat} (h : 1 < b) : packingOf b = none := by
  rw [packingOf, if_neg (by omega), if_neg (by omega)]

/-- A packing order taken: the partial is kept when the order is as it was (R12). -/
theorem judgePacking_some (o : PackingOrder) (s : State) :
    judgePacking (some o) s =
      reply .done
        { s with store.packing := o, store.assembler := if o = s.store.packing then s.store.assembler else none } := by
  unfold judgePacking
  by_cases same : o = s.store.packing
  · subst same
    simp
  · simp [same]

theorem setPackingOrder_judged {s : State} {c : Command} (ready : s.frontReady c) (code : c.code = 0x60)
    (order : Byte) (args : c.args = [6, order]) :
    (1 < order.toNat → exec .setPackingOrder s = .next (answered c .range [] s)) ∧
    ∀ o : PackingOrder, order.toNat = o.code →
      exec .setPackingOrder s = .next (answered c .done []
        { s with
          store.packing := o
          store.assembler := if o = s.store.packing then s.store.assembler else none }) := by
  have executed := set_ready ready code (item := 6) (n := 1) (by rw [args]; rfl) (by rw [args]; rfl) fun args t =>
    judgePacking (packingOf (argByte args 1)) t
  rw [args] at executed
  have executed : exec .setPackingOrder s = .next (settle c (judgePacking (packingOf order.toNat) s)) :=
    congrArg Host.Outcome.next executed
  rw [executed]
  refine ⟨fun outside => ?_, fun o named => ?_⟩
  · rw [packingOf_outside outside]
    rfl
  · rw [named, packingOf_code, judgePacking_some, settle_reply]

/-- Settles O46, item by item. -/
theorem setMaskLimitsAndPacking : Obligations.SetMaskLimitsAndPacking := fun _ _ ready code =>
  ⟨setOperatorMask_judged ready code, setDropLimit_judged ready code, setUnderrunLimit_judged ready code,
    setPackingOrder_judged ready code⟩

/-! ### The power-on reset (R83) -/

@[simp] theorem reset_lane (l : Fin 8) : State.reset.lane l = LaneContext.blank := by
  simp [State.lane, State.reset]

/-- Settles O3: each block's fields, and each entry of its files, as the reset gives them. -/
theorem powerOnResetValues : Obligations.PowerOnResetValues := by
  intro s
  refine ⟨{ State.reset with pending := s.pending }, rfl, fun m => ?_, rfl, rfl, rfl, reset_lane, rfl, rfl, rfl,
    fun g => ?_, rfl, rfl, rfl, rfl, rfl, rfl, fun l => ?_, rfl, rfl, rfl, rfl, rfl, rfl, rfl, rfl⟩
  · simp [State.reset, DirEntry.blank]
  · simp [State.reset]
  · simp [State.reset]

/-! ### The laws in the state after reset -/

theorem reset_programLaw : ProgramLaw State.reset where
  staging _ held := absurd held (by simp [State.reset])
  waiting _ held := absurd held (by simp [State.reset])
  onLine _ held := absurd held (by simp [State.reset, State.linePanel])

theorem reset_lineLaw : LineLaw State.reset where
  role := rfl
  noPending _ := rfl
  position sews := absurd sews (by decide)
  noPosition _ := rfl
  seam feeds := absurd feeds (by decide)
  noSeam _ := rfl
  lanes l := by
    have unassigned : State.reset.assigned l = false := rfl
    simp [State.laneFits, unassigned, LaneContext.blank]

theorem reset_laneLaw : LaneLaw State.reset where
  motifs l placed := absurd placed (by simp [LaneContext.blank, LaneState.placed])
  standing l evaluated := absurd evaluated (by simp [LaneContext.blank, LaneState.dropEvaluated])
  passes l := by simp [LaneContext.blank]

theorem reset_loopLaw : LoopLaw State.reset where
  reserved := rfl
  claim := rfl
  looped inLoop := absurd inLoop (by decide)
  busy looptest := absurd looptest (by decide)
  front looptest := absurd looptest (by decide)
  waiting _ := .inl rfl
  clear _ := rfl
  count := by decide
  slots _ inLoop := absurd inLoop (by simp [State.reset])

theorem reset_queueLaw : QueueLaw State.reset where
  strokes := Nat.zero_le _
  noStroke _ := rfl
  markers := Nat.zero_le _
  commands := Nat.zero_le _
  oneRead := Nat.zero_le _
  answers := Nat.zero_le _
  defects := Nat.zero_le _
  distinct := .nil

theorem reset_countLaw : CountLaw State.reset where
  limit := by decide
  consecutive := by decide
  total := Nat.zero_le _
  errors := Nat.zero_le _
  breaks := Nat.zero_le _
  drops l := by simp [State.reset]

theorem reset_segmentLaw : SegmentLaw State.reset where
  counts g := by simp [State.reset, Segment.wf]
  off g := by simp [State.reset]

theorem reset_rethreadLaw : RethreadLaw State.reset := by
  intro g
  simp [State.reset]

theorem reset_linkLaw : LinkLaw State.reset where
  inBreak := by decide
  held _ := rfl
  cell _ inCell := absurd inCell (by simp [State.reset])
  free _ := ⟨rfl, rfl⟩

/-- Settles O60, law by law. -/
theorem lawsHoldAtReset : Obligations.LawsHoldAtReset :=
  ⟨reset_storeLaw, reset_counted, reset_programLaw, reset_lineLaw, reset_laneLaw, reset_loopLaw, reset_queueLaw,
    reset_countLaw, reset_segmentLaw, reset_rethreadLaw, reset_linkLaw⟩

end Sys2Proof.Machine
end

section
/-! The READ items: what each answers, field by field as its layout gives it (R179 to R191). -/

namespace Sys2Proof.Machine

open Sys2Proof

theorem isRead_of {c : Command} (code : c.code = 0x61) {item : Nat} (h : itemOf c.args = item) :
    c.isRead item = true := by
  simp [Command.isRead, code, h]

/-- A front READ with the arguments of its item does what its rule says (R179). -/
theorem read_ready {s : State} {c : Command} (ready : s.frontReady c) (code : c.code = 0x61) {item n : Nat}
    (isItem : itemOf c.args = item) (len : c.args.length = n + 1) (effect : List Byte → State → Effect) :
    executeFront (Command.isRead item) (fun args t => withItem item n args (effect args t) t) s =
      settle c (effect c.args s) :=
  itemCommand_ready ready (isRead_of code isItem) isItem len effect

/-! ### READ LINE (R86, R188) -/

theorem lineData_length (s : State) : s.lineData.length = 11 := rfl

/-- The panel tag sent, 0 without a line program (R188). -/
theorem lineTag_eq (s : State) :
    ((s.linePanel.map PanelProgram.tag).getD 0).toNat = (s.line.program.map fun q => q.panel.tag.toNat).getD 0 := by
  unfold State.linePanel
  cases s.line.program <;> rfl

theorem lineData_eq (s : State) :
    s.lineData =
      [s.line.state.statusByte,
       BitVec.ofNat 8 (s.link.breakState.toNat + 2 * roleCode (s.line.program.map LineProgram.role))] ++
        le16 s.line.serial.toNat ++ le16 ((s.line.program.map fun q => q.panel.tag.toNat).getD 0) ++
        le16 s.line.position ++ le16 s.line.seam ++ [BitVec.ofNat 8 s.strokes.consecutive] := by
  rw [State.lineData, lineTag_eq]
  rfl

/-- The code of each role (R185). -/
theorem roleCode_listed :
    ∀ x ∈ ([(none, 0), (some .active, 1), (some .incoming, 2)] : List (Option Role × Nat)), roleCode x.1 = x.2 := by
  decide

/-- The status byte of each line state (R163). -/
theorem statusByte_listed :
    ∀ x ∈ ([(.idle, 0x00), (.running, 0x01), (.changeover, 0x02), (.looptest, 0x04),
      (.halted .linkBreak .running, 0x2B), (.halted .underrun .running, 0x33), (.halted .command .running, 0x3B),
      (.halted .linkBreak .changeover, 0x4B), (.halted .underrun .changeover, 0x53),
      (.halted .command .changeover, 0x5B)] : List (LineState × Byte)), x.1.statusByte = x.2 := by
  decide

/-! ### READ DEFECTS (R144, R191) -/

theorem defectsData_length (defects : List Defect) : (defectsData defects).length = 14 := by
  cases defects with
  | nil => rfl
  | cons d rest => simp [defectsData]

theorem defectsData_cons (d : Defect) (rest : List Defect) :
    defectsData (d :: rest) = BitVec.ofNat 8 (rest.length + 1) :: d.fields := by
  simp [defectsData, Defect.bytes_eq_fields, byteOf]

/-! ### READ ASSEMBLER (R20, R190) -/

theorem assemblerData_length (st : Store) : st.assemblerData.length = 9 := by
  unfold Store.assemblerData
  split <;> rfl

/-- The code of each packing order (R177). -/
theorem packingCode_listed :
    ∀ x ∈ ([(.highFirst, 0), (.lowFirst, 1)] : List (PackingOrder × Nat)), x.1.code = x.2 := by
  decide

theorem assemblerData_empty {st : Store} (h : st.assembler = none) :
    st.assemblerData = [BitVec.ofNat 8 (2 * st.packing.code), 0, 0, 0, 0, 0, 0, 0, 0] := by
  rw [Store.assemblerData, h]
  rfl

theorem assemblerData_one {st : Store} {m : Fin 64} {index : Nat} {f0 : BitVec 16}
    (h : st.assembler = some { motif := m, index := index, fragment0 := f0, fragment1 := none }) :
    st.assemblerData =
      [BitVec.ofNat 8 (1 + 2 * st.packing.code), BitVec.ofNat 8 m.val] ++ le16 index ++ [1] ++ le16 f0.toNat ++
        [0, 0] := by
  simp [Store.assemblerData, h, byteOf, le16]

theorem assemblerData_two {st : Store} {m : Fin 64} {index : Nat} {f0 f1 : BitVec 16}
    (h : st.assembler = some { motif := m, index := index, fragment0 := f0, fragment1 := some f1 }) :
    st.assemblerData =
      [BitVec.ofNat 8 (1 + 2 * st.packing.code), BitVec.ofNat 8 m.val] ++ le16 index ++ [2] ++ le16 f0.toNat ++
        le16 f1.toNat := by
  rw [Store.assemblerData, h]
  rfl

/-- Settles O47, item by item: each answer from the layout of its data. -/
theorem readsWithoutArguments : Obligations.ReadsWithoutArguments := by
  intro s c ready code
  have answers {item : Nat} (args : c.args = [BitVec.ofNat 8 item]) (known : (BitVec.ofNat 8 item).toNat = item)
      (effect : State → Effect) :
      executeFront (Command.isRead item) (fun args t => withItem item 0 args (effect t) t) s = settle c (effect s) :=
    read_ready ready code (by rw [args]; exact known) (by rw [args]; rfl) fun _ t => effect t
  refine ⟨fun args => ⟨lineData_length s, fun x listed role => ?_, statusByte_listed, ?_⟩,
    fun args => ⟨defectsData_length _, fun none => ?_, fun d rest held => ?_, ?_⟩, fun args => ?_, fun args => ?_,
    fun args => ⟨assemblerData_length _, fun x listed packing => ⟨fun empty => ?_, fun m index f0 held => ?_,
      fun m index f0 f1 held => ?_⟩, ?_⟩⟩
  · rw [lineData_eq, role, roleCode_listed x listed]
  · exact congrArg Host.Outcome.next (answers (item := 1) args rfl fun t => replyWith .done t.lineData t)
  · rw [none]
    rfl
  · rw [held, defectsData_cons]
  · exact congrArg Host.Outcome.next
      (answers (item := 7) args rfl fun t => replyWith .done (defectsData t.thread.defects) t)
  · rw [← Latches.bytes_eq]
    exact congrArg Host.Outcome.next (answers (item := 8) args rfl fun t =>
      replyWith .done (le16 t.mgmt.latches.word) { t with mgmt.latches := Latches.clear })
  · exact congrArg Host.Outcome.next (answers (item := 9) args rfl fun t => replyWith .done t.countsData t)
  · rw [assemblerData_empty empty, packing, packingCode_listed x listed]
  · rw [assemblerData_one held, packing, packingCode_listed x listed]
  · rw [assemblerData_two held, packing, packingCode_listed x listed]
  · exact congrArg Host.Outcome.next (answers (item := 11) args rfl fun t => replyWith .done t.store.assemblerData t)

/-! ### READ LANE (R64, R188) -/

/-- State and cause of a lane in the low bits of its byte (R185). -/
theorem laneStateCode_listed :
    ∀ x ∈ ([(.vacant, 0x00), (.standby, 0x01), (.sewing, 0x02), (.held, 0x03), (.finished, 0x04),
      (.stopped .command, 0x0D), (.stopped .drop, 0x15), (.stopped .loopFault, 0x1D)] : List (LaneState × Nat)),
      x.1.code + 8 * x.1.causeCode = x.2 := by
  decide

theorem laneData_eq (c : LaneContext) :
    c.data =
      [BitVec.ofNat 8 (c.state.code + 8 * c.state.causeCode + 32 * c.lockOdd.toNat + 64 * c.loopAllowed.toNat),
       BitVec.ofNat 8 c.motif.val, BitVec.ofNat 8 c.scale.factor] ++
        le16 c.recordIndex ++ le16 (c.fromLateral.signExtend 16).toNat ++ le16 c.leftInStep ++
        le16 (c.currentLateral.signExtend 16).toNat ++
        [BitVec.ofNat 8 c.tension.toNat, BitVec.ofNat 8 c.loopPasses, c.engage] := rfl

/-! ### READ SEGMENT (R126, R189) -/

/-- The code of each segment state (R185). -/
theorem segmentStateCode_listed :
    ∀ x ∈ ([(.off, 0), (.online, 1), (.suspect, 2), (.lost, 3)] : List (SegmentState × Nat)), x.1.code = x.2 := by
  decide

/-- The byte whose bit p says whether position p of a segment passes a test. -/
def presenceByte (test : Presence → Bool) (presence : Vector Presence 8) : Byte :=
  byteOf (bitsToNat (presence.toList.map test))

theorem presenceByte_getLsbD (test : Presence → Bool) (presence : Vector Presence 8) (p : Fin 8) :
    (presenceByte test presence).getLsbD p = test presence[p] := by
  rw [presenceByte, byteOf, BitVec.getLsbD_ofNat, bitsToNat_testBit]
  simp [List.getD_eq_getElem?_getD]

theorem segmentData_eq (s : State) (g : Fin 16) :
    s.segmentData g =
      [BitVec.ofNat 8 (s.head.segments[g].state.code + 4 * s.head.segments[g].badReturns +
          16 * s.thread.bobbinLow[g].toNat),
       BitVec.ofNat 8 ((s.composer.laneMap[g].map Fin.val).getD 8)] ++
        le16 (s.composer.lastLateral[g].signExtend 16).toNat ++
        [s.composer.operatorMask[g], presenceByte (fun v => decide (v ≠ .unknown)) s.thread.presence[g],
         presenceByte (fun v => decide (v = .present)) s.thread.presence[g], s.thread.faultMask[g],
         s.thread.rethread[g]] := by
  rw [← laneCode_eq]
  rfl

/-! ### READ MOTIF and READ RECORD (R18, R19, R189) -/

theorem dirEntryData_eq (e : DirEntry) :
    e.data =
      [BitVec.ofNat 8 (e.defined.toNat + 2 * e.loopIndex.isSome.toNat), BitVec.ofNat 8 e.firstPage,
       BitVec.ofNat 8 e.pageCount] ++ le16 e.length ++ le16 (e.loopIndex.getD 0) ++ [BitVec.ofNat 8 e.inUse] := rfl

theorem markCode_byte (code : BitVec 5) : code.setWidth 8 = BitVec.ofNat 8 code.toNat := by
  apply BitVec.eq_of_toNat_eq
  rw [BitVec.toNat_setWidth, BitVec.toNat_ofNat]

/-- The checks of R19 on a motif of the directory, with the index in range. -/
theorem judgeReadRecord_of {m : Fin 64} {motif index : Nat} (target : motif = m.val) (inRange : index ≤ 8191)
    (s : State) :
    judgeReadRecord motif index s =
      if !s.store.directory[m].defined then reply .notDefined s
      else if s.store.directory[m].length ≤ index then reply .range s
      else replyWith .done (s.store.recordAt m index).data s := by
  rw [judgeReadRecord, finOf_eq_some m target]
  exact if_neg (Nat.not_lt.mpr inRange)

theorem judgeReadRecord_outside {motif index : Nat} (outside : 63 < motif ∨ 8191 < index) (s : State) :
    judgeReadRecord motif index s = reply .range s := by
  unfold judgeReadRecord
  split
  · rfl
  · rename_i m target
    have inside : ¬ 63 < motif := fun high => by
      rw [finOf_eq_none (by omega)] at target
      exact absurd target (by simp)
    rw [if_pos (outside.resolve_left inside)]

/-! ### READ PANEL (R35, R36, R190) -/

/-- Bits 1:0 of a selector. -/
theorem selector_program (selector : Byte) : (selector.extractLsb' 0 2).toNat = selector.toNat % 4 := by
  simp

/-- Bit 7 of a selector. -/
theorem selector_entry (selector : Byte) : selector.getLsbD 7 = decide (128 ≤ selector.toNat) := by
  have := selector.isLt
  rw [BitVec.getLsbD, Nat.testBit_eq_decide_div_mod_eq, decide_eq_decide]
  omega

/-- The programs a selector names, with their roles: the line program, the pending panel, the staging buffer (R186). -/
def State.readablePrograms (s : State) : List (Nat × Option PanelProgram × Option Role) :=
  [(0, s.linePanel, s.line.program.map LineProgram.role), (1, s.stager.pendingPanel, none), (2, s.stager.staging, none)]

/-- What READ PANEL does with the program its selector names. -/
theorem judgeReadPanel_named {s : State} {selector : Byte} {x : Nat × Option PanelProgram × Option Role}
    (listed : x ∈ s.readablePrograms) (named : selector.toNat % 4 = x.1) (entry : Byte) :
    judgeReadPanel selector entry s =
      readProgram x.2.2 x.2.1 (if 128 ≤ selector.toNat then some entry.toNat else none) s := by
  simp only [State.readablePrograms, List.mem_cons, List.not_mem_nil, or_false] at listed
  rw [judgeReadPanel, selector_program, selector_entry]
  rcases listed with rfl | rfl | rfl <;> simp [named]

theorem judgeReadPanel_unnamed {selector : Byte} (unnamed : selector.toNat % 4 = 3) (entry : Byte) (s : State) :
    judgeReadPanel selector entry s = reply .range s := by
  rw [judgeReadPanel, selector_program, unnamed]
  rfl

/-- An entry READ PANEL refuses: above 7, or beyond the assignments (R36). -/
theorem readProgram_outside {role : Option Role} {p : PanelProgram} {e : Nat}
    (outside : 7 < e ∨ p.assignments.length ≤ e) (s : State) :
    readProgram role (some p) (some e) s = reply .range s := by
  simp only [readProgram]
  split
  · rename_i a held
    have inside : ¬ p.assignments.length ≤ e := fun beyond => by
      rw [List.getElem?_eq_none beyond] at held
      exact absurd held (by simp)
    rw [if_neg (Nat.not_le.mpr (outside.resolve_right inside))]
  · rfl

theorem readProgram_inside {role : Option Role} {p : PanelProgram} {e : Nat} {a : Assignment} (inside : e ≤ 7)
    (held : p.assignments[e]? = some a) (s : State) :
    readProgram role (some p) (some e) s = replyWith .done a.data s := by
  simp only [readProgram, held, if_pos inside]

theorem headerData_eq (p : PanelProgram) (role : Option Role) :
    p.headerData role =
      [BitVec.ofNat 8 (roleCode role + 4 * p.repeats.toNat)] ++ le16 p.tag.toNat ++ le16 p.length ++ le16 p.seamGap ++
        [BitVec.ofNat 8 p.assignments.length] := rfl

/-! ### READ CONFIG (R180, R190) -/

/-- Part 0 in its layout: three bytes, the lane map in pairs of segments, the drop limits (R190). -/
theorem configData0_eq (s : State) :
    s.configData0 =
      [BitVec.ofNat 8 s.head.segmentCount, BitVec.ofNat 8 s.strokes.limit, BitVec.ofNat 8 s.store.packing.code] ++
        (((List.finRange 8).map fun j =>
          byteOf (laneCode s.composer.laneMap[2 * j.val] + 16 * laneCode s.composer.laneMap[2 * j.val + 1])) ++
        s.thread.dropLimit.toList.map byteOf) := by
  rw [State.configData0, laneMapData_eq, List.append_assoc]
  rfl

theorem configData0_length (s : State) : s.configData0.length = 19 := by
  simp [configData0_eq]

theorem configData0_lanes (s : State) (j : Fin 8) {g h : Fin 16} (even : g.val = 2 * j.val)
    (odd : h.val = 2 * j.val + 1) :
    s.configData0[3 + j.val]? = some (BitVec.ofNat 8
      ((s.composer.laneMap[g].map Fin.val).getD 8 + 16 * (s.composer.laneMap[h].map Fin.val).getD 8)) := by
  have index : 3 + j.val - 3 = j.val := by omega
  rw [configData0_eq, List.getElem?_append_right (by simp), List.length_cons, List.length_cons, List.length_singleton,
    index, List.getElem?_append_left (by simp)]
  simp [laneCode_eq, byteOf, even, odd]

theorem configData0_drops (s : State) (l : Fin 8) :
    s.configData0[11 + l.val]? = some (BitVec.ofNat 8 s.thread.dropLimit[l]) := by
  have index : 11 + l.val - 3 - 8 = l.val := by omega
  rw [configData0_eq, List.getElem?_append_right (by simp; omega), List.getElem?_append_right (by simp; omega)]
  simp [index, byteOf]

theorem configData1_getElem? (s : State) (g : Fin 16) : s.configData1[g.val]? = some s.composer.operatorMask[g] := by
  simp [State.configData1]

/-! ### The READ items with arguments at their rows -/

section

variable {s : State} {c : Command}

theorem exec_readLane (ready : s.frontReady c) (code : c.code = 0x61) {n : Byte} (args : c.args = [2, n]) :
    exec .readLane s = .next (settle c (judgeReadLane n.toNat s)) := by
  have executed := read_ready ready code (item := 2) (n := 1) (by rw [args]; rfl) (by rw [args]; rfl) fun args t =>
    judgeReadLane (argByte args 1) t
  rw [args] at executed
  exact congrArg Host.Outcome.next executed

theorem exec_readSegment (ready : s.frontReady c) (code : c.code = 0x61) {n : Byte} (args : c.args = [3, n]) :
    exec .readSegment s = .next (settle c (judgeReadSegment n.toNat s)) := by
  have executed := read_ready ready code (item := 3) (n := 1) (by rw [args]; rfl) (by rw [args]; rfl) fun args t =>
    judgeReadSegment (argByte args 1) t
  rw [args] at executed
  exact congrArg Host.Outcome.next executed

theorem exec_readMotif (ready : s.frontReady c) (code : c.code = 0x61) {n : Byte} (args : c.args = [4, n]) :
    exec .readMotif s = .next (settle c (judgeReadMotif n.toNat s)) := by
  have executed := read_ready ready code (item := 4) (n := 1) (by rw [args]; rfl) (by rw [args]; rfl) fun args t =>
    judgeReadMotif (argByte args 1) t
  rw [args] at executed
  exact congrArg Host.Outcome.next executed

theorem exec_readRecord (ready : s.frontReady c) (code : c.code = 0x61) {n low high : Byte}
    (args : c.args = [5, n, low, high]) :
    exec .readRecord s = .next (settle c (judgeReadRecord n.toNat (wordOf low high) s)) := by
  have executed := read_ready ready code (item := 5) (n := 3) (by rw [args]; rfl) (by rw [args]; rfl) fun args t =>
    judgeReadRecord (argByte args 1) (argWord args 2) t
  rw [args] at executed
  exact congrArg Host.Outcome.next executed

theorem exec_readPanel (ready : s.frontReady c) (code : c.code = 0x61) {selector entry : Byte}
    (args : c.args = [6, selector, entry]) :
    exec .readPanel s = .next (settle c (judgeReadPanel selector entry s)) := by
  have executed := read_ready ready code (item := 6) (n := 2) (by rw [args]; rfl) (by rw [args]; rfl) fun args t =>
    judgeReadPanel (args.getD 1 0) (args.getD 2 0) t
  rw [args] at executed
  exact congrArg Host.Outcome.next executed

theorem exec_readConfig (ready : s.frontReady c) (code : c.code = 0x61) {part : Byte} (args : c.args = [10, part]) :
    exec .readConfig s = .next (settle c (judgeReadConfig part.toNat s)) := by
  have executed := read_ready ready code (item := 10) (n := 1) (by rw [args]; rfl) (by rw [args]; rfl) fun args t =>
    judgeReadConfig (argByte args 1) t
  rw [args] at executed
  exact congrArg Host.Outcome.next executed

end

theorem judgeReadConfig_outside {part : Nat} (h : 1 < part) (s : State) : judgeReadConfig part s = reply .range s := by
  unfold judgeReadConfig
  split
  · omega
  · omega
  · rfl

/-- Settles O48, item by item: each refusal from the item's checks, each answer from the layout of its data. -/
theorem readsWithArguments : Obligations.ReadsWithArguments := by
  intro s c ready code
  refine ⟨fun n args => ?_, fun n args => ?_, fun n args => ?_, fun n low high args => ?_,
    ⟨rfl, fun _ _ _ => rfl, fun _ _ _ _ => rfl, fun _ _ => rfl, fun _ _ _ _ => rfl, fun mark => ?_⟩,
    fun selector entry args => ?_, fun p a => ⟨fun x listed => ?_, rfl⟩, fun part args => ?_⟩
  · rw [exec_readLane ready code args]
    refine ⟨fun high => ?_, fun l target => ⟨rfl, fun x listed state => ?_, ?_⟩⟩
    · rw [judgeReadLane, finOf_eq_none (by omega), settle_reply]
    · rw [laneData_eq, state, laneStateCode_listed x listed]
    · rw [judgeReadLane, finOf_eq_some l target, settle_replyWith]
  · rw [exec_readSegment ready code args]
    refine ⟨fun high => ?_, fun g target => ⟨rfl, fun x listed state => ?_, ?_⟩⟩
    · rw [judgeReadSegment, finOf_eq_none (by omega), settle_reply]
    · refine ⟨_, _, fun p => ⟨?_, ?_⟩, by rw [segmentData_eq, state, segmentStateCode_listed x listed]⟩
      · rw [presenceByte_getLsbD, decide_eq_true_eq]
      · rw [presenceByte_getLsbD, decide_eq_true_eq]
    · rw [judgeReadSegment, finOf_eq_some g target, settle_replyWith]
  · rw [exec_readMotif ready code args]
    refine ⟨fun high => ?_, fun m target => ⟨rfl, dirEntryData_eq _, ?_⟩⟩
    · rw [judgeReadMotif, finOf_eq_none (by omega), settle_reply]
    · rw [judgeReadMotif, finOf_eq_some m target, settle_replyWith]
  · rw [exec_readRecord ready code args]
    refine ⟨fun outside => ?_, fun m target inRange => ?_⟩
    · rw [judgeReadRecord_outside outside, settle_reply]
    · rw [judgeReadRecord_of target inRange]
      refine ⟨fun undefined => ?_, fun defined past => ?_, fun defined below => ⟨Record.data_length _, ?_⟩⟩
      · rw [undefined]
        rfl
      · rw [defined, if_neg (by simp), if_pos past, settle_reply]
      · rw [defined, if_neg (by simp), if_neg (Nat.not_le.mpr below), settle_replyWith]
  · rw [Record.data, markCode_byte]
  · rw [exec_readPanel ready code args]
    refine ⟨fun unnamed => ?_, fun x listed named => ?_⟩
    · rw [judgeReadPanel_unnamed unnamed, settle_reply]
    · rw [judgeReadPanel_named listed named]
      refine ⟨fun none => ?_, fun p held => ⟨fun header => ?_, fun wants outside => ?_, fun wants inside a entered => ?_⟩⟩
      · rw [none]
        rfl
      · rw [held, if_neg (Nat.not_le.mpr header)]
        rfl
      · rw [held, if_pos wants, readProgram_outside outside, settle_reply]
      · rw [held, if_pos wants, readProgram_inside inside entered, settle_replyWith]
  · rw [headerData_eq, roleCode_listed x listed]
  · rw [exec_readConfig ready code args]
    refine ⟨fun outside => ?_, ?_, ?_⟩
    · rw [judgeReadConfig_outside outside, settle_reply]
    · rintro rfl
      refine ⟨configData0_length s, rfl, rfl, ?_, fun j g h even odd => configData0_lanes s j even odd,
        configData0_drops s, rfl⟩
      rw [configData0_eq]
      cases s.store.packing <;> rfl
    · rintro rfl
      exact ⟨by simp [State.configData1], configData1_getElem? s, rfl⟩

end Sys2Proof.Machine
end

section
/-! The staging commands (chapter 2), judged on the arguments their cells carry: PANEL_BEGIN, PANEL_LANE, PANEL_COMMIT and
PANEL_DISCARD. -/

namespace Sys2Proof.Machine

open Sys2Proof

/-! ### Argument fields (R160, R185, R186) -/

/-- The 16 bits of a two-byte argument, the high byte first. -/
theorem ofNat_wordOf (low high : Byte) : BitVec.ofNat 16 (wordOf low high) = high ++ low := by
  have lowLt := low.isLt
  have highLt := high.isLt
  apply BitVec.eq_of_toNat_eq
  rw [wordOf, BitVec.toNat_ofNat, BitVec.toNat_append, ← Nat.shiftLeft_add_eq_or_of_lt lowLt, Nat.shiftLeft_eq]
  omega

theorem argWord_le (args : List Byte) (i : Nat) : argWord args i ≤ 65535 := by
  have low := (args.getD i 0).isLt
  have high := (args.getD (i + 1) 0).isLt
  simp only [argWord, argByte]
  omega

theorem yesNo_byte {b : Byte} (h : b = 0 ∨ b = 1) : yesNo b.toNat = some (decide (b = 1)) := by
  rcases h with rfl | rfl <;> rfl

theorem yesNo_outside {b : Byte} (h : b ≠ 0 ∧ b ≠ 1) : yesNo b.toNat = none := by
  have zero : b.toNat ≠ 0 := fun e => h.1 (BitVec.eq_of_toNat_eq e)
  have one : b.toNat ≠ 1 := fun e => h.2 (BitVec.eq_of_toNat_eq e)
  rw [yesNo, if_neg zero, if_neg one]

theorem scaleOf_factor (x : Scale) : scaleOf x.factor = some x := by cases x <;> rfl

theorem scaleOf_outside {b : Byte} (h : b ∉ ([1, 2, 4, 8] : List Byte)) : scaleOf b.toNat = none := by
  have other (n : Byte) (listed : n ∈ ([1, 2, 4, 8] : List Byte)) : b.toNat ≠ n.toNat :=
    fun e => h (BitVec.eq_of_toNat_eq e ▸ listed)
  have one : b.toNat ≠ 1 := other 1 (by decide)
  have two : b.toNat ≠ 2 := other 2 (by decide)
  have four : b.toNat ≠ 4 := other 4 (by decide)
  have eight : b.toNat ≠ 8 := other 8 (by decide)
  rw [scaleOf, if_neg one, if_neg two, if_neg four, if_neg eight]

/-! ### PANEL_BEGIN (R24) -/

theorem exec_panelBegin {s : State} {c : Command} {tag0 tag1 len0 len1 gap0 gap1 rep : Byte} (ready : s.frontReady c)
    (code : c.code = 0x10) (args : c.args = [tag0, tag1, len0, len1, gap0, gap1, rep]) :
    exec .panelBegin s = .next (settle c (judgeBegin (BitVec.ofNat 16 (wordOf tag0 tag1)) (wordOf len0 len1)
      (wordOf gap0 gap1) (yesNo rep.toNat) s)) := by
  have executed := lengthCommand_ready ready (hasCode_of code) (n := 7) (by rw [args]; rfl) fun args t =>
    judgeBegin (BitVec.ofNat 16 (argWord args 0)) (argWord args 2) (argWord args 4) (yesNo (argByte args 6)) t
  rw [args] at executed
  exact congrArg Host.Outcome.next executed

theorem judgeBegin_header {length seamGap : Nat} (h : length = 0 ∨ 4095 < seamGap) (tag : Serial)
    (repeats : Option Bool) (s : State) : judgeBegin tag length seamGap repeats s = reply .range s := by
  cases repeats with
  | none => rfl
  | some r => exact if_pos (by simpa using h)

theorem judgeBegin_opens {length seamGap : Nat} (hlength : length ≠ 0) (hgap : seamGap ≤ 4095) (tag : Serial)
    (repeats : Bool) (s : State) :
    judgeBegin tag length seamGap (some repeats) s =
      reply .done
        { s with
          stager.staging :=
            some { tag := tag, length := length, seamGap := seamGap, repeats := repeats, assignments := [] } } :=
  if_neg (by simpa using ⟨hlength, hgap⟩)

/-- Settles O33, by the checks of R24. -/
theorem panelBeginOpensBuffer : Obligations.PanelBeginOpensBuffer := by
  intro s c tag0 tag1 len0 len1 gap0 gap1 rep ready code args
  rw [exec_panelBegin ready code args]
  refine ⟨fun refused => ?_, fun hlength hgap hrep => ?_⟩
  · rcases refused with length | gap | repeats
    · rw [judgeBegin_header (.inl length), settle_reply]
    · rw [judgeBegin_header (.inr gap), settle_reply]
    · rw [yesNo_outside repeats]
      rfl
  · rw [yesNo_byte hrep, judgeBegin_opens hlength hgap, settle_reply, ofNat_wordOf]

/-! ### PANEL_LANE (R25) -/

theorem exec_panelLane {s : State} {c : Command} {args : List Byte} (ready : s.frontReady c) (code : c.code = 0x11)
    (args_eq : c.args = args) (len : args.length = 7) :
    exec .panelLane s = .next (settle c (judgeLane (assignmentArgument args) s)) := by
  have executed := lengthCommand_ready ready (hasCode_of code) (n := 7) (by rw [args_eq, len]) fun args t =>
    judgeLane (assignmentArgument args) t
  rw [args_eq] at executed
  exact congrArg Host.Outcome.next executed

/-- The assignment whose fields the seven argument bytes spell (R22, R186). -/
theorem assignmentArgument_of {lane motif scale off0 off1 loop tension : Byte} {l : Fin 8} {m : Fin 64} {x : Scale}
    (hlane : lane.toNat = l.val) (hmotif : motif.toNat = m.val) (hscale : scale.toNat = x.factor)
    (hloop : loop = 0 ∨ loop = 1) (htension : tension.toNat ≤ 15) :
    assignmentArgument [lane, motif, scale, off0, off1, loop, tension] =
      some { lane := l, motif := m, scale := x, startOffset := wordOf off0 off1, loopAllowed := decide (loop = 1),
             tension := tension.extractLsb' 0 4 } := by
  have bits : BitVec.ofNat 4 tension.toNat = tension.extractLsb' 0 4 := by
    apply BitVec.eq_of_toNat_eq
    simp
  have found : finOf 8 lane.toNat = some l ∧ finOf 64 motif.toNat = some m ∧ scaleOf scale.toNat = some x ∧
      yesNo loop.toNat = some (decide (loop = 1)) :=
    ⟨finOf_eq_some l hlane, finOf_eq_some m hmotif, hscale ▸ scaleOf_factor x, yesNo_byte hloop⟩
  obtain ⟨foundLane, foundMotif, foundScale, foundLoop⟩ := found
  simp only [assignmentArgument, argByte, argWord, wordOf, List.getD_cons_zero, List.getD_cons_succ, foundLane,
    foundMotif, foundScale, foundLoop, if_pos htension, bits]

/-- A field outside its values spells no assignment (R25). -/
theorem assignmentArgument_outside {lane motif scale off0 off1 loop tension : Byte}
    (h : 7 < lane.toNat ∨ 63 < motif.toNat ∨ scale ∉ ([1, 2, 4, 8] : List Byte) ∨ (loop ≠ 0 ∧ loop ≠ 1) ∨
      15 < tension.toNat) :
    assignmentArgument [lane, motif, scale, off0, off1, loop, tension] = none := by
  simp only [assignmentArgument, argByte, List.getD_cons_zero, List.getD_cons_succ]
  split
  · rename_i foundLane foundMotif foundScale foundLoop
    rcases h with lane | motif | scale | loop | tension
    · rw [finOf_eq_none lane] at foundLane
      exact absurd foundLane (by simp)
    · rw [finOf_eq_none motif] at foundMotif
      exact absurd foundMotif (by simp)
    · rw [scaleOf_outside scale] at foundScale
      exact absurd foundScale (by simp)
    · rw [yesNo_outside loop] at foundLoop
      exact absurd foundLoop (by simp)
    · exact if_neg (Nat.not_le.mpr tension)
  · rfl

theorem judgeLane_full {s : State} {p : PanelProgram} (holding : s.stager.staging = some p)
    (full : 8 ≤ p.assignments.length) (a : Option Assignment) : judgeLane a s = reply .range s := by
  unfold judgeLane
  rw [holding]
  cases a with
  | none => rfl
  | some a => exact if_neg (Nat.not_lt.mpr full)

theorem judgeLane_appends {s : State} {p : PanelProgram} (holding : s.stager.staging = some p)
    (room : p.assignments.length < 8) (a : Assignment) :
    judgeLane (some a) s =
      reply .done { s with stager.staging := some { p with assignments := p.assignments ++ [a] } } := by
  unfold judgeLane
  rw [holding]
  exact if_pos room

/-- Settles O34, by the checks of R25. -/
theorem panelLaneAppends : Obligations.PanelLaneAppends := by
  intro s c lane motif scale off0 off1 loop tension ready code args
  rw [exec_panelLane ready code args rfl]
  refine ⟨fun empty => ?_, fun p holding => ⟨fun refused => ?_, fun l m x hlane hmotif hscale hloop htension room => ?_⟩⟩
  · rw [judgeLane, empty, settle_reply]
  · by_cases full : 8 ≤ p.assignments.length
    · rw [judgeLane_full holding full, settle_reply]
    · have outside : assignmentArgument [lane, motif, scale, off0, off1, loop, tension] = none :=
        assignmentArgument_outside (by simpa [full] using refused)
      rw [outside, judgeLane, holding, settle_reply]
  · rw [assignmentArgument_of hlane hmotif hscale hloop htension, judgeLane_appends holding room, settle_reply]

/-! ### Validation (R27) -/

theorem mapped_iff (s : State) (l : Fin 8) :
    (List.finRange 16).any (s.servesLane l) = true ↔ ∃ g : Fin 16, s.servesLane l g = true := by
  simp

/-- An assignment fails no check exactly when it passes the three of R27. -/
theorem assignmentFailure_none_iff (s : State) (earlier : List Assignment) (a : Assignment) :
    assignmentFailure s earlier a = none ↔ s.entryPasses earlier a := by
  unfold assignmentFailure State.entryPasses
  rw [← mapped_iff]
  cases s.store.directory[a.motif].defined <;> cases (List.finRange 16).any (s.servesLane a.lane) <;> simp

/-- The reason an assignment fails by is that of its first failing check (R27, R185). -/
theorem assignmentFailure_reason {s : State} {earlier : List Assignment} {a : Assignment}
    (fails : ¬ s.entryPasses earlier a) :
    ∃ reason, assignmentFailure s earlier a = some reason ∧ reason.code = refusalReason s a := by
  rw [← assignmentFailure_none_iff] at fails
  unfold assignmentFailure refusalReason at *
  cases defined : s.store.directory[a.motif].defined with
  | false => exact ⟨.undefinedMotif, rfl, rfl⟩
  | true =>
    cases mapped : (List.finRange 16).any (s.servesLane a.lane) with
    | false => exact ⟨.unmappedLane, rfl, rfl⟩
    | true =>
      rw [defined, mapped] at fails
      cases duplicate : earlier.any fun b => decide (b.lane = a.lane) with
      | false => exact absurd (by rw [duplicate]; rfl) fails
      | true => exact ⟨.duplicateLane, rfl, rfl⟩

/-- An entry that passes is left behind (R27). -/
theorem firstFailure_passes {s : State} {earlier : List Assignment} {a : Assignment} (passes : s.entryPasses earlier a)
    (rest : List Assignment) : firstFailure s earlier (a :: rest) = firstFailure s (earlier ++ [a]) rest := by
  rw [firstFailure, (assignmentFailure_none_iff s earlier a).mpr passes]

theorem firstFailure_fails {s : State} {earlier : List Assignment} {a : Assignment} {reason : InvalidReason}
    (fails : assignmentFailure s earlier a = some reason) (rest : List Assignment) :
    firstFailure s earlier (a :: rest) = some (earlier.length, reason) := by
  rw [firstFailure, fails]

/-- Entries that all pass are left behind together. -/
theorem firstFailure_append {s : State} (earlier passed rest : List Assignment)
    (passes : ∀ e b r, passed = e ++ b :: r → s.entryPasses (earlier ++ e) b) :
    firstFailure s earlier (passed ++ rest) = firstFailure s (earlier ++ passed) rest := by
  induction passed generalizing earlier with
  | nil => rw [List.nil_append, List.append_nil]
  | cons a passed ih =>
    have first : s.entryPasses earlier a := by simpa using passes [] a passed rfl
    rw [List.cons_append, firstFailure_passes first, ih (earlier ++ [a]), List.append_assoc, List.singleton_append]
    intro e b r split
    rw [List.append_assoc, List.singleton_append]
    exact passes (a :: e) b r (by rw [split, List.cons_append])

/-- A valid program: every entry passes (R27). -/
theorem validationFailure_valid {s : State} {p : PanelProgram} (entries : p.assignments ≠ [])
    (passes : ∀ e b r, p.assignments = e ++ b :: r → s.entryPasses e b) : validationFailure s p = none := by
  have passed := firstFailure_append (s := s) [] p.assignments [] fun e b r split => by simpa using passes e b r split
  rw [List.append_nil, firstFailure] at passed
  rw [validationFailure, passed, if_neg (by simpa using entries)]
  rfl

/-- An invalid program is refused by its first failing entry (R27). -/
theorem validationFailure_first {s : State} {p : PanelProgram} {earlier rest : List Assignment} {a : Assignment}
    (split : p.assignments = earlier ++ a :: rest) (passes : ∀ e b r, earlier = e ++ b :: r → s.entryPasses e b)
    (fails : ¬ s.entryPasses earlier a) :
    ∃ reason, validationFailure s p = some (reason, earlier.length) ∧ reason.code = refusalReason s a := by
  obtain ⟨reason, failed, code⟩ := assignmentFailure_reason fails
  have first := firstFailure_append (s := s) [] earlier (a :: rest) fun e b r split => by simpa using passes e b r split
  rw [List.nil_append, firstFailure_fails failed] at first
  refine ⟨reason, ?_, code⟩
  rw [validationFailure, split, first, if_neg (by simp)]
  rfl

/-! ### PANEL_COMMIT (R26 to R28) -/

theorem exec_panelCommit {s : State} {c : Command} (ready : s.frontReady c) (code : c.code = 0x12) (args : c.args = []) :
    exec .panelCommit s = .next (settle c (judgeCommit s)) :=
  congrArg Host.Outcome.next
    (lengthCommand_ready ready (hasCode_of code) (n := 0) (by rw [args]; rfl) fun _ t => judgeCommit t)

theorem judgeCommit_late {s : State} {p : PanelProgram} (holding : s.stager.staging = some p)
    (late : s.line.state.feedsSeam = true) : judgeCommit s = reply .late s := by
  rw [judgeCommit, holding]
  exact if_pos late

theorem judgeCommit_invalid {s : State} {p : PanelProgram} (holding : s.stager.staging = some p)
    (inTime : s.line.state.feedsSeam = false) {reason : InvalidReason} {entry : Nat}
    (failure : validationFailure s p = some (reason, entry)) :
    judgeCommit s = replyWith .invalid [reason.code, byteOf entry] { s with stager.staging := none } := by
  simp [judgeCommit, holding, inTime, failure]

theorem judgeCommit_valid {s : State} {p : PanelProgram} (holding : s.stager.staging = some p)
    (inTime : s.line.state.feedsSeam = false) (valid : validationFailure s p = none) :
    judgeCommit s =
      replyWith (if s.stager.pendingPanel = none then .done else .replaced)
        ((s.stager.pendingPanel.map fun old => le16 old.tag.toNat).getD []) (commitPanel p s) := by
  simp only [judgeCommit, holding, inTime, valid]
  cases s.stager.pendingPanel <;> rfl

/-- The counts after a commit: the replaced panel's references released, the new one's gained (R28). -/
theorem commitPanel_directory (p : PanelProgram) (s : State) (m : Fin 64) :
    (commitPanel p s).store.directory[m] =
      { s.store.directory[m] with
        inUse := s.store.directory[m].inUse - namesIn s.stager.pendingPanel m + p.names m } := by
  rw [commitPanel, gainAll_getElem, releaseOption_getElem]

/-- Settles O35, gate by gate in the order of R26 to R28. -/
theorem panelCommitJudgedInOrder : Obligations.PanelCommitJudgedInOrder := by
  intro s c ready code args
  rw [exec_panelCommit ready code args]
  refine ⟨fun empty => ?_, fun p holding => ⟨fun late => ?_, fun inTime noEntry => ?_,
    fun inTime earlier a rest split passes fails => ?_,
    fun inTime entries passes => ⟨_, commitPanel_directory p s, ?_⟩⟩⟩
  · rw [judgeCommit, empty, settle_reply]
  · rw [judgeCommit_late holding late, settle_reply]
  · have failure : validationFailure s p = some (.noAssignments, 0) := if_pos (by rw [noEntry]; rfl)
    rw [judgeCommit_invalid holding inTime failure]
    rfl
  · obtain ⟨reason, failure, named⟩ := validationFailure_first split passes fails
    rw [judgeCommit_invalid holding inTime failure, settle_replyWith, named, byteOf]
  · rw [judgeCommit_valid holding inTime (validationFailure_valid entries passes), settle_replyWith]
    rfl

/-! ### PANEL_DISCARD (R31) -/

/-- Settles O36, by whether a panel is pending. -/
theorem panelDiscardReleases : Obligations.PanelDiscardReleases := by
  intro s c ready code args
  have executed : exec .panelDiscard s = .next (settle c (judgeDiscard s)) :=
    congrArg Host.Outcome.next
      (lengthCommand_ready ready (hasCode_of code) (n := 0) (by rw [args]; rfl) fun _ t => judgeDiscard t)
  rw [executed]
  refine ⟨fun empty => ?_, fun p pending => ⟨releaseAll p s.store.directory, releaseAll_getElem p _, ?_⟩⟩
  · rw [judgeDiscard, empty, settle_reply]
  · rw [judgeDiscard, pending, settle_reply]

end Sys2Proof.Machine
end

section
/-! All a command can do to the line, the programs held and the lanes (`exec_lineMove`): the laws of programs, line and
lanes follow from it. -/

namespace Sys2Proof.Machine

open Sys2Proof

/-! ### Lanes that keep their place -/

/-- A lane keeps its motif and its place in it; its state stays, or passes among those of an assignment in progress, to
SEWING or HELD from these two alone (R56, R57, R61 to R63). -/
structure KeepsPlace (c d : LaneContext) : Prop where
  motif       : d.motif = c.motif
  scale       : d.scale = c.scale
  recordIndex : d.recordIndex = c.recordIndex
  leftInStep  : d.leftInStep = c.leftInStep
  loopPasses  : d.loopPasses = c.loopPasses
  placed      : d.state = c.state ∨ c.state.placed = true ∧ d.state.placed = true
  evaluated   : d.state.dropEvaluated = true → c.state.dropEvaluated = true

theorem KeepsPlace.refl (c : LaneContext) : KeepsPlace c c := ⟨rfl, rfl, rfl, rfl, rfl, .inl rfl, id⟩

theorem KeepsPlace.trans {c d e : LaneContext} (h : KeepsPlace c d) (k : KeepsPlace d e) : KeepsPlace c e where
  motif := k.motif.trans h.motif
  scale := k.scale.trans h.scale
  recordIndex := k.recordIndex.trans h.recordIndex
  leftInStep := k.leftInStep.trans h.leftInStep
  loopPasses := k.loopPasses.trans h.loopPasses
  placed := by
    rcases k.placed with same | ⟨before, after⟩
    · rw [same]
      exact h.placed
    · rcases h.placed with same | ⟨first, -⟩
      · exact .inr ⟨same ▸ before, after⟩
      · exact .inr ⟨first, after⟩
  evaluated := h.evaluated ∘ k.evaluated

/-- Every lane keeps its place. -/
def LanesKeep (s t : State) : Prop := ∀ l : Fin 8, KeepsPlace (s.lane l) (t.lane l)

theorem LanesKeep.refl (s : State) : LanesKeep s s := fun _ => .refl _

theorem LanesKeep.trans {s t u : State} (h : LanesKeep s t) (k : LanesKeep t u) : LanesKeep s u :=
  fun l => (h l).trans (k l)

theorem LanesKeep.of_lanes {s t : State} (h : t.engine.lanes = s.engine.lanes) : LanesKeep s t :=
  fun l => lane_of_lanes h l ▸ .refl _

theorem setLane_lanesKeep {s : State} {l : Fin 8} {c : LaneContext} (h : KeepsPlace (s.lane l) c) :
    LanesKeep s (s.setLane l c) := by
  intro k
  by_cases here : k = l
  · rw [here, setLane_lane_same]
    exact h
  · rw [setLane_lane_other s c here]
    exact .refl _

theorem placed_of_dropEvaluated {x : LaneState} (h : x.dropEvaluated = true) : x.placed = true := by
  rcases (dropEvaluated_iff x).mp h with rfl | rfl <;> rfl

theorem stop_keepsPlace {c : LaneContext} (placed : c.state.placed = true) (cause : StopCause) :
    KeepsPlace c (c.stop cause) :=
  ⟨rfl, rfl, rfl, rfl, rfl, .inr ⟨placed, rfl⟩, fun evaluated => absurd evaluated Bool.false_ne_true⟩

theorem takeOutput_keepsPlace (st : Store) (c : LaneContext) : KeepsPlace c (takeOutput st c) := by
  unfold takeOutput
  split
  · exact ⟨rfl, rfl, rfl, rfl, rfl, .inl rfl, id⟩
  · exact .refl c

/-! ### Stops and notices (R56, R57, R117 to R121, R132, R141) -/

theorem stopLane_lanesKeep {l : Fin 8} {s : State} (placed : (s.lane l).state.placed = true) (cause : StopCause) :
    LanesKeep s (stopLane cause l s) :=
  setLane_lanesKeep (stop_keepsPlace placed cause)

theorem dropEvaluation_lanesKeep (l : Fin 8) (s : State) : LanesKeep s (dropEvaluation l s) := by
  intro k
  by_cases here : k = l
  · rw [here]
    rcases dropEvaluation_lane_same l s with same | ⟨evaluated, stopped⟩
    · rw [same]
      exact .refl _
    · rw [stopped]
      exact stop_keepsPlace (placed_of_dropEvaluated evaluated) .drop
  · rw [dropEvaluation_lane_other here]
    exact .refl _

theorem evaluateSegment_lanesKeep (g : Fin 16) (s : State) : LanesKeep s (evaluateSegment g s) := by
  unfold evaluateSegment
  split
  · exact dropEvaluation_lanesKeep _ s
  · exact .refl s

theorem offerDefect_lanesKeep (d : Defect) (s : State) : LanesKeep s (offerDefect d s) := by
  obtain ⟨_, _, e⟩ := offerDefect_keeps d s
  rw [e]
  exact .of_lanes rfl

theorem lossNotice_lanesKeep (g : Fin 16) (s : State) : LanesKeep s (lossNotice g s) :=
  (offerDefect_lanesKeep _ s).trans (evaluateSegment_lanesKeep g _)

theorem threadBreak_lanesKeep (g : Fin 16) (p : Fin 8) (s : State) : LanesKeep s (threadBreak g p s) := by
  rw [threadBreak_eq]
  have counted : LanesKeep s { joinFault g p s with thread.totalBreaks := saturate s.thread.totalBreaks } :=
    .of_lanes rfl
  exact counted.trans ((offerDefect_lanesKeep _ _).trans (evaluateSegment_lanesKeep g _))

theorem judgePosition_lanesKeep (g : Fin 16) (reported : Pattern) (s : State) (p : Fin 8) :
    LanesKeep s (judgePosition g reported s p) := by
  rcases judgePosition_cases g reported s p with ⟨v, e⟩ | e | ⟨-, e⟩ | ⟨-, e⟩ | ⟨-, e⟩ <;> rw [e]
  · exact .of_lanes rfl
  · exact .refl s
  · exact .of_lanes rfl
  · exact LanesKeep.trans (t := setPresence g p .absent s) (.of_lanes rfl) (threadBreak_lanesKeep g p _)
  · exact .of_lanes rfl

theorem returnNotice_lanesKeep (g : Fin 16) (reported : Pattern) (low : Bool) (s : State) :
    LanesKeep s (returnNotice g reported low s) := by
  rw [returnNotice_eq]
  exact (foldl_keeps LanesKeep.refl LanesKeep.trans (judgePosition_lanesKeep g reported) (List.finRange 8) s).trans
    (.of_lanes rfl)

theorem setSegment_lanesKeep (g : Fin 16) (x : Segment) (s : State) : LanesKeep s (setSegment g x s) :=
  fun l => setSegment_lane g x s l ▸ .refl _

theorem badReturn_lanesKeep (g : Fin 16) (s : State) : LanesKeep s (badReturn g s) := by
  unfold badReturn
  split
  · exact setSegment_lanesKeep g _ s
  · split
    · exact setSegment_lanesKeep g _ s
    · exact (setSegment_lanesKeep g _ s).trans (lossNotice_lanesKeep g _)
  · exact .refl s
  · exact .refl s

theorem judgeSlot_lanesKeep (g : Fin 16) (x : Slot) (s : State) : LanesKeep s (judgeSlot g x s) := by
  unfold judgeSlot
  split
  · split
    · exact (setSegment_lanesKeep g _ s).trans (returnNotice_lanesKeep g _ _ _)
    · exact badReturn_lanesKeep g s
  · exact .refl s

theorem closePosition_lanesKeep (received : List Bool) (s : State) (g : Fin 16) :
    LanesKeep s (closePosition received s g) := by
  unfold closePosition
  split
  · exact badReturn_lanesKeep g s
  · exact .refl s
  · exact .refl s

theorem endWindow_lanesKeep (s : State) : LanesKeep s (endWindow s) := by
  unfold endWindow
  split
  · exact LanesKeep.trans (t := { s with head.tx := .free }) (.of_lanes rfl)
      (foldl_keeps LanesKeep.refl LanesKeep.trans (closePosition_lanesKeep _) (List.finRange 16) _)
  all_goals exact .refl s

theorem formFrame_lanesKeep (kind : FrameKind) (s : State) : LanesKeep s (formFrame kind s) := by
  intro l
  cases kind with
  | composed =>
    have taken : (formFrame .composed s).lane l = takeOutput s.store (s.lane l) := by
      simp [formFrame, State.lane, lanesTaken]
    rw [taken]
    exact takeOutput_keepsPlace s.store _
  | repeated => exact .refl _
  | park => exact .refl _

/-! ### The line stays, but for its state -/

/-- The line stays, but for its state, which keeps its role; every lane keeps its place. -/
structure LineStays (s t : State) : Prop where
  program  : t.line.program = s.line.program
  role     : t.line.state.role = s.line.state.role
  position : t.line.position = s.line.position
  seam     : t.line.seam = s.line.seam
  lanes    : LanesKeep s t

theorem LineStays.trans {s t u : State} (h : LineStays s t) (k : LineStays t u) : LineStays s u :=
  ⟨k.program.trans h.program, k.role.trans h.role, k.position.trans h.position, k.seam.trans h.seam,
    h.lanes.trans k.lanes⟩

theorem LineStays.of_line {s t : State} (line : t.line = s.line) (lanes : LanesKeep s t) : LineStays s t :=
  ⟨by rw [line], by rw [line], by rw [line], by rw [line], lanes⟩

/-- A halt keeps the role (R66, R78). -/
theorem haltLine_lineStays (cause : HaltCause) (s : State) : LineStays s (haltLine cause s) := by
  unfold haltLine
  split
  · rename_i running
    exact ⟨rfl, by rw [running]; rfl, rfl, rfl, .of_lanes rfl⟩
  · rename_i changeover
    exact ⟨rfl, by rw [changeover]; rfl, rfl, rfl, .of_lanes rfl⟩
  all_goals exact .of_line rfl (.refl s)

/-- The state of an index whose frame is formed (R91, R114). -/
theorem formed_lineStays (s : State) : LineStays s (formFrame s.frameKind (endWindow s)) :=
  .of_line (formed_keeps s).1 ((endWindow_lanesKeep s).trans (formFrame_lanesKeep _ _))

theorem dwellStroke_lineStays (s : State) : LineStays s (dwellStroke s) := by
  unfold dwellStroke
  dsimp only
  split
  · exact .of_line rfl (.of_lanes rfl)
  · refine LineStays.trans ?_ (haltLine_lineStays _ _)
    exact .of_line rfl (.of_lanes rfl)

@[simp] theorem haltLine_stager (cause : HaltCause) (s : State) : (haltLine cause s).stager = s.stager := by
  unfold haltLine
  split <;> rfl

theorem dwellStroke_stager (s : State) : (dwellStroke s).stager = s.stager := by
  unfold dwellStroke
  dsimp only
  split
  · rfl
  · exact haltLine_stager _ _

/-! ### The playing part of the state -/

/-- Programs held, line and lanes: all that the laws of programs and line look at. -/
structure Play where
  stager : Stager
  line   : Sequencer
  lanes  : Vector LaneContext 8

/-- The playing part of a state. -/
def State.play (s : State) : Play := { stager := s.stager, line := s.line, lanes := s.engine.lanes }

theorem stager_of_play {s t : State} (h : t.play = s.play) : t.stager = s.stager := congrArg Play.stager h

theorem line_of_play {s t : State} (h : t.play = s.play) : t.line = s.line := congrArg Play.line h

theorem lanes_of_play {s t : State} (h : t.play = s.play) : t.engine.lanes = s.engine.lanes := congrArg Play.lanes h

theorem LineStays.of_play {s t : State} (h : t.play = s.play) : LineStays s t :=
  .of_line (line_of_play h) (.of_lanes (lanes_of_play h))

@[simp] theorem arbitrate_play (s : State) : (arbitrate s).play = s.play := by
  rcases arbitrate_cases s with h | ⟨-, _, -, h⟩ | ⟨-, -, _, _, -, h⟩ <;> rw [h] <;> rfl

@[simp] theorem arbitrate_store (s : State) : (arbitrate s).store = s.store := by
  rcases arbitrate_cases s with h | ⟨-, _, -, h⟩ | ⟨-, -, _, _, -, h⟩ <;> rw [h]

@[simp] theorem settle_play (c : Command) (e : Effect) : (settle c e).play = e.1.play := by
  unfold settle
  split
  · exact arbitrate_play _
  · rfl

@[simp] theorem settle_store (c : Command) (e : Effect) : (settle c e).store = e.1.store := by
  unfold settle
  split
  · exact arbitrate_store _
  · rfl

/-! ### Events of the links that leave it -/

theorem strokeArrives_play (payload : List Byte) (s : State) : (strokeArrives payload s).play = s.play := by
  rcases strokeArrives_cases payload s with h | ⟨_, _, _, -, -, -, h⟩ <;> rw [h] <;> rfl

theorem commandArrives_play (c : Command) (s : State) : (commandArrives c s).play = s.play := by
  rcases commandArrives_cases c s with ⟨-, -, -, h⟩ | h | ⟨-, -, h⟩ <;> rw [h]
  · exact arbitrate_play _
  · rfl
  · rfl

theorem cellArrives_play (kind : CellKind) (payload : List Byte) (s : State) :
    (cellArrives kind payload s).play = s.play := by
  cases kind with
  | stroke => exact strokeArrives_play _ _
  | command => exact commandArrives_play _ _

theorem framingError_play (s : State) : (framingError s).play = s.play := by
  unfold framingError
  split <;> rfl

theorem kindByte_play (d : Byte) (s : State) : (kindByte d s).play = s.play := by
  unfold kindByte
  split
  · rfl
  · split <;> rfl

theorem bodyByte_play (d : Byte) (cell : PartCell) (s : State) : (bodyByte d cell s).play = s.play := by
  unfold bodyByte
  split
  · split <;> rfl
  · split
    · rfl
    · split
      · exact cellArrives_play _ _ s
      · rfl

theorem goodByte_play (d : Byte) (s : State) : (goodByte d s).play = s.play := by
  unfold goodByte
  split
  · exact kindByte_play d s
  · exact bodyByte_play d _ s
  · rfl
  · rfl

theorem byteArrives_play (d : Byte) (stop : Bool) (s : State) : (byteArrives d stop s).play = s.play := by
  unfold byteArrives
  split
  · rfl
  · split
    · exact goodByte_play d s
    · split
      · rfl
      · exact framingError_play s

theorem gapPasses_play (s : State) : (gapPasses s).play = s.play := by
  unfold gapPasses
  split
  · rfl
  · split <;> rfl

theorem markReturns_play (s : State) : (markReturns s).play = s.play := by
  unfold markReturns
  split
  · exact framingError_play _
  · rfl

theorem breakEnds_play (s : State) : (breakEnds s).play = s.play := by
  unfold breakEnds
  split <;> rfl

theorem outboundComplete_play (s : State) : (outboundComplete s).play = s.play := by
  unfold outboundComplete
  split <;> rfl

theorem beginLoopedFrame_play (s : State) : (beginLoopedFrame s).play = s.play := by
  unfold beginLoopedFrame
  split
  · rfl
  · split <;> rfl
  all_goals rfl

/-! ### Commands that leave it -/

theorem judgeDefine_play (motif first count length : Nat) (loop : Option Nat) (s : State) :
    (judgeDefine motif first count length loop s).1.play = s.play := by
  unfold judgeDefine
  split
  · rfl
  · split
    · rfl
    · split
      · rfl
      · split <;> rfl

theorem judgeUndefine_play (motif : Nat) (s : State) : (judgeUndefine motif s).1.play = s.play := by
  unfold judgeUndefine
  split
  · rfl
  · split
    · rfl
    · split <;> rfl

theorem loadFragment0_play (args : List Byte) (s : State) : (loadFragment0 args s).1.play = s.play := by
  unfold loadFragment0
  split <;> rfl

theorem loadFragment1_play (args : List Byte) (s : State) : (loadFragment1 args s).1.play = s.play := by
  unfold loadFragment1
  split
  · rfl
  · split
    · split <;> rfl
    · rfl
    · rfl

theorem loadFragment2_play (args : List Byte) (s : State) : (loadFragment2 args s).1.play = s.play := by
  unfold loadFragment2
  split
  · rfl
  · split
    · split
      · dsimp only
        split <;> rfl
      · rfl
    · rfl
    · rfl

theorem judgeFlush_play (s : State) : (judgeFlush s).1.play = s.play := by
  unfold judgeFlush
  split <;> rfl

theorem judgeRestore_play (segment : Nat) (s : State) : (judgeRestore segment s).1.play = s.play := by
  unfold judgeRestore
  split
  · rfl
  · split
    · obtain ⟨_, e⟩ := setSegment_keeps _ { state := .online, badReturns := 0 } s
      rw [restoreSegment, e]
      rfl
    · rfl

theorem judgeNeedle_play (needle : Nat) (s : State) : (judgeNeedle needle s).1.play = s.play := by
  unfold judgeNeedle
  split
  · split <;> rfl
  · rfl
  · rfl

theorem judgeTake_play (s : State) : (judgeTake s).1.play = s.play := by
  unfold judgeTake
  split <;> rfl

theorem judgeLaneMap_play (segment lane : Nat) (s : State) : (judgeLaneMap segment lane s).1.play = s.play := by
  unfold judgeLaneMap
  split
  · split <;> rfl
  · rfl
  · rfl

theorem takeSegmentCount_play (n : Nat) (s : State) : (takeSegmentCount n s).play = s.play := by
  unfold takeSegmentCount
  dsimp only
  split <;> rfl

theorem judgeCount_play (n : Nat) (s : State) : (judgeCount n s).1.play = s.play := by
  unfold judgeCount
  split
  · rfl
  · split
    · exact takeSegmentCount_play n s
    · rfl

theorem judgeMask_play (segment : Nat) (mask : Pattern) (s : State) :
    (judgeMask segment mask s).1.play = s.play := by
  unfold judgeMask
  split <;> rfl

theorem judgeDropLimit_play (lane limit : Nat) (s : State) : (judgeDropLimit lane limit s).1.play = s.play := by
  unfold judgeDropLimit
  split
  · split <;> rfl
  · rfl

theorem judgeUnderrun_play (limit : Nat) (s : State) : (judgeUnderrun limit s).1.play = s.play := by
  unfold judgeUnderrun
  split <;> rfl

theorem judgePacking_play (order : Option PackingOrder) (s : State) : (judgePacking order s).1.play = s.play := by
  unfold judgePacking
  split
  · rfl
  · split <;> rfl

/-! ### All a command can do to the line -/

/-- All a command can do to the staging buffer and the pending panel while the line stays (R24, R25, R27, R28, R31). -/
inductive StagerMove (s : State) : Stager → Prop where
  | kept : StagerMove s s.stager
  | begun (p : PanelProgram) (wf : p.stagedWf) : StagerMove s { s.stager with staging := some p }
  | appended (p : PanelProgram) (a : Assignment) (holding : s.stager.staging = some p)
      (room : p.assignments.length < Config.maxAssignments) (offset : a.startOffset ≤ 65535) :
      StagerMove s { s.stager with staging := some { p with assignments := p.assignments ++ [a] } }
  | emptied : StagerMove s { s.stager with staging := none }
  | committed (p : PanelProgram) (holding : s.stager.staging = some p) (inTime : s.line.state.feedsSeam = false)
      (entries : p.assignments ≠ []) (lanes : (p.assignments.map Assignment.lane).Nodup) :
      StagerMove s { staging := none, pendingPanel := some p }
  | discarded : StagerMove s { s.stager with pendingPanel := none }

/-- All a command but the power-on reset can do to the line, the programs held and the lanes: leave the line as it is,
complete a loop test, reset the line, start the pending panel, or feed. The last two start from a state u in which an
index has been served in IDLE, or its frame formed and its stroke taken. -/
inductive LineMove (s t : State) : Prop where
  | stays (line : LineStays s t) (stager : StagerMove s t.stager)
  | tested (inLoop : s.head.tx.inLoop = true) (line : t.line = { s.line with state := .idle }) (lanes : LanesKeep s t)
      (stager : t.stager = s.stager)
  | lineReset (play : t.play = (resetLine s).play)
  | ran (p : PanelProgram) (u : State) (pending : s.stager.pendingPanel = some p) (line : LineStays s u)
      (stager : u.stager = s.stager) (store : u.store = s.store) (play : t.play = (startRun p u).play)
      (same : t.store = (startRun p u).store)
  | fed (feed : Nat) (u : State) (line : LineStays s u) (stager : u.stager = s.stager) (store : u.store = s.store)
      (play : t.play = (deliverFeed feed u).play) (same : t.store = (deliverFeed feed u).store)

theorem StagerMove.of_eq {s : State} {x : Stager} (h : x = s.stager) : StagerMove s x := h ▸ .kept

theorem LineMove.of_play {s t : State} (h : t.play = s.play) : LineMove s t :=
  .stays (.of_play h) (.of_eq (stager_of_play h))

theorem LineMove.of_lineStays {s t : State} (line : LineStays s t) (stager : t.stager = s.stager) : LineMove s t :=
  .stays line (.of_eq stager)

/-- A command that changes the stager alone. -/
theorem LineMove.of_stager {s t : State} (line : t.line = s.line) (lanes : t.engine.lanes = s.engine.lanes)
    (stager : StagerMove s t.stager) : LineMove s t :=
  .stays (.of_line line (.of_lanes lanes)) stager

/-- What comes after in other parts of the state is no matter. -/
theorem LineMove.of_same {s t u : State} (h : LineMove s u) (play : t.play = u.play) (store : t.store = u.store) :
    LineMove s t := by
  have stager := stager_of_play play
  cases h with
  | stays line moves => exact .stays (line.trans (.of_play play)) (stager ▸ moves)
  | tested inLoop line lanes same =>
    exact .tested inLoop ((line_of_play play).trans line) (lanes.trans (.of_lanes (lanes_of_play play)))
      (stager.trans same)
  | lineReset same => exact .lineReset (play.trans same)
  | ran p v pending line stager before same1 same2 =>
    exact .ran p v pending line stager before (play.trans same1) (store.trans same2)
  | fed feed v line stager before same1 same2 =>
    exact .fed feed v line stager before (play.trans same1) (store.trans same2)

/-! ### The shaft index -/

/-- The stroke of an index (R92, R93, R97). -/
theorem applyStroke_lineMove {s u : State} (line : LineStays s u) (stager : u.stager = s.stager)
    (store : u.store = s.store) : LineMove s (applyStroke u).state := by
  unfold applyStroke
  split
  case h_1 | h_2 =>
    split
    · rename_i x rest _
      exact .fed x.feed.toNat { u with strokes.queue := rest, strokes.consecutive := 0 } (line.trans (.of_play rfl))
        stager store rfl rfl
    · exact .of_lineStays (line.trans (dwellStroke_lineStays u)) ((dwellStroke_stager u).trans stager)
  all_goals exact .of_lineStays line stager

/-- An index served in a state with the programs, line and lanes of s (R91). -/
theorem serveIndex_lineMove {s u : State} (play : u.play = s.play) (store : u.store = s.store) :
    LineMove s (serveIndex u) := by
  obtain ⟨-, stager, sameStore, -⟩ := formed_keeps u
  have moved : LineMove s u.strokeOutcome.state :=
    applyStroke_lineMove ((LineStays.of_play play).trans (formed_lineStays u)) (stager.trans (stager_of_play play))
      (sameStore.trans store)
  exact moved.of_same (by rw [serveIndex_result]; rfl) (by rw [serveIndex_result])

theorem takeIndex_lineMove (s : State) : LineMove s (takeIndex s) := by
  unfold takeIndex
  split
  · exact serveIndex_lineMove rfl rfl
  · exact .of_play rfl
  · exact .of_play rfl

theorem serveWaited_lineMove (s : State) : LineMove s (serveWaited s) := by
  rcases serveWaited_cases s with h | ⟨-, -, -, h⟩ <;> rw [h]
  · exact .of_play rfl
  · exact serveIndex_lineMove rfl rfl

/-- A waited index served in IDLE takes no stroke (R97). -/
theorem serveWaited_lineStays {s : State} (idle : s.line.state = .idle) : LineStays s (serveWaited s) := by
  rcases serveWaited_cases s with h | ⟨-, -, -, h⟩ <;> rw [h]
  · exact .of_play rfl
  · have formed : (serveIndex s.unwaited).play = (formFrame s.unwaited.frameKind (endWindow s.unwaited)).play := by
      rw [serveIndex_result, strokeOutcome_still (s := s.unwaited) (.inl idle)]
      rfl
    exact (LineStays.of_play (s := s) (t := s.unwaited) rfl).trans
      ((formed_lineStays s.unwaited).trans (.of_play formed))

/-! ### The head link -/

theorem returnArrives_lineMove (position : Nat) (x : Slot) (s : State) : LineMove s (returnArrives position x s) := by
  unfold returnArrives
  split
  · rename_i received g _ _
    split
    · have judged := judgeSlot_only g x { s with head.tx := .window (received.set position true) }
      have lanes := judgeSlot_lanesKeep g x { s with head.tx := .window (received.set position true) }
      refine .of_lineStays (.of_line ?_ (.trans (.of_lanes rfl) lanes)) ?_
      · obtain ⟨_, _, _, _, _, e⟩ := judged
        rw [e]
      · obtain ⟨_, _, _, _, _, e⟩ := judged
        rw [e]
    · exact .of_play rfl
    · exact .of_play rfl
  all_goals exact .of_play rfl

theorem windowExpires_lineMove (s : State) : LineMove s (windowExpires s) := by
  have ended : LineMove s (endWindow s) :=
    .of_lineStays (.of_line (endWindow_line s) (endWindow_lanesKeep s)) (endWindow_stager s)
  unfold windowExpires
  split
  · dsimp only
    split
    · exact ended.of_same rfl rfl
    · exact ended
  all_goals exact .of_play rfl

theorem completeLoopTest_play (passed : List Bool) (s : State) :
    (completeLoopTest passed s).play = State.play { s with line.state := .idle } := by
  unfold completeLoopTest
  dsimp only
  split
  · exact arbitrate_play _
  · rfl

theorem testSlotArrives_lineMove (x : Slot) (s : State) : LineMove s (testSlotArrives x s) := by
  unfold testSlotArrives
  split
  · rename_i test inLoop
    dsimp only
    split
    · exact .of_play rfl
    · have play := completeLoopTest_play (test.passed ++ [x.testPass test.passed.length]) s
      have lanes : LanesKeep s { s with line.state := .idle } := .of_lanes rfl
      exact .tested (by rw [inLoop]; rfl) (line_of_play play) (lanes.trans (.of_lanes (lanes_of_play play)))
        ((stager_of_play play).trans rfl)
  all_goals exact .of_play rfl

/-! ### The staging commands (chapter 2) -/

theorem judgeBegin_lineMove {length seamGap : Nat} (short : length ≤ 65535) (tag : Serial) (repeats : Option Bool)
    (s : State) : LineMove s (judgeBegin tag length seamGap repeats s).1 := by
  unfold judgeBegin
  split
  · exact .of_play rfl
  · split
    · exact .of_play rfl
    · rename_i inRange
      simp only [Bool.or_eq_true, decide_eq_true_eq, not_or, not_lt] at inRange
      exact .of_stager rfl rfl
        (.begun _ ⟨Nat.pos_of_ne_zero inRange.1, short, inRange.2, Nat.zero_le _, fun _ listed => by simp at listed⟩)

theorem assignmentArgument_offset {args : List Byte} {a : Assignment} (h : assignmentArgument args = some a) :
    a.startOffset ≤ 65535 := by
  unfold assignmentArgument at h
  split at h
  · split at h
    · obtain rfl := Option.some.inj h
      exact argWord_le args 3
    · exact absurd h (by simp)
  · exact absurd h (by simp)

theorem judgeLane_lineMove (args : List Byte) (s : State) : LineMove s (judgeLane (assignmentArgument args) s).1 := by
  unfold judgeLane
  split
  · exact .of_play rfl
  · rename_i p holding
    split
    · exact .of_play rfl
    · rename_i a spelled
      split
      · rename_i room
        exact .of_stager rfl rfl (.appended p a holding room (assignmentArgument_offset spelled))
      · exact .of_play rfl

/-- The entries of a program that passes validation name no lane twice (R27). -/
theorem firstFailure_none_nodup {s : State} {earlier rest : List Assignment} (h : firstFailure s earlier rest = none)
    (distinct : (earlier.map Assignment.lane).Nodup) : ((earlier ++ rest).map Assignment.lane).Nodup := by
  induction rest generalizing earlier with
  | nil => rwa [List.append_nil]
  | cons a rest ih =>
    cases judged : assignmentFailure s earlier a with
    | some reason =>
      rw [firstFailure_fails judged] at h
      exact absurd h (by simp)
    | none =>
      have passes := (assignmentFailure_none_iff s earlier a).mp judged
      have longer : ((earlier ++ [a]).map Assignment.lane).Nodup := by
        obtain ⟨-, -, other⟩ := passes
        rw [List.map_append, List.nodup_append]
        refine ⟨distinct, by simp, fun x listed y here => ?_⟩
        obtain ⟨b, before, rfl⟩ := List.mem_map.mp listed
        obtain rfl : y = a.lane := by simpa using here
        exact other b before
      rw [firstFailure_passes passes] at h
      have further := ih h longer
      rwa [List.append_assoc, List.singleton_append] at further

theorem validationFailure_none_wf {s : State} {p : PanelProgram} (h : validationFailure s p = none) :
    p.assignments ≠ [] ∧ (p.assignments.map Assignment.lane).Nodup := by
  unfold validationFailure at h
  split at h
  · exact absurd h (by simp)
  · rename_i entries
    refine ⟨by simpa using entries, ?_⟩
    have distinct := firstFailure_none_nodup (Option.map_eq_none_iff.mp h) .nil
    rwa [List.nil_append] at distinct

theorem judgeCommit_lineMove (s : State) : LineMove s (judgeCommit s).1 := by
  unfold judgeCommit
  split
  · exact .of_play rfl
  · rename_i p holding
    split
    · exact .of_play rfl
    · rename_i late
      split
      · exact .of_stager rfl rfl .emptied
      · rename_i valid
        obtain ⟨entries, lanes⟩ := validationFailure_none_wf valid
        have committed : LineMove s (commitPanel p s) :=
          .of_stager rfl rfl (.committed p holding (by simpa using late) entries lanes)
        split <;> exact committed

theorem judgeDiscard_lineMove (s : State) : LineMove s (judgeDiscard s).1 := by
  unfold judgeDiscard
  split
  · exact .of_stager rfl rfl .discarded
  · exact .of_play rfl

/-! ### The line commands (chapter 4) -/

theorem judgeRun_lineMove (s : State) : LineMove s (judgeRun s).1 := by
  unfold judgeRun
  split
  · exact .of_play rfl
  · split
    · exact .of_play rfl
    · rename_i idle
      have idle : s.line.state = .idle := not_not.mp idle
      split
      · exact .of_play rfl
      · rename_i p pending
        obtain ⟨-, stager, store, -⟩ := serveWaited_idle idle
        dsimp only [replyWith]
        exact .ran p (serveWaited s) pending (serveWaited_lineStays idle) stager store rfl rfl

theorem haltLine_lineMove (cause : HaltCause) (s : State) : LineMove s (haltLine cause s) :=
  .of_lineStays (haltLine_lineStays cause s) (haltLine_stager cause s)

theorem breakBegins_lineMove (s : State) : LineMove s (breakBegins s) := by
  refine .of_lineStays (LineStays.trans ?_ (haltLine_lineStays _ _)) (haltLine_stager _ _)
  exact .of_play rfl

theorem judgeHalt_lineMove (s : State) : LineMove s (judgeHalt s).1 := by
  unfold judgeHalt
  split
  case h_1 | h_2 => exact haltLine_lineMove _ s
  all_goals exact .of_play rfl

/-- A resumed line has the role of the halted one (R66, R80). -/
theorem judgeResume_lineMove (s : State) : LineMove s (judgeResume s).1 := by
  unfold judgeResume
  split
  · rename_i cause w halted
    split
    · exact .of_play rfl
    · have role : w.lineState.role = s.line.state.role := by
        rw [halted]
        cases w <;> rfl
      exact .of_lineStays ⟨rfl, role, rfl, rfl, .of_lanes rfl⟩ rfl
  all_goals exact .of_play rfl

/-- A loop test has no line program before it or in it (R66, R84). -/
theorem startLoopTest_lineStays {s : State} (idle : s.line.state = .idle) :
    LineStays s (startLoopTest s) ∧ (startLoopTest s).stager = s.stager := by
  have started : (startLoopTest s).play = State.play { s with line.state := .looptest } := beginLoopedFrame_play _
  refine ⟨?_, (stager_of_play started).trans rfl⟩
  refine LineStays.trans (t := { s with line.state := .looptest }) ?_ (.of_play started)
  exact ⟨rfl, by rw [idle]; rfl, rfl, rfl, .of_lanes rfl⟩

theorem judgeLoopTest_lineMove (s : State) : LineMove s (judgeLoopTest s).1 := by
  unfold judgeLoopTest
  split
  · rename_i idle
    obtain ⟨line, served, -⟩ := serveWaited_idle idle
    obtain ⟨stays, stager⟩ := startLoopTest_lineStays (s := serveWaited s) (by rw [line, idle])
    exact .of_lineStays ((serveWaited_lineStays idle).trans stays) (stager.trans served)
  · exact .of_play rfl

/-! ### The lane commands (chapter 3) -/

theorem LineMove.of_setLane {s : State} {l : Fin 8} {c : LaneContext} (h : KeepsPlace (s.lane l) c) :
    LineMove s (s.setLane l c) :=
  .of_lineStays (.of_line rfl (setLane_lanesKeep h)) rfl

theorem judgeHold_lineMove (lane : Nat) (s : State) : LineMove s (judgeHold lane s).1 := by
  unfold judgeHold
  split
  · exact .of_play rfl
  · split
    · rename_i sewing
      exact .of_setLane ⟨rfl, rfl, rfl, rfl, rfl, .inr ⟨by rw [sewing]; rfl, rfl⟩, fun _ => by rw [sewing]; rfl⟩
    · exact .of_play rfl

theorem judgeRelease_lineMove (lane : Nat) (s : State) : LineMove s (judgeRelease lane s).1 := by
  unfold judgeRelease
  split
  · exact .of_play rfl
  · split
    · rename_i held
      exact .of_setLane ⟨rfl, rfl, rfl, rfl, rfl, .inr ⟨by rw [held]; rfl, rfl⟩, fun _ => by rw [held]; rfl⟩
    · exact .of_play rfl

theorem placed_of_stoppable {x : LaneState} (h : x.stoppable = true) : x.placed = true := by
  cases x with
  | sewing | held | finished => rfl
  | vacant | standby | stopped _ => exact absurd h Bool.false_ne_true

theorem judgeStop_lineMove (lane : Nat) (s : State) : LineMove s (judgeStop lane s).1 := by
  unfold judgeStop
  split
  · exact .of_play rfl
  · split
    · rename_i stoppable
      exact .of_lineStays (.of_line rfl (stopLane_lanesKeep (placed_of_stoppable stoppable) _)) rfl
    · exact .of_play rfl

/-! ### All a command can do to the line, in one lemma -/

/-- An execution event does to the line what the effect of its command does, if anything (R172). -/
theorem executeFront_lineMove {row : Command → Bool} {effect : List Byte → State → Effect} {s : State}
    (acts : ∀ args, LineMove s (effect args s).1) : LineMove s (executeFront row effect s) := by
  rcases executeFront_cases row effect s with h | ⟨c, _, -, -, -, h⟩ <;> rw [h]
  · exact .of_play rfl
  · exact (acts c.args).of_same (settle_play _ _) (settle_store _ _)

/-- The same of a command that asks for a length of its arguments (R169). -/
theorem lengthCommand_lineMove {row : Command → Bool} {n : Nat} {effect : List Byte → State → Effect} {s : State}
    (acts : ∀ args, LineMove s (effect args s).1) :
    LineMove s (executeFront row (fun args t => withLength n args (effect args t) t) s) := by
  refine executeFront_lineMove fun args => ?_
  unfold withLength
  split
  · exact acts args
  · exact .of_play rfl

/-- The same of a SET or READ item that leaves programs, line and lanes (R177, R179). -/
theorem itemCommand_lineMove {row : Command → Bool} {item n : Nat} {effect : List Byte → State → Effect} {s : State}
    (leaves : ∀ args, (effect args s).1.play = s.play) :
    LineMove s (executeFront row (fun args t => withItem item n args (effect args t) t) s) := by
  refine executeFront_lineMove fun args => ?_
  unfold withItem withLength
  split
  · split
    · exact .of_play (leaves args)
    · exact .of_play rfl
  · exact .of_play rfl

/-- All a command but the power-on reset can do to the line, in one lemma. -/
theorem exec_lineMove {i : Instr} {s t : State} (h : exec i s = .next t) (noReset : i ≠ .powerOnReset) :
    LineMove s t := by
  cases i with
  | powerOnReset => exact absurd rfl noReset
  | shaftIndex => cases h; exact takeIndex_lineMove s
  | waitedShaftIndex => cases h; exact serveWaited_lineMove s
  | outboundComplete => cases h; exact .of_play (outboundComplete_play s)
  | returnSlot position slot => cases h; exact returnArrives_lineMove position slot s
  | returnWindowExpiry => cases h; exact windowExpires_lineMove s
  | loopedFrameBegin => cases h; exact .of_play (beginLoopedFrame_play s)
  | testSlot slot => cases h; exact testSlotArrives_lineMove slot s
  | receivedByte data stop => cases h; exact .of_play (byteArrives_play data stop s)
  | cellGap => cases h; exact .of_play (gapPasses_play s)
  | strokeCell payload => cases h; exact .of_play (strokeArrives_play payload s)
  | commandCell command => cases h; exact .of_play (commandArrives_play command s)
  | breakBegin =>
    cases h
    exact breakBegins_lineMove s
  | breakEnd => cases h; exact .of_play (breakEnds_play s)
  | returnToMark => cases h; exact .of_play (markReturns_play s)
  | transmitterFree => cases h; exact .of_play (arbitrate_play _)
  | unknownCommand => cases h; exact executeFront_lineMove fun _ => .of_play rfl
  | defineMotif => cases h; exact lengthCommand_lineMove fun _ => .of_play (judgeDefine_play _ _ _ _ _ s)
  | undefineMotif => cases h; exact lengthCommand_lineMove fun _ => .of_play (judgeUndefine_play _ s)
  | loadPartFragment0 => cases h; exact lengthCommand_lineMove fun args => .of_play (loadFragment0_play args s)
  | loadPartFragment1 => cases h; exact lengthCommand_lineMove fun args => .of_play (loadFragment1_play args s)
  | loadPartFragment2 => cases h; exact lengthCommand_lineMove fun args => .of_play (loadFragment2_play args s)
  | loadFlush => cases h; exact lengthCommand_lineMove fun _ => .of_play (judgeFlush_play s)
  | panelBegin => cases h; exact lengthCommand_lineMove fun args => judgeBegin_lineMove (argWord_le args 2) _ _ s
  | panelLane => cases h; exact lengthCommand_lineMove fun args => judgeLane_lineMove args s
  | panelCommit => cases h; exact lengthCommand_lineMove fun _ => judgeCommit_lineMove s
  | panelDiscard => cases h; exact lengthCommand_lineMove fun _ => judgeDiscard_lineMove s
  | run => cases h; exact lengthCommand_lineMove fun _ => judgeRun_lineMove s
  | halt => cases h; exact lengthCommand_lineMove fun _ => judgeHalt_lineMove s
  | resume => cases h; exact lengthCommand_lineMove fun _ => judgeResume_lineMove s
  | lineReset => cases h; exact lengthCommand_lineMove fun _ => .lineReset rfl
  | loopTest => cases h; exact lengthCommand_lineMove fun _ => judgeLoopTest_lineMove s
  | laneHold => cases h; exact lengthCommand_lineMove fun _ => judgeHold_lineMove _ s
  | laneRelease => cases h; exact lengthCommand_lineMove fun _ => judgeRelease_lineMove _ s
  | laneStop => cases h; exact lengthCommand_lineMove fun _ => judgeStop_lineMove _ s
  | segmentRestore => cases h; exact lengthCommand_lineMove fun _ => .of_play (judgeRestore_play _ s)
  | needleRelease => cases h; exact lengthCommand_lineMove fun _ => .of_play (judgeNeedle_play _ s)
  | takeDefect => cases h; exact lengthCommand_lineMove fun _ => .of_play (judgeTake_play s)
  | clearCounts => cases h; exact lengthCommand_lineMove fun _ => .of_play rfl
  | setLaneMapEntry => cases h; exact itemCommand_lineMove fun _ => judgeLaneMap_play _ _ s
  | setSegmentCount => cases h; exact itemCommand_lineMove fun _ => judgeCount_play _ s
  | setOperatorMask => cases h; exact itemCommand_lineMove fun _ => judgeMask_play _ _ s
  | setDropLimit => cases h; exact itemCommand_lineMove fun _ => judgeDropLimit_play _ _ s
  | setUnderrunLimit => cases h; exact itemCommand_lineMove fun _ => judgeUnderrun_play _ s
  | setPackingOrder => cases h; exact itemCommand_lineMove fun _ => judgePacking_play _ s
  | readLane => cases h; exact itemCommand_lineMove fun _ => congrArg _ (judgeReadLane_state _ s)
  | readSegment => cases h; exact itemCommand_lineMove fun _ => congrArg _ (judgeReadSegment_state _ s)
  | readMotif => cases h; exact itemCommand_lineMove fun _ => congrArg _ (judgeReadMotif_state _ s)
  | readRecord => cases h; exact itemCommand_lineMove fun _ => congrArg _ (judgeReadRecord_state _ _ s)
  | readPanel => cases h; exact itemCommand_lineMove fun _ => congrArg _ (judgeReadPanel_state _ _ s)
  | readConfig => cases h; exact itemCommand_lineMove fun _ => congrArg _ (judgeReadConfig_state _ s)
  | readLine | readDefects | readAttention | readCounts | readAssembler =>
    cases h
    exact itemCommand_lineMove fun _ => rfl

end Sys2Proof.Machine
end

section
/-! Every step keeps the form of the programs held and the law of the line. -/

namespace Sys2Proof.Machine

open Sys2Proof

/-! ### While the line stays -/

theorem sewsPanel_eq (x : LineState) : x.sewsPanel = decide (x.role = some .active) := by
  rcases x with _ | _ | _ | ⟨_, _ | _⟩ | _ <;> rfl

theorem feedsSeam_eq (x : LineState) : x.feedsSeam = decide (x.role = some .incoming) := by
  rcases x with _ | _ | _ | ⟨_, _ | _⟩ | _ <;> rfl

section

variable {s t : State}

theorem LineStays.sewsPanel (h : LineStays s t) : t.line.state.sewsPanel = s.line.state.sewsPanel := by
  rw [sewsPanel_eq, sewsPanel_eq, h.role]

theorem LineStays.feedsSeam (h : LineStays s t) : t.line.state.feedsSeam = s.line.state.feedsSeam := by
  rw [feedsSeam_eq, feedsSeam_eq, h.role]

theorem LineStays.linePanel (h : LineStays s t) : t.linePanel = s.linePanel := by
  rw [State.linePanel, State.linePanel, h.program]

/-- A lane that keeps its place fits the line state as before (R67). -/
theorem LineStays.laneFits (h : LineStays s t) {l : Fin 8} (fits : s.laneFits l) : t.laneFits l := by
  unfold State.laneFits State.assigned at *
  rw [h.linePanel, h.sewsPanel, h.feedsSeam]
  rcases (h.lanes l).placed with same | ⟨before, after⟩
  · rwa [same]
  · split
    · exact after
    · rename_i notSewn
      rw [if_neg notSewn] at fits
      split at fits <;> rw [fits] at before <;> exact absurd before (by decide)

/-- The law of the line is kept while the line stays, if no panel is pending where a seam is fed. -/
theorem LineStays.lineLaw (h : LineStays s t) (law : LineLaw s)
    (noPending : s.line.state.feedsSeam = true → t.stager.pendingPanel = none) : LineLaw t where
  role := by rw [h.program, h.role]; exact law.role
  noPending := by rw [h.feedsSeam]; exact noPending
  position := by rw [h.sewsPanel, h.linePanel, h.position]; exact law.position
  noPosition := by rw [h.sewsPanel, h.position]; exact law.noPosition
  seam := by rw [h.feedsSeam, h.seam]; exact law.seam
  noSeam := by rw [h.feedsSeam, h.seam]; exact law.noSeam
  lanes l := h.laneFits (law.lanes l)

theorem LineLaw.of_stays (law : LineLaw s) (h : LineStays s t) (stager : t.stager = s.stager) : LineLaw t :=
  h.lineLaw law (by rw [stager]; exact law.noPending)

theorem ProgramLaw.of_same (law : ProgramLaw s) (stager : t.stager = s.stager) (linePanel : t.linePanel = s.linePanel) :
    ProgramLaw t where
  staging := by rw [stager]; exact law.staging
  waiting := by rw [stager]; exact law.waiting
  onLine := by rw [linePanel]; exact law.onLine

/-- A program as R21 and R22 say comes on the line; the pending panel stays or is gone. -/
theorem ProgramLaw.of_onLine (law : ProgramLaw s) (staging : t.stager.staging = s.stager.staging)
    (waiting : t.stager.pendingPanel = none ∨ t.stager.pendingPanel = s.stager.pendingPanel) {p : PanelProgram}
    (onLine : t.linePanel = some p) (wf : p.wf) : ProgramLaw t where
  staging := by rw [staging]; exact law.staging
  waiting := by
    rcases waiting with gone | same
    · rw [gone]
      exact fun _ held => absurd held (by simp)
    · rw [same]
      exact law.waiting
  onLine q here := by
    rw [onLine] at here
    rwa [← Option.some.inj here]

theorem LineLaw.of_play (law : LineLaw s) (h : t.play = s.play) : LineLaw t :=
  law.of_stays (.of_play h) (stager_of_play h)

theorem ProgramLaw.of_play (law : ProgramLaw s) (h : t.play = s.play) : ProgramLaw t :=
  law.of_same (stager_of_play h) (LineStays.of_play h).linePanel

end

/-- An assignment more leaves a staged program in its bounds (R25). -/
theorem PanelProgram.stagedWf.append {p : PanelProgram} (wf : p.stagedWf) {a : Assignment}
    (room : p.assignments.length < Config.maxAssignments) (offset : a.startOffset ≤ 65535) :
    PanelProgram.stagedWf { p with assignments := p.assignments ++ [a] } := by
  obtain ⟨long, short, gap, -, offsets⟩ := wf
  refine ⟨long, short, gap, ?_, fun b listed => ?_⟩
  · simp only [List.length_append, List.length_singleton]
    exact room
  · rcases List.mem_append.mp listed with before | last
    · exact offsets b before
    · rw [List.mem_singleton.mp last]
      exact offset

/-- The moves of the stager keep the form of the programs it holds. -/
theorem StagerMove.programs {s : State} {x : Stager} (move : StagerMove s x) (law : ProgramLaw s) :
    (∀ p ∈ x.staging, p.stagedWf) ∧ ∀ p ∈ x.pendingPanel, p.wf := by
  cases move with
  | kept => exact ⟨law.staging, law.waiting⟩
  | begun p wf =>
    refine ⟨fun q held => ?_, law.waiting⟩
    rwa [← Option.some.inj held]
  | appended p a holding room offset =>
    refine ⟨fun q held => ?_, law.waiting⟩
    rw [← Option.some.inj held]
    exact (law.staging p holding).append room offset
  | emptied => exact ⟨fun q held => absurd held (by simp), law.waiting⟩
  | committed p holding _ entries lanes =>
    refine ⟨fun q held => absurd held (by simp), fun q held => ?_⟩
    rw [← Option.some.inj held]
    exact ⟨law.staging p holding, entries, lanes⟩
  | discarded => exact ⟨law.staging, fun q held => absurd held (by simp)⟩

/-- A panel becomes pending only where no seam is fed (R26, R29). -/
theorem StagerMove.noPending {s : State} {x : Stager} (move : StagerMove s x)
    (before : s.line.state.feedsSeam = true → s.stager.pendingPanel = none) (seam : s.line.state.feedsSeam = true) :
    x.pendingPanel = none := by
  cases move with
  | committed p _ inTime => exact absurd seam (by rw [inTime]; decide)
  | discarded => rfl
  | _ => exact before seam

/-! ### A panel being sewn -/

/-- The panel p is being sewn, its position not yet judged against its length: what a feed finds before it looks for a
boundary. -/
structure Sewing (p : PanelProgram) (s : State) : Prop where
  programs : ProgramLaw s
  running  : s.line.state = .running
  program  : s.line.program = some { role := .active, panel := p }
  noSeam   : s.line.seam = 0
  lanes    : ∀ l : Fin 8,
    if (p.assignmentOf l).isSome then (s.lane l).state.placed = true else (s.lane l).state = .vacant

theorem linePanel_of_program {s : State} {role : Role} {p : PanelProgram}
    (program : s.line.program = some { role := role, panel := p }) : s.linePanel = some p := by
  rw [State.linePanel, program]
  rfl

theorem Sewing.wf {p : PanelProgram} {s : State} (h : Sewing p s) : p.wf :=
  h.programs.onLine p (linePanel_of_program h.program)

/-- A panel on the line in RUNNING is being sewn. -/
theorem LineLaw.sewing {p : PanelProgram} {s : State} (law : LineLaw s) (programs : ProgramLaw s)
    (running : s.line.state = .running) (line : s.linePanel = some p) : Sewing p s where
  programs := programs
  running := running
  program := by
    have role := law.role
    rw [running] at role
    unfold State.linePanel at line
    cases program : s.line.program with
    | none => rw [program] at line; exact absurd line (by simp)
    | some x =>
      rw [program] at line role
      obtain ⟨r, q⟩ := x
      obtain rfl : r = .active := Option.some.inj role
      obtain rfl : q = p := Option.some.inj line
      rfl
  noSeam := law.noSeam (by rw [running]; rfl)
  lanes l := by
    have fits := law.lanes l
    simp only [State.laneFits, State.assigned, line, running, LineState.sewsPanel, LineState.feedsSeam] at fits
    simpa using fits

/-- A panel being sewn at a position below its length obeys the law of the line. -/
theorem Sewing.lineLaw {p : PanelProgram} {s : State} (h : Sewing p s) (below : s.line.position < p.length) :
    LineLaw s where
  role := by rw [h.program, h.running]; rfl
  noPending := by rw [h.running]; exact fun seam => absurd seam (by decide)
  position _ q onLine := by
    rw [linePanel_of_program h.program] at onLine
    rwa [← Option.some.inj onLine]
  noPosition := by rw [h.running]; exact fun sews => absurd sews (by decide)
  seam := by rw [h.running]; exact fun seam => absurd seam (by decide)
  noSeam _ := h.noSeam
  lanes l := by
    have lane := h.lanes l
    simp only [State.laneFits, State.assigned, linePanel_of_program h.program, h.running, LineState.sewsPanel,
      LineState.feedsSeam]
    simpa using lane

/-- A new position is all the same to a panel being sewn. -/
theorem Sewing.moved {p : PanelProgram} {s : State} (h : Sewing p s) (position : Nat) :
    Sewing p { s with line.position := position } :=
  ⟨h.programs.of_same rfl rfl, h.running, h.program, h.noSeam, h.lanes⟩

/-! ### Walks and panel starts -/

theorem OnlyWalks.line {s t : State} (h : OnlyWalks s t) : t.line = s.line ∧ t.stager = s.stager := by
  obtain ⟨_, _, _, rfl⟩ := h
  exact ⟨rfl, rfl⟩

theorem walkLane_placed (st : Store) (feed : Nat) {c : LaneContext} (sewing : c.state = .sewing) :
    (walkLane st feed c).1.state.placed = true := by
  rcases walkLane_state st feed c sewing with h | h | h <;> rw [h] <;> rfl

/-- A walk takes a SEWING lane to a state of an assignment in progress, and no other lane anywhere (R46, R50, R51). -/
theorem walkLanes_state (feed : Nat) (s : State) (l : Fin 8) :
    ((walkLanes feed s).lane l).state = (s.lane l).state ∨
      (s.lane l).state = .sewing ∧ ((walkLanes feed s).lane l).state.placed = true := by
  rw [walkLanes_lane]
  split
  · rename_i sewing
    exact .inr ⟨sewing, walkLane_placed s.store feed sewing⟩
  · exact .inl rfl

theorem Sewing.walked {p : PanelProgram} {s : State} (h : Sewing p s) (feed : Nat) :
    Sewing p (walkLanes feed s) := by
  obtain ⟨line, stager⟩ := (walkLanes_only feed s).line
  refine ⟨h.programs.of_same stager (by rw [State.linePanel, line]; rfl), by rw [line]; exact h.running,
    by rw [line]; exact h.program, by rw [line]; exact h.noSeam, fun l => ?_⟩
  have lane := h.lanes l
  rcases walkLanes_state feed s l with same | ⟨sewing, placed⟩
  · rwa [same]
  · split
    · exact placed
    · rename_i unassigned
      rw [if_neg unassigned, sewing] at lane
      exact absurd lane (by decide)

theorem startLane_placed (st : Store) (a : Assignment) (c : LaneContext) :
    (startLane st a c).state.placed = true := by
  obtain ⟨-, result⟩ := enterRecord_result st 63 0 (loadLane a c) rfl
  unfold startLane
  simp only [Config.zeroSpanLimit]
  rcases result with h | h | h
  · simp only [h]; rfl
  · simp only [h]; rfl
  · rw [h.1]
    exact walkLane_placed st a.startOffset h.1

theorem panelStart_line (p : PanelProgram) (position : Nat) (s : State) :
    (panelStart p position s).line = { s.line with serial := s.line.serial + 1, position := position } ∧
      (panelStart p position s).stager = s.stager ∧ (panelStart p position s).store = s.store := by
  obtain ⟨_, _, e⟩ := panelStart_only p position s
  rw [e]
  exact ⟨rfl, rfl, rfl⟩

/-- A panel start sews its panel, whatever the lanes were (R41, R42, R69). -/
theorem panelStart_sewing {p : PanelProgram} {s : State} (programs : ProgramLaw s) (running : s.line.state = .running)
    (program : s.line.program = some { role := .active, panel := p }) (noSeam : s.line.seam = 0) (position : Nat) :
    Sewing p (panelStart p position s) := by
  obtain ⟨line, stager, -⟩ := panelStart_line p position s
  refine ⟨programs.of_same stager (by rw [State.linePanel, line]; rfl), by rw [line]; exact running,
    by rw [line]; exact program, by rw [line]; exact noSeam, fun l => ?_⟩
  rw [panelStart_lane, State.startedLane]
  cases p.assignmentOf l with
  | none => rfl
  | some a =>
    dsimp only [Option.isSome_some]
    rw [if_pos rfl]
    split
    · rfl
    · exact startLane_placed _ _ _

/-- A RUN sews the panel that was pending (R68, R69). -/
theorem startRun_sewing {p : PanelProgram} {s : State} (programs : ProgramLaw s)
    (pending : s.stager.pendingPanel = some p) : Sewing p (startRun p s) := by
  unfold startRun
  refine panelStart_sewing ?_ rfl rfl rfl 0
  exact programs.of_onLine rfl (.inl rfl) rfl (programs.waiting p pending)

theorem startRun_position (p : PanelProgram) (s : State) : (startRun p s).line.position = 0 := by
  rw [startRun, (panelStart_line p 0 _).1]

/-- A changeover completed sews its panel, whatever the lanes were (R75). -/
theorem completeChangeover_sewing {p : PanelProgram} {s : State} (programs : ProgramLaw s)
    (line : s.linePanel = some p) (leftover : Nat) : Sewing p (completeChangeover p leftover s) := by
  unfold completeChangeover
  refine (panelStart_sewing ?_ rfl rfl rfl leftover).walked leftover
  exact programs.of_onLine rfl (.inr rfl) rfl (programs.onLine p line)

/-! ### The boundary (R73, R74) -/

/-- The program that follows is the pending panel or the outgoing one, both as R21 and R22 say. -/
theorem Sewing.nextPanel_wf {p q : PanelProgram} {s : State} (h : Sewing p s) (next : s.nextPanel p = some q) :
    q.wf := by
  unfold State.nextPanel at next
  split at next
  · rename_i r pending
    rw [← Option.some.inj next]
    exact h.programs.waiting r pending
  · split at next
    · rw [← Option.some.inj next]
      exact h.wf
    · exact absurd next (by simp)

theorem endRun_lane (p : PanelProgram) (s : State) (l : Fin 8) :
    (endRun p s).lane l = if (p.assignmentOf l).isSome then { s.lane l with state := .vacant } else s.lane l :=
  markLanes_getElem p .vacant s.engine.lanes l.val l.isLt

theorem openChangeover_lane (p q : PanelProgram) (seam : Nat) (s : State) (l : Fin 8) :
    (openChangeover p q seam s).lane l =
      if (q.assignmentOf l).isSome then { (endRun p s).lane l with state := .standby } else (endRun p s).lane l :=
  markLanes_getElem q .standby _ l.val l.isLt

/-- The end of a run leaves every lane VACANT (R40, R73). -/
theorem Sewing.endRun_vacant {p : PanelProgram} {s : State} (h : Sewing p s) (l : Fin 8) :
    ((endRun p s).lane l).state = .vacant := by
  have lane := h.lanes l
  rw [endRun_lane]
  split
  · rfl
  · rename_i unassigned
    rwa [if_neg unassigned] at lane

/-- A changeover leaves the lanes of its program STANDBY and the others VACANT (R40, R74). -/
theorem Sewing.openChangeover_state {p : PanelProgram} {s : State} (h : Sewing p s) (q : PanelProgram) (seam : Nat)
    (l : Fin 8) :
    ((openChangeover p q seam s).lane l).state = if (q.assignmentOf l).isSome then .standby else .vacant := by
  rw [openChangeover_lane]
  split
  · rfl
  · exact h.endRun_vacant l

theorem Sewing.endRun_laws {p : PanelProgram} {s : State} (h : Sewing p s) :
    ProgramLaw (endRun p s) ∧ LineLaw (endRun p s) where
  left := ⟨h.programs.staging, h.programs.waiting, fun _ onLine => absurd onLine (by simp [endRun, State.linePanel])⟩
  right :=
    { role := rfl
      noPending := fun seam => absurd seam (by simp [endRun, LineState.feedsSeam])
      position := fun sews => absurd sews (by simp [endRun, LineState.sewsPanel])
      noPosition := fun _ => rfl
      seam := fun seam => absurd seam (by simp [endRun, LineState.feedsSeam])
      noSeam := fun _ => h.noSeam
      lanes := h.endRun_vacant }

/-- The programs after a changeover is opened. -/
theorem Sewing.openChangeover_programs {p q : PanelProgram} {s : State} (h : Sewing p s)
    (next : s.nextPanel p = some q) (seam : Nat) : ProgramLaw (openChangeover p q seam s) :=
  h.programs.of_onLine rfl (.inl rfl) (openChangeover_linePanel p q seam s) (h.nextPanel_wf next)

/-- A changeover with some of its seam left obeys the law of the line. -/
theorem Sewing.openChangeover_lineLaw {p q : PanelProgram} {s : State} (h : Sewing p s) {seam : Nat} (left : 0 < seam)
    (within : seam ≤ p.seamGap) : LineLaw (openChangeover p q seam s) where
  role := rfl
  noPending _ := rfl
  position sews := absurd sews (by simp [openChangeover, LineState.sewsPanel])
  noPosition _ := rfl
  seam _ := by
    obtain ⟨⟨-, -, gap, -⟩, -⟩ := h.wf
    exact ⟨left, Nat.le_trans within gap⟩
  noSeam still := absurd still (by simp [openChangeover, LineState.feedsSeam])
  lanes l := by
    have state := h.openChangeover_state q seam l
    have assigned : (openChangeover p q seam s).assigned l = (q.assignmentOf l).isSome := rfl
    have feeding : (openChangeover p q seam s).line.state = .changeover := rfl
    simp only [State.laneFits, assigned, feeding, LineState.sewsPanel, LineState.feedsSeam, state]
    cases (q.assignmentOf l).isSome <;> rfl

/-! ### A feed, boundary by boundary -/

/-- What keeps a predicate of states over a feed (R72 to R76): Kept holds between feeds, Sews of a panel while a feed is
spent on it. -/
structure FeedRules (Sews : PanelProgram → State → Prop) (Kept : State → Prop) : Prop where
  entered   : ∀ {p s}, Kept s → s.line.state = .running → s.linePanel = some p → Sews p s
  within    : ∀ {p s}, Sews p s → s.line.position < p.length → Kept s
  moved     : ∀ {p s} position, Sews p s → Sews p { s with line.position := position }
  walked    : ∀ {p s} feed, Sews p s → Sews p (walkLanes feed s)
  long      : ∀ {p s}, Sews p s → 1 ≤ p.length
  ended     : ∀ {p s}, Sews p s → Kept (endRun p s)
  opened    : ∀ {p q s} seam, Sews p s → s.nextPanel p = some q → 0 < seam → seam ≤ p.seamGap →
    Kept (openChangeover p q seam s)
  passed    : ∀ {p q s} leftover, Sews p s → s.nextPanel p = some q →
    Sews q (completeChangeover q leftover (openChangeover p q 0 s))
  seamFed   : ∀ {s} seam, Kept s → s.line.state = .changeover → 0 < seam → seam ≤ s.line.seam →
    Kept { s with line.seam := seam }
  completed : ∀ {p s} leftover, Kept s → s.line.state = .changeover → s.linePanel = some p →
    Sews p (completeChangeover p leftover s)

section

variable {Sews : PanelProgram → State → Prop} {Kept : State → Prop}

/-- Boundaries end where the law holds again: each further one spends at least one unit of the excess (R76). -/
theorem FeedRules.boundary (rules : FeedRules Sews Kept) {fuel excess : Nat} (enough : excess < fuel) {p : PanelProgram}
    {s : State} (sews : Sews p s) : Kept (boundary fuel excess p s) := by
  induction fuel generalizing excess p s with
  | zero => exact absurd enough (Nat.not_lt_zero excess)
  | succ fuel ih =>
    cases next : s.nextPanel p with
    | none =>
      have ends : Machine.boundary (fuel + 1) excess p s = endRun p s := by
        rw [Machine.boundary]
        simp only [next]
      rw [ends]
      exact rules.ended sews
    | some q =>
      by_cases gap : excess < p.seamGap
      · have opens : Machine.boundary (fuel + 1) excess p s = openChangeover p q (p.seamGap - excess) s := by
          rw [Machine.boundary]
          simp only [next]
          exact if_pos gap
        rw [opens]
        exact rules.opened _ sews next (by omega) (by omega)
      · have passed := rules.passed (excess - p.seamGap) sews next
        rw [boundary_through next (Nat.not_lt.mp gap)]
        split
        · rename_i below
          refine rules.within passed ?_
          rw [completed_line]
          exact below
        · have long := rules.long passed
          exact ih (by omega) passed

theorem FeedRules.advance (rules : FeedRules Sews Kept) (position : Nat) {p : PanelProgram} {s : State}
    (sews : Sews p s) : Kept (advance p position s) := by
  unfold Machine.advance
  split
  · rename_i below
    exact rules.within (rules.moved position sews) below
  · exact rules.boundary (Nat.lt_succ_self _) sews

theorem FeedRules.deliverFeed (rules : FeedRules Sews Kept) (feed : Nat) {s : State} (kept : Kept s) :
    Kept (deliverFeed feed s) := by
  unfold Machine.deliverFeed
  split
  · rename_i running
    unfold feedRunning
    split
    · rename_i p line
      exact rules.advance _ (rules.walked feed (rules.entered kept running line))
    · exact kept
  · rename_i changeover
    unfold feedChangeover
    split
    · rename_i p line
      split
      · exact rules.seamFed _ kept changeover (by omega) (by omega)
      · exact rules.advance _ (rules.completed _ kept changeover line)
    · exact kept
  all_goals exact kept

end

/-- A feed keeps the form of the programs and the law of the line. -/
theorem lineRules : FeedRules Sewing fun s => ProgramLaw s ∧ LineLaw s where
  entered kept running line := kept.2.sewing kept.1 running line
  within sews below := ⟨sews.programs, sews.lineLaw below⟩
  moved position sews := sews.moved position
  walked feed sews := sews.walked feed
  long sews := sews.wf.1.1
  ended sews := sews.endRun_laws
  opened seam sews next left within := ⟨sews.openChangeover_programs next seam, sews.openChangeover_lineLaw left within⟩
  passed leftover sews next :=
    completeChangeover_sewing (sews.openChangeover_programs next 0) (openChangeover_linePanel _ _ 0 _) leftover
  seamFed seam kept changeover left within := by
    obtain ⟨programs, law⟩ := kept
    obtain ⟨-, most⟩ := law.seam (by rw [changeover]; rfl)
    refine ⟨programs.of_same rfl rfl, law.role, law.noPending, law.position, law.noPosition,
      fun _ => ⟨left, Nat.le_trans within most⟩, fun still => ?_, law.lanes⟩
    exact absurd (show LineState.feedsSeam _ = false from still) (by rw [changeover]; decide)
  completed leftover kept _ line := completeChangeover_sewing kept.1 line leftover

/-! ### Every step -/

theorem resetLine_laws (s : State) : ProgramLaw (resetLine s) ∧ LineLaw (resetLine s) where
  left :=
    ⟨fun _ held => absurd held (by simp [resetLine]), fun _ held => absurd held (by simp [resetLine]),
      fun _ onLine => absurd onLine (by simp [resetLine, State.linePanel])⟩
  right :=
    { role := rfl
      noPending := fun _ => rfl
      position := fun sews => absurd sews (by simp [resetLine, LineState.sewsPanel])
      noPosition := fun _ => rfl
      seam := fun seam => absurd seam (by simp [resetLine, LineState.feedsSeam])
      noSeam := fun _ => rfl
      lanes := fun l => by
        have unassigned : (resetLine s).assigned l = false := rfl
        have blank : (resetLine s).lane l = LaneContext.blank := by simp [resetLine, State.lane]
        simp [State.laneFits, unassigned, blank, LaneContext.blank] }

/-- All a command can do to the line keeps both laws, if a looped frame is there in LOOPTEST alone (R85). -/
theorem LineMove.laws {s t : State} (move : LineMove s t)
    (looped : s.head.tx.inLoop = true → s.line.state = .looptest) (programs : ProgramLaw s) (law : LineLaw s) :
    ProgramLaw t ∧ LineLaw t := by
  cases move with
  | stays line moves =>
    obtain ⟨staging, waiting⟩ := moves.programs programs
    exact ⟨⟨staging, waiting, by rw [line.linePanel]; exact programs.onLine⟩,
      line.lineLaw law (moves.noPending law.noPending)⟩
  | tested inLoop line lanes stager =>
    have stays : LineStays s t :=
      ⟨by rw [line], by rw [line, looped inLoop]; rfl, by rw [line], by rw [line], lanes⟩
    exact ⟨programs.of_same stager stays.linePanel, law.of_stays stays stager⟩
  | lineReset play =>
    obtain ⟨left, right⟩ := resetLine_laws s
    exact ⟨left.of_play play, right.of_play play⟩
  | ran p u pending line stager _ play _ =>
    have sews : Sewing p (startRun p u) :=
      startRun_sewing (programs.of_same stager line.linePanel) (by rw [stager]; exact pending)
    have below : (startRun p u).line.position < p.length := by
      rw [startRun_position]
      exact sews.wf.1.1
    exact ⟨sews.programs.of_play play, (sews.lineLaw below).of_play play⟩
  | fed feed u line stager _ play _ =>
    obtain ⟨left, right⟩ :=
      lineRules.deliverFeed feed ⟨programs.of_same stager line.linePanel, law.of_stays line stager⟩
    exact ⟨left.of_play play, right.of_play play⟩

/-- The model's own queue is nothing the programs held are part of. -/
theorem ProgramLaw.withPending {s : State} (law : ProgramLaw s) (rest : List Instr) :
    ProgramLaw (s.withPending rest) :=
  law.of_same rfl rfl

/-- Settles O56: whatever a command does to the line is one of the moves, and each move keeps both laws. -/
theorem stepKeepsLineLaw : Obligations.StepKeepsLineLaw := by
  intro s t loop programs law h
  rcases step_cases h with rfl | ⟨i, rest, -, h⟩
  · exact ⟨programs, law⟩
  · by_cases reset : i = .powerOnReset
    · subst reset
      cases h
      exact ⟨reset_programLaw.of_play rfl, reset_lineLaw.of_play rfl⟩
    · exact (exec_lineMove h reset).laws loop.looped (programs.withPending rest) (law.withPending rest)

end Sys2Proof.Machine
end

section
/-! Every step keeps the law of the lanes. -/

namespace Sys2Proof.Machine

open Sys2Proof

/-! ### Loop passes (R37, R50) -/

/-- The loop passes of a lane are at most 255 (R37). -/
def LaneContext.passesFit (c : LaneContext) : Prop := c.loopPasses ≤ Config.loopPassMax

theorem countPass_passesFit {c : LaneContext} (h : c.passesFit) : c.countPass.passesFit := by
  unfold LaneContext.passesFit LaneContext.countPass at *
  dsimp only
  split
  · assumption
  · exact h

/-- The end of a pass keeps the bound, if the entry to a record does with the count that is left. -/
theorem passEnded_passesFit {st : Store} {left : Nat} (enters : ∀ (i : Nat) (c : LaneContext), c.passesFit →
    (enterRecord st left i c).1.passesFit) {c : LaneContext} (h : c.passesFit) : (passEnded st left c).1.passesFit := by
  unfold passEnded
  split
  · exact h
  · cases loopTarget st c with
    | none => exact h
    | some j => exact enters j _ (countPass_passesFit h)

/-- Entering records keeps the bound of the loop passes (R47 to R51). -/
theorem enterRecord_passesFit (st : Store) (left i : Nat) {c : LaneContext} (h : c.passesFit) :
    (enterRecord st left i c).1.passesFit := by
  induction left generalizing i c with
  | zero => exact h
  | succ left ih =>
    by_cases inside : i < st.directory[c.motif].length
    · cases spanned : (st.recordAt c.motif i).spanned with
      | some x =>
        rw [enterRecord_spanned inside (target := x.1) (span := x.2.1) (engage := x.2.2) spanned]
        exact h
      | none =>
        rcases Record.spanned_none spanned with ⟨code, mark⟩ | ends
        · rw [enterRecord_mark inside mark]
          split
          · exact h
          · exact ih (i + 1) (c := { c with recordIndex := i }) h
        · rw [enterRecord_end inside ends]
          exact passEnded_passesFit (fun j c h => ih j h) (c := { c with recordIndex := i }) h
    · rw [enterRecord_past (Nat.not_lt.mp inside)]
      exact passEnded_passesFit (fun j c h => ih j h)
        (c := { c with recordIndex := st.directory[c.motif].length - 1 }) h

theorem completeStep_passesFit (st : Store) {c : LaneContext} (h : c.passesFit) : (completeStep st c).passesFit := by
  unfold completeStep
  split <;> exact h

theorem spendFeed_passesFit (st : Store) (fuel feed : Nat) {c : LaneContext} (h : c.passesFit) :
    (spendFeed st fuel feed c).1.passesFit := by
  induction fuel generalizing feed c with
  | zero => exact h
  | succ fuel ih =>
    have entered := enterRecord_passesFit st Config.zeroSpanLimit (c.recordIndex + 1) (completeStep_passesFit st h)
    unfold spendFeed
    split
    · exact h
    · dsimp only
      split
      · exact ih _ entered
      all_goals exact entered

theorem startLane_passesFit (st : Store) (a : Assignment) (c : LaneContext) : (startLane st a c).passesFit := by
  have entered : (enterRecord st Config.zeroSpanLimit 0 (loadLane a c)).1.passesFit :=
    enterRecord_passesFit st _ 0 (Nat.zero_le _)
  unfold startLane
  dsimp only
  split
  · exact spendFeed_passesFit st _ _ entered
  all_goals exact entered

/-! ### Standing in a motif (R37) -/

/-- A lane that is neither SEWING nor HELD need not stand anywhere. -/
theorem standing_of_not_evaluated {st : Store} {c : LaneContext} (h : c.state.dropEvaluated = false) :
    c.standing st := fun evaluated => absurd evaluated (by rw [h]; decide)

theorem standing_of_stands {st : Store} {c : LaneContext} (h : c.stands st) : c.standing st := by
  obtain ⟨-, index, target, span, engage, spanned, left, most⟩ := h
  exact fun _ => ⟨index, (target, span, engage), spanned, left, most⟩

theorem stands_of_standing {st : Store} {c : LaneContext} (h : c.standing st) (sewing : c.state = .sewing) :
    c.stands st := by
  obtain ⟨index, ⟨target, span, engage⟩, spanned, left, most⟩ := h (by rw [sewing]; rfl)
  exact ⟨sewing, index, target, span, engage, spanned, left, most⟩

/-- What a walk or a load leaves of a lane stands, or is at an end. -/
theorem standing_of_result {st : Store} {c : LaneContext}
    (h : c.state = .finished ∨ c.state = .stopped .loopFault ∨ c.stands st) : c.standing st := by
  rcases h with finished | stopped | stands
  · exact standing_of_not_evaluated (by rw [finished]; rfl)
  · exact standing_of_not_evaluated (by rw [stopped]; rfl)
  · exact standing_of_stands stands

/-- A lane that keeps its place stands where it stood. -/
theorem KeepsPlace.standing {st : Store} {c d : LaneContext} (keeps : KeepsPlace c d) (h : c.standing st) :
    d.standing st := by
  unfold LaneContext.standing at *
  simp only [keeps.motif, keeps.scale, keeps.recordIndex, keeps.leftInStep]
  exact fun evaluated => h (keeps.evaluated evaluated)

/-- A motif that keeps its length and its records is stood in as before. -/
theorem standing_of_store {st tt : Store} {c : LaneContext} (h : c.standing st)
    (length : tt.directory[c.motif].length = st.directory[c.motif].length)
    (records : ∀ k < st.directory[c.motif].length, tt.recordAt c.motif k = st.recordAt c.motif k) :
    c.standing tt := by
  intro evaluated
  obtain ⟨index, stands⟩ := h evaluated
  rw [length, records _ index]
  exact ⟨index, stands⟩

/-! ### The law of the lanes (R37) -/

theorem KeepsPlace.placed_before {c d : LaneContext} (h : KeepsPlace c d) (placed : d.state.placed = true) :
    c.state.placed = true := by
  rcases h.placed with same | ⟨before, -⟩
  · rwa [same] at placed
  · exact before

/-- A line with no assignment in progress. -/
theorem LaneLaw.of_unplaced {s : State} (unplaced : ∀ l : Fin 8, (s.lane l).state.placed = false)
    (passes : ∀ l : Fin 8, (s.lane l).passesFit) : LaneLaw s where
  motifs l placed := absurd placed (by rw [unplaced l]; decide)
  standing l evaluated := absurd (placed_of_dropEvaluated evaluated) (by rw [unplaced l]; decide)
  passes := passes

/-- The law of the lanes looks at the line program, the lanes, and the motifs they stand in. -/
theorem LaneLaw.of_keep {s t : State} (law : LaneLaw s) (linePanel : t.linePanel = s.linePanel) (lanes : LanesKeep s t)
    (standing : ∀ l : Fin 8, (s.lane l).standing s.store → (s.lane l).standing t.store) : LaneLaw t where
  motifs l placed := by
    rw [linePanel, (lanes l).motif]
    exact law.motifs l ((lanes l).placed_before placed)
  standing l := (lanes l).standing (standing l (law.standing l))
  passes l := by
    rw [(lanes l).loopPasses]
    exact law.passes l

theorem LaneLaw.of_stays {s t : State} (law : LaneLaw s) (line : LineStays s t) (store : t.store = s.store) :
    LaneLaw t :=
  law.of_keep line.linePanel line.lanes fun _ h => store ▸ h

theorem LaneLaw.of_play {s t : State} (law : LaneLaw s) (play : t.play = s.play) (store : t.store = s.store) :
    LaneLaw t :=
  law.of_stays (.of_play play) store

/-! ### Walks and panel starts -/

/-- A walk keeps the law (R45 to R51). -/
theorem LaneLaw.walked {s : State} (law : LaneLaw s) (spans : SpansPositive s.store) (feed : Nat) :
    LaneLaw (walkLanes feed s) := by
  have linePanel : (walkLanes feed s).linePanel = s.linePanel := linePanel_of_holdings (walkLanes_only feed s).holdings
  have store := (walkLanes_only feed s).store
  have walk (l : Fin 8) : (walkLanes feed s).lane l = s.lane l ∨
      (s.lane l).state = .sewing ∧ (walkLanes feed s).lane l = (walkLane s.store feed (s.lane l)).1 := by
    rw [walkLanes_lane]
    split
    · rename_i sewing
      exact .inr ⟨sewing, rfl⟩
    · exact .inl rfl
  have result (l : Fin 8) (sewing : (s.lane l).state = .sewing) :=
    spendFeed_result spans (feed + 1) feed _ (stands_of_standing (law.standing l) sewing)
  refine ⟨fun l placed => ?_, fun l => ?_, fun l => ?_⟩
  · rw [linePanel]
    rcases walk l with same | ⟨sewing, same⟩
    · rw [same] at placed ⊢
      exact law.motifs l placed
    · rw [same, walkLane, (result l sewing).1.motif]
      exact law.motifs l (by rw [sewing]; rfl)
  · rw [store]
    rcases walk l with same | ⟨sewing, same⟩ <;> rw [same]
    · exact law.standing l
    · exact standing_of_result (result l sewing).2
  · rcases walk l with same | ⟨-, same⟩ <;> rw [same]
    · exact law.passes l
    · exact spendFeed_passesFit s.store _ _ (law.passes l)

/-- A lane after a panel start walks the motif of its assignment, stands in it, and has its passes in bounds
(R41, R42). -/
theorem startedLane_assigned {s : State} (spans : SpansPositive s.store) {p : PanelProgram} {l : Fin 8} {a : Assignment}
    (assigned : p.assignmentOf l = some a) :
    (s.startedLane p l).motif = a.motif ∧ (s.startedLane p l).standing s.store ∧ (s.startedLane p l).passesFit := by
  obtain ⟨same, result⟩ := startLane_result spans a (s.lane l)
  have passes := startLane_passesFit s.store a (s.lane l)
  simp only [State.startedLane, assigned]
  split
  · exact ⟨same.motif, standing_of_not_evaluated rfl, passes⟩
  · exact ⟨same.motif, standing_of_result result, passes⟩

/-- A panel start leaves the lanes under their law, whatever they were but for their passes (R41 to R43). -/
theorem panelStart_laneLaw {p : PanelProgram} {s : State} (spans : SpansPositive s.store)
    (passes : ∀ l : Fin 8, (s.lane l).passesFit) (line : s.linePanel = some p) (position : Nat) :
    LaneLaw (panelStart p position s) := by
  have linePanel : (panelStart p position s).linePanel = some p :=
    (linePanel_of_holdings (panelStart_holdings p position s)).trans line
  have store := (panelStart_line p position s).2.2
  have started (l : Fin 8) : (∃ a, p.assignmentOf l = some a ∧
        ((panelStart p position s).lane l).motif = a.motif ∧
        ((panelStart p position s).lane l).standing s.store ∧ ((panelStart p position s).lane l).passesFit) ∨
      ((panelStart p position s).lane l).state = .vacant ∧ ((panelStart p position s).lane l).passesFit := by
    rw [panelStart_lane]
    cases assigned : p.assignmentOf l with
    | some a => exact .inl ⟨a, rfl, startedLane_assigned spans assigned⟩
    | none =>
      have vacated : s.startedLane p l = { s.lane l with state := .vacant } := by
        simp only [State.startedLane, assigned]
      rw [vacated]
      exact .inr ⟨rfl, passes l⟩
  refine ⟨fun l placed => ?_, fun l => ?_, fun l => ?_⟩
  · rcases started l with ⟨a, assigned, motif, -⟩ | ⟨vacant, -⟩
    · exact ⟨p, linePanel, a, assigned, motif.symm⟩
    · exact absurd placed (by rw [vacant]; decide)
  · rw [store]
    rcases started l with ⟨_, -, -, standing, -⟩ | ⟨vacant, -⟩
    · exact standing
    · exact standing_of_not_evaluated (by rw [vacant]; rfl)
  · rcases started l with ⟨_, -, -, -, fit⟩ | ⟨-, fit⟩ <;> exact fit

theorem startRun_laneLaw {p : PanelProgram} {s : State} (spans : SpansPositive s.store)
    (passes : ∀ l : Fin 8, (s.lane l).passesFit) : LaneLaw (startRun p s) := by
  unfold startRun
  refine panelStart_laneLaw ?_ ?_ rfl 0
  · exact spans
  · exact passes

theorem completeChangeover_laneLaw {p : PanelProgram} {s : State} (spans : SpansPositive s.store)
    (passes : ∀ l : Fin 8, (s.lane l).passesFit) (leftover : Nat) : LaneLaw (completeChangeover p leftover s) := by
  unfold completeChangeover
  refine LaneLaw.walked (panelStart_laneLaw ?_ ?_ rfl leftover) ?_ leftover
  · exact spans
  · exact passes
  · rw [(panelStart_line _ _ _).2.2]
    exact spans

/-! ### A feed -/

theorem endRun_passesFit {s : State} (passes : ∀ l : Fin 8, (s.lane l).passesFit) (p : PanelProgram) (l : Fin 8) :
    ((endRun p s).lane l).passesFit := by
  rw [endRun_lane]
  split <;> exact passes l

theorem openChangeover_passesFit {s : State} (passes : ∀ l : Fin 8, (s.lane l).passesFit) (p q : PanelProgram)
    (seam : Nat) (l : Fin 8) : ((openChangeover p q seam s).lane l).passesFit := by
  rw [openChangeover_lane]
  split <;> exact endRun_passesFit passes p l

/-- No assignment is in progress while a seam is fed (R67, R74). -/
theorem Sewing.openChangeover_unplaced {p : PanelProgram} {s : State} (h : Sewing p s) (q : PanelProgram) (seam : Nat)
    (l : Fin 8) : ((openChangeover p q seam s).lane l).state.placed = false := by
  rw [h.openChangeover_state]
  split <;> rfl

theorem openChangeover_storeLaw {s : State} (law : StoreLaw s.store) (p q : PanelProgram) (seam : Nat) :
    StoreLaw (openChangeover p q seam s).store := by
  refine law.recounted ?_ rfl
  dsimp only [openChangeover]
  split
  · exact releaseAll_recounted p _
  · exact .refl _

/-- What the law of the lanes needs between feeds. -/
structure LanesLawful (s : State) : Prop where
  store    : StoreLaw s.store
  programs : ProgramLaw s
  line     : LineLaw s
  lanes    : LaneLaw s

/-- What the law of the lanes needs while a feed is spent on a panel. -/
structure LanesSewing (p : PanelProgram) (s : State) : Prop where
  store : StoreLaw s.store
  sews  : Sewing p s
  lanes : LaneLaw s

/-- A feed keeps the law of the lanes. -/
theorem laneRules : FeedRules LanesSewing LanesLawful where
  entered kept running line := ⟨kept.store, kept.line.sewing kept.programs running line, kept.lanes⟩
  within h below := ⟨h.store, h.sews.programs, h.sews.lineLaw below, h.lanes⟩
  moved position h := ⟨h.store, h.sews.moved position, h.lanes.of_keep rfl (.of_lanes rfl) fun _ => id⟩
  walked feed h :=
    ⟨by rw [(walkLanes_only feed _).store]; exact h.store, h.sews.walked feed,
      h.lanes.walked h.store.spansPositive feed⟩
  long h := h.sews.wf.1.1
  ended h := by
    obtain ⟨programs, line⟩ := h.sews.endRun_laws
    refine ⟨h.store.recounted (releaseAll_recounted _ _) rfl, programs, line,
      .of_unplaced (fun l => ?_) (endRun_passesFit h.lanes.passes _)⟩
    rw [h.sews.endRun_vacant]
    rfl
  opened seam h next left within :=
    ⟨openChangeover_storeLaw h.store _ _ _, h.sews.openChangeover_programs next seam,
      h.sews.openChangeover_lineLaw left within,
      .of_unplaced (h.sews.openChangeover_unplaced _ _) (openChangeover_passesFit h.lanes.passes _ _ _)⟩
  passed := by
    intro p q s leftover h next
    have store := openChangeover_storeLaw h.store p q 0
    refine ⟨?_, lineRules.passed leftover h.sews next,
      completeChangeover_laneLaw store.spansPositive (openChangeover_passesFit h.lanes.passes _ _ _) leftover⟩
    rw [(completeChangeover_keeps _ _ _).2.1]
    exact store
  seamFed seam kept changeover left within := by
    obtain ⟨programs, line⟩ := lineRules.seamFed seam ⟨kept.programs, kept.line⟩ changeover left within
    exact ⟨kept.store, programs, line, kept.lanes.of_keep rfl (.of_lanes rfl) fun _ => id⟩
  completed leftover kept changeover line := by
    refine ⟨?_, lineRules.completed leftover ⟨kept.programs, kept.line⟩ changeover line,
      completeChangeover_laneLaw kept.store.spansPositive kept.lanes.passes leftover⟩
    rw [(completeChangeover_keeps _ _ _).2.1]
    exact kept.store

/-! ### Every step -/

theorem resetLine_laneLaw {s t : State} (play : t.play = (resetLine s).play) : LaneLaw t := by
  have blank (l : Fin 8) : t.lane l = LaneContext.blank := by
    rw [lane_of_lanes (lanes_of_play play)]
    simp [resetLine, State.lane]
  exact .of_unplaced (fun l => by rw [blank]; rfl) fun l => by rw [blank]; exact Nat.zero_le _

/-- The motif of an assignment in progress is in use (R4). -/
theorem LaneLaw.motif_inUse {s : State} (law : LaneLaw s) (counts : InUseLaw s) {l : Fin 8}
    (placed : (s.lane l).state.placed = true) : 0 < s.store.directory[(s.lane l).motif].inUse := by
  obtain ⟨p, line, a, assigned, motif⟩ := law.motifs l placed
  have named : 0 < p.names (s.lane l).motif :=
    List.countP_pos_iff.mpr ⟨a, List.mem_of_find?_eq_some assigned, by simpa using motif⟩
  rw [counts, show s.linePanel = some p from line]
  simp only [namesIn]
  omega

/-- A command leaves the motifs that lanes stand in as they are: each is in use (R4). -/
theorem LaneLaw.standing_kept {i : Instr} {s t : State} (h : exec i s = .next t) (noReset : i ≠ .powerOnReset)
    (store : StoreLaw s.store) (counts : InUseLaw s) (law : LaneLaw s) (l : Fin 8)
    (standing : (s.lane l).standing s.store) : (s.lane l).standing t.store := by
  cases evaluated : (s.lane l).state.dropEvaluated with
  | false => exact standing_of_not_evaluated evaluated
  | true =>
    have used := law.motif_inUse counts (placed_of_dropEvaluated evaluated)
    obtain ⟨⟨-, -, -, length, -⟩, records⟩ := recordsOfUsedMotifKept.2 i s t _ store h noReset used
    exact standing_of_store standing length records

/-- All a command can do to the line keeps the law of the lanes, if it leaves the motifs they stand in. -/
theorem LineMove.laneLaw {s t : State} (move : LineMove s t) (store : StoreLaw s.store) (programs : ProgramLaw s)
    (line : LineLaw s) (law : LaneLaw s)
    (motifs : ∀ l : Fin 8, (s.lane l).standing s.store → (s.lane l).standing t.store) : LaneLaw t := by
  cases move with
  | stays stays _ => exact law.of_keep stays.linePanel stays.lanes motifs
  | tested _ same lanes _ => exact law.of_keep (by rw [State.linePanel, same]; rfl) lanes motifs
  | lineReset play => exact resetLine_laneLaw play
  | ran p u _ stays _ before play after =>
    have kept := law.of_stays stays before
    exact (startRun_laneLaw (before ▸ store).spansPositive kept.passes).of_play play after
  | fed feed u stays stager before play after =>
    have kept : LanesLawful u :=
      ⟨before ▸ store, programs.of_same stager stays.linePanel, line.of_stays stays stager, law.of_stays stays before⟩
    exact (laneRules.deliverFeed feed kept).lanes.of_play play after

/-- Settles O58: whatever a command does to the line is one of the moves, each move keeps the law, and no command changes
a motif that a lane stands in. -/
theorem stepKeepsLaneLaw : Obligations.StepKeepsLaneLaw := by
  intro s t store counts programs line law h
  rcases step_cases h with rfl | ⟨i, rest, -, h⟩
  · exact law
  · by_cases reset : i = .powerOnReset
    · subst reset
      cases h
      exact reset_laneLaw.of_play rfl rfl
    · have law : LaneLaw (s.withPending rest) := law.of_play rfl rfl
      exact (exec_lineMove h reset).laneLaw store (programs.withPending rest) (line.withPending rest) law
        (law.standing_kept h reset store counts)

end Sys2Proof.Machine
end

section
/-! The line sequencer's halts, resumes and loop test: BREAK_BEGIN, HALT, RESUME, LOOP_TEST, and the looped frame from its
beginning to the completion of the test (chapter 4, sections 6.5 and 8.4). -/

namespace Sys2Proof.Machine

open Sys2Proof

/-! ### BREAK_BEGIN (R77, R78, R156) -/

/-- Settles O23: the receiver enters BREAK, and what the line does is the entry to HALTED with cause BREAK. -/
theorem breakBeginHaltsSewingLine : Obligations.BreakBeginHaltsSewingLine := by
  intro s broken
  exact ⟨fun w sews => congrArg Host.Outcome.next (haltLine_of (s := broken) (w := w) sews .linkBreak),
    fun still => congrArg Host.Outcome.next (haltLine_stays (s := broken) still .linkBreak)⟩

/-! ### The line commands without arguments (R169) -/

/-- A front command that takes no arguments and carries none does what its rule says. -/
theorem bareCommand_ready {s : State} {c : Command} (ready : s.frontReady c) {code : Byte} (isCode : c.code = code)
    (args : c.args = []) (judge : State → Effect) :
    executeFront (Command.hasCode code) (fun args t => withLength 0 args (judge t) t) s = settle c (judge s) :=
  lengthCommand_ready ready (hasCode_of isCode) (n := 0) (by rw [args]; rfl) fun _ t => judge t

section

variable {s : State} {c : Command}

theorem exec_halt (ready : s.frontReady c) (code : c.code = 0x21) (args : c.args = []) :
    exec .halt s = .next (settle c (judgeHalt s)) :=
  congrArg Host.Outcome.next (bareCommand_ready ready code args judgeHalt)

theorem exec_resume (ready : s.frontReady c) (code : c.code = 0x22) (args : c.args = []) :
    exec .resume s = .next (settle c (judgeResume s)) :=
  congrArg Host.Outcome.next (bareCommand_ready ready code args judgeResume)

theorem exec_loopTest (ready : s.frontReady c) (code : c.code = 0x24) (args : c.args = []) :
    exec .loopTest s = .next (settle c (judgeLoopTest s)) :=
  congrArg Host.Outcome.next (bareCommand_ready ready code args judgeLoopTest)

end

/-! ### HALT (R78, R79) -/

theorem judgeHalt_sewing {s : State} {w : ResumeState} (sews : s.line.state = w.lineState) :
    judgeHalt s =
      replyWith .done [(LineState.halted .command w).statusByte]
        { s with line.state := .halted .command w, strokes.queue := [], strokes.consecutive := 0 } := by
  have halted := haltLine_of sews .command
  cases w <;> simp only [judgeHalt, sews, ResumeState.lineState, halted]

theorem judgeHalt_refused {s : State} (still : s.line.state = .idle ∨ s.line.state.isHalted = true) :
    judgeHalt s = reply .wrongState s := by
  unfold judgeHalt
  cases state : s.line.state with
  | idle | halted _ _ | looptest => rfl
  | running | changeover => simp [state, LineState.isHalted] at still

/-! ### RESUME (R80) -/

theorem judgeResume_not_halted {s : State} (moving : s.line.state.isHalted = false) :
    judgeResume s = reply .wrongState s := by
  unfold judgeResume
  cases state : s.line.state with
  | idle | running | changeover | looptest => rfl
  | halted _ _ => simp [state, LineState.isHalted] at moving

theorem judgeResume_in_break {s : State} (halted : s.line.state.isHalted = true) (inBreak : s.link.breakState = true) :
    judgeResume s = reply .breakActive s := by
  unfold judgeResume
  cases state : s.line.state with
  | halted _ _ => exact if_pos inBreak
  | idle | running | changeover | looptest => simp [state, LineState.isHalted] at halted

theorem judgeResume_resumes {s : State} {cause : HaltCause} {w : ResumeState} (halted : s.line.state = .halted cause w)
    (noBreak : s.link.breakState = false) :
    judgeResume s = replyWith .done [w.lineState.statusByte] { s with line.state := w.lineState } := by
  simp [judgeResume, halted, noBreak]

/-- Settles O38: each command by the line states its rule distinguishes, the status bytes by their layout (R163). -/
theorem haltAndResume : Obligations.HaltAndResume := by
  intro s c ready args
  refine ⟨fun code => ?_, fun code => ?_⟩
  · rw [exec_halt ready code args]
    refine ⟨fun running => ?_, fun changeover => ?_, fun still => ?_⟩
    · rw [judgeHalt_sewing (w := .running) running]
      rfl
    · rw [judgeHalt_sewing (w := .changeover) changeover]
      rfl
    · rw [judgeHalt_refused still, settle_reply]
  · rw [exec_resume ready code args]
    refine ⟨fun moving => ?_, fun halted inBreak => ?_, fun cause noBreak => ⟨fun halted => ?_, fun halted => ?_⟩⟩
    · rw [judgeResume_not_halted moving, settle_reply]
    · rw [judgeResume_in_break halted inBreak, settle_reply]
    · rw [judgeResume_resumes halted noBreak]
      rfl
    · rw [judgeResume_resumes halted noBreak]
      rfl

/-! ### The looped frame begins (R123, R124) -/

/-- A test that has the transmitter, in LOOP or claimed and FREE, begins its frame. -/
theorem beginLoopedFrame_begins {s : State} (has : s.head.tx = .loop none ∨ s.head.tx = .free ∧ s.head.claim = true) :
    beginLoopedFrame s = { s with head.tx := s.loopedFrame } := by
  rcases has with loop | ⟨free, claim⟩
  · simp only [beginLoopedFrame, loop]
  · simp only [beginLoopedFrame, free, claim, if_true]

/-- A frame under way or its open window keeps the transmitter from the test. -/
theorem beginLoopedFrame_waits {s : State}
    (busy : (∃ f, s.head.tx = .sending f) ∨ (∃ received, s.head.tx = .window received)) : beginLoopedFrame s = s := by
  rcases busy with ⟨f, sending⟩ | ⟨received, window⟩
  · simp only [beginLoopedFrame, sending]
  · simp only [beginLoopedFrame, window]

/-! ### LOOP_TEST (R84, R89, R123, R173) -/

theorem judgeLoopTest_refused {s : State} (busy : s.line.state ≠ .idle) : judgeLoopTest s = reply .wrongState s :=
  if_neg busy

/-- An accepted LOOP_TEST starts from the state its waited index leaves, and gives no answer. -/
theorem exec_loopTest_idle {s : State} {c : Command} (ready : s.frontReady c) (code : c.code = 0x24) (args : c.args = [])
    (idle : s.line.state = .idle) : exec .loopTest s = .next (startLoopTest (serveWaited s)) := by
  rw [exec_loopTest ready code args, judgeLoopTest, if_pos idle, settle_silent]

theorem startLoopTest_free {s : State} (free : s.head.tx = .free) :
    startLoopTest s =
      { s with
        line.state := .looptest
        strokes.queue := []
        head.claim := true
        mgmt.reserved := true
        head.tx := .loop (some { count := s.head.segmentCount, passed := [] }) } :=
  beginLoopedFrame_begins (.inr ⟨free, rfl⟩)

theorem startLoopTest_busy {s : State}
    (busy : (∃ f, s.head.tx = .sending f) ∨ (∃ received, s.head.tx = .window received)) :
    startLoopTest s =
      { s with line.state := .looptest, strokes.queue := [], head.claim := true, mgmt.reserved := true } :=
  beginLoopedFrame_waits busy

/-- A waited index that is due is served: none waits any more, and its frame is being sent (R85, R114). -/
theorem serveWaited_sends {s : State} (waits : s.head.waiting = true) (unclaimed : s.head.claim = false)
    (clear : s.hldirOutbound = false) :
    (serveWaited s).head.waiting = false ∧ ∃ f, (serveWaited s).head.tx = .sending f := by
  obtain ⟨sending, -, -, waiting, -⟩ := serveIndex_head s.unwaited
  rw [serveWaited_due waits unclaimed clear]
  exact ⟨waiting, sending⟩

/-- Settles O40: outside IDLE the refusal, in IDLE the start of the test by what holds the transmitter. -/
theorem loopTestClaimsTransmitter : Obligations.LoopTestClaimsTransmitter := by
  intro s c ready code args
  refine ⟨fun busy => ?_, fun idle => ⟨rfl, serveWaited_not_waiting, serveWaited_sends, fun free => ?_, fun busy => ?_⟩⟩
  · rw [exec_loopTest ready code args, judgeLoopTest_refused busy, settle_reply]
  · rw [exec_loopTest_idle ready code args idle, startLoopTest_free free]
  · rw [exec_loopTest_idle ready code args idle, startLoopTest_busy busy]

/-! ### The test slots (R124, R125, R173) -/

theorem testSlotArrives_inner {s : State} {test : LoopedFrame} (loop : s.head.tx = .loop (some test))
    (inner : test.passed.length + 1 < test.count) (x : Slot) :
    testSlotArrives x s =
      { s with
        head.tx := .loop (some { count := test.count, passed := test.passed ++ [x.testPass test.passed.length] }) } := by
  simp only [testSlotArrives, loop, List.length_append, List.length_singleton, if_pos inner]

theorem testSlotArrives_last {s : State} {test : LoopedFrame} (loop : s.head.tx = .loop (some test))
    (last : test.count ≤ test.passed.length + 1) (x : Slot) :
    testSlotArrives x s = completeLoopTest (test.passed ++ [x.testPass test.passed.length]) s := by
  simp only [testSlotArrives, loop, List.length_append, List.length_singleton, if_neg (Nat.not_lt.mpr last)]

/-- The completion answers the LOOP_TEST that stands at the front of the command queue (R125, R173). -/
theorem completeLoopTest_answers {s : State} {c : Command} {rest : List Command} (front : s.mgmt.commands = c :: rest)
    (passed : List Bool) :
    completeLoopTest passed s =
      answered c .done (le16 (bitsToNat passed))
        { s with head.tx := .free, head.claim := false, line.state := .idle, mgmt.reserved := false } := by
  simp only [completeLoopTest, front]
  rfl

/-- The first byte of a test slot spells its segment, with the bobbin-low bit set in odd ones (R124, R166). -/
theorem testByte_fields {k : Nat} (small : k < 16) :
    ((byteOf (k + 16 * (k % 2))).extractLsb' 0 4).toNat = k ∧
      (byteOf (k + 16 * (k % 2))).getLsbD 4 = decide (k % 2 = 1) := by
  have spelled : ∀ k : Fin 16, ((byteOf (k.val + 16 * (k.val % 2))).extractLsb' 0 4).toNat = k.val ∧
      (byteOf (k.val + 16 * (k.val % 2))).getLsbD 4 = decide (k.val % 2 = 1) := by decide
  exact spelled ⟨k, small⟩

/-- A slot with a good check, the fields of the first byte and the fixed pattern passes (R124). -/
theorem testPass_of {k : Nat} {x : Slot} (good : x.checkGood = true) (segment : x.segment = k)
    (pattern : x.present = if k % 2 = 0 then 0x55 else 0xAA) (low : x.bobbinLow = decide (k % 2 = 1)) :
    x.testPass k = true := by
  simp [Slot.testPass, Slot.goodReturn, good, segment, pattern, low]

/-- The slot the part sends for a segment passes its own test. -/
theorem testSlotBytes_pass {k : Nat} (small : k < 16) :
    ∃ a b c, testSlotBytes k = [a, b, c] ∧
      Slot.testPass k { byte0 := a, byte1 := b, check := c, framing := false } = true := by
  obtain ⟨segment, low⟩ := testByte_fields small
  exact ⟨_, _, _, rfl, testPass_of (by simp [Slot.checkGood]) segment rfl low⟩

/-- Settles O17: the frame begins, an inner slot is noted, the last one completes the test, and sent slots pass. -/
theorem loopTestRunsToCompletion : Obligations.LoopTestRunsToCompletion := by
  intro s x
  refine ⟨fun has => congrArg Host.Outcome.next (beginLoopedFrame_begins has),
    fun test loop inner => congrArg Host.Outcome.next (testSlotArrives_inner loop inner x),
    fun test c rest loop last front => congrArg Host.Outcome.next ?_, fun k small => testSlotBytes_pass small⟩
  calc testSlotArrives x s
    _ = completeLoopTest (test.passed ++ [x.testPass test.passed.length]) s := testSlotArrives_last loop last x
    _ = _ := completeLoopTest_answers front _

end Sys2Proof.Machine
end

section
/-! What a command does to the counts, the segments, the fault mask with the rethread set, and the stroke link: every
command keeps their four laws (`exec_lawful`), and every command but those that serve an index keeps the frame serial
besides (`exec_quiet`). -/

namespace Sys2Proof.Machine

open Sys2Proof

/-! ### What the four laws look at -/

/-- What the law of the counts looks at (R94 to R96, R137, R145, R154). -/
structure Counts where
  limit       : Nat
  consecutive : Nat
  total       : Nat
  errors      : Nat
  breaks      : Nat
  drops       : Vector Nat 8

/-- The counts of a state. -/
def State.counts (s : State) : Counts :=
  { limit := s.strokes.limit, consecutive := s.strokes.consecutive, total := s.strokes.total,
    errors := s.link.errorCount, breaks := s.thread.totalBreaks, drops := s.thread.dropLimit }

/-- The receiving half of the stroke link (R152, R156). -/
structure Incoming where
  receiver   : Receiver
  heldSpace  : Bool
  breakState : Bool

/-- The receiving half of a state. -/
def State.incoming (s : State) : Incoming :=
  { receiver := s.link.receiver, heldSpace := s.link.heldSpace, breakState := s.link.breakState }

/-- The return transmitter, and what waits for it (R158). -/
structure Outgoing where
  tx      : Option ReturnCell
  slot    : Option Report
  answers : List Answer

/-- The sending half of a state. -/
def State.outgoing (s : State) : Outgoing :=
  { tx := s.link.tx, slot := s.strokes.slot, answers := s.mgmt.answers }

/-- All that the four laws look at, and the frame serial. -/
structure Accounts where
  serial       : Serial
  counts       : Counts
  segments     : Vector Segment 16
  segmentCount : Nat
  faultMask    : Vector Pattern 16
  rethread     : Vector Pattern 16
  incoming     : Incoming
  outgoing     : Outgoing

/-- The accounts of a state. -/
def State.accounts (s : State) : Accounts :=
  { serial := s.head.frameSerial, counts := s.counts, segments := s.head.segments, segmentCount := s.head.segmentCount,
    faultMask := s.thread.faultMask, rethread := s.thread.rethread, incoming := s.incoming,
    outgoing := s.outgoing }

theorem CountLaw.of_counts {s t : State} (law : CountLaw s) (h : t.counts = s.counts) : CountLaw t := by
  simp only [State.counts, Counts.mk.injEq] at h
  obtain ⟨limit, consecutive, total, errors, breaks, drops⟩ := h
  refine ⟨?_, ?_, ?_, ?_, ?_, fun l => ?_⟩
  · rw [limit]; exact law.limit
  · rw [consecutive, limit]; exact law.consecutive
  · rw [total]; exact law.total
  · rw [errors]; exact law.errors
  · rw [breaks]; exact law.breaks
  · rw [drops]; exact law.drops l

theorem SegmentLaw.of_segments {s t : State} (law : SegmentLaw s) (segments : t.head.segments = s.head.segments)
    (count : t.head.segmentCount = s.head.segmentCount) : SegmentLaw t where
  counts g := by rw [segments]; exact law.counts g
  off g := by rw [segments, count]; exact law.off g

theorem RethreadLaw.of_sets {s t : State} (law : RethreadLaw s) (fault : t.thread.faultMask = s.thread.faultMask)
    (rethread : t.thread.rethread = s.thread.rethread) : RethreadLaw t := by
  intro g
  rw [fault, rethread]
  exact law g

/-- The law of the link with the receiving half as it was. -/
theorem LinkLaw.of_incoming {s t : State} (law : LinkLaw s) (incoming : t.incoming = s.incoming)
    (free : t.link.tx = none → t.strokes.slot = none ∧ t.mgmt.answers = []) : LinkLaw t := by
  simp only [State.incoming, Incoming.mk.injEq] at incoming
  obtain ⟨receiver, held, broken⟩ := incoming
  refine ⟨?_, ?_, ?_, free⟩
  · rw [receiver, broken]; exact law.inBreak
  · rw [broken, held]; exact law.held
  · rw [receiver]; exact law.cell

theorem LinkLaw.of_link {s t : State} (law : LinkLaw s) (incoming : t.incoming = s.incoming)
    (outgoing : t.outgoing = s.outgoing) : LinkLaw t := by
  simp only [State.outgoing, Outgoing.mk.injEq] at outgoing
  obtain ⟨tx, slot, answers⟩ := outgoing
  exact law.of_incoming incoming (by rw [tx, slot, answers]; exact law.free)

/-! ### Lawful and quiet changes -/

/-- The four laws are kept from s to t, each whatever else holds. -/
structure Lawful (s t : State) : Prop where
  count    : CountLaw s → CountLaw t
  segment  : SegmentLaw s → SegmentLaw t
  rethread : RethreadLaw s → RethreadLaw t
  link     : LinkLaw s → LinkLaw t

/-- The four laws are kept, and no frame is formed: the frame serial stays (R115). -/
structure Quiet (s t : State) : Prop extends Lawful s t where
  serial : t.head.frameSerial = s.head.frameSerial

theorem Lawful.trans {s t u : State} (h : Lawful s t) (k : Lawful t u) : Lawful s u :=
  ⟨k.count ∘ h.count, k.segment ∘ h.segment, k.rethread ∘ h.rethread, k.link ∘ h.link⟩

theorem Quiet.refl (s : State) : Quiet s s := ⟨⟨id, id, id, id⟩, rfl⟩

theorem Quiet.trans {s t u : State} (h : Quiet s t) (k : Quiet t u) : Quiet s u :=
  ⟨h.toLawful.trans k.toLawful, k.serial.trans h.serial⟩

/-- What leaves the accounts but for the frame serial is lawful. -/
theorem Lawful.of_accounts {s t : State} {serial : Serial} (h : t.accounts = { s.accounts with serial := serial }) :
    Lawful s t where
  count law := law.of_counts (congrArg Accounts.counts h)
  segment law := law.of_segments (congrArg Accounts.segments h) (congrArg Accounts.segmentCount h)
  rethread law := law.of_sets (congrArg Accounts.faultMask h) (congrArg Accounts.rethread h)
  link law := law.of_link (congrArg Accounts.incoming h) (congrArg Accounts.outgoing h)

/-- What leaves the accounts is quiet. -/
theorem Quiet.of_accounts {s t : State} (h : t.accounts = s.accounts) : Quiet s t :=
  ⟨.of_accounts h, congrArg Accounts.serial h⟩

/-- What changes the counts alone is quiet, if it keeps their law. -/
theorem Quiet.of_counts {s t : State} {counts : Counts} (h : t.accounts = { s.accounts with counts := counts })
    (count : CountLaw s → CountLaw t) : Quiet s t where
  count := count
  segment law := law.of_segments (congrArg Accounts.segments h) (congrArg Accounts.segmentCount h)
  rethread law := law.of_sets (congrArg Accounts.faultMask h) (congrArg Accounts.rethread h)
  link law := law.of_link (congrArg Accounts.incoming h) (congrArg Accounts.outgoing h)
  serial := congrArg Accounts.serial h

/-- What changes the segments alone is quiet, if it keeps their law. -/
theorem Quiet.of_segments {s t : State} {segments : Vector Segment 16} {n : Nat}
    (h : t.accounts = { s.accounts with segments := segments, segmentCount := n })
    (segment : SegmentLaw s → SegmentLaw t) : Quiet s t where
  count law := law.of_counts (congrArg Accounts.counts h)
  segment := segment
  rethread law := law.of_sets (congrArg Accounts.faultMask h) (congrArg Accounts.rethread h)
  link law := law.of_link (congrArg Accounts.incoming h) (congrArg Accounts.outgoing h)
  serial := congrArg Accounts.serial h

/-- What changes fault mask and rethread set alone is quiet, if it keeps their law. -/
theorem Quiet.of_sets {s t : State} {fault rethread : Vector Pattern 16}
    (h : t.accounts = { s.accounts with faultMask := fault, rethread := rethread })
    (sets : RethreadLaw s → RethreadLaw t) : Quiet s t where
  count law := law.of_counts (congrArg Accounts.counts h)
  segment law := law.of_segments (congrArg Accounts.segments h) (congrArg Accounts.segmentCount h)
  rethread := sets
  link law := law.of_link (congrArg Accounts.incoming h) (congrArg Accounts.outgoing h)
  serial := congrArg Accounts.serial h

/-- What changes the receiving half of the link alone is quiet, if it keeps the law of the link. -/
theorem Quiet.of_incoming {s t : State} {incoming : Incoming} (h : t.accounts = { s.accounts with incoming := incoming })
    (link : LinkLaw s → LinkLaw t) : Quiet s t where
  count law := law.of_counts (congrArg Accounts.counts h)
  segment law := law.of_segments (congrArg Accounts.segments h) (congrArg Accounts.segmentCount h)
  rethread law := law.of_sets (congrArg Accounts.faultMask h) (congrArg Accounts.rethread h)
  link := link
  serial := congrArg Accounts.serial h

/-- What changes the sending half of the link alone is quiet, if a FREE transmitter is left with nothing to send. -/
theorem Quiet.of_outgoing {s t : State} {outgoing : Outgoing} (h : t.accounts = { s.accounts with outgoing := outgoing })
    (free : t.link.tx = none → t.strokes.slot = none ∧ t.mgmt.answers = []) : Quiet s t where
  count law := law.of_counts (congrArg Accounts.counts h)
  segment law := law.of_segments (congrArg Accounts.segments h) (congrArg Accounts.segmentCount h)
  rethread law := law.of_sets (congrArg Accounts.faultMask h) (congrArg Accounts.rethread h)
  link law := law.of_incoming (congrArg Accounts.incoming h) free
  serial := congrArg Accounts.serial h

theorem OnlyStops.accounts {s t : State} (h : OnlyStops s t) : t.accounts = s.accounts := by
  obtain ⟨_, _, rfl⟩ := h
  rfl

theorem OnlyWalks.accounts {s t : State} (h : OnlyWalks s t) : t.accounts = s.accounts := by
  obtain ⟨_, _, _, rfl⟩ := h
  rfl

/-! ### Counts -/

theorem saturate_le {n : Nat} (h : n ≤ Config.countMax) : saturate n ≤ Config.countMax := by
  unfold saturate
  split <;> omega

/-- The entry to HALTED: the consecutive count becomes 0, below any limit (R94). -/
theorem haltLine_quiet (cause : HaltCause) (s : State) : Quiet s (haltLine cause s) := by
  unfold haltLine
  split
  case h_1 | h_2 => exact .of_counts rfl fun law => { law with consecutive := law.limit.1 }
  all_goals exact .refl s

/-- A dwell stroke of a moving line: it halts when the consecutive count reaches the limit (R94, R95). -/
theorem dwellStroke_quiet {s : State} (moving : s.line.state = .running ∨ s.line.state = .changeover) :
    Quiet s (dwellStroke s) := by
  obtain ⟨w, resumes⟩ : ∃ w : ResumeState, s.line.state = w.lineState := by
    rcases moving with state | state
    · exact ⟨.running, state⟩
    · exact ⟨.changeover, state⟩
  unfold dwellStroke
  dsimp only
  split
  · rename_i below
    exact .of_counts rfl fun law => { law with consecutive := below, total := saturate_le law.total }
  · rw [haltLine_of (w := w)]
    · exact .of_counts rfl fun law => { law with consecutive := law.limit.1, total := saturate_le law.total }
    · exact resumes

/-! ### Segments (R119) -/

theorem afterBad_wf {x : Segment} (h : x.wf) : x.afterBad.wf := by
  unfold Segment.afterBad
  cases state : x.state with
  | online => exact .inl rfl
  | suspect =>
    dsimp only
    split
    · exact .inr rfl
    · rfl
  | lost => exact h
  | off => exact h

theorem afterBad_off (x : Segment) : x.afterBad.state = .off ↔ x.state = .off := by
  unfold Segment.afterBad
  cases state : x.state with
  | suspect =>
    dsimp only
    split <;> simp
  | online | lost | off => simp [state]

/-- A segment replaced by a good one that is OFF exactly if it was. -/
theorem SegmentLaw.of_set {s t : State} (law : SegmentLaw s) {g : Fin 16} {x : Segment}
    (segments : t.head.segments = s.head.segments.set g x) (count : t.head.segmentCount = s.head.segmentCount)
    (wf : x.wf) (off : x.state = .off ↔ s.head.segments[g].state = .off) : SegmentLaw t where
  counts k := by
    simp only [segments, Fin.getElem_fin, Vector.getElem_set]
    split
    · exact wf
    · exact law.counts k
  off k := by
    simp only [segments, count, Fin.getElem_fin, Vector.getElem_set]
    split
    · rename_i same
      rw [off, law.off g, same]
    · exact law.off k

/-- A segment set where the law asks of it what it has (R119). -/
theorem setSegment_quiet {g : Fin 16} {x : Segment} {s : State} (wf : x.wf)
    (off : SegmentLaw s → (x.state = .off ↔ s.head.segments[g].state = .off)) : Quiet s (setSegment g x s) := by
  obtain ⟨_, e⟩ := setSegment_keeps g x s
  rw [e]
  exact .of_segments rfl fun law => law.of_set rfl rfl wf (off law)

theorem badReturn_quiet (g : Fin 16) (s : State) : Quiet s (badReturn g s) := by
  obtain ⟨_, _, _, _, e⟩ := badReturn_keeps g s
  rw [e]
  exact .of_segments rfl fun law => law.of_set rfl rfl (afterBad_wf (law.counts g)) (afterBad_off _)

theorem closePosition_quiet (received : List Bool) (s : State) (g : Fin 16) :
    Quiet s (closePosition received s g) := by
  unfold closePosition
  split
  · exact badReturn_quiet g s
  · exact .refl s
  · exact .refl s

theorem endWindow_quiet (s : State) : Quiet s (endWindow s) := by
  unfold endWindow
  split
  · exact Quiet.trans (t := { s with head.tx := .free }) (.of_accounts rfl)
      (foldl_keeps Quiet.refl Quiet.trans (closePosition_quiet _) (List.finRange 16) _)
  all_goals exact .refl s

/-- A segment under a new N keeps the form of its count, and is OFF exactly from N on (R105). -/
theorem under_wf {x : Segment} (h : x.wf) (n : Nat) (g : Fin 16) : (x.under n g).wf := by
  unfold Segment.under
  split
  · split
    · rfl
    · exact h
  · split
    · exact h
    · rfl

theorem under_off (x : Segment) (n : Nat) (g : Fin 16) : (x.under n g).state = .off ↔ n ≤ g.val := by
  unfold Segment.under
  split
  · split <;> simp_all
  · split <;> simp_all

theorem takeSegmentCount_quiet (n : Nat) (s : State) : Quiet s (takeSegmentCount n s) := by
  have taken : (takeSegmentCount n s).accounts =
      { s.accounts with segments := tabulate fun g => s.head.segments[g].under n g, segmentCount := n } := by
    unfold takeSegmentCount
    dsimp only
    split <;> rfl
  refine .of_segments taken fun law => ?_
  have segments : (takeSegmentCount n s).head.segments = tabulate fun g => s.head.segments[g].under n g :=
    congrArg Accounts.segments taken
  have count : (takeSegmentCount n s).head.segmentCount = n := congrArg Accounts.segmentCount taken
  refine ⟨fun g => ?_, fun g => ?_⟩
  · simp only [segments, Fin.getElem_fin, tabulate_getElem]
    exact under_wf (law.counts g) n g
  · simp only [segments, count, Fin.getElem_fin, tabulate_getElem]
    exact under_off _ n g

/-! ### The fault mask and the rethread set (R132 to R136) -/

/-- A pattern lies within another, position by position. -/
theorem within_iff (r f : Pattern) : r &&& ~~~f = 0 ↔ ∀ i < 8, r.getLsbD i = true → f.getLsbD i = true := by
  constructor
  · intro nothing i hi member
    have bit := congrArg (BitVec.getLsbD · i) nothing
    simpa [hi, member] using bit
  · intro within
    refine BitVec.eq_of_getLsbD_eq fun i hi => ?_
    cases member : r.getLsbD i with
    | false => simp [member]
    | true => simp [member, within i hi member]

/-- A segment's sets replaced, the rethread set within the fault mask. -/
theorem RethreadLaw.of_set {s t : State} (law : RethreadLaw s) {g : Fin 16} {r f : Pattern}
    (rethread : t.thread.rethread = s.thread.rethread.set g r)
    (fault : t.thread.faultMask = s.thread.faultMask.set g f) (within : r &&& ~~~f = 0) : RethreadLaw t := by
  intro k
  simp only [rethread, fault, Fin.getElem_fin, Vector.getElem_set]
  split
  · exact within
  · exact law k

/-- A needle that leaves the rethread set leaves the law. -/
theorem leaveRethread_quiet (g : Fin 16) (p : Fin 8) (s : State) : Quiet s (leaveRethread g p s) := by
  refine .of_sets rfl fun law => law.of_set (g := g) rfl (Vector.set_getElem_self _).symm ?_
  have within := (within_iff _ _).mp (law g)
  refine (within_iff _ _).mpr fun i hi member => within i hi ?_
  simp only [BitVec.getLsbD_and, Bool.and_eq_true] at member
  exact member.1

/-- A masked needle that joins the rethread set keeps the law (R134). -/
theorem joinRethread_quiet {g : Fin 16} {p : Fin 8} {s : State} (masked : s.thread.faultMask[g].getLsbD p = true) :
    Quiet s (joinRethread g p s) := by
  refine .of_sets rfl fun law => law.of_set (g := g) rfl (Vector.set_getElem_self _).symm ?_
  have within := (within_iff _ _).mp (law g)
  refine (within_iff _ _).mpr fun i hi member => ?_
  simp only [BitVec.getLsbD_or, Bool.or_eq_true, bitOf_getLsbD, decide_eq_true_eq] at member
  rcases member with member | rfl
  · exact within i hi member
  · exact masked

theorem joinFault_quiet (g : Fin 16) (p : Fin 8) (s : State) : Quiet s (joinFault g p s) := by
  refine .of_sets rfl fun law => law.of_set (g := g) (Vector.set_getElem_self _).symm rfl ?_
  have within := (within_iff _ _).mp (law g)
  refine (within_iff _ _).mpr fun i hi member => ?_
  simp only [BitVec.getLsbD_or, Bool.or_eq_true]
  exact .inl (within i hi member)

/-- A needle leaves both sets together (R136). -/
theorem releaseNeedle_quiet (g : Fin 16) (p : Fin 8) (s : State) : Quiet s (releaseNeedle g p s) := by
  refine .of_sets rfl fun law => law.of_set (g := g) rfl rfl ?_
  have within := (within_iff _ _).mp (law g)
  refine (within_iff _ _).mpr fun i hi member => ?_
  simp only [BitVec.getLsbD_and, Bool.and_eq_true] at member ⊢
  exact ⟨within i hi member.1, member.2⟩

/-- The release at a panel start empties the rethread set: every member is in both sets (R135). -/
theorem releaseRethreaded_quiet (s : State) : Quiet s (releaseRethreaded s) := by
  refine .of_sets rfl fun law g => ?_
  have emptied : (releaseRethreaded s).thread.rethread[g] = 0 := by
    simp only [releaseRethreaded, Fin.getElem_fin, tabulate_getElem]
    exact law g
  rw [emptied]
  exact BitVec.zero_and

theorem threadBreak_quiet (g : Fin 16) (p : Fin 8) (s : State) : Quiet s (threadBreak g p s) := by
  have counted : Quiet (joinFault g p s)
      { joinFault g p s with thread.totalBreaks := saturate s.thread.totalBreaks } :=
    .of_counts rfl fun law => { law with breaks := saturate_le law.breaks }
  rw [threadBreak_eq]
  obtain ⟨_, _, offered⟩ := offerDefect_keeps (s.defectNow (.threadBreak p) g)
    { joinFault g p s with thread.totalBreaks := saturate s.thread.totalBreaks }
  refine ((joinFault_quiet g p s).trans counted).trans (.of_accounts ?_)
  rw [(evaluateSegment_only g _).accounts, offered]
  rfl

theorem judgePosition_quiet (g : Fin 16) (reported : Pattern) (s : State) (p : Fin 8) :
    Quiet s (judgePosition g reported s p) := by
  have judged (v : Presence) : Quiet s (setPresence g p v s) := .of_accounts rfl
  rcases judgePosition_cases g reported s p with ⟨v, e⟩ | e | ⟨-, e⟩ | ⟨-, e⟩ | ⟨masked, e⟩ <;> rw [e]
  · exact judged v
  · exact .refl s
  · exact (judged .absent).trans (leaveRethread_quiet g p _)
  · exact (judged .absent).trans (threadBreak_quiet g p _)
  · exact (judged .present).trans (joinRethread_quiet masked)

theorem takeBobbin_quiet (g : Fin 16) (low : Bool) (s : State) : Quiet s (takeBobbin g low s) := by
  unfold takeBobbin
  dsimp only
  split <;> exact .of_accounts rfl

theorem returnNotice_quiet (g : Fin 16) (reported : Pattern) (low : Bool) (s : State) :
    Quiet s (returnNotice g reported low s) :=
  (foldl_keeps Quiet.refl Quiet.trans (judgePosition_quiet g reported) (List.finRange 8) s).trans
    (takeBobbin_quiet g low _)

/-- An answering segment stays on with a good return (R119). -/
theorem judgeSlot_quiet (g : Fin 16) (x : Slot) (s : State) : Quiet s (judgeSlot g x s) := by
  unfold judgeSlot
  split
  · rename_i answering
    have on : s.head.segments[g].state ≠ .off := by
      intro off
      rw [off] at answering
      exact absurd answering Bool.false_ne_true
    split
    · have good : Quiet s (goodReturn g s) :=
        setSegment_quiet rfl fun _ => ⟨fun off => absurd off (by simp), fun off => absurd off on⟩
      exact good.trans (returnNotice_quiet g _ _ _)
    · exact badReturn_quiet g s
  · exact .refl s

/-! ### Feeds (R69, R72 to R76) -/

theorem walkLanes_quiet (feed : Nat) (s : State) : Quiet s (walkLanes feed s) :=
  .of_accounts (walkLanes_only feed s).accounts

theorem panelStart_quiet (p : PanelProgram) (position : Nat) (s : State) : Quiet s (panelStart p position s) :=
  Quiet.trans (t := { s with line.serial := s.line.serial + 1, line.position := position }) (.of_accounts rfl)
    ((releaseRethreaded_quiet _).trans (.of_accounts (panelStart_only p position s).accounts))

theorem completeChangeover_quiet (p : PanelProgram) (leftover : Nat) (s : State) :
    Quiet s (completeChangeover p leftover s) :=
  Quiet.trans
    (t := { s with line.seam := 0, line.program := some { role := .active, panel := p }, line.state := .running })
    (.of_accounts rfl) ((panelStart_quiet p leftover _).trans (walkLanes_quiet leftover _))

theorem boundary_quiet (fuel excess : Nat) (p : PanelProgram) (s : State) : Quiet s (boundary fuel excess p s) := by
  induction fuel generalizing excess p s with
  | zero => exact .refl s
  | succ fuel ih =>
    unfold boundary
    split
    · exact .of_accounts rfl
    · rename_i q _
      dsimp only
      have opened : Quiet s (openChangeover p q (p.seamGap - excess) s) := .of_accounts rfl
      have started := opened.trans (completeChangeover_quiet q (excess - p.seamGap) _)
      split
      · exact opened
      · split
        · exact started
        · exact started.trans (ih _ _ _)

theorem advance_quiet (p : PanelProgram) (position : Nat) (s : State) : Quiet s (advance p position s) := by
  unfold advance
  split
  · exact .of_accounts rfl
  · exact boundary_quiet _ _ p s

theorem deliverFeed_quiet (feed : Nat) (s : State) : Quiet s (deliverFeed feed s) := by
  unfold deliverFeed
  split
  · unfold feedRunning
    split
    · exact (walkLanes_quiet feed s).trans (advance_quiet _ _ _)
    · exact .refl s
  · unfold feedChangeover
    split
    · split
      · exact .of_accounts rfl
      · exact (completeChangeover_quiet _ _ s).trans (advance_quiet _ _ _)
    · exact .refl s
  all_goals exact .refl s

/-- The stroke of an index (R92, R93, R97). -/
theorem applyStroke_quiet (s : State) : Quiet s (applyStroke s).state := by
  have taken (x : Stroke) (rest : List Stroke) : Quiet s (consumeStroke x rest s) :=
    Quiet.trans (t := { s with strokes.queue := rest, strokes.consecutive := 0 })
      (.of_counts rfl fun law => { law with consecutive := law.limit.1 }) (deliverFeed_quiet _ _)
  unfold applyStroke
  split
  case h_1 state | h_2 state =>
    split
    · exact taken _ _
    · exact dwellStroke_quiet (by simp [state])
  all_goals exact .refl s

/-! ### The return transmitter (R158, R159) -/

/-- A FREE transmitter has nothing to send once the arbiter has chosen (R158). -/
theorem arbitrate_free (s : State) (free : (arbitrate s).link.tx = none) :
    (arbitrate s).strokes.slot = none ∧ (arbitrate s).mgmt.answers = [] := by
  unfold arbitrate at free ⊢
  split at free
  · rename_i sending
    exact absurd free (by simp [sending])
  · split at free
    · exact absurd free (by simp)
    · rename_i noReport
      split at free
      · exact absurd free (by simp)
      · rename_i noAnswer
        exact ⟨noReport, noAnswer⟩

theorem arbitrate_accounts (s : State) :
    ∃ outgoing, (arbitrate s).accounts = { s.accounts with outgoing := outgoing } := by
  rcases arbitrate_cases s with h | ⟨-, _, -, h⟩ | ⟨-, -, _, _, -, h⟩ <;> rw [h] <;> exact ⟨_, rfl⟩

/-- The arbiter's choice is quiet, whatever has just been given to the transmitter to send or taken from it (R158). -/
theorem arbitrate_quiet {s u : State} {outgoing : Outgoing}
    (h : u.accounts = { s.accounts with outgoing := outgoing }) : Quiet s (arbitrate u) := by
  obtain ⟨_, e⟩ := arbitrate_accounts u
  rw [h] at e
  exact .of_outgoing e (arbitrate_free u)

/-- A REPORT placed (R101). -/
theorem composeReport_quiet (x : StrokeOutcome) : Quiet x.state (composeReport x) := arbitrate_quiet rfl

/-- The answer of a command is quiet (R172, R175). -/
theorem settle_quiet (c : Command) (e : Effect) : Quiet e.1 (settle c e) := by
  unfold settle
  split
  · exact arbitrate_quiet rfl
  · exact .refl _

/-! ### The receiver (R149 to R157) -/

/-- Outside BREAK there is no break state. -/
theorem LinkLaw.noBreak {s : State} (law : LinkLaw s) (out : s.link.receiver ≠ .inBreak) : s.link.breakState = false :=
  Bool.eq_false_iff.mpr fun broken => out (law.inBreak.mpr broken)

/-- The receiver moves outside BREAK, to a cell that is as judged, if to a cell. -/
theorem receiver_quiet {s : State} (out : s.link.receiver ≠ .inBreak) {next : Receiver} (stays : next ≠ .inBreak)
    (judged : LinkLaw s → ∀ cell, next = .inCell cell → cell.wf) :
    Quiet s { s with link.receiver := next } :=
  .of_incoming rfl fun law =>
    { law with
      inBreak := ⟨fun broken => absurd broken stays, fun broken => absurd (law.inBreak.mpr broken) out⟩
      cell := judged law }

/-- A cell discarded counts a link error (R154). -/
theorem discardCell_quiet {s : State} (out : s.link.receiver ≠ .inBreak) {next : Receiver}
    (idle : next = .ready ∨ next = .waitGap) : Quiet s (discardCell next s) := by
  have moved : Quiet s { s with link.receiver := next } := by
    rcases idle with rfl | rfl <;> exact receiver_quiet out (by simp) (by simp)
  exact moved.trans (.of_counts rfl fun law => { law with errors := saturate_le law.errors })

theorem strokeArrives_quiet (payload : List Byte) (s : State) : Quiet s (strokeArrives payload s) := by
  rcases strokeArrives_cases payload s with h | ⟨_, _, _, -, -, -, h⟩ <;> rw [h] <;> exact .of_accounts rfl

theorem commandArrives_quiet (c : Command) (s : State) : Quiet s (commandArrives c s) := by
  rcases commandArrives_cases c s with ⟨-, -, -, h⟩ | h | ⟨-, -, h⟩ <;> rw [h]
  · exact arbitrate_quiet rfl
  · exact .of_accounts rfl
  · exact .of_accounts rfl

theorem cellArrives_quiet {s : State} (out : s.link.receiver ≠ .inBreak) (kind : CellKind) (payload : List Byte) :
    Quiet s (cellArrives kind payload s) := by
  have ready : Quiet s { s with link.receiver := .ready } := receiver_quiet out (by simp) (by simp)
  cases kind with
  | stroke => exact ready.trans (strokeArrives_quiet _ _)
  | command => exact ready.trans (commandArrives_quiet _ _)

theorem kindByte_quiet {s : State} (out : s.link.receiver ≠ .inBreak) (d : Byte) : Quiet s (kindByte d s) := by
  have opened (cell : PartCell) (wf : cell.wf) : Quiet s { s with link.receiver := .inCell cell } :=
    receiver_quiet out (by simp) fun _ _ same => Receiver.inCell.inj same ▸ wf
  unfold kindByte
  split
  · exact opened _ rfl
  · split
    · exact opened _ rfl
    · exact discardCell_quiet out (.inr rfl)

/-- A byte inside a cell: the length is judged before it is held, and the payload grows up to it (R152). -/
theorem bodyByte_quiet {s : State} {cell : PartCell} (inCell : s.link.receiver = .inCell cell) (d : Byte) :
    Quiet s (bodyByte d cell s) := by
  have out : s.link.receiver ≠ .inBreak := by simp [inCell]
  have grown {next : PartCell} (wf : cell.wf → next.wf) : Quiet s { s with link.receiver := .inCell next } :=
    receiver_quiet out (by simp) fun law _ same => Receiver.inCell.inj same ▸ wf (law.cell cell inCell)
  unfold bodyByte
  split
  · rename_i noLength
    split
    · rename_i good
      refine grown fun wf => ?_
      simp only [PartCell.wf, noLength] at wf
      exact ⟨good, by simp [wf]⟩
    · exact discardCell_quiet out (.inr rfl)
  · rename_i n length
    split
    · rename_i room
      refine grown fun wf => ?_
      simp only [PartCell.wf, length] at wf ⊢
      exact ⟨wf.1, by simpa using room⟩
    · split
      · exact cellArrives_quiet out _ _
      · exact discardCell_quiet out (.inr rfl)

theorem goodByte_quiet (d : Byte) (s : State) : Quiet s (goodByte d s) := by
  unfold goodByte
  split
  · rename_i ready
    exact kindByte_quiet (by simp [ready]) d
  · rename_i inCell
    exact bodyByte_quiet inCell d
  · exact .refl s
  · exact .refl s

theorem framingError_quiet (s : State) : Quiet s (framingError s) := by
  unfold framingError
  split
  case h_1 state | h_2 state => exact discardCell_quiet (by simp [state]) (.inr rfl)
  all_goals exact .refl s

theorem byteArrives_quiet (d : Byte) (stop : Bool) (s : State) : Quiet s (byteArrives d stop s) := by
  unfold byteArrives
  split
  · exact .refl s
  · rename_i atMark
    split
    · exact goodByte_quiet d s
    · split
      · refine .of_incoming rfl fun law => { law with held := fun broken => absurd broken ?_ }
        simp only [Bool.or_eq_true, not_or] at atMark
        exact atMark.2
      · exact framingError_quiet s

theorem gapPasses_quiet (s : State) : Quiet s (gapPasses s) := by
  unfold gapPasses
  split
  · exact .refl s
  · split
    · exact .refl s
    · rename_i state
      exact discardCell_quiet (by simp [state]) (.inl rfl)
    · rename_i state
      exact receiver_quiet (by simp [state]) (by simp) (by simp)
    · exact .refl s

theorem markReturns_quiet (s : State) : Quiet s (markReturns s) := by
  unfold markReturns
  split
  · exact Quiet.trans (t := { s with link.heldSpace := false })
      (.of_incoming rfl fun law => { law with held := fun _ => rfl }) (framingError_quiet _)
  · exact .refl s

theorem breakBegins_quiet (s : State) : Quiet s (breakBegins s) :=
  Quiet.trans (t := { s with link.breakState := true, link.receiver := .inBreak, link.heldSpace := false })
    (.of_incoming rfl fun law =>
      { law with inBreak := ⟨fun _ => rfl, fun _ => rfl⟩, held := fun _ => rfl, cell := by simp })
    (haltLine_quiet _ _)

theorem breakEnds_quiet (s : State) : Quiet s (breakEnds s) := by
  unfold breakEnds
  split
  · exact .of_incoming rfl fun law => { law with inBreak := by simp, held := by simp, cell := by simp }
  · exact .refl s

/-! ### The head link -/

theorem outboundComplete_accounts (s : State) : (outboundComplete s).accounts = s.accounts := by
  unfold outboundComplete
  split <;> rfl

theorem returnArrives_quiet (position : Nat) (x : Slot) (s : State) : Quiet s (returnArrives position x s) := by
  unfold returnArrives
  split
  · rename_i received g _ _
    split
    · exact Quiet.trans (t := { s with head.tx := .window (received.set position true) }) (.of_accounts rfl)
        (judgeSlot_quiet g x _)
    · exact .refl s
    · exact .refl s
  all_goals exact .refl s

theorem windowExpires_quiet (s : State) : Quiet s (windowExpires s) := by
  unfold windowExpires
  split
  · dsimp only
    split
    · exact (endWindow_quiet s).trans (.of_accounts rfl)
    · exact endWindow_quiet s
  all_goals exact .refl s

theorem beginLoopedFrame_accounts (s : State) : (beginLoopedFrame s).accounts = s.accounts := by
  unfold beginLoopedFrame
  split
  · rfl
  · split <;> rfl
  all_goals rfl

theorem testSlotArrives_quiet (x : Slot) (s : State) : Quiet s (testSlotArrives x s) := by
  unfold testSlotArrives
  split
  · dsimp only
    split
    · exact .of_accounts rfl
    · unfold completeLoopTest
      dsimp only
      split
      · exact arbitrate_quiet rfl
      · exact .of_accounts rfl
  all_goals exact .refl s

/-! ### The service of an index -/

/-- A served index keeps the laws: its window's end, its frame, its stroke and its REPORT do (R91). -/
theorem serveIndex_lawful (s : State) : Lawful s (serveIndex s) := by
  have formed : Lawful (endWindow s) (formFrame (endWindow s).frameKind (endWindow s)) := .of_accounts rfl
  rw [serveIndex_eq]
  exact (endWindow_quiet s).toLawful.trans
    (formed.trans ((applyStroke_quiet _).trans (composeReport_quiet _)).toLawful)

theorem takeIndex_lawful (s : State) : Lawful s (takeIndex s) := by
  unfold takeIndex
  split
  · exact serveIndex_lawful s
  · exact .of_accounts rfl
  · exact .of_accounts rfl

theorem serveWaited_lawful (s : State) : Lawful s (serveWaited s) := by
  rcases serveWaited_cases s with h | ⟨-, -, -, h⟩ <;> rw [h]
  · exact .of_accounts rfl
  · exact Lawful.trans (t := s.unwaited) (.of_accounts rfl) (serveIndex_lawful _)

end Sys2Proof.Machine
end

section
/-! All a command can do to the four laws and the frame serial, and the law-keeping of every step. -/

namespace Sys2Proof.Machine

open Sys2Proof

/-! ### What an execution event can do -/

/-- An execution event of a command that asks for a length of its arguments: nothing, or the front command refused RANGE,
or its effect settled (R169, R172). -/
theorem lengthCommand_cases (row : Command → Bool) (n : Nat) (effect : List Byte → State → Effect) (s : State) :
    executeFront row (fun args t => withLength n args (effect args t) t) s = s ∨
      ∃ c, executeFront row (fun args t => withLength n args (effect args t) t) s = settle c (reply .range s) ∨
        executeFront row (fun args t => withLength n args (effect args t) t) s = settle c (effect c.args s) := by
  rcases executeFront_cases row (fun args t => withLength n args (effect args t) t) s with h | ⟨c, _, -, -, -, h⟩
  · exact .inl h
  · refine .inr ⟨c, ?_⟩
    rw [h]
    by_cases len : c.args.length = n
    · rw [withLength_eq len]
      exact .inr rfl
    · rw [withLength_ne len]
      exact .inl rfl

/-- The same of a SET or READ item (R177, R179). -/
theorem itemCommand_cases (row : Command → Bool) (item n : Nat) (effect : List Byte → State → Effect) (s : State) :
    executeFront row (fun args t => withItem item n args (effect args t) t) s = s ∨
      ∃ c, executeFront row (fun args t => withItem item n args (effect args t) t) s = settle c (reply .range s) ∨
        executeFront row (fun args t => withItem item n args (effect args t) t) s = settle c (effect c.args s) := by
  rcases executeFront_cases row (fun args t => withItem item n args (effect args t) t) s with h | ⟨c, _, -, -, -, h⟩
  · exact .inl h
  · refine .inr ⟨c, ?_⟩
    rw [h, withItem]
    split
    · by_cases len : c.args.length = n + 1
      · rw [withLength_eq len]
        exact .inr rfl
      · rw [withLength_ne len]
        exact .inl rfl
    · exact .inl rfl

theorem lengthCommand_quiet {row : Command → Bool} {n : Nat} {effect : List Byte → State → Effect} {s : State}
    (acts : ∀ args, Quiet s (effect args s).1) :
    Quiet s (executeFront row (fun args t => withLength n args (effect args t) t) s) := by
  rcases lengthCommand_cases row n effect s with h | ⟨c, h | h⟩ <;> rw [h]
  · exact .refl s
  · exact settle_quiet c (reply .range s)
  · exact (acts c.args).trans (settle_quiet c _)

theorem itemCommand_quiet {row : Command → Bool} {item n : Nat} {effect : List Byte → State → Effect} {s : State}
    (acts : ∀ args, Quiet s (effect args s).1) :
    Quiet s (executeFront row (fun args t => withItem item n args (effect args t) t) s) := by
  rcases itemCommand_cases row item n effect s with h | ⟨c, h | h⟩ <;> rw [h]
  · exact .refl s
  · exact settle_quiet c (reply .range s)
  · exact (acts c.args).trans (settle_quiet c _)

theorem lengthCommand_lawful {row : Command → Bool} {n : Nat} {effect : List Byte → State → Effect} {s : State}
    (acts : ∀ args, Lawful s (effect args s).1) :
    Lawful s (executeFront row (fun args t => withLength n args (effect args t) t) s) := by
  rcases lengthCommand_cases row n effect s with h | ⟨c, h | h⟩ <;> rw [h]
  · exact (Quiet.refl s).toLawful
  · exact (settle_quiet c (reply .range s)).toLawful
  · exact (acts c.args).trans (settle_quiet c _).toLawful

theorem unknownCommand_quiet (s : State) :
    Quiet s (executeFront Command.isUnknown (fun _ t => reply .unknown t) s) := by
  rcases executeFront_cases Command.isUnknown (fun _ t => reply .unknown t) s with h | ⟨c, _, -, -, -, h⟩ <;> rw [h]
  · exact .refl s
  · exact settle_quiet c (reply .unknown s)

/-! ### Commands that leave the accounts -/

theorem judgeDefine_accounts (motif first count length : Nat) (loop : Option Nat) (s : State) :
    (judgeDefine motif first count length loop s).1.accounts = s.accounts := by
  unfold judgeDefine
  repeat' split
  all_goals rfl

theorem judgeUndefine_accounts (motif : Nat) (s : State) : (judgeUndefine motif s).1.accounts = s.accounts := by
  unfold judgeUndefine
  repeat' split
  all_goals rfl

theorem loadFragment0_accounts (args : List Byte) (s : State) : (loadFragment0 args s).1.accounts = s.accounts := by
  unfold loadFragment0
  split <;> rfl

theorem loadFragment1_accounts (args : List Byte) (s : State) : (loadFragment1 args s).1.accounts = s.accounts := by
  unfold loadFragment1
  repeat' split
  all_goals rfl

theorem loadFragment2_accounts (args : List Byte) (s : State) : (loadFragment2 args s).1.accounts = s.accounts := by
  unfold loadFragment2
  dsimp only
  repeat' split
  all_goals rfl

theorem judgeFlush_accounts (s : State) : (judgeFlush s).1.accounts = s.accounts := by
  unfold judgeFlush
  split <;> rfl

theorem judgeBegin_accounts (tag : Serial) (length seamGap : Nat) (repeats : Option Bool) (s : State) :
    (judgeBegin tag length seamGap repeats s).1.accounts = s.accounts := by
  unfold judgeBegin
  repeat' split
  all_goals rfl

theorem judgeLane_accounts (a : Option Assignment) (s : State) : (judgeLane a s).1.accounts = s.accounts := by
  unfold judgeLane
  repeat' split
  all_goals rfl

theorem judgeCommit_accounts (s : State) : (judgeCommit s).1.accounts = s.accounts := by
  unfold judgeCommit
  repeat' split
  all_goals rfl

theorem judgeDiscard_accounts (s : State) : (judgeDiscard s).1.accounts = s.accounts := by
  unfold judgeDiscard
  split <;> rfl

theorem judgeResume_accounts (s : State) : (judgeResume s).1.accounts = s.accounts := by
  unfold judgeResume
  repeat' split
  all_goals rfl

theorem judgeHold_accounts (lane : Nat) (s : State) : (judgeHold lane s).1.accounts = s.accounts := by
  unfold judgeHold
  repeat' split
  all_goals rfl

theorem judgeRelease_accounts (lane : Nat) (s : State) : (judgeRelease lane s).1.accounts = s.accounts := by
  unfold judgeRelease
  repeat' split
  all_goals rfl

theorem judgeStop_accounts (lane : Nat) (s : State) : (judgeStop lane s).1.accounts = s.accounts := by
  unfold judgeStop
  repeat' split
  all_goals rfl

theorem judgeTake_accounts (s : State) : (judgeTake s).1.accounts = s.accounts := by
  unfold judgeTake
  split <;> rfl

theorem judgeLaneMap_accounts (segment lane : Nat) (s : State) :
    (judgeLaneMap segment lane s).1.accounts = s.accounts := by
  unfold judgeLaneMap
  repeat' split
  all_goals rfl

theorem judgeMask_accounts (segment : Nat) (mask : Pattern) (s : State) :
    (judgeMask segment mask s).1.accounts = s.accounts := by
  unfold judgeMask
  split <;> rfl

theorem judgePacking_accounts (order : Option PackingOrder) (s : State) :
    (judgePacking order s).1.accounts = s.accounts := by
  unfold judgePacking
  repeat' split
  all_goals rfl

/-! ### Commands that change them, and keep the laws -/

theorem judgeHalt_quiet (s : State) : Quiet s (judgeHalt s).1 := by
  unfold judgeHalt
  split
  case h_1 | h_2 => exact haltLine_quiet _ s
  all_goals exact .refl s

/-- LINE_RESET empties the report slot and clears the consecutive count (R82, R94, R102). -/
theorem resetLine_quiet (s : State) : Quiet s (resetLine s) where
  count law := { law with consecutive := law.limit.1 }
  segment law := law.of_segments rfl rfl
  rethread law := law.of_sets rfl rfl
  link law := law.of_incoming rfl fun free => ⟨rfl, (law.free free).2⟩
  serial := rfl

/-- A restored segment is below N, so it was not OFF (R105, R122). -/
theorem judgeRestore_quiet (segment : Nat) (s : State) : Quiet s (judgeRestore segment s).1 := by
  unfold judgeRestore
  split
  · exact .refl s
  · rename_i g _
    split
    · rename_i configured
      have restored : Quiet s (setSegment g { state := .online, badReturns := 0 } s) :=
        setSegment_quiet rfl fun law =>
          ⟨fun off => absurd off (by simp), fun off => absurd ((law.off g).mp off) (Nat.not_le.mpr configured)⟩
      exact restored.trans (.of_accounts rfl)
    · exact .refl s

theorem judgeNeedle_quiet (needle : Nat) (s : State) : Quiet s (judgeNeedle needle s).1 := by
  unfold judgeNeedle
  split
  · split
    · exact releaseNeedle_quiet _ _ s
    · exact .refl s
  · exact .refl s
  · exact .refl s

theorem judgeClear_quiet (s : State) : Quiet s (judgeClear s).1 :=
  .of_counts rfl fun law => { law with total := Nat.zero_le _, errors := Nat.zero_le _, breaks := Nat.zero_le _ }

theorem judgeCount_quiet (n : Nat) (s : State) : Quiet s (judgeCount n s).1 := by
  unfold judgeCount
  split
  · exact .refl s
  · split
    · exact takeSegmentCount_quiet n s
    · exact .refl s

theorem judgeDropLimit_quiet (lane limit : Nat) (s : State) : Quiet s (judgeDropLimit lane limit s).1 := by
  unfold judgeDropLimit
  split
  · rename_i l _
    split
    · rename_i inRange
      refine .of_counts rfl fun law => { law with drops := fun k => ?_ }
      simp only [reply, replyWith, Fin.getElem_fin, Vector.getElem_set]
      split
      · exact inRange
      · exact law.drops k
    · exact .refl s
  · exact .refl s

/-- A new underrun limit: a consecutive count it does not exceed becomes 0 (R96). -/
theorem judgeUnderrun_quiet (limit : Nat) (s : State) : Quiet s (judgeUnderrun limit s).1 := by
  unfold judgeUnderrun
  split
  · exact .refl s
  · rename_i inRange
    simp only [Bool.or_eq_true, decide_eq_true_eq, not_or, Nat.not_lt] at inRange
    refine .of_counts rfl fun law => { law with limit := inRange, consecutive := ?_ }
    dsimp only [reply, replyWith]
    split <;> omega

/-! ### Commands that serve a waited index -/

theorem startRun_quiet (p : PanelProgram) (s : State) : Quiet s (startRun p s) :=
  Quiet.trans
    (t := { s with stager.pendingPanel := none, line.program := some { role := .active, panel := p }, line.seam := 0,
                   line.state := .running })
    (.of_accounts rfl) (panelStart_quiet p 0 _)

theorem startLoopTest_quiet (s : State) : Quiet s (startLoopTest s) :=
  .of_accounts (beginLoopedFrame_accounts _)

theorem judgeRun_lawful (s : State) : Lawful s (judgeRun s).1 := by
  have stay := (Quiet.refl s).toLawful
  unfold judgeRun
  split
  · exact stay
  · split
    · exact stay
    · split
      · exact stay
      · dsimp only [replyWith]
        exact (serveWaited_lawful s).trans (startRun_quiet _ _).toLawful

theorem judgeLoopTest_lawful (s : State) : Lawful s (judgeLoopTest s).1 := by
  unfold judgeLoopTest
  split
  · exact (serveWaited_lawful s).trans (startLoopTest_quiet _).toLawful
  · exact (Quiet.refl s).toLawful

/-! ### Every command -/

/-- Every command but the power-on reset and those that serve an index keeps the laws and the frame serial. -/
theorem exec_quiet {i : Instr} {s t : State} (h : exec i s = .next t) (noReset : i ≠ .powerOnReset)
    (noIndex : i ≠ .shaftIndex) (noWaited : i ≠ .waitedShaftIndex) (noRun : i ≠ .run) (noTest : i ≠ .loopTest) :
    Quiet s t := by
  cases i with
  | powerOnReset => exact absurd rfl noReset
  | shaftIndex => exact absurd rfl noIndex
  | waitedShaftIndex => exact absurd rfl noWaited
  | run => exact absurd rfl noRun
  | loopTest => exact absurd rfl noTest
  | outboundComplete => cases h; exact .of_accounts (outboundComplete_accounts s)
  | returnSlot position slot => cases h; exact returnArrives_quiet position slot s
  | returnWindowExpiry => cases h; exact windowExpires_quiet s
  | loopedFrameBegin => cases h; exact .of_accounts (beginLoopedFrame_accounts s)
  | testSlot slot => cases h; exact testSlotArrives_quiet slot s
  | receivedByte data stop => cases h; exact byteArrives_quiet data stop s
  | cellGap => cases h; exact gapPasses_quiet s
  | strokeCell payload => cases h; exact strokeArrives_quiet payload s
  | commandCell command => cases h; exact commandArrives_quiet command s
  | breakBegin => cases h; exact breakBegins_quiet s
  | breakEnd => cases h; exact breakEnds_quiet s
  | returnToMark => cases h; exact markReturns_quiet s
  | transmitterFree => cases h; exact arbitrate_quiet rfl
  | unknownCommand => cases h; exact unknownCommand_quiet s
  | defineMotif => cases h; exact lengthCommand_quiet fun _ => .of_accounts (judgeDefine_accounts _ _ _ _ _ s)
  | undefineMotif => cases h; exact lengthCommand_quiet fun _ => .of_accounts (judgeUndefine_accounts _ s)
  | loadPartFragment0 => cases h; exact lengthCommand_quiet fun args => .of_accounts (loadFragment0_accounts args s)
  | loadPartFragment1 => cases h; exact lengthCommand_quiet fun args => .of_accounts (loadFragment1_accounts args s)
  | loadPartFragment2 => cases h; exact lengthCommand_quiet fun args => .of_accounts (loadFragment2_accounts args s)
  | loadFlush => cases h; exact lengthCommand_quiet fun _ => .of_accounts (judgeFlush_accounts s)
  | panelBegin => cases h; exact lengthCommand_quiet fun _ => .of_accounts (judgeBegin_accounts _ _ _ _ s)
  | panelLane => cases h; exact lengthCommand_quiet fun _ => .of_accounts (judgeLane_accounts _ s)
  | panelCommit => cases h; exact lengthCommand_quiet fun _ => .of_accounts (judgeCommit_accounts s)
  | panelDiscard => cases h; exact lengthCommand_quiet fun _ => .of_accounts (judgeDiscard_accounts s)
  | halt => cases h; exact lengthCommand_quiet fun _ => judgeHalt_quiet s
  | resume => cases h; exact lengthCommand_quiet fun _ => .of_accounts (judgeResume_accounts s)
  | lineReset => cases h; exact lengthCommand_quiet fun _ => resetLine_quiet s
  | laneHold => cases h; exact lengthCommand_quiet fun _ => .of_accounts (judgeHold_accounts _ s)
  | laneRelease => cases h; exact lengthCommand_quiet fun _ => .of_accounts (judgeRelease_accounts _ s)
  | laneStop => cases h; exact lengthCommand_quiet fun _ => .of_accounts (judgeStop_accounts _ s)
  | segmentRestore => cases h; exact lengthCommand_quiet fun _ => judgeRestore_quiet _ s
  | needleRelease => cases h; exact lengthCommand_quiet fun _ => judgeNeedle_quiet _ s
  | takeDefect => cases h; exact lengthCommand_quiet fun _ => .of_accounts (judgeTake_accounts s)
  | clearCounts => cases h; exact lengthCommand_quiet fun _ => judgeClear_quiet s
  | setLaneMapEntry => cases h; exact itemCommand_quiet fun _ => .of_accounts (judgeLaneMap_accounts _ _ s)
  | setSegmentCount => cases h; exact itemCommand_quiet fun _ => judgeCount_quiet _ s
  | setOperatorMask => cases h; exact itemCommand_quiet fun _ => .of_accounts (judgeMask_accounts _ _ s)
  | setDropLimit => cases h; exact itemCommand_quiet fun _ => judgeDropLimit_quiet _ _ s
  | setUnderrunLimit => cases h; exact itemCommand_quiet fun _ => judgeUnderrun_quiet _ s
  | setPackingOrder => cases h; exact itemCommand_quiet fun _ => .of_accounts (judgePacking_accounts _ s)
  | readLane => cases h; exact itemCommand_quiet fun _ => .of_accounts (congrArg _ (judgeReadLane_state _ s))
  | readSegment => cases h; exact itemCommand_quiet fun _ => .of_accounts (congrArg _ (judgeReadSegment_state _ s))
  | readMotif => cases h; exact itemCommand_quiet fun _ => .of_accounts (congrArg _ (judgeReadMotif_state _ s))
  | readRecord => cases h; exact itemCommand_quiet fun _ => .of_accounts (congrArg _ (judgeReadRecord_state _ _ s))
  | readPanel => cases h; exact itemCommand_quiet fun _ => .of_accounts (congrArg _ (judgeReadPanel_state _ _ s))
  | readConfig => cases h; exact itemCommand_quiet fun _ => .of_accounts (congrArg _ (judgeReadConfig_state _ s))
  | readLine | readDefects | readAttention | readCounts | readAssembler =>
    cases h
    exact itemCommand_quiet fun _ => .of_accounts rfl

/-- The power-on reset leaves a state of all four laws (R83). -/
theorem reset_lawful (s : State) (pending : List Instr) : Lawful s { State.reset with pending := pending } where
  count _ := reset_countLaw.of_counts rfl
  segment _ := reset_segmentLaw.of_segments rfl rfl
  rethread _ := reset_rethreadLaw.of_sets rfl rfl
  link _ := reset_linkLaw.of_link rfl rfl

/-- Every command keeps the four laws. -/
theorem exec_lawful {i : Instr} {s t : State} (h : exec i s = .next t) : Lawful s t := by
  by_cases reset : i = .powerOnReset
  · subst reset; cases h; exact reset_lawful s s.pending
  by_cases index : i = .shaftIndex
  · subst index; cases h; exact takeIndex_lawful s
  by_cases waited : i = .waitedShaftIndex
  · subst waited; cases h; exact serveWaited_lawful s
  by_cases run : i = .run
  · subst run; cases h; exact lengthCommand_lawful fun _ => judgeRun_lawful s
  by_cases test : i = .loopTest
  · subst test; cases h; exact lengthCommand_lawful fun _ => judgeLoopTest_lawful s
  exact (exec_quiet h reset index waited run test).toLawful

/-- Settles O59: a step idles or executes a command, and every command keeps the four laws. -/
theorem stepKeepsCountSegmentThreadLinkLaws : Obligations.StepKeepsCountSegmentThreadLinkLaws := by
  intro s t h
  have lawful : Lawful s t := by
    rcases step_cases h with rfl | ⟨i, rest, -, h⟩
    · exact (Quiet.refl s).toLawful
    · exact Lawful.trans (t := s.withPending rest) (.of_accounts rfl) (exec_lawful h)
  exact ⟨lawful.count, lawful.segment, lawful.rethread, lawful.link⟩

end Sys2Proof.Machine
end

section
/-! The shaft index at the head-link transmitter and the frame it sends (sections 5.2, 6.2, 6.3); the arrival of a STROKE
cell and the return transmitter (sections 5.1, 8.5). -/

namespace Sys2Proof.Machine

open Sys2Proof

/-! ### The shaft index at the transmitter (R90, R123) -/

/-- An index that finds outbound slots being sent is early. -/
theorem indexFate_sending {s : State} {f : Frame} (sending : s.head.tx = .sending f) : s.indexFate = .early := by
  simp only [State.indexFate, sending]

/-- With no outbound slot being sent, the fate of an index is decided by the one that waits and the claim. -/
theorem indexFate_clear {s : State} (clear : s.hldirOutbound = false) :
    s.indexFate = if s.head.waiting then .early else if s.head.claim then .waits else .served := by
  unfold State.hldirOutbound at clear
  unfold State.indexFate
  cases tx : s.head.tx with
  | sending f => simp [tx] at clear
  | free | window _ | loop _ => rfl

theorem exec_shaftIndex_early {s : State} (early : s.indexFate = .early) :
    exec .shaftIndex s = .next { s with mgmt.latches.shaftEarly := true } := by
  simp only [exec, execShaftIndex, takeIndex, early]
  rfl

theorem exec_shaftIndex_waits {s : State} (waits : s.indexFate = .waits) :
    exec .shaftIndex s = .next { s with head.waiting := true } := by
  simp only [exec, execShaftIndex, takeIndex, waits]

/-- Settles O4, by the fate of the index. -/
theorem shaftIndexMeetsTransmitter : Obligations.ShaftIndexMeetsTransmitter := by
  intro s
  refine ⟨fun f sending => ?_, fun clear claim alone => ?_, fun clear claim waits => ?_, fun serves => ?_⟩
  · exact exec_shaftIndex_early (indexFate_sending sending)
  · exact exec_shaftIndex_waits (by simp [indexFate_clear clear, claim, alone])
  · exact exec_shaftIndex_early (by simp [indexFate_clear clear, waits])
  · obtain ⟨⟨f, sending⟩, -⟩ := serveIndex_head s
    exact ⟨serveIndex s, f, exec_shaftIndex_served serves, sending⟩

/-! ### The frame of a served index (R91, R114, R115) -/

/-- The frame an index served at s sends. -/
def State.servedFrame (s : State) : Frame :=
  { serial := s.head.frameSerial + 1, parkAll := decide (s.line.state ≠ .running),
    words := (endWindow s).configured.map ((endWindow s).wordFor s.frameKind) }

theorem serveIndex_sends (s : State) : (serveIndex s).head.tx = .sending s.servedFrame := by
  obtain ⟨head, -⟩ := strokeOutcome_keeps s
  rw [serveIndex_result]
  simp only [head, formFrame, State.servedFrame, endWindow_frameSerial, endWindow_line]

/-- The word of a configured segment in the frame served (R105, R114). -/
theorem servedFrame_word {s : State} {g : Fin 16} (configured : g.val < s.head.segmentCount) :
    s.servedFrame.words[g.val]? = some ((endWindow s).wordFor s.frameKind g) := by
  have listed : (endWindow s).configured[g.val]? = some g := by
    rw [configured_getElem?, dif_pos ⟨g.isLt, by rw [endWindow_segmentCount]; exact configured⟩]
  rw [State.servedFrame, List.getElem?_map, listed]
  rfl

/-! ### Who changes the frame serial (R115) -/

/-- From s to t the frame serial stays, or rises by 1 in the service of an index that was due in IDLE (R85, R115; log
entry 8). -/
def SerialMove (s t : State) : Prop :=
  t.head.frameSerial = s.head.frameSerial ∨
    s.line.state = .idle ∧ s.head.waiting = true ∧ s.head.claim = false ∧ t.head.waiting = false ∧
      t.head.frameSerial = s.head.frameSerial + 1

/-- What comes after and leaves the frame serial and the waiting index is no matter. -/
theorem SerialMove.of_same {s t u : State} (h : SerialMove s u) (serial : t.head.frameSerial = u.head.frameSerial)
    (waiting : t.head.waiting = u.head.waiting) : SerialMove s t := by
  unfold SerialMove
  rw [serial, waiting]
  exact h

theorem serveWaited_serialMove {s : State} (idle : s.line.state = .idle) : SerialMove s (serveWaited s) := by
  rcases serveWaited_cases s with h | ⟨waits, unclaimed, -, h⟩ <;> rw [h]
  · exact .inl rfl
  · obtain ⟨-, serial, -, waiting, -⟩ := serveIndex_head s.unwaited
    exact .inr ⟨idle, waits, unclaimed, waiting, serial⟩

theorem judgeRun_serialMove (s : State) : SerialMove s (judgeRun s).1 := by
  unfold judgeRun
  split
  · exact .inl rfl
  · split
    · exact .inl rfl
    · rename_i idle
      split
      · exact .inl rfl
      · rename_i p _
        dsimp only [replyWith]
        have head := startRun_head p (serveWaited s)
        exact (serveWaited_serialMove (not_not.mp idle)).of_same (congrArg HeadLink.frameSerial head)
          (congrArg HeadLink.waiting head)

theorem beginLoopedFrame_waiting (s : State) : (beginLoopedFrame s).head.waiting = s.head.waiting := by
  unfold beginLoopedFrame
  split
  · rfl
  · split <;> rfl
  all_goals rfl

theorem judgeLoopTest_serialMove (s : State) : SerialMove s (judgeLoopTest s).1 := by
  unfold judgeLoopTest
  split
  · rename_i idle
    exact (serveWaited_serialMove idle).of_same (startLoopTest_quiet _).serial (beginLoopedFrame_waiting _)
  · exact .inl rfl

@[simp] theorem arbitrate_head (s : State) : (arbitrate s).head = s.head := by
  rcases arbitrate_cases s with h | ⟨-, _, -, h⟩ | ⟨-, -, _, _, -, h⟩ <;> rw [h]

@[simp] theorem settle_head (c : Command) (e : Effect) : (settle c e).head = e.1.head := by
  unfold settle
  split
  · exact arbitrate_head _
  · rfl

theorem lengthCommand_serialMove {row : Command → Bool} {n : Nat} {effect : List Byte → State → Effect} {s : State}
    (acts : ∀ args, SerialMove s (effect args s).1) :
    SerialMove s (executeFront row (fun args t => withLength n args (effect args t) t) s) := by
  rcases lengthCommand_cases row n effect s with h | ⟨c, h | h⟩ <;> rw [h]
  · exact .inl rfl
  · exact .inl (congrArg HeadLink.frameSerial (settle_head c (reply .range s)))
  · have head := settle_head c (effect c.args s)
    exact (acts c.args).of_same (congrArg HeadLink.frameSerial head) (congrArg HeadLink.waiting head)

/-- Settles O5: the frame of a served index, and the serial of every other command; RUN and LOOP_TEST serve an index
first if one is due. -/
theorem servedIndexSendsOneFrame : Obligations.ServedIndexSendsOneFrame := by
  refine ⟨fun s serves => ?_, fun i s t h noReset noIndex noWaited => ?_⟩
  · obtain ⟨-, serial, -⟩ := serveIndex_head s
    exact ⟨serveIndex s, exec_shaftIndex_served serves, serial, serveIndex_sends s⟩
  · by_cases command : i = .run ∨ i = .loopTest
    · have move : SerialMove s t := by
        rcases command with rfl | rfl <;> cases h
        · exact lengthCommand_serialMove fun _ => judgeRun_serialMove s
        · exact lengthCommand_serialMove fun _ => judgeLoopTest_serialMove s
      exact move.imp_right fun served => ⟨command, served⟩
    · obtain ⟨noRun, noTest⟩ := not_or.mp command
      exact .inl (exec_quiet h noReset noIndex noWaited noRun noTest).serial

/-! ### PARK frames (R97, R107, R111) -/

/-- Outside RUNNING the frame is a PARK frame (R91). -/
theorem frameKind_park {s : State} (parks : s.line.state ≠ .running) : s.frameKind = .park := by
  unfold State.frameKind
  cases state : s.line.state with
  | running => exact absurd state parks
  | idle | changeover | halted _ _ | looptest => rfl

/-- The word of a PARK frame: at the last lateral under a lane, at 0 under none. -/
theorem parkWord_eq (s : State) (g : Fin 16) :
    s.wordFor .park g = parked (if s.composer.laneMap[g] = none then 0 else s.composer.lastLateral[g]) := by
  unfold State.wordFor State.parkedWord
  cases mapped : s.composer.laneMap[g] <;> simp [parked, parkWord]

/-- An index that finds the line neither RUNNING nor in CHANGEOVER takes no stroke (R92, R93, R97). -/
theorem applyStroke_still {s : State} (running : s.line.state ≠ .running) (changeover : s.line.state ≠ .changeover) :
    applyStroke s = { state := s, serial := none, dwell := false } := by
  unfold applyStroke
  cases state : s.line.state with
  | running => exact absurd state running
  | changeover => exact absurd state changeover
  | idle | halted _ _ | looptest => rfl

/-- A PARK frame outside CHANGEOVER leaves the lanes as the window's end does: no output is taken, no stroke fed. -/
theorem serveIndex_still_lanes {s : State} (running : s.line.state ≠ .running)
    (changeover : s.line.state ≠ .changeover) : (serveIndex s).engine.lanes = (endWindow s).engine.lanes := by
  have line : (formFrame s.frameKind (endWindow s)).line = s.line := (formed_keeps s).1
  rw [serveIndex_result, State.strokeOutcome, applyStroke_still (by rwa [line]) (by rwa [line]), frameKind_park running]
  rfl

/-- Settles O10: the frame of a served index, word by word. -/
theorem parkFrameParksEverySegment : Obligations.ParkFrameParksEverySegment := by
  intro s serves parks
  refine ⟨serveIndex s, s.servedFrame, exec_shaftIndex_served serves, serveIndex_sends s, decide_eq_true parks,
    fun g configured => ?_, serveIndex_still_lanes parks⟩
  rw [servedFrame_word configured, frameKind_park parks, parkWord_eq, endWindow_laneMap]

/-! ### The arrival of a STROKE cell (R88, R161) -/

theorem takesStrokes_iff (x : LineState) : x.takesStrokes = true ↔ x = .idle ∨ x = .running ∨ x = .changeover := by
  cases x <;> simp [LineState.takesStrokes]

theorem strokeArrives_accepted {low high feed : Byte} {s : State}
    (takes : s.line.state = .idle ∨ s.line.state = .running ∨ s.line.state = .changeover)
    (room : s.strokes.queue.length < 4) :
    strokeArrives [low, high, feed] s =
      { s with
        strokes.queue := s.strokes.queue ++ [{ serial := BitVec.ofNat 16 (wordOf low high), feed := feed }] } := by
  rw [ofNat_wordOf]
  refine if_pos ?_
  rw [Bool.and_eq_true, decide_eq_true_eq]
  exact ⟨(takesStrokes_iff _).mpr takes, room⟩

/-- A STROKE cell is refused unless it has three bytes, the line takes strokes and the queue has room. -/
theorem strokeArrives_refused {payload : List Byte} {s : State}
    (refused : payload.length ≠ 3 ∨ 4 ≤ s.strokes.queue.length ∨ s.line.state.isHalted = true ∨
      s.line.state = .looptest) :
    strokeArrives payload s = { s with mgmt.latches.strokeRefused := true } := by
  rcases strokeArrives_cases payload s with h | ⟨low, high, feed, rfl, takes, room, -⟩
  · exact h
  · rcases refused with length | full | halted | test
    · exact absurd rfl length
    · exact absurd room (Nat.not_lt.mpr full)
    · rcases (takesStrokes_iff _).mp takes with state | state | state <;>
        exact absurd halted (by simp [state, LineState.isHalted])
    · exact absurd takes (by simp [test, LineState.takesStrokes])

/-- Settles O21: the two outcomes of the arrival. -/
theorem strokeCellAcceptedOrRefused : Obligations.StrokeCellAcceptedOrRefused := by
  intro s payload
  refine ⟨fun low high feed spelled takes room => ?_, fun refused => ?_⟩
  · subst spelled
    exact congrArg Host.Outcome.next (strokeArrives_accepted takes room)
  · exact congrArg Host.Outcome.next (strokeArrives_refused refused)

/-! ### The return transmitter becomes free (R102, R158, R159) -/

/-- Settles O24, by what waits for the transmitter: a REPORT, an answer, or nothing. -/
theorem transmitterFreeTakesReportThenAnswer : Obligations.TransmitterFreeTakesReportThenAnswer := by
  intro s
  refine ⟨fun r slot => ?_, fun a rest slot answers => ?_, fun slot answers => ?_⟩ <;>
    refine congrArg Host.Outcome.next ?_
  · simp only [transmitterFrees, arbitrate, slot]
  · simp only [transmitterFrees, arbitrate, slot, answers]
  · simp only [transmitterFrees, arbitrate, slot, answers]

end Sys2Proof.Machine
end

section
/-! No needle word sent engages a needle that must not stitch (sections 6.2, 6.3): the frame an event leaves being sent is
that of an index served (`sentFrame_served`), and a word of it engages only what the filter of R108 lets through
(`wordFor_engages`, `mayEngage_bit`). -/

namespace Sys2Proof.Machine

open Sys2Proof

/-! ### What a word may engage (R107, R108, R111, R112) -/

theorem answering_iff (x : SegmentState) : x.answering = true ↔ x = .online ∨ x = .suspect := by
  cases x <;> simp [SegmentState.answering]

/-- The filter of R108, position by position. -/
theorem mayEngage_bit (s : State) (g : Fin 16) (p : Nat) :
    (s.mayEngage g).getLsbD p = true ↔
      p < 8 ∧ s.line.state = .running ∧ (s.head.segments[g].state = .online ∨ s.head.segments[g].state = .suspect) ∧
        s.thread.faultMask[g].getLsbD p = false ∧ s.composer.operatorMask[g].getLsbD p = false := by
  rw [← answering_iff]
  unfold State.mayEngage
  by_cases allowed : (s.head.segments[g].state.answering && decide (s.line.state = .running)) = true
  · rw [if_pos allowed]
    rw [Bool.and_eq_true, decide_eq_true_eq] at allowed
    simp only [allowed, BitVec.getLsbD_and, BitVec.getLsbD_not, Bool.and_eq_true, decide_eq_true_eq, Bool.not_eq_true',
      true_and]
    tauto
  · rw [if_neg allowed]
    rw [Bool.and_eq_true, decide_eq_true_eq] at allowed
    have engagesNone : (0 : Pattern).getLsbD p = false := BitVec.getLsbD_zero
    rw [engagesNone]
    exact iff_of_false Bool.false_ne_true fun ⟨_, running, answers, _⟩ => allowed ⟨answers, running⟩

/-- Only the output of a SEWING lane engages a position (R52 to R55). -/
theorem laneOutput_engages {st : Store} {c : LaneContext} {o : LaneOutput} {p : Nat} (output : laneOutput st c = some o)
    (engages : o.engage.getLsbD p = true) : c.state = .sewing := by
  unfold laneOutput at output
  cases state : c.state with
  | sewing => rfl
  | vacant | standby => simp [state] at output
  | held | finished | stopped _ =>
    simp only [state, Option.some.injEq] at output
    simp [← output] at engages

/-- A word of a composed frame engages what its lane's output engages and the filter lets through (R107). -/
theorem composedWord_engages {s : State} {g : Fin 16} {p : Nat} (engages : (s.composedWord g).engage.getLsbD p = true) :
    ∃ l, s.composer.laneMap[g] = some l ∧ (s.lane l).state = .sewing ∧ (s.mayEngage g).getLsbD p = true ∧
      ∃ o ∈ laneOutput s.store (s.lane l), o.engage.getLsbD p = true := by
  unfold State.composedWord at engages
  cases mapped : s.composer.laneMap[g] with
  | none => simp [mapped, parkWord] at engages
  | some l =>
    cases output : laneOutput s.store (s.lane l) with
    | none => simp [mapped, output, parkWord] at engages
    | some o =>
      simp only [mapped, output, State.wordOfOutput, BitVec.getLsbD_and, Bool.and_eq_true] at engages
      obtain ⟨byLane, passes⟩ := engages
      exact ⟨l, rfl, laneOutput_engages output byLane, passes, o, output, byLane⟩

/-- A word of a repeated frame engages, under a SEWING lane alone, what the filter lets through (R112). -/
theorem repeatedWord_engages {s : State} {g : Fin 16} {p : Nat} (engages : (s.repeatedWord g).engage.getLsbD p = true) :
    ∃ l, s.composer.laneMap[g] = some l ∧ (s.lane l).state = .sewing ∧ (s.mayEngage g).getLsbD p = true := by
  unfold State.repeatedWord at engages
  cases mapped : s.composer.laneMap[g] with
  | none => simp [mapped, parkWord] at engages
  | some l =>
    cases state : (s.lane l).state with
    | sewing =>
      simp only [mapped, state, BitVec.getLsbD_and, Bool.and_eq_true] at engages
      exact ⟨l, rfl, state, engages.2⟩
    | vacant | standby | held | finished | stopped _ =>
      simp only [mapped, state] at engages
      obtain ⟨k, served, sewing, passes, -⟩ := composedWord_engages engages
      exact ⟨k, mapped ▸ served, sewing, passes⟩

/-- A word of a PARK frame engages nothing (R111). -/
theorem parkedWord_engages (s : State) (g : Fin 16) (p : Nat) : (s.parkedWord g).engage.getLsbD p = false := by
  unfold State.parkedWord
  split <;> exact BitVec.getLsbD_zero

/-- What a word of any frame engages. -/
theorem wordFor_engages {s : State} {kind : FrameKind} {g : Fin 16} {p : Nat}
    (engages : (s.wordFor kind g).engage.getLsbD p = true) :
    ∃ l, s.composer.laneMap[g] = some l ∧ (s.lane l).state = .sewing ∧ (s.mayEngage g).getLsbD p = true ∧
      (kind = .composed → ∃ o ∈ laneOutput s.store (s.lane l), o.engage.getLsbD p = true) := by
  cases kind with
  | composed =>
    obtain ⟨l, mapped, sewing, passes, output⟩ := composedWord_engages engages
    exact ⟨l, mapped, sewing, passes, fun _ => output⟩
  | repeated =>
    obtain ⟨l, mapped, sewing, passes⟩ := repeatedWord_engages engages
    exact ⟨l, mapped, sewing, passes, fun composed => absurd composed (by decide)⟩
  | park => exact absurd engages (by simp [State.wordFor, parkedWord_engages])

/-- A word of the frame served belongs to a configured segment (R105, R114). -/
theorem servedFrame_word_configured {s : State} {k : Nat} {w : SegWord} (word : s.servedFrame.words[k]? = some w) :
    ∃ g : Fin 16, g.val = k ∧ k < s.head.segmentCount ∧ w = (endWindow s).wordFor s.frameKind g := by
  have listed := word
  rw [State.servedFrame, List.getElem?_map, configured_getElem?, endWindow_segmentCount] at listed
  by_cases inside : k < 16 ∧ k < s.head.segmentCount
  · have formed := servedFrame_word (s := s) (g := ⟨k, inside.1⟩) inside.2
    exact ⟨⟨k, inside.1⟩, rfl, inside.2, Option.some.inj (word.symm.trans formed)⟩
  · rw [dif_neg inside] at listed
    exact absurd listed (by simp)

/-! ### The frame an event leaves being sent (R90, R114; log entry 8) -/

/-- The transmitter sends no frame but that of an index served from s, with none waiting any more. -/
def HeadTx.sendsServed (s : State) (tx : HeadTx) : Prop := ∀ f, tx = .sending f → f = s.unwaited.servedFrame

/-- No frame is being sent where HLDIR is inbound. -/
theorem sendsServed_of_clear {s : State} (clear : s.hldirOutbound = false) : s.head.tx.sendsServed s := by
  intro f sending
  simp [State.hldirOutbound, sending] at clear

theorem sendsServed_serveIndex (s : State) : (serveIndex s.unwaited).head.tx.sendsServed s := by
  intro f sending
  rw [serveIndex_sends, HeadTx.sending.injEq] at sending
  exact sending.symm

theorem unwaited_eq {s : State} (alone : s.head.waiting = false) : s.unwaited = s := by
  rw [State.unwaited, ← alone]

/-- An index that is served finds no other waiting (R90). -/
theorem waiting_of_served {s : State} (clear : s.hldirOutbound = false) (served : s.indexFate = .served) :
    s.head.waiting = false := by
  rw [indexFate_clear clear] at served
  cases waiting : s.head.waiting with
  | false => rfl
  | true => simp [waiting] at served

theorem takeIndex_sendsServed {s : State} (clear : s.hldirOutbound = false) :
    (takeIndex s).head.tx.sendsServed s := by
  unfold takeIndex
  split
  · rename_i served
    have serves := sendsServed_serveIndex s
    rwa [unwaited_eq (waiting_of_served clear served)] at serves
  · exact sendsServed_of_clear clear
  · exact sendsServed_of_clear clear

theorem serveWaited_sendsServed {s : State} (clear : s.hldirOutbound = false) :
    (serveWaited s).head.tx.sendsServed s := by
  rcases serveWaited_cases s with stays | ⟨-, -, -, served⟩
  · rw [stays]
    exact sendsServed_of_clear clear
  · rw [served]
    exact sendsServed_serveIndex s

theorem judgeRun_sendsServed {s : State} (clear : s.hldirOutbound = false) :
    (judgeRun s).1.head.tx.sendsServed s := by
  unfold judgeRun
  split
  · exact sendsServed_of_clear clear
  · split
    · exact sendsServed_of_clear clear
    · split
      · exact sendsServed_of_clear clear
      · dsimp only [replyWith]
        rw [startRun_head]
        exact serveWaited_sendsServed clear

/-- A frame being sent when the looped frame begins was being sent before (R123). -/
theorem beginLoopedFrame_sending {s : State} {f : Frame} (sending : (beginLoopedFrame s).head.tx = .sending f) :
    s.head.tx = .sending f := by
  unfold beginLoopedFrame at sending
  split at sending
  · exact absurd sending (by simp [State.loopedFrame])
  · split at sending
    · exact absurd sending (by simp [State.loopedFrame])
    · exact sending
  all_goals exact sending

/-- An accepted LOOP_TEST begins no frame but the looped one (R84, R123). -/
theorem startLoopTest_sending {s : State} {f : Frame} (sending : (startLoopTest s).head.tx = .sending f) :
    s.head.tx = .sending f := by
  unfold startLoopTest at sending
  have before := beginLoopedFrame_sending sending
  exact before

theorem judgeLoopTest_sendsServed {s : State} (clear : s.hldirOutbound = false) :
    (judgeLoopTest s).1.head.tx.sendsServed s := by
  unfold judgeLoopTest
  split
  · exact fun f sending => serveWaited_sendsServed clear f (startLoopTest_sending sending)
  · exact sendsServed_of_clear clear

theorem lengthCommand_sendsServed {row : Command → Bool} {n : Nat} {effect : List Byte → State → Effect} {s : State}
    (clear : s.hldirOutbound = false) (acts : ∀ args, (effect args s).1.head.tx.sendsServed s) :
    (executeFront row (fun args t => withLength n args (effect args t) t) s).head.tx.sendsServed s := by
  rcases lengthCommand_cases row n effect s with stays | ⟨c, refused | settled⟩
  · rw [stays]
    exact sendsServed_of_clear clear
  · rw [refused, settle_head]
    exact sendsServed_of_clear clear
  · rw [settled, settle_head]
    exact acts c.args

/-- A frame that one of the four events leaves being sent, none being sent before, is that of an index served. -/
theorem sentFrame_served {i : Instr} {s t : State} {f : Frame}
    (event : i = .shaftIndex ∨ i = .waitedShaftIndex ∨ i = .run ∨ i = .loopTest) (h : exec i s = .next t)
    (clear : s.hldirOutbound = false) (sending : t.head.tx = .sending f) : f = s.unwaited.servedFrame := by
  refine (?_ : t.head.tx.sendsServed s) f sending
  rcases event with rfl | rfl | rfl | rfl <;> cases h
  · exact takeIndex_sendsServed clear
  · exact serveWaited_sendsServed clear
  · exact lengthCommand_sendsServed clear fun _ => judgeRun_sendsServed clear
  · exact lengthCommand_sendsServed clear fun _ => judgeLoopTest_sendsServed clear

/-- Settles O9: the frame sent is that of an index served, and its words pass the filter of R108. -/
theorem frameEngagesOnlyAllowedNeedles : Obligations.FrameEngagesOnlyAllowedNeedles := by
  intro i s t f k p w event executed clear sending word engages
  rw [sentFrame_served event executed clear sending] at word
  obtain ⟨g, segment, configured, rfl⟩ := servedFrame_word_configured word
  obtain ⟨l, mapped, sewing, passes, output⟩ := wordFor_engages engages
  obtain ⟨-, running, answers, unmasked, allowed⟩ := (mayEngage_bit _ _ _).mp passes
  rw [endWindow_laneMap] at mapped
  rw [endWindow_line] at running
  rw [endWindow_operatorMask] at allowed
  rw [endWindow_store] at output
  exact ⟨g, l, segment, configured, mapped, running, sewing, unmasked, allowed, answers, output⟩

end Sys2Proof.Machine
end

section
/-! Returns and segments (sections 6.4, 7.2 to 7.5): a return slot judged by the state of its segment, the return window
from its opening to its expiry, SEGMENT_RESTORE and NEEDLE_RELEASE. -/

namespace Sys2Proof.Machine

open Sys2Proof

/-! ### Bad returns and segments set (R119, R120) -/

/-- A segment set sets SEGMENT_CHANGE exactly when its state changes (R119, R181). -/
theorem setSegment_eq (g : Fin 16) (x : Segment) (s : State) :
    setSegment g x s =
      { s with
        head.segments := s.head.segments.set g x
        mgmt.latches :=
          if x.state = s.head.segments[g].state then s.mgmt.latches
          else { s.mgmt.latches with segmentChange := true } } := by
  unfold setSegment
  by_cases same : x.state = s.head.segments[g].state
  · simp only [if_pos same]
  · simp only [if_neg same]
    rfl

theorem afterBad_online {x : Segment} (online : x.state = .online) :
    x.afterBad = { state := .suspect, badReturns := 1 } := by
  simp only [Segment.afterBad, online]

theorem afterBad_suspect {x : Segment} (suspect : x.state = .suspect) :
    x.afterBad =
      if x.badReturns < 2 then { state := .suspect, badReturns := 2 } else { state := .lost, badReturns := 3 } := by
  simp only [Segment.afterBad, suspect]

/-- A bad return of an answering segment is its new state set, with a loss notice when that is LOST (R119, R120). -/
theorem badReturn_answering {s : State} {g : Fin 16}
    (answers : s.head.segments[g].state = .online ∨ s.head.segments[g].state = .suspect) :
    badReturn g s =
      if s.head.segments[g].afterBad.state = .lost then lossNotice g (setSegment g s.head.segments[g].afterBad s)
      else setSegment g s.head.segments[g].afterBad s := by
  rcases answers with online | suspect
  · simp only [badReturn, online, afterBad_online online, reduceCtorEq, if_false]
  · by_cases early : s.head.segments[g].badReturns < 2
    · simp only [badReturn, suspect, afterBad_suspect suspect, if_pos early, reduceCtorEq, if_false]
    · simp only [badReturn, suspect, afterBad_suspect suspect, if_neg early, if_true]

/-! ### A return slot (R116, R117, R121, R165) -/

/-- The position of a segment in an open window marked received (R116). -/
def State.marked (s : State) (received : List Bool) (g : Fin 16) : State :=
  { s with head.tx := .window (received.set g.val true) }

section

variable {s : State} {received : List Bool} {g : Fin 16} (x : Slot)

theorem returnArrives_again (window : s.head.tx = .window received) (again : received[g.val]? = some true) :
    returnArrives g.val x s = s := by
  simp only [returnArrives, window, finOf_val, again]

theorem returnArrives_first (window : s.head.tx = .window received) (first : received[g.val]? = some false) :
    returnArrives g.val x s = judgeSlot g x (s.marked received g) := by
  simp only [returnArrives, window, finOf_val, first, State.marked]

theorem judgeSlot_silent (silent : s.head.segments[g].state = .lost ∨ s.head.segments[g].state = .off) :
    judgeSlot g x s = s := by
  have unheard : ¬ s.head.segments[g].state.answering = true := by
    rcases silent with state | state <;> rw [state] <;> decide
  rw [judgeSlot, if_neg unheard]

theorem judgeSlot_good (answers : s.head.segments[g].state = .online ∨ s.head.segments[g].state = .suspect)
    (good : x.goodReturn g.val = true) :
    judgeSlot g x s =
      returnNotice g x.present x.bobbinLow (setSegment g { state := .online, badReturns := 0 } s) := by
  rw [judgeSlot, if_pos ((answering_iff _).mpr answers), if_pos good, goodReturn]

theorem judgeSlot_bad (answers : s.head.segments[g].state = .online ∨ s.head.segments[g].state = .suspect)
    (bad : x.goodReturn g.val = false) :
    judgeSlot g x s =
      if s.head.segments[g].afterBad.state = .lost then lossNotice g (setSegment g s.head.segments[g].afterBad s)
      else setSegment g s.head.segments[g].afterBad s := by
  rw [judgeSlot, if_pos ((answering_iff _).mpr answers), if_neg (by rw [bad]; decide), badReturn_answering answers]

end

/-- What a loss notice forms, offers and evaluates, and what it leaves (R120, R139 to R142). -/
theorem lossNotice_described (g : Fin 16) (u : State) :
    let t := lossNotice g u
    let d := u.defectNow .loss g
    FormedIn u .loss g d ∧ Offered d u t ∧ SegmentEvaluated g u t ∧ t.thread.presence = u.thread.presence ∧
      t.thread.faultMask = u.thread.faultMask ∧ t.thread.rethread = u.thread.rethread ∧
      t.thread.totalBreaks = u.thread.totalBreaks ∧ t.thread.bobbinLow = u.thread.bobbinLow ∧ t.head = u.head ∧
      t.line = u.line ∧ t.store = u.store := by
  obtain ⟨offered, evaluated⟩ := lossNotice_done g u
  refine ⟨defectNow_formed u .loss g, offered, evaluated, ?_⟩
  obtain ⟨_, _, _, _, keeps⟩ := lossNotice_keeps g u
  simp only [keeps, and_self]

/-- Settles O13: the slot by its position and the state of its segment, then the segment set and the loss notice. -/
theorem returnSlotJudgedBySegmentState : Obligations.ReturnSlotJudgedBySegmentState := by
  intro s received g x window
  refine ⟨fun again => congrArg Host.Outcome.next (returnArrives_again x window again), fun first => ?_, fun y => ?_,
    lossNotice_described g⟩
  · have judged {u : State} (is : judgeSlot g x (s.marked received g) = u) :
        exec (.returnSlot g.val x) s = .next u :=
      congrArg Host.Outcome.next ((returnArrives_first x window first).trans is)
    refine ⟨fun silent => ?_, fun answers good => ?_, fun answers bad suspect => ?_, fun answers bad lost => ?_⟩
    · exact judged (judgeSlot_silent x silent)
    · exact judged (judgeSlot_good x answers good)
    · have stays : ¬ s.head.segments[g].afterBad.state = .lost := by rw [suspect]; decide
      exact judged ((judgeSlot_bad (s := s.marked received g) x answers bad).trans (if_neg stays))
    · exact judged ((judgeSlot_bad (s := s.marked received g) x answers bad).trans (if_pos lost))
  · rw [setSegment_eq]
    exact ⟨rfl, rfl⟩

/-! ### The return window (R114, R116, R118, R123) -/

/-- Only segments and what their LOSS notices reach differ: the defect list, latches, lane contexts, last laterals. -/
def OnlyLosses (s t : State) : Prop :=
  ∃ segments defects latches lanes laterals,
    t = { s with head.segments := segments, thread.defects := defects, mgmt.latches := latches,
                 engine.lanes := lanes, composer.lastLateral := laterals }

theorem OnlyLosses.refl (s : State) : OnlyLosses s s := ⟨_, _, _, _, _, rfl⟩

theorem OnlyLosses.trans {s t u : State} (h : OnlyLosses s t) (k : OnlyLosses t u) : OnlyLosses s u := by
  obtain ⟨_, _, _, _, _, rfl⟩ := h
  obtain ⟨_, _, _, _, _, rfl⟩ := k
  exact ⟨_, _, _, _, _, rfl⟩

theorem closePosition_onlyLosses (received : List Bool) (s : State) (g : Fin 16) :
    OnlyLosses s (closePosition received s g) := by
  unfold closePosition
  split
  · obtain ⟨_, _, _, _, keeps⟩ := badReturn_keeps g s
    exact ⟨_, _, _, _, _, keeps⟩
  · exact .refl s
  · exact .refl s

/-- A segment at the end of a window (R118, R119). -/
def Segment.closed (x : Segment) (position : Option Bool) : Segment := if position = some false then x.afterBad else x

theorem closePosition_segment_same (received : List Bool) (s : State) (g : Fin 16) :
    (closePosition received s g).head.segments[g] = s.head.segments[g].closed received[g.val]? := by
  unfold closePosition Segment.closed
  split
  · rename_i missing
    obtain ⟨_, _, _, _, keeps⟩ := badReturn_keeps g s
    simp [keeps, missing]
  · rename_i answered
    simp [answered]
  · rename_i none
    simp [none]

theorem closePosition_segment_other (received : List Bool) (s : State) {g k : Fin 16} (other : k ≠ g) :
    (closePosition received s g).head.segments[k] = s.head.segments[k] := by
  have apart : g.val ≠ k.val := fun same => other (Fin.ext same.symm)
  unfold closePosition
  split
  · obtain ⟨_, _, _, _, keeps⟩ := badReturn_keeps g s
    simp [keeps, apart]
  · rfl
  · rfl

/-- The positions closed one after another: each segment among them is closed once. -/
theorem closePositions_segment (received : List Bool) (gs : List (Fin 16)) (once : gs.Nodup) (s : State) (k : Fin 16) :
    (gs.foldl (closePosition received) s).head.segments[k] =
      if k ∈ gs then s.head.segments[k].closed received[k.val]? else s.head.segments[k] := by
  induction gs generalizing s with
  | nil => simp
  | cons g gs ih =>
    obtain ⟨notAgain, once⟩ := List.nodup_cons.mp once
    rw [List.foldl_cons, ih once]
    by_cases same : k = g
    · subst same
      rw [if_neg notAgain, if_pos List.mem_cons_self, closePosition_segment_same]
    · rw [closePosition_segment_other received s same]
      simp [same]

section

variable {s : State} {received : List Bool}

theorem endWindow_onlyLosses (window : s.head.tx = .window received) :
    OnlyLosses { s with head.tx := .free } (endWindow s) := by
  simp only [endWindow, window]
  exact foldl_keeps OnlyLosses.refl OnlyLosses.trans (closePosition_onlyLosses received) _ _

theorem endWindow_segment (window : s.head.tx = .window received) (g : Fin 16) :
    (endWindow s).head.segments[g] = s.head.segments[g].closed received[g.val]? := by
  simp only [endWindow, window]
  rw [closePositions_segment received _ (List.nodup_finRange 16), if_pos (List.mem_finRange g)]

theorem windowExpires_eq (window : s.head.tx = .window received) :
    windowExpires s = { endWindow s with head.tx := if s.head.claim then .loop none else .free } := by
  have free : (endWindow s).head.tx = .free := by
    obtain ⟨_, _, _, _, _, losses⟩ := endWindow_onlyLosses window
    rw [losses]
  simp only [windowExpires, window]
  rw [← endWindow_claim s]
  split
  · rfl
  · rw [← free]

end

/-- Settles O16: the window opened, and its end judged segment by segment. -/
theorem returnWindowOpensAndExpires : Obligations.ReturnWindowOpensAndExpires := by
  refine ⟨fun s f sending => ?_, fun s received window => ⟨windowExpires s, rfl, ?_⟩⟩
  · refine congrArg Host.Outcome.next ?_
    simp only [outboundComplete, sending]
  · have segments := endWindow_segment window
    obtain ⟨_, _, _, _, _, losses⟩ := endWindow_onlyLosses window
    rw [windowExpires_eq window]
    refine ⟨rfl, segments, ?_⟩
    simp only [losses, and_self]

/-! ### SEGMENT_RESTORE (R122, R129, R138) -/

section

variable {s : State} {c : Command} {n : Byte}

theorem exec_segmentRestore (ready : s.frontReady c) (code : c.code = 0x40) (args : c.args = [n]) :
    exec .segmentRestore s = .next (settle c (judgeRestore n.toNat s)) := by
  have executed := lengthCommand_ready ready (hasCode_of code) (n := 1) (by rw [args]; rfl) fun args t =>
    judgeRestore (argByte args 0) t
  rw [args] at executed
  exact congrArg Host.Outcome.next executed

theorem exec_needleRelease (ready : s.frontReady c) (code : c.code = 0x50) (args : c.args = [n]) :
    exec .needleRelease s = .next (settle c (judgeNeedle n.toNat s)) := by
  have executed := lengthCommand_ready ready (hasCode_of code) (n := 1) (by rw [args]; rfl) fun args t =>
    judgeNeedle (argByte args 0) t
  rw [args] at executed
  exact congrArg Host.Outcome.next executed

end

theorem judgeRestore_outside {segment : Nat} {s : State} (outside : 16 ≤ segment ∨ s.head.segmentCount ≤ segment) :
    judgeRestore segment s = reply .range s := by
  by_cases beyond : 16 ≤ segment
  · simp only [judgeRestore, finOf_eq_none beyond]
  · have named : finOf 16 segment = some ⟨segment, by omega⟩ := finOf_eq_some _ rfl
    simp only [judgeRestore, named]
    exact if_neg (Nat.not_lt.mpr (outside.resolve_left beyond))

theorem judgeRestore_configured {segment : Nat} {g : Fin 16} {s : State} (named : segment = g.val)
    (configured : g.val < s.head.segmentCount) :
    judgeRestore segment s = replyWith .done [byteOf s.head.segments[g].state.code] (restoreSegment g s) := by
  simp only [judgeRestore, finOf_eq_some g named, if_pos configured]

/-- SEGMENT_CHANGE set when a state changes, written as a value (R181). -/
theorem segmentChange_eq (x y : SegmentState) (latches : Latches) :
    (if x = y then latches else { latches with segmentChange := true }) =
      { latches with segmentChange := latches.segmentChange || decide (y ≠ x) } := by
  by_cases same : x = y
  · simp [same]
  · simp [same, Ne.symm same]

/-- A restore sets the segment ONLINE with count 0, its needles unknown and its bobbin not low (R122, R129, R138). -/
theorem restoreSegment_eq (g : Fin 16) (s : State) :
    restoreSegment g s =
      { s with
        head.segments := s.head.segments.set g { state := .online, badReturns := 0 }
        thread.presence := s.thread.presence.set g (Vector.replicate 8 .unknown)
        thread.bobbinLow := s.thread.bobbinLow.set g false
        mgmt.latches.segmentChange :=
          s.mgmt.latches.segmentChange || decide (s.head.segments[g].state ≠ .online) } := by
  rw [restoreSegment, setSegment_eq, segmentChange_eq]
  rfl

/-! ### NEEDLE_RELEASE (R136) -/

theorem judgeNeedle_outside {needle : Nat} (outside : 127 < needle) (s : State) :
    judgeNeedle needle s = reply .range s := by
  simp only [judgeNeedle, finOf_eq_none (n := 16) (x := needle / 8) (by omega)]

/-- A needle of the head is a position of a segment. -/
theorem judgeNeedle_of {needle : Nat} {g : Fin 16} {p : Fin 8} (named : needle = 8 * g.val + p.val) (s : State) :
    judgeNeedle needle s =
      if s.line.state = .idle || s.line.state.isHalted then
        replyWith .done
          [byteOf (bitsToNat [s.thread.faultMask[g].getLsbD p, s.thread.rethread[g].getLsbD p])] (releaseNeedle g p s)
      else reply .wrongState s := by
  have segment : needle / 8 = g.val := by omega
  have position : needle % 8 = p.val := by omega
  simp only [judgeNeedle, finOf_eq_some g segment, finOf_eq_some p position]

/-- Settles O43: each command by the range of its operand, then by what its rule asks of the state. -/
theorem segmentRestoreAndNeedleRelease : Obligations.SegmentRestoreAndNeedleRelease := by
  intro s c n ready args
  refine ⟨fun code => ?_, fun code => ?_⟩
  · rw [exec_segmentRestore ready code args]
    refine ⟨fun outside => ?_, fun g named configured => ?_⟩
    · rw [judgeRestore_outside outside, settle_reply]
    · rw [judgeRestore_configured named configured, settle_replyWith, restoreSegment_eq]
      rfl
  · rw [exec_needleRelease ready code args]
    refine ⟨fun outside => ?_, fun inside notIdle notHalted => ?_, fun g p named allowed => ?_⟩
    · rw [judgeNeedle_outside outside, settle_reply]
    · have named : n.toNat = 8 * (⟨n.toNat / 8, by omega⟩ : Fin 16).val + (⟨n.toNat % 8, by omega⟩ : Fin 8).val :=
        (Nat.div_add_mod _ _).symm
      rw [judgeNeedle_of named, if_neg (by simp [notIdle, notHalted]), settle_reply]
    · rw [judgeNeedle_of named, if_pos (by simpa using allowed), settle_replyWith]
      rfl

end Sys2Proof.Machine
end

section
/-! The SET items of IDLE: the lane map entry and the segment count (section 6.1). -/

namespace Sys2Proof.Machine

open Sys2Proof

/-! ### SET lane map entry (R104, R185) -/

theorem laneArgument_lane {b : Nat} (l : Fin 8) (named : b = l.val) : laneArgument b = some (some l) := by
  have notEight : ¬ b = 8 := by omega
  rw [laneArgument, if_neg notEight, finOf_eq_some l named]
  rfl

theorem laneArgument_outside {b : Nat} (outside : 8 < b) : laneArgument b = none := by
  rw [laneArgument, if_neg (by omega), finOf_eq_none (by omega)]
  rfl

theorem laneArgument_inside {b : Nat} (inside : b ≤ 8) : ∃ entry, laneArgument b = some entry := by
  by_cases eight : b = 8
  · exact ⟨none, if_pos eight⟩
  · exact ⟨_, laneArgument_lane ⟨b, by omega⟩ rfl⟩

theorem judgeLaneMap_named {segment lane : Nat} {g : Fin 16} {entry : Option (Fin 8)} (target : segment = g.val)
    (named : laneArgument lane = some entry) (s : State) :
    judgeLaneMap segment lane s =
      if s.line.state = .idle then reply .done { s with composer.laneMap := s.composer.laneMap.set g entry }
      else reply .wrongState s := by
  simp only [judgeLaneMap, finOf_eq_some g target, named]

theorem judgeLaneMap_outside {segment lane : Nat} (outside : 15 < segment ∨ 8 < lane) (s : State) :
    judgeLaneMap segment lane s = reply .range s := by
  by_cases beyond : 15 < segment
  · simp only [judgeLaneMap, finOf_eq_none (n := 16) (x := segment) (by omega)]
  · have target : finOf 16 segment = some ⟨segment, by omega⟩ := finOf_eq_some _ rfl
    simp only [judgeLaneMap, target, laneArgument_outside (outside.resolve_left beyond)]

theorem setLaneMapEntry_judged {s : State} {c : Command} (ready : s.frontReady c) (code : c.code = 0x60)
    (seg lane : Byte) (args : c.args = [1, seg, lane]) :
    (15 < seg.toNat ∨ 8 < lane.toNat → exec .setLaneMapEntry s = .next (answered c .range [] s)) ∧
    (seg.toNat ≤ 15 → lane.toNat ≤ 8 → s.line.state ≠ .idle →
      exec .setLaneMapEntry s = .next (answered c .wrongState [] s)) ∧
    (∀ (g : Fin 16) (l : Fin 8), seg.toNat = g.val → lane.toNat = l.val → s.line.state = .idle →
      exec .setLaneMapEntry s =
        .next (answered c .done [] { s with composer.laneMap := s.composer.laneMap.set g (some l) })) ∧
    (∀ g : Fin 16, seg.toNat = g.val → lane = 8 → s.line.state = .idle →
      exec .setLaneMapEntry s =
        .next (answered c .done [] { s with composer.laneMap := s.composer.laneMap.set g none })) := by
  have executed := set_ready ready code (item := 1) (n := 2) (by rw [args]; rfl) (by rw [args]; rfl) fun args t =>
    judgeLaneMap (argByte args 1) (argByte args 2) t
  rw [args] at executed
  have executed : exec .setLaneMapEntry s = .next (settle c (judgeLaneMap seg.toNat lane.toNat s)) :=
    congrArg Host.Outcome.next executed
  rw [executed]
  refine ⟨fun outside => ?_, fun segment inside busy => ?_, fun g l target named idle => ?_, fun g target none idle => ?_⟩
  · rw [judgeLaneMap_outside outside, settle_reply]
  · obtain ⟨entry, named⟩ := laneArgument_inside inside
    rw [judgeLaneMap_named (g := ⟨seg.toNat, by omega⟩) rfl named, if_neg busy, settle_reply]
  · rw [judgeLaneMap_named target (laneArgument_lane l named), if_pos idle, settle_reply]
  · subst none
    rw [judgeLaneMap_named target (entry := none) rfl, if_pos idle, settle_reply]

/-! ### SET segment count (R105, R129, R138) -/

/-- Some segment changes its state under a new N (R105). -/
def State.countChanges (s : State) (n : Nat) : Bool :=
  (List.finRange 16).any fun g => decide ((s.head.segments[g].under n g).state ≠ s.head.segments[g].state)

theorem countChanges_iff (s : State) (n : Nat) :
    s.countChanges n = true ↔ ∃ g : Fin 16, (s.head.segments[g].under n g).state ≠ s.head.segments[g].state := by
  simp only [State.countChanges, List.any_eq_true, List.mem_finRange, true_and, decide_eq_true_eq]

/-- A segment count taken, SEGMENT_CHANGE written as a value (R105, R181). -/
theorem takeSegmentCount_eq (n : Nat) (s : State) :
    takeSegmentCount n s =
      { s with
        head.segmentCount := n
        head.segments := tabulate fun g => s.head.segments[g].under n g
        thread.presence := tabulate fun g =>
          if s.head.segments[g].includedBy n g then Vector.replicate 8 .unknown else s.thread.presence[g]
        thread.bobbinLow := tabulate fun g =>
          if s.head.segments[g].includedBy n g then false else s.thread.bobbinLow[g]
        mgmt.latches.segmentChange := s.mgmt.latches.segmentChange || s.countChanges n } := by
  unfold takeSegmentCount
  dsimp only
  split
  · rename_i changes
    have changes : s.countChanges n = true := changes
    rw [changes, Bool.or_true]
    rfl
  · rename_i same
    have same : s.countChanges n = false := Bool.eq_false_iff.mpr same
    rw [same, Bool.or_false]

/-- What a segment becomes under a new N, its count fitting its state before (R105, R119). -/
theorem under_eq {x : Segment} (fits : x.wf) (n : Nat) (g : Fin 16) :
    x.under n g =
      if n ≤ g.val then { state := .off, badReturns := 0 }
      else if x.state = .off then { state := .online, badReturns := 0 } else x := by
  unfold Segment.under
  by_cases above : n ≤ g.val
  · rw [if_neg (Nat.not_lt.mpr above), if_pos above]
    split
    · rename_i off
      obtain ⟨state, badReturns⟩ := x
      subst off
      rw [show badReturns = 0 from fits]
    · rfl
  · rw [if_pos (Nat.not_le.mp above), if_neg above]

theorem judgeCount_outside {n : Nat} (outside : n = 0 ∨ 16 < n) (s : State) : judgeCount n s = reply .range s := by
  rw [judgeCount, if_pos (by simpa [Nat.lt_one_iff] using outside)]

theorem judgeCount_inside {n : Nat} (low : 1 ≤ n) (high : n ≤ 16) (s : State) :
    judgeCount n s =
      if s.line.state = .idle then reply .done (takeSegmentCount n s) else reply .wrongState s := by
  rw [judgeCount, if_neg (by simp only [Bool.or_eq_true, decide_eq_true_eq]; omega)]

theorem exec_setSegmentCount {s : State} {c : Command} (ready : s.frontReady c) (code : c.code = 0x60) {n : Byte}
    (args : c.args = [2, n]) : exec .setSegmentCount s = .next (settle c (judgeCount n.toNat s)) := by
  have executed := set_ready ready code (item := 2) (n := 1) (by rw [args]; rfl) (by rw [args]; rfl) fun args t =>
    judgeCount (argByte args 1) t
  rw [args] at executed
  exact congrArg Host.Outcome.next executed

/-- Settles O45: each item by its range, then by the line state; the count taken segment by segment. -/
theorem setLaneMapAndSegmentCount : Obligations.SetLaneMapAndSegmentCount := by
  intro s c ready code
  refine ⟨setLaneMapEntry_judged ready code, fun n args => ?_⟩
  rw [exec_setSegmentCount ready code args]
  refine ⟨fun outside => ?_, fun low high busy => ?_, fun low high idle fits => ?_⟩
  · rw [judgeCount_outside outside, settle_reply]
  · rw [judgeCount_inside low high, if_neg busy, settle_reply]
  · rw [judgeCount_inside low high, if_pos idle, settle_reply, takeSegmentCount_eq]
    refine ⟨_, _, _, _, fun g => ?_, ?_, rfl⟩
    · simp only [Fin.getElem_fin, tabulate_getElem]
      exact ⟨under_eq (fits g) _ g, rfl, rfl⟩
    · simp only [Bool.or_eq_true, countChanges_iff, Fin.getElem_fin, tabulate_getElem]

end Sys2Proof.Machine
end

section
/-! The return notice of a segment, position by position (sections 7.1, 7.2), and the two commands that read out what the
Thread Supervisor and the links have counted: TAKE_DEFECT and CLEAR_COUNTS (sections 7.4, 9.7). -/

namespace Sys2Proof.Machine

open Sys2Proof

/-! ### The judgement of a position, by its presence before (R130, R131, R134) -/

section

variable {s : State} {g : Fin 16} {p : Fin 8}

theorem judgePosition_masked (masked : s.composer.operatorMask[g].getLsbD p = true) (reported : Pattern) :
    judgePosition g reported s p = setPresence g p .unknown s :=
  if_pos masked

/-- A presence not known yet becomes what is reported. -/
theorem judgePosition_unknown (free : s.composer.operatorMask[g].getLsbD p = false)
    (before : s.thread.presence[g][p] = .unknown) (reported : Pattern) :
    judgePosition g reported s p =
      setPresence g p (if reported.getLsbD p then .present else .absent) s := by
  simp only [judgePosition, free, before]
  cases reported.getLsbD p <;> rfl

/-- A thread seen before and gone is a break, or ends the rethreading of a needle already in the fault mask. -/
theorem judgePosition_present (free : s.composer.operatorMask[g].getLsbD p = false)
    (before : s.thread.presence[g][p] = .present) (reported : Pattern) :
    judgePosition g reported s p =
      if reported.getLsbD p then s
      else if s.thread.faultMask[g].getLsbD p then leaveRethread g p (setPresence g p .absent s)
      else threadBreak g p (setPresence g p .absent s) := by
  simp only [judgePosition, free, before]
  cases reported.getLsbD p <;> rfl

/-- A thread seen again has been rethreaded where its needle is in the fault mask. -/
theorem judgePosition_absent (free : s.composer.operatorMask[g].getLsbD p = false)
    (before : s.thread.presence[g][p] = .absent) (reported : Pattern) :
    judgePosition g reported s p =
      if reported.getLsbD p then
        if s.thread.faultMask[g].getLsbD p then joinRethread g p (setPresence g p .present s)
        else setPresence g p .present s
      else s := by
  simp only [judgePosition, free, before]
  cases reported.getLsbD p <;> rfl

end

/-- Settles O14: the judgement by the operator mask, then by the presence before; the notice from what its eight
judgements leave of the bobbin-low states. -/
theorem needleJudgementTable : Obligations.NeedleJudgementTable := by
  intro s g p reported
  refine ⟨fun masked => judgePosition_masked masked reported, fun free => ?_, fun low => ?_⟩
  · refine ⟨fun before seen => ?_, fun before gone => ?_, fun before seen => ?_, fun before gone sound => ?_,
      fun before gone faulty => ?_, fun before gone => ?_, fun before seen faulty => ?_, fun before seen sound => ?_⟩
    · simp only [judgePosition_unknown free before, seen, if_true]
    · simp only [judgePosition_unknown free before, gone, Bool.false_eq_true, if_false]
    · simp only [judgePosition_present free before, seen, if_true]
    · simp only [judgePosition_present free before, gone, sound, Bool.false_eq_true, if_false]
    · simp only [judgePosition_present free before, gone, faulty, Bool.false_eq_true, if_false, if_true]
    · simp only [judgePosition_absent free before, gone, Bool.false_eq_true, if_false]
    · simp only [judgePosition_absent free before, seen, faulty, if_true]
    · simp only [judgePosition_absent free before, seen, sound, Bool.false_eq_true, if_false, if_true]
  · obtain ⟨states, latch⟩ := judgePositions_bobbin g reported [0, 1, 2, 3, 4, 5, 6, 7] s
    exact ⟨states, latch, returnNotice_eq g reported low s⟩

/-! ### TAKE_DEFECT and CLEAR_COUNTS (R143, R183, R191) -/

section

variable {s : State} {c : Command}

theorem exec_takeDefect (ready : s.frontReady c) (code : c.code = 0x51) (args : c.args = []) :
    exec .takeDefect s = .next (settle c (judgeTake s)) :=
  congrArg Host.Outcome.next (bareCommand_ready ready code args judgeTake)

theorem exec_clearCounts (ready : s.frontReady c) (code : c.code = 0x62) (args : c.args = []) :
    exec .clearCounts s = .next (settle c (judgeClear s)) :=
  congrArg Host.Outcome.next (bareCommand_ready ready code args judgeClear)

end

theorem judgeTake_oldest {s : State} {d : Defect} {rest : List Defect} (records : s.thread.defects = d :: rest) :
    judgeTake s = replyWith .done d.bytes { s with thread.defects := rest } := by
  simp only [judgeTake, records]

theorem judgeTake_none {s : State} (records : s.thread.defects = []) : judgeTake s = reply .empty s := by
  simp only [judgeTake, records]

/-- Settles O44: the oldest record by the layout of its bytes, and the counts as they stood. -/
theorem takeDefectAndClearCounts : Obligations.TakeDefectAndClearCounts := by
  intro s c ready args
  refine ⟨fun code => ?_, fun code => ?_⟩
  · rw [exec_takeDefect ready code args]
    refine ⟨fun d rest records => ⟨d.bytes_length, d.bytes_eq_fields, ?_⟩, fun records => ?_⟩
    · rw [judgeTake_oldest records, settle_replyWith]
    · rw [judgeTake_none records, settle_reply]
  · rw [exec_clearCounts ready code args, judgeClear, settle_replyWith, State.countsData]

end Sys2Proof.Machine
end

section
/-! The receiver of the Stroke Link Port (sections 8.1 to 8.4, 8.6): what a byte, a gap, the return to mark and the end
of a break do in each receiver state, and the bytes of a whole cell received one after another. -/

namespace Sys2Proof.Machine

open Sys2Proof

/-! ### The receiver set (R152) -/

/-- The receiver moves, and nothing else of the state does. -/
def State.withReceiver (r : Receiver) (s : State) : State := { s with link.receiver := r }

section

variable (r : Receiver) (s : State)

@[simp] theorem State.withReceiver_again (before : Receiver) :
    (s.withReceiver before).withReceiver r = s.withReceiver r := rfl

/-- Where a cell arrives, the receiver becomes READY whatever it was (R155). -/
@[simp] theorem cellArrives_withReceiver (k : CellKind) (payload : List Byte) :
    cellArrives k payload (s.withReceiver r) = cellArrives k payload s := rfl

end

/-- A receiver set to what it is. -/
theorem State.withReceiver_self {s : State} {r : Receiver} (state : s.link.receiver = r) : s.withReceiver r = s := by
  subst state
  rfl

/-! ### Cells discarded, cells begun, lengths judged (R150 to R154, R161) -/

/-- The model's discard is the one the statements spell out (R153, R154). -/
theorem discardCell_eq_discarded (next : Receiver) (s : State) : discardCell next s = discarded next s := rfl

theorem lengthGood_iff (k : CellKind) (n : Nat) : lengthGood k n = true ↔ n ≤ 32 ∧ (k = .command → 2 ≤ n) := by
  cases k with
  | stroke =>
    rw [lengthGood, decide_eq_true_eq]
    simp [Config.maxPayload]
  | command =>
    rw [lengthGood, decide_eq_true_eq]
    simp [Config.maxPayload, and_comm]

/-- The kind byte of an upstream cell (R161). -/
def CellKind.code : CellKind → Byte
  | .stroke => 0x53
  | .command => 0x43

/-- A cell of which the kind byte alone has been received (R152). -/
def PartCell.begun (k : CellKind) : PartCell := { kind := k, length := none, payload := [], check := crc8 [k.code] }

/-- A cell with its length byte taken (R152). -/
def PartCell.measured (d : Byte) (c : PartCell) : PartCell :=
  { c with length := some d.toNat, check := crcByte c.check d }

/-- A cell with further payload bytes taken (R152). -/
def PartCell.filled (bytes : List Byte) (c : PartCell) : PartCell :=
  { c with payload := c.payload ++ bytes, check := bytes.foldl crcByte c.check }

@[simp] theorem PartCell.filled_payload (bytes : List Byte) (c : PartCell) :
    (c.filled bytes).payload = c.payload ++ bytes := rfl

@[simp] theorem PartCell.filled_nil (c : PartCell) : c.filled [] = c := by
  simp [PartCell.filled]

@[simp] theorem PartCell.filled_cons (d : Byte) (bytes : List Byte) (c : PartCell) :
    (c.filled [d]).filled bytes = c.filled (d :: bytes) := by
  simp [PartCell.filled]

theorem kindByte_code (k : CellKind) (s : State) :
    kindByte k.code s = s.withReceiver (.inCell (.begun k)) := by
  cases k <;> rfl

theorem kindByte_other {d : Byte} (notStroke : d ≠ 0x53) (notCommand : d ≠ 0x43) (s : State) :
    kindByte d s = discarded .waitGap s :=
  (if_neg notStroke).trans (if_neg notCommand)

/-! ### A framing error by the receiver's state (R152, R153) -/

theorem framingError_discards {s : State} (state : s.link.receiver = .ready ∨ ∃ c, s.link.receiver = .inCell c) :
    framingError s = discarded .waitGap s := by
  rcases state with state | ⟨c, state⟩ <;> simp only [framingError, state, discardCell_eq_discarded]

theorem framingError_ignored {s : State} (state : s.link.receiver = .waitGap) : framingError s = s := by
  simp only [framingError, state]

/-! ### What is received with the line at mark (R149, R152) -/

section

variable {s : State} (held : s.link.heldSpace = false) (unbroken : s.link.breakState = false)
include held unbroken

theorem exec_receivedByte_good (d : Byte) : exec (.receivedByte d true) s = .next (goodByte d s) := by
  simp [exec, execReceivedByte, byteArrives, held, unbroken]

theorem exec_receivedByte_allSpace : exec (.receivedByte 0 false) s = .next { s with link.heldSpace := true } := by
  simp [exec, execReceivedByte, byteArrives, held, unbroken]

theorem exec_receivedByte_framing {d : Byte} (nonzero : d ≠ 0) :
    exec (.receivedByte d false) s = .next (framingError s) := by
  simp only [exec, execReceivedByte, byteArrives, held, unbroken, nonzero, Bool.or_self, Bool.false_eq_true, if_false]

theorem exec_receivedByte_ready (state : s.link.receiver = .ready) (d : Byte) :
    exec (.receivedByte d true) s = .next (kindByte d s) := by
  simp only [exec_receivedByte_good held unbroken, goodByte, state]

theorem exec_receivedByte_kind (state : s.link.receiver = .ready) (k : CellKind) :
    exec (.receivedByte k.code true) s = .next (s.withReceiver (.inCell (.begun k))) := by
  rw [exec_receivedByte_ready held unbroken state, kindByte_code]

theorem exec_receivedByte_inCell {c : PartCell} (state : s.link.receiver = .inCell c) (d : Byte) :
    exec (.receivedByte d true) s = .next (bodyByte d c s) := by
  simp only [exec_receivedByte_good held unbroken, goodByte, state]

theorem exec_receivedByte_waitGap (state : s.link.receiver = .waitGap) (d : Byte) :
    exec (.receivedByte d true) s = .next s := by
  simp only [exec_receivedByte_good held unbroken, goodByte, state]

/-- The length byte is judged by the kind. -/
theorem exec_receivedByte_length {c : PartCell} (state : s.link.receiver = .inCell c) (begun : c.length = none)
    (d : Byte) :
    exec (.receivedByte d true) s = .next
      (if lengthGood c.kind d.toNat then s.withReceiver (.inCell (c.measured d)) else discarded .waitGap s) := by
  simp only [exec_receivedByte_inCell held unbroken state, bodyByte, begun]
  rfl

theorem exec_receivedByte_payload {c : PartCell} {n : Nat} (state : s.link.receiver = .inCell c)
    (length : c.length = some n) (room : c.payload.length < n) (d : Byte) :
    exec (.receivedByte d true) s = .next (s.withReceiver (.inCell (c.filled [d]))) := by
  simp only [exec_receivedByte_inCell held unbroken state, bodyByte, length, room, if_true, PartCell.filled,
    List.foldl_cons, List.foldl_nil, State.withReceiver]

/-- After the last payload byte, the check byte decides. -/
theorem exec_receivedByte_check {c : PartCell} {n : Nat} (state : s.link.receiver = .inCell c)
    (length : c.length = some n) (full : n ≤ c.payload.length) (d : Byte) :
    exec (.receivedByte d true) s = .next
      (if d = c.check then cellArrives c.kind c.payload s else discarded .waitGap s) := by
  simp only [exec_receivedByte_inCell held unbroken state, bodyByte, length, Nat.not_lt.mpr full, if_false,
    discardCell_eq_discarded]

theorem exec_cellGap_ready (state : s.link.receiver = .ready) : exec .cellGap s = .next s := by
  simp [exec, execCellGap, gapPasses, held, unbroken, state]

theorem exec_cellGap_inCell {c : PartCell} (state : s.link.receiver = .inCell c) :
    exec .cellGap s = .next (discarded .ready s) := by
  simp [exec, execCellGap, gapPasses, held, unbroken, state, discardCell_eq_discarded]

theorem exec_cellGap_waitGap (state : s.link.receiver = .waitGap) :
    exec .cellGap s = .next { s with link.receiver := .ready } := by
  simp [exec, execCellGap, gapPasses, held, unbroken, state]

end

/-! ### The end of a space (R156, R157) -/

/-- The held all-space byte is judged as a framing error. -/
theorem exec_returnToMark_held {s : State} (held : s.link.heldSpace = true) (unbroken : s.link.breakState = false) :
    exec .returnToMark s = .next (framingError { s with link.heldSpace := false }) := by
  simp [exec, execReturnToMark, markReturns, held, unbroken]

theorem exec_breakEnd_broken {s : State} (broken : s.link.breakState = true) :
    exec .breakEnd s = .next { s with link.breakState := false, link.receiver := .waitGap } :=
  congrArg Host.Outcome.next (if_pos broken)

/-! ### The arrival of a cell by its check byte (R152, R155) -/

/-- A STROKE cell handed on by its check byte is the arrival of the cell at a READY receiver. -/
theorem cellArrives_stroke (payload : List Byte) (s : State) :
    .next (cellArrives .stroke payload s) = exec (.strokeCell payload) (s.withReceiver .ready) := rfl

/-- A COMMAND cell handed on by its check byte is the arrival of the cell at a READY receiver. -/
theorem cellArrives_command (tag code : Byte) (args : List Byte) (s : State) :
    .next (cellArrives .command (tag :: code :: args) s) =
      exec (.commandCell { tag := tag, code := code, args := args }) (s.withReceiver .ready) := rfl

/-- Settles O18, by the receiver's state and, in a cell, by what has been received of it. -/
theorem receivedByteByReceiverState : Obligations.ReceivedByteByReceiverState := by
  intro s d held unbroken
  refine ⟨fun ready stroke => ?_, fun ready command => ?_, fun ready notStroke notCommand => ?_,
    fun c inCell begun => ?_, fun c n inCell length room => ?_, fun c n inCell length full differs => ?_,
    fun c n inCell length full same stroke => ?_, fun c n tag code args inCell length full same command spelled => ?_,
    fun waiting => ?_⟩
  · subst stroke
    exact exec_receivedByte_kind held unbroken ready .stroke
  · subst command
    exact exec_receivedByte_kind held unbroken ready .command
  · rw [exec_receivedByte_ready held unbroken ready, kindByte_other notStroke notCommand]
  · rw [exec_receivedByte_length held unbroken inCell begun]
    exact congrArg Host.Outcome.next (if_congr (lengthGood_iff c.kind d.toNat) rfl rfl)
  · exact exec_receivedByte_payload held unbroken inCell length room d
  · rw [exec_receivedByte_check held unbroken inCell length full, if_neg differs]
  · rw [exec_receivedByte_check held unbroken inCell length full, if_pos same, stroke]
    exact cellArrives_stroke c.payload s
  · rw [exec_receivedByte_check held unbroken inCell length full, if_pos same, command, spelled]
    exact cellArrives_command tag code args s
  · exact exec_receivedByte_waitGap held unbroken waiting d

/-- Settles O19, by the level of the line: at mark, an all-space byte held, in break. -/
theorem framingGapAndMark : Obligations.FramingGapAndMark := by
  intro s d
  refine ⟨fun held unbroken => ⟨exec_receivedByte_allSpace held unbroken, fun nonzero receiving => ?_,
      fun nonzero waiting => ?_, exec_cellGap_ready held unbroken, fun c => exec_cellGap_inCell held unbroken,
      exec_cellGap_waitGap held unbroken⟩,
    fun held unbroken => ⟨fun receiving => ?_, fun waiting => ?_⟩, exec_breakEnd_broken⟩
  · rw [exec_receivedByte_framing held unbroken nonzero, framingError_discards receiving]
  · rw [exec_receivedByte_framing held unbroken nonzero, framingError_ignored waiting]
  · exact (exec_returnToMark_held held unbroken).trans (congrArg Host.Outcome.next (framingError_discards receiving))
  · exact (exec_returnToMark_held held unbroken).trans (congrArg Host.Outcome.next (framingError_ignored waiting))

/-! ### The bytes of a whole cell (R150, R151, R152) -/

theorem execAll_cons {i : Instr} {s t : State} (first : exec i s = .next t) (rest : List Instr) :
    execAll (i :: rest) s = execAll rest t := by
  simp only [execAll, first]

/-- Payload bytes that the length still has room for are taken one after another, into payload and check. -/
theorem execAll_payload {s : State} (held : s.link.heldSpace = false) (unbroken : s.link.breakState = false) {n : Nat}
    (payload rest : List Byte) {c : PartCell} (length : c.length = some n)
    (room : c.payload.length + payload.length ≤ n) :
    execAll ((payload ++ rest).map fun b => .receivedByte b true) (s.withReceiver (.inCell c)) =
      execAll (rest.map fun b => .receivedByte b true) (s.withReceiver (.inCell (c.filled payload))) := by
  induction payload generalizing c with
  | nil => rw [List.nil_append, PartCell.filled_nil]
  | cons d payload ih =>
    rw [List.length_cons] at room
    have taken := exec_receivedByte_payload (s := s.withReceiver (.inCell c)) held unbroken rfl length (by omega) d
    rw [List.cons_append, List.map_cons, execAll_cons taken, State.withReceiver_again,
      ih (c := c.filled [d]) length (by simp; omega), PartCell.filled_cons]

theorem byteOf_toNat {n : Nat} (small : n ≤ 32) : (byteOf n).toNat = n := by
  rw [byteOf, BitVec.toNat_ofNat]
  omega

/-- A cell with all its bytes taken but the check (R152). -/
def PartCell.complete (k : CellKind) (payload : List Byte) : PartCell :=
  ((PartCell.begun k).measured (byteOf payload.length)).filled payload

/-- The check byte a cell ends with is the check its receiver has run over the bytes before it. -/
theorem cellBytes_eq (k : CellKind) (payload : List Byte) :
    cellBytes k.code payload =
      k.code :: byteOf payload.length :: (payload ++ [(PartCell.complete k payload).check]) := rfl

section

variable {s : State} (held : s.link.heldSpace = false) (unbroken : s.link.breakState = false) {k : CellKind}
include held unbroken

theorem exec_receivedByte_lengthGood {d : Byte} (good : lengthGood k d.toNat = true) :
    exec (.receivedByte d true) (s.withReceiver (.inCell (.begun k))) =
      .next (s.withReceiver (.inCell ((PartCell.begun k).measured d))) := by
  rw [exec_receivedByte_length (s := s.withReceiver (.inCell (.begun k))) held unbroken rfl rfl]
  exact congrArg Host.Outcome.next (if_pos good)

theorem exec_receivedByte_checkGood {payload : List Byte} (short : payload.length ≤ 32) :
    exec (.receivedByte (PartCell.complete k payload).check true)
      (s.withReceiver (.inCell (.complete k payload))) = .next (cellArrives k payload s) := by
  have full : (byteOf payload.length).toNat ≤ (PartCell.complete k payload).payload.length :=
    (byteOf_toNat short).le
  rw [exec_receivedByte_check (s := s.withReceiver (.inCell (.complete k payload))) held unbroken rfl rfl full,
    if_pos rfl, cellArrives_withReceiver]
  rfl

/-- Received from READY, the bytes of a cell of a good length hand its payload over: kind, length, payload, check. -/
theorem execAll_cellBytes (ready : s.link.receiver = .ready) {payload : List Byte}
    (good : lengthGood k payload.length = true) :
    execAll ((cellBytes k.code payload).map fun b => .receivedByte b true) s = .next (cellArrives k payload s) := by
  have short : payload.length ≤ 32 := ((lengthGood_iff k payload.length).mp good).1
  have kindTaken := exec_receivedByte_kind held unbroken ready k
  have lengthTaken := exec_receivedByte_lengthGood held unbroken (k := k) (d := byteOf payload.length)
    (by rwa [byteOf_toNat short])
  have payloadTaken := execAll_payload held unbroken payload [(PartCell.complete k payload).check]
    (c := (PartCell.begun k).measured (byteOf payload.length)) rfl
    (by rw [byteOf_toNat short]; exact (Nat.zero_add _).le)
  have checkTaken := exec_receivedByte_checkGood held unbroken (k := k) short
  rw [cellBytes_eq, List.map_cons, execAll_cons kindTaken, List.map_cons, execAll_cons lengthTaken, payloadTaken]
  exact execAll_cons checkTaken []

end

/-- Settles O20: the bytes hand the payload over by the check byte, and the receiver is READY again, as it was. -/
theorem cellBytesAreOneArrival : Obligations.CellBytesAreOneArrival := by
  intro s ready held unbroken
  refine ⟨fun payload short => ?_, fun tag code args short => ?_⟩
  · have good : lengthGood .stroke payload.length = true := (lengthGood_iff _ _).mpr ⟨short, by simp⟩
    have arrives := execAll_cellBytes held unbroken ready good
    rwa [cellArrives_stroke, State.withReceiver_self ready] at arrives
  · have good : lengthGood .command (tag :: code :: args).length = true :=
      (lengthGood_iff _ _).mpr (by simp; omega)
    have arrives := execAll_cellBytes held unbroken ready good
    rwa [cellArrives_command, State.withReceiver_self ready] at arrives

end Sys2Proof.Machine
end

section
/-! The command queue (chapter 9): the arrival of a COMMAND cell, when a front command may execute, and the checks of
its code, item and length that come before its own rule. -/

namespace Sys2Proof.Machine

open Sys2Proof

/-! ### The arrival of a COMMAND cell (R171) -/

theorem answerRoom_iff (s : State) :
    s.answerRoom = true ↔ s.mgmt.answers.length + s.mgmt.reserved.toNat < 8 :=
  decide_eq_true_iff

theorem isReadCode_iff (c : Command) : c.isReadCode = true ↔ c.code = 0x61 := beq_iff_eq

/-- A READ that meets a held READ is not queued. -/
theorem commandArrives_held {s : State} {c : Command} (read : c.code = 0x61)
    (held : s.mgmt.commands.any Command.isReadCode = true) :
    commandArrives c s =
      if s.answerRoom then
        enterAnswer { tag := c.tag, code := c.code, reply := { result := .busy, data := [] } } s
      else s.latch .commandDropped := by
  rw [commandArrives, (isReadCode_iff c).mpr read, held, Bool.and_self, if_pos rfl]

/-- Any other command is queued where the command queue has a free place. -/
theorem commandArrives_unheld {s : State} {c : Command}
    (unheld : c.code ≠ 0x61 ∨ s.mgmt.commands.any Command.isReadCode = false) :
    commandArrives c s =
      if s.mgmt.commands.length < 6 then { s with mgmt.commands := s.mgmt.commands ++ [c] }
      else s.latch .commandDropped := by
  have passes : (c.isReadCode && s.mgmt.commands.any Command.isReadCode) = false := by
    rw [Bool.and_eq_false_iff]
    exact unheld.imp_left fun other => Bool.eq_false_iff.mpr fun read => other ((isReadCode_iff c).mp read)
  rw [commandArrives, passes, if_neg Bool.false_ne_true]
  rfl

/-- Settles O22: a READ that meets a held one by the room in the answer queue, any other command by the room in the
command queue. -/
theorem commandCellQueuedBusyOrDropped : Obligations.CommandCellQueuedBusyOrDropped := by
  intro s c
  have executed : exec (.commandCell c) s = .next (commandArrives c s) := rfl
  rw [executed]
  refine ⟨fun read held room => ?_, fun read held full => ?_, fun unheld full => ?_, fun unheld room => ?_⟩
  · rw [commandArrives_held read held, if_pos ((answerRoom_iff s).mpr room)]
    rfl
  · rw [commandArrives_held read held, if_neg fun room => Nat.not_lt.mpr full ((answerRoom_iff s).mp room)]
    rfl
  · rw [commandArrives_unheld unheld, if_neg (Nat.not_lt.mpr full)]
    rfl
  · rw [commandArrives_unheld unheld, if_pos room]

/-! ### When a front command may execute (R172) -/

theorem canExecute_iff (s : State) :
    s.canExecute = true ↔ s.mgmt.answers.length < 8 ∧ s.mgmt.reserved = false := by
  rw [State.canExecute, Bool.and_eq_true, answerRoom_iff, Bool.not_eq_true']
  cases s.mgmt.reserved <;> simp

theorem frontReady_iff (s : State) (c : Command) :
    s.frontReady c ↔
      s.mgmt.commands.head? = some c ∧ s.mgmt.answers.length < 8 ∧ s.mgmt.reserved = false :=
  and_congr_right fun _ => canExecute_iff s

/-- A full answer queue and an executed LOOP_TEST each hold the front command back. -/
theorem canExecute_false {s : State}
    (held : 8 ≤ s.mgmt.answers.length + s.mgmt.reserved.toNat ∨ s.mgmt.reserved = true) : s.canExecute = false := by
  rw [State.canExecute, Bool.and_eq_false_iff]
  refine held.imp (fun full => ?_) fun tested => by rw [tested]; rfl
  exact Bool.eq_false_iff.mpr fun room => Nat.not_lt.mpr full ((answerRoom_iff s).mp room)

/-! ### Code, item and length (R168, R169, R177, R179) -/

theorem isUnknown_of {c : Command} (unknown : c.code ∉ knownCodes) : c.isUnknown = true := by
  simpa [Command.isUnknown] using unknown

/-- A LOAD_PART of the wrong length is any of its three rows (log entry 4). -/
theorem isPart_of_wrongLength {c : Command} (code : c.code = 0x03) (len : c.args.length ≠ 6) (fragment : Nat) :
    c.isPart fragment = true := by
  simp [Command.isPart, code, len]

/-- A SET of no item is any row of its code (log entry 4). -/
theorem isSet_of_unnamed {c : Command} (code : c.code = 0x60) (unnamed : itemOf c.args = 0 ∨ 6 < itemOf c.args)
    (item : Nat) : c.isSet item = true := by
  rcases unnamed with absent | beyond
  · simp [Command.isSet, code, absent]
  · simp [Command.isSet, code, beyond]

/-- A READ of no item is any row of its code (log entry 4). -/
theorem isRead_of_unnamed {c : Command} (code : c.code = 0x61) (unnamed : itemOf c.args = 0 ∨ 11 < itemOf c.args)
    (item : Nat) : c.isRead item = true := by
  rcases unnamed with absent | beyond
  · simp [Command.isRead, code, absent]
  · simp [Command.isRead, code, beyond]

section

variable {s : State} {c : Command} {i : Instr} {row : Command → Bool} {item n : Nat}
  {effect : List Byte → State → Effect}

/-- Arguments of the wrong length are refused before the command's own rule (R169). -/
theorem exec_wrongLength (ready : s.frontReady c) (len : c.args.length ≠ n)
    (event : exec i s = .next (executeFront row (fun args t => withLength n args (effect args t) t) s))
    (isRow : row c = true) : exec i s = .next (answered c .range [] s) := by
  rw [event, executeFront_ready ready isRow, withLength_ne len]
  rfl

/-- Another item than the row's, and arguments of the wrong length, are refused before the item's own rule (R177,
R179). -/
theorem exec_wrongItem (ready : s.frontReady c) (wrong : itemOf c.args ≠ item ∨ c.args.length ≠ n + 1)
    (event : exec i s = .next (executeFront row (fun args t => withItem item n args (effect args t) t) s))
    (isRow : row c = true) : exec i s = .next (answered c .range [] s) := by
  rw [event, executeFront_ready ready isRow, withItem]
  split
  · rename_i named
    rw [withLength_ne (wrong.resolve_left (not_not.mpr named))]
    rfl
  · rfl

end

/-- Settles O25: every row of the table refuses the wrong length at its length or item check, and a front command held
back stays at every row. -/
theorem commandFormJudgedFirst : Obligations.CommandFormJudgedFirst := by
  intro s c
  refine ⟨fun ready unknown => ?_, fun ready x listed code len => ?_, fun ready x listed code item len => ?_,
    fun ready code unnamed => ?_, fun ready code unnamed => ?_, fun front held => ?_, frontReady_iff s c⟩
  · exact congrArg Host.Outcome.next (executeFront_ready ready (isUnknown_of unknown) fun _ t => reply .unknown t)
  · simp only [List.mem_cons, List.not_mem_nil, or_false] at listed
    rcases listed with rfl | rfl | rfl | rfl | rfl | rfl | rfl | rfl | rfl | rfl | rfl | rfl | rfl | rfl | rfl | rfl |
      rfl | rfl | rfl | rfl | rfl | rfl
    all_goals first
      | exact exec_wrongLength ready len rfl (hasCode_of code)
      | exact exec_wrongLength ready len rfl (isPart_of_wrongLength code len _)
  · simp only [List.mem_cons, List.not_mem_nil, or_false] at listed
    rcases listed with rfl | rfl | rfl | rfl | rfl | rfl | rfl | rfl | rfl | rfl | rfl | rfl | rfl | rfl | rfl | rfl |
      rfl
    all_goals first
      | exact exec_wrongItem ready (.inr len) rfl (isSet_of code item)
      | exact exec_wrongItem ready (.inr len) rfl (isRead_of code item)
  · exact exec_wrongItem (item := 1) ready (.inl (by omega)) rfl (isSet_of_unnamed code unnamed 1)
  · exact exec_wrongItem (item := 1) ready (.inl (by omega)) rfl (isRead_of_unnamed code unnamed 1)
  · have stays (row : Command → Bool) (effect : List Byte → State → Effect) :
        Host.Outcome.next (executeFront row effect s) = (.next s : Out) :=
      congrArg Host.Outcome.next (executeFront_stalled front (canExecute_false held) row effect)
    exact ⟨stays _ _, stays _ _, stays _ _⟩

end Sys2Proof.Machine
end

section
/-! Every command answers a next state, and none touches the model's queue of waiting commands (section 0.6). -/

namespace Sys2Proof.Machine

open Sys2Proof

/-! ### The model's queue under the shared operations -/

theorem OnlyStops.pending {s t : State} (h : OnlyStops s t) : t.pending = s.pending := by
  obtain ⟨_, _, rfl⟩ := h
  rfl

theorem OnlyThread.pending {s t : State} (h : OnlyThread s t) : t.pending = s.pending := by
  obtain ⟨_, _, _, _, _, rfl⟩ := h
  rfl

theorem OnlyFeeds.pending {s t : State} (h : OnlyFeeds s t) : t.pending = s.pending := by
  obtain ⟨_, _, _, _, _, _, _, _, rfl⟩ := h
  rfl

@[simp] theorem arbitrate_pending (s : State) : (arbitrate s).pending = s.pending := by
  rcases arbitrate_cases s with h | ⟨-, _, -, h⟩ | ⟨-, -, _, _, -, h⟩ <;> rw [h]

@[simp] theorem settle_pending (c : Command) (e : Effect) : (settle c e).pending = e.1.pending := by
  unfold settle
  split
  · exact arbitrate_pending _
  · rfl

@[simp] theorem haltLine_pending (cause : HaltCause) (s : State) : (haltLine cause s).pending = s.pending := by
  unfold haltLine
  split <;> rfl

/-! ### The shaft index and the head link -/

theorem strokeOutcome_pending (s : State) : s.strokeOutcome.state.pending = s.pending := by
  obtain ⟨_, _, _, fed⟩ := applyStroke_only (formFrame s.frameKind (endWindow s))
  exact fed.pending.trans (endWindow_pending s)

@[simp] theorem serveIndex_pending (s : State) : (serveIndex s).pending = s.pending := by
  rw [serveIndex_result]
  exact strokeOutcome_pending s

theorem takeIndex_pending (s : State) : (takeIndex s).pending = s.pending := by
  unfold takeIndex
  split
  · exact serveIndex_pending s
  · rfl
  · rfl

@[simp] theorem serveWaited_pending (s : State) : (serveWaited s).pending = s.pending := by
  rcases serveWaited_cases s with h | ⟨-, -, -, h⟩ <;> rw [h]
  exact serveIndex_pending s.unwaited

theorem outboundComplete_pending (s : State) : (outboundComplete s).pending = s.pending := by
  unfold outboundComplete
  split <;> rfl

theorem returnArrives_pending (position : Nat) (x : Slot) (s : State) :
    (returnArrives position x s).pending = s.pending := by
  unfold returnArrives
  split
  · split
    · exact (judgeSlot_only _ x _).pending
    · rfl
    · rfl
  all_goals rfl

theorem windowExpires_pending (s : State) : (windowExpires s).pending = s.pending := by
  unfold windowExpires
  dsimp only
  split
  · split <;> exact endWindow_pending s
  all_goals rfl

@[simp] theorem beginLoopedFrame_pending (s : State) : (beginLoopedFrame s).pending = s.pending := by
  unfold beginLoopedFrame
  split
  · rfl
  · split <;> rfl
  all_goals rfl

theorem completeLoopTest_pending (passed : List Bool) (s : State) :
    (completeLoopTest passed s).pending = s.pending := by
  unfold completeLoopTest
  dsimp only
  split
  · exact arbitrate_pending _
  · rfl

theorem testSlotArrives_pending (x : Slot) (s : State) : (testSlotArrives x s).pending = s.pending := by
  unfold testSlotArrives
  dsimp only
  split
  · split
    · rfl
    · exact completeLoopTest_pending _ s
  all_goals rfl

/-! ### The stroke link -/

theorem strokeArrives_pending (payload : List Byte) (s : State) : (strokeArrives payload s).pending = s.pending := by
  rcases strokeArrives_cases payload s with h | ⟨_, _, _, -, -, -, h⟩ <;> rw [h]
  rfl

theorem commandArrives_pending (c : Command) (s : State) : (commandArrives c s).pending = s.pending := by
  rcases commandArrives_cases c s with ⟨-, -, -, h⟩ | h | ⟨-, -, h⟩ <;> rw [h]
  · exact arbitrate_pending _
  · rfl

theorem cellArrives_pending (kind : CellKind) (payload : List Byte) (s : State) :
    (cellArrives kind payload s).pending = s.pending := by
  cases kind with
  | stroke => exact strokeArrives_pending _ _
  | command => exact commandArrives_pending _ _

theorem framingError_pending (s : State) : (framingError s).pending = s.pending := by
  unfold framingError
  split <;> rfl

theorem kindByte_pending (d : Byte) (s : State) : (kindByte d s).pending = s.pending := by
  unfold kindByte
  repeat' split
  all_goals rfl

theorem bodyByte_pending (d : Byte) (cell : PartCell) (s : State) : (bodyByte d cell s).pending = s.pending := by
  unfold bodyByte
  split
  · split <;> rfl
  · split
    · rfl
    · split
      · exact cellArrives_pending _ _ s
      · rfl

theorem goodByte_pending (d : Byte) (s : State) : (goodByte d s).pending = s.pending := by
  unfold goodByte
  split
  · exact kindByte_pending d s
  · exact bodyByte_pending d _ s
  · rfl
  · rfl

theorem byteArrives_pending (d : Byte) (stop : Bool) (s : State) : (byteArrives d stop s).pending = s.pending := by
  unfold byteArrives
  split
  · rfl
  · split
    · exact goodByte_pending d s
    · split
      · rfl
      · exact framingError_pending s

theorem gapPasses_pending (s : State) : (gapPasses s).pending = s.pending := by
  unfold gapPasses
  split
  · rfl
  · split <;> rfl

theorem markReturns_pending (s : State) : (markReturns s).pending = s.pending := by
  unfold markReturns
  split
  · exact framingError_pending _
  · rfl

theorem breakEnds_pending (s : State) : (breakEnds s).pending = s.pending := by
  unfold breakEnds
  split <;> rfl

/-! ### The commands of the Motif Store and the stager -/

theorem judgeDefine_pending (motif first count length : Nat) (loop : Option Nat) (s : State) :
    (judgeDefine motif first count length loop s).1.pending = s.pending := by
  unfold judgeDefine
  repeat' split
  all_goals rfl

theorem judgeUndefine_pending (motif : Nat) (s : State) : (judgeUndefine motif s).1.pending = s.pending := by
  unfold judgeUndefine
  repeat' split
  all_goals rfl

theorem loadFragment0_pending (args : List Byte) (s : State) : (loadFragment0 args s).1.pending = s.pending := by
  unfold loadFragment0
  split <;> rfl

theorem loadFragment1_pending (args : List Byte) (s : State) : (loadFragment1 args s).1.pending = s.pending := by
  unfold loadFragment1
  repeat' split
  all_goals rfl

theorem loadFragment2_pending (args : List Byte) (s : State) : (loadFragment2 args s).1.pending = s.pending := by
  unfold loadFragment2
  dsimp only
  repeat' split
  all_goals rfl

theorem judgeFlush_pending (s : State) : (judgeFlush s).1.pending = s.pending := by
  unfold judgeFlush
  split <;> rfl

theorem judgeBegin_pending (tag : Serial) (length seamGap : Nat) (repeats : Option Bool) (s : State) :
    (judgeBegin tag length seamGap repeats s).1.pending = s.pending := by
  unfold judgeBegin
  repeat' split
  all_goals rfl

theorem judgeLane_pending (a : Option Assignment) (s : State) : (judgeLane a s).1.pending = s.pending := by
  unfold judgeLane
  repeat' split
  all_goals rfl

theorem judgeCommit_pending (s : State) : (judgeCommit s).1.pending = s.pending := by
  unfold judgeCommit
  repeat' split
  all_goals rfl

theorem judgeDiscard_pending (s : State) : (judgeDiscard s).1.pending = s.pending := by
  unfold judgeDiscard
  split <;> rfl

/-! ### The line commands -/

theorem startRun_pending (p : PanelProgram) (s : State) : (startRun p s).pending = s.pending :=
  (panelStart_onlyFeeds p 0 _).pending

/-- RUN serves an index that is due, then starts the panel (log entry 8). -/
theorem judgeRun_pending (s : State) : (judgeRun s).1.pending = s.pending := by
  unfold judgeRun
  split
  · rfl
  · split
    · rfl
    · split
      · rfl
      · dsimp only [replyWith]
        rw [startRun_pending, serveWaited_pending]

theorem judgeHalt_pending (s : State) : (judgeHalt s).1.pending = s.pending := by
  unfold judgeHalt
  split
  case h_1 | h_2 => exact haltLine_pending .command s
  all_goals rfl

theorem judgeResume_pending (s : State) : (judgeResume s).1.pending = s.pending := by
  unfold judgeResume
  repeat' split
  all_goals rfl

/-- LOOP_TEST serves an index that is due, then claims the transmitter (log entry 8). -/
theorem judgeLoopTest_pending (s : State) : (judgeLoopTest s).1.pending = s.pending := by
  unfold judgeLoopTest
  split
  · exact (beginLoopedFrame_pending _).trans (serveWaited_pending s)
  · rfl

/-! ### The commands of lanes, segments and needles -/

theorem judgeHold_pending (lane : Nat) (s : State) : (judgeHold lane s).1.pending = s.pending := by
  unfold judgeHold
  repeat' split
  all_goals rfl

theorem judgeRelease_pending (lane : Nat) (s : State) : (judgeRelease lane s).1.pending = s.pending := by
  unfold judgeRelease
  repeat' split
  all_goals rfl

theorem judgeStop_pending (lane : Nat) (s : State) : (judgeStop lane s).1.pending = s.pending := by
  unfold judgeStop
  repeat' split
  all_goals rfl

theorem judgeRestore_pending (segment : Nat) (s : State) : (judgeRestore segment s).1.pending = s.pending := by
  unfold judgeRestore
  split
  · rfl
  · split
    · exact (setSegment_only _ _ s).pending
    · rfl

theorem judgeNeedle_pending (needle : Nat) (s : State) : (judgeNeedle needle s).1.pending = s.pending := by
  unfold judgeNeedle
  repeat' split
  all_goals rfl

theorem judgeTake_pending (s : State) : (judgeTake s).1.pending = s.pending := by
  unfold judgeTake
  split <;> rfl

/-! ### The SET items -/

theorem judgeLaneMap_pending (segment lane : Nat) (s : State) :
    (judgeLaneMap segment lane s).1.pending = s.pending := by
  unfold judgeLaneMap
  repeat' split
  all_goals rfl

theorem takeSegmentCount_pending (n : Nat) (s : State) : (takeSegmentCount n s).pending = s.pending := by
  unfold takeSegmentCount
  dsimp only
  split <;> rfl

theorem judgeCount_pending (n : Nat) (s : State) : (judgeCount n s).1.pending = s.pending := by
  unfold judgeCount
  split
  · rfl
  · split
    · exact takeSegmentCount_pending n s
    · rfl

theorem judgeMask_pending (segment : Nat) (mask : Pattern) (s : State) :
    (judgeMask segment mask s).1.pending = s.pending := by
  unfold judgeMask
  split <;> rfl

theorem judgeDropLimit_pending (lane limit : Nat) (s : State) :
    (judgeDropLimit lane limit s).1.pending = s.pending := by
  unfold judgeDropLimit
  repeat' split
  all_goals rfl

theorem judgeUnderrun_pending (limit : Nat) (s : State) : (judgeUnderrun limit s).1.pending = s.pending := by
  unfold judgeUnderrun
  split <;> rfl

theorem judgePacking_pending (order : Option PackingOrder) (s : State) :
    (judgePacking order s).1.pending = s.pending := by
  unfold judgePacking
  repeat' split
  all_goals rfl

/-! ### Every command -/

theorem executeFront_pending {row : Command → Bool} {effect : List Byte → State → Effect} {s : State}
    (keeps : ∀ args, (effect args s).1.pending = s.pending) : (executeFront row effect s).pending = s.pending := by
  rcases executeFront_cases row effect s with h | ⟨c, _, -, -, -, h⟩ <;> rw [h]
  exact (settle_pending c _).trans (keeps c.args)

theorem lengthCommand_pending {row : Command → Bool} {n : Nat} {effect : List Byte → State → Effect} {s : State}
    (keeps : ∀ args, (effect args s).1.pending = s.pending) :
    (executeFront row (fun args t => withLength n args (effect args t) t) s).pending = s.pending := by
  rcases lengthCommand_cases row n effect s with h | ⟨c, h | h⟩ <;> rw [h]
  · exact settle_pending c (reply .range s)
  · exact (settle_pending c _).trans (keeps c.args)

theorem itemCommand_pending {row : Command → Bool} {item n : Nat} {effect : List Byte → State → Effect} {s : State}
    (keeps : ∀ args, (effect args s).1.pending = s.pending) :
    (executeFront row (fun args t => withItem item n args (effect args t) t) s).pending = s.pending := by
  rcases itemCommand_cases row item n effect s with h | ⟨c, h | h⟩ <;> rw [h]
  · exact settle_pending c (reply .range s)
  · exact (settle_pending c _).trans (keeps c.args)

/-- No command touches the model's queue. -/
theorem exec_pending {i : Instr} {s t : State} (h : exec i s = .next t) : t.pending = s.pending := by
  cases i with
  | powerOnReset => cases h; rfl
  | shaftIndex => cases h; exact takeIndex_pending s
  | waitedShaftIndex => cases h; exact serveWaited_pending s
  | outboundComplete => cases h; exact outboundComplete_pending s
  | returnSlot position slot => cases h; exact returnArrives_pending position slot s
  | returnWindowExpiry => cases h; exact windowExpires_pending s
  | loopedFrameBegin => cases h; exact beginLoopedFrame_pending s
  | testSlot slot => cases h; exact testSlotArrives_pending slot s
  | receivedByte data stop => cases h; exact byteArrives_pending data stop s
  | cellGap => cases h; exact gapPasses_pending s
  | strokeCell payload => cases h; exact strokeArrives_pending payload s
  | commandCell command => cases h; exact commandArrives_pending command s
  | breakBegin => cases h; exact haltLine_pending _ _
  | breakEnd => cases h; exact breakEnds_pending s
  | returnToMark => cases h; exact markReturns_pending s
  | transmitterFree => cases h; exact arbitrate_pending _
  | unknownCommand => cases h; exact executeFront_pending fun _ => rfl
  | defineMotif => cases h; exact lengthCommand_pending fun _ => judgeDefine_pending _ _ _ _ _ s
  | undefineMotif => cases h; exact lengthCommand_pending fun _ => judgeUndefine_pending _ s
  | loadPartFragment0 => cases h; exact lengthCommand_pending fun args => loadFragment0_pending args s
  | loadPartFragment1 => cases h; exact lengthCommand_pending fun args => loadFragment1_pending args s
  | loadPartFragment2 => cases h; exact lengthCommand_pending fun args => loadFragment2_pending args s
  | loadFlush => cases h; exact lengthCommand_pending fun _ => judgeFlush_pending s
  | panelBegin => cases h; exact lengthCommand_pending fun _ => judgeBegin_pending _ _ _ _ s
  | panelLane => cases h; exact lengthCommand_pending fun _ => judgeLane_pending _ s
  | panelCommit => cases h; exact lengthCommand_pending fun _ => judgeCommit_pending s
  | panelDiscard => cases h; exact lengthCommand_pending fun _ => judgeDiscard_pending s
  | run => cases h; exact lengthCommand_pending fun _ => judgeRun_pending s
  | halt => cases h; exact lengthCommand_pending fun _ => judgeHalt_pending s
  | resume => cases h; exact lengthCommand_pending fun _ => judgeResume_pending s
  | loopTest => cases h; exact lengthCommand_pending fun _ => judgeLoopTest_pending s
  | laneHold => cases h; exact lengthCommand_pending fun _ => judgeHold_pending _ s
  | laneRelease => cases h; exact lengthCommand_pending fun _ => judgeRelease_pending _ s
  | laneStop => cases h; exact lengthCommand_pending fun _ => judgeStop_pending _ s
  | segmentRestore => cases h; exact lengthCommand_pending fun _ => judgeRestore_pending _ s
  | needleRelease => cases h; exact lengthCommand_pending fun _ => judgeNeedle_pending _ s
  | takeDefect => cases h; exact lengthCommand_pending fun _ => judgeTake_pending s
  | lineReset | clearCounts => cases h; exact lengthCommand_pending fun _ => rfl
  | setLaneMapEntry => cases h; exact itemCommand_pending fun _ => judgeLaneMap_pending _ _ s
  | setSegmentCount => cases h; exact itemCommand_pending fun _ => judgeCount_pending _ s
  | setOperatorMask => cases h; exact itemCommand_pending fun _ => judgeMask_pending _ _ s
  | setDropLimit => cases h; exact itemCommand_pending fun _ => judgeDropLimit_pending _ _ s
  | setUnderrunLimit => cases h; exact itemCommand_pending fun _ => judgeUnderrun_pending _ s
  | setPackingOrder => cases h; exact itemCommand_pending fun _ => judgePacking_pending _ s
  | readLane => cases h; exact itemCommand_pending fun _ => congrArg _ (judgeReadLane_state _ s)
  | readSegment => cases h; exact itemCommand_pending fun _ => congrArg _ (judgeReadSegment_state _ s)
  | readMotif => cases h; exact itemCommand_pending fun _ => congrArg _ (judgeReadMotif_state _ s)
  | readRecord => cases h; exact itemCommand_pending fun _ => congrArg _ (judgeReadRecord_state _ _ s)
  | readPanel => cases h; exact itemCommand_pending fun _ => congrArg _ (judgeReadPanel_state _ _ s)
  | readConfig => cases h; exact itemCommand_pending fun _ => congrArg _ (judgeReadConfig_state _ s)
  | readLine | readDefects | readAttention | readCounts | readAssembler =>
    cases h
    exact itemCommand_pending fun _ => rfl

/-- Every arm of the dispatch answers a next state: the block has no faults, and no command is refused. -/
theorem exec_next (i : Instr) (s : State) : ∃ t, exec i s = .next t := by
  cases i <;> exact ⟨_, rfl⟩

/-- Settles O2: every arm answers a next state, and what each does leaves the model's queue. -/
theorem everyCommandAnswersNext : Obligations.EveryCommandAnswersNext := by
  intro i s
  obtain ⟨t, executed⟩ := exec_next i s
  exact ⟨t, executed, exec_pending executed⟩

end Sys2Proof.Machine
end

section
/-! What one step does with the model's queue: it takes the front command and runs it, or idles on an empty queue. -/

namespace Sys2Proof.Machine

open Sys2Proof

theorem step_of_pending_cons {s : State} {c : Instr} {rest : List Instr} (queued : s.pending = c :: rest) :
    step s = exec c (s.withPending rest) := by
  simp only [step, queued]

theorem step_of_pending_nil {s : State} (empty : s.pending = []) : step s = .next s := by
  simp only [step, empty]

/-- A queue put in place of another leaves nothing of it: taking the front command off keeps only the rest. -/
@[simp] theorem withPending_withPending (s : State) (q rest : List Instr) :
    (s.withPending q).withPending rest = s.withPending rest := rfl

/-- Settles O1, by the two forms of the queue: a front command runs on the rest, and an empty queue idles. -/
theorem stepRunsFrontCommand : Obligations.StepRunsFrontCommand := by
  constructor
  · intro c rest s
    calc step (s.withPending (c :: rest))
        = exec c ((s.withPending (c :: rest)).withPending rest) :=
          step_of_pending_cons (withPending_pending s (c :: rest))
      _ = exec c (s.withPending rest) := by rw [withPending_withPending]
  · intro s empty
    exact step_of_pending_nil empty

end Sys2Proof.Machine
end

section
/-! What the law of the loop test and the capacities of the queues look at, told as a record of its own (`Desk`), and the
events that change little of it: the thread, the return transmitter, the arrival of cells. -/

namespace Sys2Proof.Machine

open Sys2Proof

/-! ### The desk: what the two laws look at -/

/-- All that the law of the loop test and the capacities of the queues look at. -/
structure Desk where
  tx           : HeadTx
  claim        : Bool
  waiting      : Bool
  segmentCount : Nat
  line         : LineState
  strokes      : List Stroke
  markers      : List Marker
  defects      : List Defect
  commands     : List Command
  answers      : List Answer
  reserved     : Bool

/-- The desk of a state. -/
def State.desk (s : State) : Desk :=
  { tx := s.head.tx, claim := s.head.claim, waiting := s.head.waiting, segmentCount := s.head.segmentCount,
    line := s.line.state, strokes := s.strokes.queue, markers := s.engine.markers, defects := s.thread.defects,
    commands := s.mgmt.commands, answers := s.mgmt.answers, reserved := s.mgmt.reserved }

/-- A defect list within its capacity, no two records of which match (R142). -/
structure DefectsFit (defects : List Defect) : Prop where
  length   : defects.length ≤ Config.defectCapacity
  distinct : defects.Pairwise fun d e => d.matches e = false

/-- The two laws, told of a desk. -/
structure Desk.Lawful (d : Desk) : Prop where
  reserved : d.reserved = decide (d.line = .looptest)
  claim    : d.claim = decide (d.line = .looptest)
  looped   : d.tx.inLoop = true → d.line = .looptest
  busy     : d.line = .looptest → d.tx ≠ .free
  front    : d.line = .looptest → ∃ c ∈ d.commands.head?, c.code = 0x24
  waiting  : d.waiting = true → d.line = .idle ∨ d.line = .looptest
  clear    : d.waiting = true → ∀ f, d.tx ≠ .sending f
  count    : 1 ≤ d.segmentCount ∧ d.segmentCount ≤ 16
  slots    : ∀ t, d.tx = .loop (some t) → t.passed.length < t.count
  strokes  : d.strokes.length ≤ Config.strokeCapacity
  noStroke : d.line.takesStrokes = false → d.strokes = []
  markers  : d.markers.length ≤ Config.markerCapacity
  commands : d.commands.length ≤ Config.commandCapacity
  oneRead  : d.commands.countP Command.isReadCode ≤ 1
  answers  : d.answers.length + d.reserved.toNat ≤ Config.answerCapacity
  defects  : DefectsFit d.defects

theorem testAtFront_iff (s : State) : s.testAtFront = true ↔ ∃ c ∈ s.mgmt.commands.head?, c.code = 0x24 := by
  unfold State.testAtFront
  cases s.mgmt.commands.head? <;> simp

theorem hldirOutbound_false_iff (s : State) : s.hldirOutbound = false ↔ ∀ f, s.head.tx ≠ .sending f := by
  unfold State.hldirOutbound
  cases s.head.tx <;> simp

/-- The desk is lawful exactly when the state keeps the law of the loop test and the capacities. -/
theorem desk_lawful_iff (s : State) : s.desk.Lawful ↔ LoopLaw s ∧ QueueLaw s := by
  constructor
  · intro law
    exact ⟨⟨law.reserved, law.claim, law.looped, law.busy, fun test => (testAtFront_iff s).mpr (law.front test),
        law.waiting, fun waits => (hldirOutbound_false_iff s).mpr (law.clear waits), law.count, law.slots⟩,
      ⟨law.strokes, law.noStroke, law.markers, law.commands, law.oneRead, law.answers, law.defects.length,
        law.defects.distinct⟩⟩
  · rintro ⟨loop, queue⟩
    exact ⟨loop.reserved, loop.claim, loop.looped, loop.busy, fun test => (testAtFront_iff s).mp (loop.front test),
      loop.waiting, fun waits => (hldirOutbound_false_iff s).mp (loop.clear waits), loop.count, loop.slots,
      queue.strokes, queue.noStroke, queue.markers, queue.commands, queue.oneRead, queue.answers,
      ⟨queue.defects, queue.distinct⟩⟩

/-- The two laws are kept from s to t. -/
def DeskKept (s t : State) : Prop := s.desk.Lawful → t.desk.Lawful

theorem DeskKept.refl (s : State) : DeskKept s s := id

theorem DeskKept.trans {s t u : State} (h : DeskKept s t) (k : DeskKept t u) : DeskKept s u := k ∘ h

theorem DeskKept.of_desk {s t : State} (same : t.desk = s.desk) : DeskKept s t := fun law => same ▸ law

/-! ### Lawful changes of a desk -/

section

variable {d : Desk}

/-- No test is in progress where no answer place is reserved (R173). -/
theorem Desk.Lawful.noTest (law : d.Lawful) (unreserved : d.reserved = false) : d.line ≠ .looptest := by
  have := law.reserved
  simpa [unreserved] using this

theorem Desk.Lawful.test (law : d.Lawful) (claimed : d.claim = true) : d.line = .looptest := by
  have := law.claim
  simpa [claimed] using this

theorem Desk.Lawful.unclaimed (law : d.Lawful) (noTest : d.line ≠ .looptest) : d.claim = false := by
  have := law.claim
  simpa [noTest] using this

theorem Desk.Lawful.unreserved (law : d.Lawful) (noTest : d.line ≠ .looptest) : d.reserved = false := by
  have := law.reserved
  simpa [noTest] using this

/-- A transmitter in a state that the line allows. -/
theorem Desk.Lawful.with_tx (law : d.Lawful) {tx : HeadTx} (looped : tx.inLoop = true → d.line = .looptest)
    (busy : d.line = .looptest → tx ≠ .free) (clear : d.waiting = true → ∀ f, tx ≠ .sending f)
    (slots : ∀ t, tx = .loop (some t) → t.passed.length < t.count) : Desk.Lawful { d with tx := tx } :=
  { law with looped := looped, busy := busy, clear := clear, slots := slots }

/-- A line that moves outside a test: an index waits only into IDLE, and strokes stay only where they may be. -/
theorem Desk.Lawful.with_line (law : d.Lawful) {line : LineState} (noTest : d.line ≠ .looptest)
    (still : line ≠ .looptest) (waits : d.waiting = true → line = .idle)
    (takes : line.takesStrokes = false → d.strokes = []) : Desk.Lawful { d with line := line } :=
  { law with
    reserved := by simp [law.unreserved noTest, still]
    claim := by simp [law.unclaimed noTest, still]
    looped := fun looped => absurd (law.looped looped) noTest
    busy := fun test => absurd test still
    front := fun test => absurd test still
    waiting := fun waiting => .inl (waits waiting)
    noStroke := takes }

/-- A stroke queue that lost entries. -/
theorem Desk.Lawful.with_strokes (law : d.Lawful) {strokes : List Stroke} (fewer : strokes.length ≤ d.strokes.length) :
    Desk.Lawful { d with strokes := strokes } :=
  { law with
    strokes := fewer.trans law.strokes
    noStroke := fun takes => by simpa [law.noStroke takes] using fewer }

/-- A stroke joins the queue where strokes are taken and there is room (R88). -/
theorem Desk.Lawful.with_stroke (law : d.Lawful) (takes : d.line.takesStrokes = true)
    (room : d.strokes.length < Config.strokeCapacity) (x : Stroke) :
    Desk.Lawful { d with strokes := d.strokes ++ [x] } :=
  { law with
    strokes := by simpa using room
    noStroke := fun no => absurd takes (by simp [no]) }

theorem Desk.Lawful.with_markers (law : d.Lawful) {markers : List Marker}
    (fit : markers.length ≤ Config.markerCapacity) : Desk.Lawful { d with markers := markers } :=
  { law with markers := fit }

theorem Desk.Lawful.with_defects (law : d.Lawful) {defects : List Defect} (fit : DefectsFit defects) :
    Desk.Lawful { d with defects := defects } :=
  { law with defects := fit }

theorem Desk.Lawful.with_answers (law : d.Lawful) {answers : List Answer}
    (fit : answers.length + d.reserved.toNat ≤ Config.answerCapacity) : Desk.Lawful { d with answers := answers } :=
  { law with answers := fit }

/-- The front command leaves, no test being in progress. -/
theorem Desk.Lawful.with_tail (law : d.Lawful) (noTest : d.line ≠ .looptest) :
    Desk.Lawful { d with commands := d.commands.tail } :=
  { law with
    front := fun test => absurd test noTest
    commands := by simpa using (Nat.sub_le _ _).trans law.commands
    oneRead := (d.commands.tail_sublist.countP_le).trans law.oneRead }

/-- A command joins the queue: the front stays, and it is the only READ if it is one (R171). -/
theorem Desk.Lawful.with_command (law : d.Lawful) {c : Command} (room : d.commands.length < Config.commandCapacity)
    (read : c.isReadCode = false ∨ d.commands.any Command.isReadCode = false) :
    Desk.Lawful { d with commands := d.commands ++ [c] } :=
  { law with
    front := fun test => by
      obtain ⟨x, front, code⟩ := law.front test
      exact ⟨x, by rw [List.head?_append, Option.mem_def.mp front]; rfl, code⟩
    commands := by simpa using room
    oneRead := by
      have old := law.oneRead
      rcases read with other | none
      · simpa [List.countP_append, other] using old
      · have : d.commands.countP Command.isReadCode = 0 := by simpa [List.countP_eq_zero] using none
        simpa [List.countP_append, this] using List.countP_le_length (l := [c]) }

end

/-! ### What the shared operations leave of the desk -/

theorem OnlyStops.desk {s t : State} (h : OnlyStops s t) : t.desk = s.desk := by
  obtain ⟨_, _, rfl⟩ := h
  rfl

theorem OnlyWalks.desk {s t : State} (h : OnlyWalks s t) : t.desk = { s.desk with markers := t.engine.markers } := by
  obtain ⟨_, _, _, rfl⟩ := h
  rfl

theorem OnlyThread.desk {s t : State} (h : OnlyThread s t) : t.desk = { s.desk with defects := t.thread.defects } := by
  obtain ⟨_, _, _, _, _, rfl⟩ := h
  rfl

theorem OnlyFeeds.desk {s t : State} (h : OnlyFeeds s t) :
    t.desk = { s.desk with markers := t.engine.markers, line := t.line.state } := by
  obtain ⟨_, _, _, _, _, _, _, _, rfl⟩ := h
  rfl

/-! ### The defect list (R142) -/

/-- From s to t the defect list stays within its capacity and without matching records. -/
def DefectsKept (s t : State) : Prop := DefectsFit s.thread.defects → DefectsFit t.thread.defects

theorem DefectsKept.of_eq {s t : State} (same : t.thread.defects = s.thread.defects) : DefectsKept s t :=
  fun fit => same ▸ fit

theorem DefectsKept.trans {s t u : State} (h : DefectsKept s t) (k : DefectsKept t u) : DefectsKept s u := k ∘ h

/-- What touches the thread alone and keeps its list keeps both laws. -/
theorem DefectsKept.desk {s t : State} (list : DefectsKept s t) (only : OnlyThread s t) : DeskKept s t := fun law => by
  rw [only.desk]
  exact law.with_defects (list law.defects)

/-- A record that matches none held, appended below the capacity. -/
theorem DefectsFit.append {defects : List Defect} (fit : DefectsFit defects) {d : Defect}
    (new : defects.any d.matches = false) (room : defects.length < Config.defectCapacity) :
    DefectsFit (defects ++ [d]) where
  length := by simpa using room
  distinct := by
    refine List.pairwise_append.mpr ⟨fit.distinct, List.pairwise_singleton _ _, fun e held x last => ?_⟩
    rw [List.mem_singleton.mp last, Defect.matches_symm]
    simpa using List.any_eq_false.mp new e held

theorem offerDefect_defectsKept (d : Defect) (s : State) : DefectsKept s (offerDefect d s) := by
  intro fit
  rcases offerDefect_cases d s with ⟨-, h⟩ | ⟨new, room, h⟩ | ⟨-, -, h⟩ <;> rw [h]
  · exact fit
  · exact fit.append new room
  · exact fit

theorem evaluateSegment_defects (g : Fin 16) (s : State) : (evaluateSegment g s).thread.defects = s.thread.defects := by
  obtain ⟨_, _, h⟩ := evaluateSegment_only g s
  rw [h]

theorem lossNotice_defectsKept (g : Fin 16) (s : State) : DefectsKept s (lossNotice g s) :=
  (offerDefect_defectsKept _ s).trans (.of_eq (evaluateSegment_defects g _))

theorem threadBreak_defectsKept (g : Fin 16) (p : Fin 8) (s : State) : DefectsKept s (threadBreak g p s) := by
  rw [threadBreak_eq]
  exact DefectsKept.trans (t := { joinFault g p s with thread.totalBreaks := saturate s.thread.totalBreaks })
    (.of_eq rfl) ((offerDefect_defectsKept _ _).trans (.of_eq (evaluateSegment_defects g _)))

theorem judgePosition_defectsKept (g : Fin 16) (reported : Pattern) (s : State) (p : Fin 8) :
    DefectsKept s (judgePosition g reported s p) := by
  rcases judgePosition_cases g reported s p with ⟨v, h⟩ | h | ⟨-, h⟩ | ⟨-, h⟩ | ⟨-, h⟩ <;> rw [h]
  case inr.inr.inr.inl =>
    exact DefectsKept.trans (t := setPresence g p .absent s) (.of_eq rfl) (threadBreak_defectsKept g p _)
  all_goals exact .of_eq rfl

theorem returnNotice_defectsKept (g : Fin 16) (reported : Pattern) (low : Bool) (s : State) :
    DefectsKept s (returnNotice g reported low s) := by
  rw [returnNotice_eq]
  exact foldl_keeps (R := DefectsKept) (fun _ => id) DefectsKept.trans (judgePosition_defectsKept g reported) _ s

theorem setSegment_defects (g : Fin 16) (x : Segment) (s : State) :
    (setSegment g x s).thread.defects = s.thread.defects := by
  obtain ⟨_, h⟩ := setSegment_keeps g x s
  rw [h]

theorem badReturn_defectsKept (g : Fin 16) (s : State) : DefectsKept s (badReturn g s) := by
  unfold badReturn
  split
  · exact .of_eq (setSegment_defects g _ s)
  · split
    · exact .of_eq (setSegment_defects g _ s)
    · exact DefectsKept.trans (.of_eq (setSegment_defects g _ s)) (lossNotice_defectsKept g _)
  all_goals exact .of_eq rfl

theorem judgeSlot_defectsKept (g : Fin 16) (x : Slot) (s : State) : DefectsKept s (judgeSlot g x s) := by
  unfold judgeSlot
  split
  · split
    · exact DefectsKept.trans (.of_eq (setSegment_defects g _ s)) (returnNotice_defectsKept g _ _ _)
    · exact badReturn_defectsKept g s
  · exact .of_eq rfl

theorem closePosition_defectsKept (received : List Bool) (s : State) (g : Fin 16) :
    DefectsKept s (closePosition received s g) := by
  unfold closePosition
  split
  · exact badReturn_defectsKept g s
  all_goals exact .of_eq rfl

theorem endWindow_defectsKept (s : State) : DefectsKept s (endWindow s) := by
  unfold endWindow
  split
  · rename_i received _
    exact DefectsKept.trans (t := { s with head.tx := .free }) (.of_eq rfl)
      (foldl_keeps (R := DefectsKept) (fun _ => id) DefectsKept.trans (closePosition_defectsKept received) _ _)
  all_goals exact .of_eq rfl

/-! ### The return transmitter (R158, R171, R173, R175) -/

/-- The arbiter takes an answer or leaves the desk. -/
theorem arbitrate_desk (s : State) :
    ∃ answers, answers.length ≤ s.mgmt.answers.length ∧ (arbitrate s).desk = { s.desk with answers := answers } := by
  rcases arbitrate_cases s with h | ⟨-, r, -, h⟩ | ⟨-, -, a, rest, queued, h⟩ <;> rw [h]
  · exact ⟨s.mgmt.answers, Nat.le_refl _, rfl⟩
  · exact ⟨s.mgmt.answers, Nat.le_refl _, rfl⟩
  · exact ⟨rest, by simp [queued], rfl⟩

theorem arbitrate_kept (s : State) : DeskKept s (arbitrate s) := fun law => by
  obtain ⟨answers, fewer, h⟩ := arbitrate_desk s
  rw [h]
  exact law.with_answers ((Nat.add_le_add_right fewer _).trans law.answers)

/-- An answer for which there is room enters the queue. -/
theorem enterAnswer_lawful {s : State} (law : s.desk.Lawful) (room : s.answerRoom = true) (a : Answer) :
    (enterAnswer a s).desk.Lawful := by
  refine arbitrate_kept _ (law.with_answers (d := s.desk) (answers := s.mgmt.answers ++ [a]) ?_)
  have : s.mgmt.answers.length + s.mgmt.reserved.toNat < Config.answerCapacity := of_decide_eq_true room
  simp only [List.length_append, List.length_singleton, State.desk]
  omega

/-- A command answered leaves the queue, and its answer takes the place it had (R172). -/
theorem answerFront_lawful {s : State} (law : s.desk.Lawful) (room : s.answerRoom = true) (noTest : s.line.state ≠ .looptest)
    (c : Command) (r : Reply) : (answerFront c r s).desk.Lawful :=
  enterAnswer_lawful (s := { s with mgmt.commands := s.mgmt.commands.tail }) (law.with_tail (d := s.desk) noTest) room _

/-! ### The arrival of cells (R88, R152, R155, R171) -/

theorem strokeArrives_kept (payload : List Byte) (s : State) : DeskKept s (strokeArrives payload s) := by
  rcases strokeArrives_cases payload s with h | ⟨low, high, feed, -, takes, room, h⟩ <;> rw [h]
  · exact .of_desk rfl
  · exact fun law => law.with_stroke (d := s.desk) takes room _

theorem commandArrives_kept (c : Command) (s : State) : DeskKept s (commandArrives c s) := by
  rcases commandArrives_cases c s with ⟨room, -, -, h⟩ | h | ⟨room, read, h⟩ <;> rw [h]
  · exact fun law => enterAnswer_lawful law room _
  · exact .of_desk rfl
  · exact fun law => law.with_command (d := s.desk) room read

theorem cellArrives_kept (kind : CellKind) (payload : List Byte) (s : State) : DeskKept s (cellArrives kind payload s) := by
  have ready : DeskKept s { s with link.receiver := .ready } := .of_desk rfl
  cases kind with
  | stroke => exact ready.trans (strokeArrives_kept _ _)
  | command => exact ready.trans (commandArrives_kept _ _)

theorem framingError_desk (s : State) : (framingError s).desk = s.desk := by
  unfold framingError
  split <;> rfl

theorem kindByte_desk (d : Byte) (s : State) : (kindByte d s).desk = s.desk := by
  unfold kindByte
  repeat' split
  all_goals rfl

theorem bodyByte_kept (d : Byte) (cell : PartCell) (s : State) : DeskKept s (bodyByte d cell s) := by
  unfold bodyByte
  split
  · split <;> exact .of_desk rfl
  · split
    · exact .of_desk rfl
    · split
      · exact cellArrives_kept _ _ s
      · exact .of_desk rfl

theorem goodByte_kept (d : Byte) (s : State) : DeskKept s (goodByte d s) := by
  unfold goodByte
  split
  · exact .of_desk (kindByte_desk d s)
  · exact bodyByte_kept d _ s
  all_goals exact .refl s

theorem byteArrives_kept (d : Byte) (stop : Bool) (s : State) : DeskKept s (byteArrives d stop s) := by
  unfold byteArrives
  split
  · exact .refl s
  · split
    · exact goodByte_kept d s
    · split
      · exact .of_desk rfl
      · exact .of_desk (framingError_desk s)

theorem gapPasses_desk (s : State) : (gapPasses s).desk = s.desk := by
  unfold gapPasses
  repeat' split
  all_goals rfl

theorem markReturns_desk (s : State) : (markReturns s).desk = s.desk := by
  unfold markReturns
  split
  · exact framingError_desk _
  · rfl

theorem breakEnds_desk (s : State) : (breakEnds s).desk = s.desk := by
  unfold breakEnds
  split <;> rfl

end Sys2Proof.Machine
end

section
/-! Every step keeps the law of the loop test and the capacities of the queues: the line moves, the head link, the service of
an index, and the commands, each on its desk. -/

namespace Sys2Proof.Machine

open Sys2Proof

/-! ### A line that halts (R77, R78, R89) -/

/-- A line that leaves RUNNING or CHANGEOVER has no index waiting (R85, R90). -/
theorem Desk.Lawful.alone {d : Desk} (law : d.Lawful) (notIdle : d.line ≠ .idle) (noTest : d.line ≠ .looptest) :
    d.waiting = false := by
  rw [← Bool.not_eq_true]
  exact fun waits => (law.waiting waits).elim notIdle noTest

/-- Entry to HALTED empties the stroke queue. -/
theorem Desk.Lawful.halted {d : Desk} (law : d.Lawful) (notIdle : d.line ≠ .idle) (noTest : d.line ≠ .looptest)
    (cause : HaltCause) (resume : ResumeState) :
    Desk.Lawful { d with line := .halted cause resume, strokes := [] } := by
  have emptied := law.with_strokes (strokes := []) (Nat.zero_le _)
  exact emptied.with_line noTest (by simp) (fun waits => absurd waits (by simp [law.alone notIdle noTest])) fun _ => rfl

theorem haltLine_kept (cause : HaltCause) (s : State) : DeskKept s (haltLine cause s) := by
  unfold haltLine
  split
  case h_1 state | h_2 state =>
    exact fun law => law.halted (d := s.desk) (by simp [State.desk, state]) (by simp [State.desk, state]) cause _
  all_goals exact .refl s

/-! ### A feed (R72 to R76) -/

theorem queued_length {old : List Marker} (fit : old.length ≤ Config.markerCapacity) (raised : List Marker) :
    (queued old raised).length ≤ Config.markerCapacity := by
  have : old.length ≤ 16 := fit
  simp only [queued, List.length_append, List.length_take, Config.markerCapacity]
  omega

/-- The two laws hold where a stroke is fed: the line takes strokes and no index waits. -/
structure Feeding (s : State) : Prop where
  lawful : s.desk.Lawful
  takes  : s.line.state.takesStrokes = true
  alone  : s.head.waiting = false

theorem noTest_of_takes {x : LineState} (takes : x.takesStrokes = true) : x ≠ .looptest := by
  rintro rfl
  exact absurd takes (by decide)

/-- What a feed may change keeps the laws, if the line goes on taking strokes and the markers raised are queued. -/
theorem Feeding.fed {s t : State} {raised : List Marker} (h : Feeding s) (only : OnlyFeeds s t)
    (takes : t.line.state.takesStrokes = true) (markers : t.engine.markers = queued s.engine.markers raised) :
    Feeding t where
  lawful := by
    have marked := h.lawful.with_markers (markers := t.engine.markers)
      (by rw [markers]; exact queued_length h.lawful.markers raised)
    rw [only.desk]
    exact marked.with_line (noTest_of_takes h.takes) (noTest_of_takes takes)
      (fun waits => absurd waits (by simp [State.desk, h.alone])) (fun no => absurd takes (by simp [no]))
  takes := takes
  alone := by
    obtain ⟨_, _, _, _, _, _, _, _, rfl⟩ := only
    exact h.alone

theorem Feeding.walked {s : State} (h : Feeding s) (feed : Nat) : Feeding (walkLanes feed s) :=
  h.fed (walkLanes_only feed s).toFeeds (by rw [(walkLanes_only feed s).line.1]; exact h.takes)
    (walkLanes_raised feed s).markers

theorem Feeding.completed {s : State} (h : Feeding s) (p : PanelProgram) (leftover : Nat) :
    Feeding (completeChangeover p leftover s) := by
  have running : Feeding
      { s with line.seam := 0, line.program := some { role := .active, panel := p }, line.state := .running } :=
    h.fed ⟨_, _, _, _, _, _, _, _, rfl⟩ rfl (queued_nil _).symm
  exact Feeding.walked
    (running.fed (panelStart_onlyFeeds p leftover _) (by rw [(panelStart_line p leftover _).1]; rfl)
      (panelStart_raised p leftover _).markers) leftover

theorem Feeding.ended {s : State} (h : Feeding s) (p : PanelProgram) : Feeding (endRun p s) :=
  h.fed (endRun_only p s) rfl (queued_nil _).symm

theorem Feeding.opened {s : State} (h : Feeding s) (p q : PanelProgram) (seam : Nat) :
    Feeding (openChangeover p q seam s) :=
  h.fed (openChangeover_only p q seam s) rfl (queued_nil _).symm

theorem Feeding.boundary {s : State} (h : Feeding s) (fuel excess : Nat) (p : PanelProgram) :
    Feeding (boundary fuel excess p s) := by
  induction fuel generalizing excess p s with
  | zero => exact h
  | succ fuel ih =>
    unfold Machine.boundary
    split
    · exact h.ended p
    · rename_i q _
      have opened := h.opened p q (p.seamGap - excess)
      have completed := opened.completed q (excess - p.seamGap)
      dsimp only
      split
      · exact opened
      · split
        · exact completed
        · exact ih completed _ q

theorem Feeding.advance {s : State} (h : Feeding s) (p : PanelProgram) (position : Nat) :
    Feeding (advance p position s) := by
  unfold Machine.advance
  split
  · exact h.fed ⟨_, _, _, _, _, _, _, _, rfl⟩ h.takes (queued_nil _).symm
  · exact h.boundary _ _ p

theorem Feeding.delivered {s : State} (h : Feeding s) (feed : Nat) : Feeding (deliverFeed feed s) := by
  unfold deliverFeed
  split
  · unfold feedRunning
    split
    · exact (h.walked feed).advance _ _
    · exact h
  · unfold feedChangeover
    split
    · split
      · exact h.fed ⟨_, _, _, _, _, _, _, _, rfl⟩ h.takes (queued_nil _).symm
      · exact (h.completed _ _).advance _ _
    · exact h
  all_goals exact h

/-! ### The service of an index (R90 to R101) -/

/-- A stroke consumed or a dwell, no index waiting (R92 to R95). -/
theorem applyStroke_lawful {s : State} (law : s.desk.Lawful) (alone : s.head.waiting = false) :
    (applyStroke s).state.desk.Lawful := by
  by_cases moving : s.line.state = .running ∨ s.line.state = .changeover
  · have takes : s.line.state.takesStrokes = true := by rcases moving with h | h <;> rw [h] <;> rfl
    cases queue : s.strokes.queue with
    | nil =>
      have counted : DeskKept s (dwellStroke s) := by
        unfold dwellStroke
        dsimp only
        split
        · exact .of_desk rfl
        · exact DeskKept.trans (.of_desk (by rfl)) (haltLine_kept _ _)
      have dwells : (applyStroke s).state = dwellStroke s := by
        unfold applyStroke
        rcases moving with h | h <;> simp only [h, queue]
      rw [dwells]
      exact counted law
    | cons x rest =>
      have consumes : (applyStroke s).state = consumeStroke x rest s := by
        unfold applyStroke
        rcases moving with h | h <;> simp only [h, queue]
      have left : Desk.Lawful { s.desk with strokes := rest } := law.with_strokes (by simp [State.desk, queue])
      rw [consumes]
      exact (Feeding.delivered (s := { s with strokes.queue := rest, strokes.consecutive := 0 })
        ⟨left, takes, alone⟩ _).lawful
  · obtain ⟨running, changeover⟩ := not_or.mp moving
    rw [applyStroke_still running changeover]
    exact law

theorem composeReport_desk (x : StrokeOutcome) :
    (composeReport x).desk = { x.state.desk with markers := x.state.engine.markers.drop Config.reportMarkers } := by
  rw [composeReport, placeReport_eq]
  split <;> rfl

/-- The end of a window changes the defect list and the transmitter, and nothing else of the desk. -/
theorem endWindow_desk (s : State) (tx : HeadTx) : State.desk { endWindow s with head.tx := tx } =
    { s.desk with defects := (endWindow s).thread.defects, tx := tx } := by
  simp only [State.desk, endWindow_claim, endWindow_waiting, endWindow_segmentCount, endWindow_line, endWindow_strokes,
    endWindow_markers, endWindow_commands, endWindow_answers, endWindow_reserved]

/-- An index served outside a test, with none waiting: its window's end, its frame, its stroke and its REPORT (R91). -/
theorem serveIndex_lawful_desk {s : State} (law : s.desk.Lawful) (noTest : s.line.state ≠ .looptest)
    (alone : s.head.waiting = false) : (serveIndex s).desk.Lawful := by
  have formed : (formFrame (endWindow s).frameKind (endWindow s)).desk.Lawful := by
    have noted := law.with_defects (endWindow_defectsKept s law.defects)
    have sent (f : Frame) : Desk.Lawful { s.desk with defects := (endWindow s).thread.defects, tx := .sending f } :=
      noted.with_tx (fun looped => absurd looped (by simp [HeadTx.inLoop])) (fun test => absurd test noTest)
        (fun waits => absurd waits (by simp [State.desk, alone])) (by simp)
    have desk : (formFrame (endWindow s).frameKind (endWindow s)).desk =
        State.desk { endWindow s with head.tx := (formFrame (endWindow s).frameKind (endWindow s)).head.tx } := rfl
    rw [desk, endWindow_desk]
    exact sent _
  have applied := applyStroke_lawful formed (by rw [← alone]; exact endWindow_waiting s)
  rw [serveIndex_eq, composeReport_desk]
  refine applied.with_markers ?_
  have := applied.markers
  simp only [List.length_drop]
  exact (Nat.sub_le _ _).trans this

/-- All that can become of an index (R90). -/
theorem takeIndex_cases (s : State) :
    takeIndex s = s.latch .shaftEarly ∨
      (s.hldirOutbound = false ∧ s.head.claim = true ∧ takeIndex s = { s with head.waiting := true }) ∨
      (s.serves ∧ takeIndex s = serveIndex s) := by
  unfold takeIndex
  cases clear : s.hldirOutbound with
  | true =>
    obtain ⟨f, sending⟩ : ∃ f, s.head.tx = .sending f := by
      by_contra none
      rw [(hldirOutbound_false_iff s).mpr fun f sending => none ⟨f, sending⟩] at clear
      exact absurd clear (by decide)
    exact .inl (by simp only [indexFate_sending sending])
  | false =>
    rw [indexFate_clear clear]
    cases alone : s.head.waiting with
    | true => exact .inl rfl
    | false =>
      cases claim : s.head.claim with
      | true => exact .inr (.inl ⟨rfl, rfl, rfl⟩)
      | false => exact .inr (.inr ⟨⟨clear, claim, alone⟩, rfl⟩)

/-- Outside a test there is no claim, and the other way round. -/
theorem Desk.Lawful.noTest_of_unclaimed {d : Desk} (law : d.Lawful) (unclaimed : d.claim = false) :
    d.line ≠ .looptest := by
  have := law.claim
  simpa [unclaimed] using this

theorem takeIndex_kept (s : State) : DeskKept s (takeIndex s) := by
  intro law
  rcases takeIndex_cases s with h | ⟨clear, claimed, h⟩ | ⟨⟨-, unclaimed, alone⟩, h⟩ <;> rw [h]
  · exact law
  · exact
      { law with
        waiting := fun _ => .inr (law.test claimed)
        clear := fun _ => (hldirOutbound_false_iff s).mp clear }
  · exact serveIndex_lawful_desk law (law.noTest_of_unclaimed unclaimed) alone

/-- What a waiting index is served from. -/
theorem unwaited_lawful {s : State} (law : s.desk.Lawful) : s.unwaited.desk.Lawful :=
  { law with
    waiting := fun waits => absurd waits (by simp [State.desk, State.unwaited])
    clear := fun waits => absurd waits (by simp [State.desk, State.unwaited]) }

theorem serveWaited_kept (s : State) : DeskKept s (serveWaited s) := by
  intro law
  rcases serveWaited_cases s with h | ⟨-, unclaimed, -, h⟩ <;> rw [h]
  · exact law
  · exact serveIndex_lawful_desk (unwaited_lawful law) (law.noTest_of_unclaimed unclaimed) rfl

/-- No index waits any more once the one that is due in IDLE has been served. -/
theorem serveWaited_alone {s : State} (law : s.desk.Lawful) (idle : s.line.state = .idle) :
    (serveWaited s).head.waiting = false := by
  cases waits : s.head.waiting with
  | false => rw [serveWaited_not_waiting waits, waits]
  | true =>
    have unclaimed : s.head.claim = false := law.unclaimed (by simp [State.desk, idle])
    exact (serveWaited_sends waits unclaimed ((hldirOutbound_false_iff s).mpr (law.clear waits))).1

/-! ### The head link (R114 to R118, R123 to R125) -/

theorem outboundComplete_kept (s : State) : DeskKept s (outboundComplete s) := by
  unfold outboundComplete
  split
  · exact fun law => law.with_tx (d := s.desk) (by simp [HeadTx.inLoop]) (by simp) (by simp) (by simp)
  all_goals exact .refl s

theorem returnArrives_kept (position : Nat) (x : Slot) (s : State) : DeskKept s (returnArrives position x s) := by
  unfold returnArrives
  split
  · rename_i received g _ _
    split
    · refine DeskKept.trans (t := { s with head.tx := .window (received.set position true) })
        (fun law => law.with_tx (d := s.desk) (by simp [HeadTx.inLoop]) (by simp) (by simp) (by simp)) ?_
      exact (judgeSlot_defectsKept g x _).desk (judgeSlot_only g x _)
    all_goals exact .refl s
  all_goals exact .refl s

/-- The end of a window leaves the transmitter FREE, or to a test that has claimed it (R116, R118, R123). -/
theorem windowExpires_kept (s : State) : DeskKept s (windowExpires s) := by
  unfold windowExpires
  split
  · rename_i received window
    intro law
    have noted := law.with_defects (endWindow_defectsKept s law.defects)
    have free : endWindow s = { endWindow s with head.tx := .free } := by
      obtain ⟨_, _, _, _, _, h⟩ := endWindow_of_window window
      rw [h]
    dsimp only
    split
    · rename_i claimed
      rw [endWindow_claim] at claimed
      rw [endWindow_desk]
      exact noted.with_tx (fun _ => law.test claimed) (by simp) (by simp) (by simp)
    · rename_i unclaimed
      rw [endWindow_claim] at unclaimed
      rw [free, endWindow_desk]
      exact noted.with_tx (by simp [HeadTx.inLoop])
        (fun test => absurd test (law.noTest_of_unclaimed (Bool.eq_false_iff.mpr unclaimed))) (by simp) (by simp)
  all_goals exact .refl s

/-- The looped frame of a test begins: none of its slots is checked yet. -/
theorem Desk.Lawful.with_loop {d : Desk} (law : d.Lawful) (test : d.line = .looptest) :
    Desk.Lawful { d with tx := .loop (some { count := d.segmentCount, passed := [] }) } := by
  refine law.with_tx (fun _ => test) (by simp) (by simp) fun t same => ?_
  obtain rfl : { count := d.segmentCount, passed := [] } = t := by simpa using same
  exact law.count.1

theorem beginLoopedFrame_kept (s : State) : DeskKept s (beginLoopedFrame s) := by
  unfold beginLoopedFrame
  split
  · rename_i loop
    exact fun law => law.with_loop (d := s.desk) (law.looped (by simp [State.desk, loop, HeadTx.inLoop]))
  · split
    · rename_i claimed
      exact fun law => law.with_loop (d := s.desk) (law.test claimed)
    · exact .refl s
  all_goals exact .refl s

/-- The test completes: the reserved place takes its answer, and an index that waits is due in IDLE (R85, R125, R173). -/
theorem completeLoopTest_lawful {s : State} (law : s.desk.Lawful) (test : s.line.state = .looptest) (passed : List Bool) :
    (completeLoopTest passed s).desk.Lawful := by
  obtain ⟨c, front, -⟩ := law.front test
  obtain ⟨rest, queued⟩ := cons_of_head (c := c) (s := s) front
  rw [completeLoopTest_answers queued]
  have reserved : s.mgmt.reserved = true := by simpa [State.desk, test] using law.reserved
  have idle : State.desk { s with head.tx := .free, head.claim := false, line.state := .idle, mgmt.reserved := false } =
      { s.desk with tx := .free, claim := false, line := .idle, reserved := false } := rfl
  have room : s.mgmt.answers.length + 1 ≤ Config.answerCapacity := by
    simpa [State.desk, reserved] using law.answers
  have lawful : Desk.Lawful { s.desk with tx := .free, claim := false, line := .idle, reserved := false } :=
      { law with
        reserved := by simp
        claim := by simp
        looped := by simp [HeadTx.inLoop]
        busy := by simp
        front := by simp
        waiting := fun _ => .inl rfl
        clear := by simp
        slots := by simp
        noStroke := fun no => absurd (show LineState.takesStrokes .idle = false from no) (by decide)
        answers := (Nat.le_succ _).trans room }
  rw [← idle] at lawful
  exact answerFront_lawful lawful (decide_eq_true room) (noTest_of_takes rfl) c _

theorem testSlotArrives_kept (x : Slot) (s : State) : DeskKept s (testSlotArrives x s) := by
  unfold testSlotArrives
  split
  · rename_i test loop
    intro law
    have looptest : s.line.state = .looptest := law.looped (by simp [State.desk, loop, HeadTx.inLoop])
    dsimp only
    split
    · rename_i inner
      refine law.with_tx (d := s.desk) (fun _ => looptest) (by simp) (by simp) fun t same => ?_
      obtain rfl := Option.some.inj (HeadTx.loop.inj same)
      exact inner
    · exact completeLoopTest_lawful law looptest _
  all_goals exact .refl s

theorem breakBegins_kept (s : State) : DeskKept s (breakBegins s) :=
  DeskKept.trans (t := { s with link.breakState := true, link.receiver := .inBreak, link.heldSpace := false })
    (.of_desk rfl) (haltLine_kept _ _)

end Sys2Proof.Machine
end

section
/-! The commands at the desk, and the law-keeping of every step. -/

namespace Sys2Proof.Machine

open Sys2Proof

/-! ### What an execution event does to the desk (R169, R172) -/

/-- An effect that keeps the laws, and the answer place the command is to take. -/
structure Serves (s : State) (e : Effect) : Prop where
  lawful   : s.desk.Lawful → s.canExecute = true → e.1.desk.Lawful
  answers  : e.1.mgmt.answers = s.mgmt.answers
  reserved : e.2 ≠ none → e.1.mgmt.reserved = s.mgmt.reserved

/-- An effect that leaves the desk. -/
theorem Serves.of_desk {s : State} {e : Effect} (same : e.1.desk = s.desk) : Serves s e where
  lawful law _ := same ▸ law
  answers := congrArg Desk.answers same
  reserved _ := congrArg Desk.reserved same

/-- A front command executes outside a test, with room for its answer. -/
theorem canExecute_split {s : State} (can : s.canExecute = true) :
    s.answerRoom = true ∧ s.mgmt.reserved = false := by
  simpa [State.canExecute] using can

theorem Desk.Lawful.noTest_of_canExecute {s : State} (law : s.desk.Lawful) (can : s.canExecute = true) :
    s.line.state ≠ .looptest :=
  law.noTest (canExecute_split can).2

/-- An effect settled: the answer finds its place, no test being in progress. -/
theorem Serves.settled {s : State} {e : Effect} (serves : Serves s e) (law : s.desk.Lawful)
    (can : s.canExecute = true) (c : Command) : (settle c e).desk.Lawful := by
  have lawful := serves.lawful law can
  obtain ⟨room, unreserved⟩ := canExecute_split can
  unfold settle
  split
  · rename_i r answer
    have reserved := serves.reserved (by simp [answer])
    refine answerFront_lawful lawful ?_ (lawful.noTest (reserved.trans unreserved)) c r
    rw [State.answerRoom, serves.answers, reserved]
    exact room
  · exact lawful

theorem executeFront_kept {row : Command → Bool} {effect : List Byte → State → Effect} {s : State}
    (acts : ∀ c rest, s.mgmt.commands = c :: rest → row c = true → Serves s (effect c.args s)) :
    DeskKept s (executeFront row effect s) := by
  rcases executeFront_cases row effect s with h | ⟨c, rest, front, isRow, can, h⟩ <;> rw [h]
  · exact .refl s
  · exact fun law => (acts c rest front isRow).settled law can c

/-- A command that asks for a length of its arguments (R169). -/
theorem lengthCommand_kept {row : Command → Bool} {n : Nat} {effect : List Byte → State → Effect} {s : State}
    (acts : ∀ args, Serves s (effect args s)) :
    DeskKept s (executeFront row (fun args t => withLength n args (effect args t) t) s) :=
  executeFront_kept fun c _ _ _ => by
    unfold withLength
    split
    · exact acts c.args
    · exact .of_desk rfl

/-- A SET or READ item (R177, R179). -/
theorem itemCommand_kept {row : Command → Bool} {item n : Nat} {effect : List Byte → State → Effect} {s : State}
    (acts : ∀ args, Serves s (effect args s)) :
    DeskKept s (executeFront row (fun args t => withItem item n args (effect args t) t) s) :=
  executeFront_kept fun c _ _ _ => by
    unfold withItem withLength
    split
    · split
      · exact acts c.args
      · exact .of_desk rfl
    · exact .of_desk rfl

/-! ### Commands that leave the desk -/

theorem judgeDefine_desk (motif first count length : Nat) (loop : Option Nat) (s : State) :
    (judgeDefine motif first count length loop s).1.desk = s.desk := by
  unfold judgeDefine
  repeat' split
  all_goals rfl

theorem judgeUndefine_desk (motif : Nat) (s : State) : (judgeUndefine motif s).1.desk = s.desk := by
  unfold judgeUndefine
  repeat' split
  all_goals rfl

theorem loadFragment0_desk (args : List Byte) (s : State) : (loadFragment0 args s).1.desk = s.desk := by
  unfold loadFragment0
  split <;> rfl

theorem loadFragment1_desk (args : List Byte) (s : State) : (loadFragment1 args s).1.desk = s.desk := by
  unfold loadFragment1
  repeat' split
  all_goals rfl

theorem loadFragment2_desk (args : List Byte) (s : State) : (loadFragment2 args s).1.desk = s.desk := by
  unfold loadFragment2
  dsimp only
  repeat' split
  all_goals rfl

theorem judgeFlush_desk (s : State) : (judgeFlush s).1.desk = s.desk := by
  unfold judgeFlush
  split <;> rfl

theorem judgeBegin_desk (tag : Serial) (length seamGap : Nat) (repeats : Option Bool) (s : State) :
    (judgeBegin tag length seamGap repeats s).1.desk = s.desk := by
  unfold judgeBegin
  repeat' split
  all_goals rfl

theorem judgeLane_desk (a : Option Assignment) (s : State) : (judgeLane a s).1.desk = s.desk := by
  unfold judgeLane
  repeat' split
  all_goals rfl

theorem judgeCommit_desk (s : State) : (judgeCommit s).1.desk = s.desk := by
  unfold judgeCommit
  repeat' split
  all_goals rfl

theorem judgeDiscard_desk (s : State) : (judgeDiscard s).1.desk = s.desk := by
  unfold judgeDiscard
  split <;> rfl

theorem judgeHold_desk (lane : Nat) (s : State) : (judgeHold lane s).1.desk = s.desk := by
  unfold judgeHold
  repeat' split
  all_goals rfl

theorem judgeRelease_desk (lane : Nat) (s : State) : (judgeRelease lane s).1.desk = s.desk := by
  unfold judgeRelease
  repeat' split
  all_goals rfl

theorem judgeStop_desk (lane : Nat) (s : State) : (judgeStop lane s).1.desk = s.desk := by
  unfold judgeStop
  repeat' split
  all_goals rfl

theorem judgeRestore_desk (segment : Nat) (s : State) : (judgeRestore segment s).1.desk = s.desk := by
  unfold judgeRestore
  split
  · rfl
  · split
    · dsimp only [replyWith]
      rw [restoreSegment_eq]
      rfl
    · rfl

theorem judgeNeedle_desk (needle : Nat) (s : State) : (judgeNeedle needle s).1.desk = s.desk := by
  unfold judgeNeedle
  repeat' split
  all_goals rfl

theorem judgeLaneMap_desk (segment lane : Nat) (s : State) : (judgeLaneMap segment lane s).1.desk = s.desk := by
  unfold judgeLaneMap
  repeat' split
  all_goals rfl

theorem judgeMask_desk (segment : Nat) (mask : Pattern) (s : State) : (judgeMask segment mask s).1.desk = s.desk := by
  unfold judgeMask
  split <;> rfl

theorem judgeDropLimit_desk (lane limit : Nat) (s : State) : (judgeDropLimit lane limit s).1.desk = s.desk := by
  unfold judgeDropLimit
  repeat' split
  all_goals rfl

theorem judgeUnderrun_desk (limit : Nat) (s : State) : (judgeUnderrun limit s).1.desk = s.desk := by
  unfold judgeUnderrun
  split <;> rfl

theorem judgePacking_desk (order : Option PackingOrder) (s : State) : (judgePacking order s).1.desk = s.desk := by
  unfold judgePacking
  repeat' split
  all_goals rfl

/-! ### Commands that change the desk -/

/-- The oldest record taken leaves the others, in order (R143). -/
theorem judgeTake_serves (s : State) : Serves s (judgeTake s) := by
  cases records : s.thread.defects with
  | nil =>
    rw [judgeTake_none records]
    exact .of_desk rfl
  | cons d rest =>
    rw [judgeTake_oldest records]
    refine ⟨fun law _ => law.with_defects (d := s.desk) (defects := rest) ?_, rfl, fun _ => rfl⟩
    have fit : DefectsFit (d :: rest) := records ▸ law.defects
    exact ⟨(Nat.le_succ _).trans fit.length, fit.distinct.tail⟩

/-- A segment count taken is in range (R105). -/
theorem judgeCount_serves (n : Nat) (s : State) : Serves s (judgeCount n s) := by
  unfold judgeCount
  split
  · exact .of_desk rfl
  · rename_i inRange
    simp only [Bool.or_eq_true, decide_eq_true_eq, not_or, Nat.not_lt] at inRange
    split
    · have desk : (takeSegmentCount n s).desk = { s.desk with segmentCount := n } := by
        rw [takeSegmentCount_eq]
        rfl
      refine ⟨fun law _ => ?_, congrArg Desk.answers desk, fun _ => congrArg Desk.reserved desk⟩
      change (takeSegmentCount n s).desk.Lawful
      rw [desk]
      exact { law with count := inRange }
    · exact .of_desk rfl

/-- HALT of a moving line (R78, R79). -/
theorem judgeHalt_serves (s : State) : Serves s (judgeHalt s) := by
  have halts : Serves s (replyWith .done [(haltLine .command s).line.state.statusByte] (haltLine .command s)) := by
    refine ⟨fun law _ => haltLine_kept .command s law, ?_, fun _ => ?_⟩ <;>
      simp only [replyWith, haltLine] <;> split <;> rfl
  unfold judgeHalt
  split
  case h_1 | h_2 => exact halts
  all_goals exact .of_desk rfl

/-- A resumed line takes strokes (R80, R88). -/
theorem resume_takesStrokes (w : ResumeState) : w.lineState.takesStrokes = true := by cases w <;> rfl

/-- RESUME takes the line to where it halted, with the stroke queue empty (R80, R89). -/
theorem judgeResume_serves (s : State) : Serves s (judgeResume s) := by
  unfold judgeResume
  split
  · rename_i cause resume halted
    split
    · exact .of_desk rfl
    · refine ⟨fun law _ => ?_, rfl, fun _ => rfl⟩
      have notIdle : s.line.state ≠ .idle := by simp [halted]
      have noTest : s.line.state ≠ .looptest := by simp [halted]
      have takes := resume_takesStrokes resume
      exact law.with_line (d := s.desk) (line := resume.lineState) noTest (noTest_of_takes takes)
        (fun waits => absurd waits (by simp [law.alone notIdle noTest])) fun no => absurd takes (by simp [no])
  all_goals exact .of_desk rfl

/-- LINE_RESET empties the stroke and marker queues and leaves the line in IDLE (R58, R82, R89). -/
theorem lineReset_serves (s : State) : Serves s (reply .done (resetLine s)) := by
  refine ⟨fun law can => ?_, rfl, fun _ => rfl⟩
  have emptied := (law.with_strokes (strokes := []) (Nat.zero_le _)).with_markers (markers := []) (Nat.zero_le _)
  exact emptied.with_line (line := .idle) (law.noTest_of_canExecute can) (by simp) (fun _ => rfl) fun _ => rfl

/-- What an accepted RUN may change: the line and the pending panel as given, fault mask and rethread set as R135 says,
lane contexts and last laterals. -/
theorem startRun_only (p : PanelProgram) (s : State) :
    OnlyStops
      (releaseRethreaded
        { s with
          stager.pendingPanel := none
          line := { state := .running, program := some { role := .active, panel := p }, position := 0, seam := 0,
                    serial := s.line.serial + 1 } })
      (startRun p s) :=
  panelStart_only p 0
    { s with
      stager.pendingPanel := none
      line.program := some { role := .active, panel := p }
      line.seam := 0
      line.state := .running }

theorem startRun_mgmt (p : PanelProgram) (s : State) : (startRun p s).mgmt = s.mgmt := by
  obtain ⟨_, _, h⟩ := startRun_only p s
  rw [h]
  rfl

theorem startRun_desk (p : PanelProgram) (s : State) : (startRun p s).desk = { s.desk with line := .running } :=
  (startRun_only p s).desk

/-- An accepted RUN finds no index waiting any more: one that was due has been served (R68, R85; log entry 8). -/
theorem judgeRun_serves (s : State) : Serves s (judgeRun s) := by
  unfold judgeRun
  split
  · exact .of_desk rfl
  · split
    · exact .of_desk rfl
    · rename_i idle
      replace idle : s.line.state = .idle := not_not.mp idle
      split
      · exact .of_desk rfl
      · rename_i p _
        obtain ⟨line, -, -, -, -, answers, reserved, -⟩ := serveWaited_idle idle
        dsimp only [replyWith]
        refine ⟨fun law _ => ?_, by rw [startRun_mgmt, answers], fun _ => by rw [startRun_mgmt, reserved]⟩
        have served := serveWaited_kept s law
        have alone := serveWaited_alone law idle
        rw [startRun_desk]
        exact served.with_line (by simp [State.desk, line, idle]) (by simp)
          (fun waits => absurd waits (by simp [State.desk, alone])) (by simp [LineState.takesStrokes])

/-- An accepted LOOP_TEST at the front of the queue takes the claim, the reserved place and, when it is FREE, the
transmitter (R84, R89, R123, R173). -/
theorem startLoopTest_lawful {s : State} (law : s.desk.Lawful) (idle : s.line.state = .idle)
    (alone : s.head.waiting = false) (room : s.mgmt.answers.length + 1 ≤ Config.answerCapacity) {c : Command}
    (front : s.mgmt.commands.head? = some c) (code : c.code = 0x24) : (startLoopTest s).desk.Lawful := by
  have noTest : s.line.state ≠ .looptest := by simp [idle]
  have claimed (tx : HeadTx) (busy : tx ≠ .free) (slots : ∀ t, tx = .loop (some t) → t.passed.length < t.count) :
      Desk.Lawful { s.desk with tx := tx, line := .looptest, strokes := [], claim := true, reserved := true } :=
    { law with
      reserved := by simp
      claim := by simp
      looped := fun _ => rfl
      busy := fun _ => busy
      front := fun _ => ⟨c, front, code⟩
      waiting := fun _ => .inr rfl
      clear := fun waits => absurd waits (by simp [State.desk, alone])
      slots := slots
      strokes := Nat.zero_le _
      noStroke := fun _ => rfl
      answers := room }
  cases tx : s.head.tx with
  | free =>
    rw [startLoopTest_free tx]
    refine claimed (.loop (some { count := s.head.segmentCount, passed := [] })) (by simp) fun t same => ?_
    obtain rfl := Option.some.inj (HeadTx.loop.inj same)
    exact law.count.1
  | sending f =>
    rw [startLoopTest_busy (.inl ⟨f, tx⟩)]
    exact claimed s.head.tx (by simp [tx]) (by simp [tx])
  | window received =>
    rw [startLoopTest_busy (.inr ⟨received, tx⟩)]
    exact claimed s.head.tx (by simp [tx]) (by simp [tx])
  | loop test => exact absurd (law.looped (by simp [State.desk, tx, HeadTx.inLoop])) noTest

theorem judgeLoopTest_serves {s : State} {c : Command} {rest : List Command} (front : s.mgmt.commands = c :: rest)
    (code : c.code = 0x24) : Serves s (judgeLoopTest s) := by
  unfold judgeLoopTest
  split
  · rename_i idle
    obtain ⟨line, -, -, -, commands, answers, reserved, -⟩ := serveWaited_idle idle
    refine ⟨fun law can => ?_, ?_, fun answered => absurd rfl answered⟩
    · obtain ⟨room, unreserved⟩ := canExecute_split can
      have free : s.mgmt.answers.length + 1 ≤ Config.answerCapacity := by
        simpa [State.answerRoom, unreserved] using room
      exact startLoopTest_lawful (serveWaited_kept s law) (line ▸ idle) (serveWaited_alone law idle)
        (by rw [answers]; exact free) (by rw [commands, front]; rfl) code
    · exact (congrArg Outgoing.answers (congrArg Accounts.outgoing (beginLoopedFrame_accounts _))).trans answers
  · exact .of_desk rfl

/-! ### Every command -/

/-- An effect that changes nothing. -/
theorem Serves.of_state {s : State} {e : Effect} (same : e.1 = s) : Serves s e := .of_desk (congrArg State.desk same)

/-- Every command keeps the law of the loop test and the capacities of the queues. -/
theorem exec_kept {i : Instr} {s t : State} (h : exec i s = .next t) : DeskKept s t := by
  cases i with
  | powerOnReset =>
    cases h
    exact fun _ => DeskKept.of_desk (s := State.reset) rfl ((desk_lawful_iff _).mpr ⟨reset_loopLaw, reset_queueLaw⟩)
  | shaftIndex => cases h; exact takeIndex_kept s
  | waitedShaftIndex => cases h; exact serveWaited_kept s
  | outboundComplete => cases h; exact outboundComplete_kept s
  | returnSlot position slot => cases h; exact returnArrives_kept position slot s
  | returnWindowExpiry => cases h; exact windowExpires_kept s
  | loopedFrameBegin => cases h; exact beginLoopedFrame_kept s
  | testSlot slot => cases h; exact testSlotArrives_kept slot s
  | receivedByte data stop => cases h; exact byteArrives_kept data stop s
  | cellGap => cases h; exact .of_desk (gapPasses_desk s)
  | strokeCell payload => cases h; exact strokeArrives_kept payload s
  | commandCell command => cases h; exact commandArrives_kept command s
  | breakBegin => cases h; exact breakBegins_kept s
  | breakEnd => cases h; exact .of_desk (breakEnds_desk s)
  | returnToMark => cases h; exact .of_desk (markReturns_desk s)
  | transmitterFree => cases h; exact DeskKept.trans (t := { s with link.tx := none }) (.of_desk rfl) (arbitrate_kept _)
  | unknownCommand => cases h; exact executeFront_kept fun _ _ _ _ => .of_desk rfl
  | defineMotif => cases h; exact lengthCommand_kept fun _ => .of_desk (judgeDefine_desk _ _ _ _ _ s)
  | undefineMotif => cases h; exact lengthCommand_kept fun _ => .of_desk (judgeUndefine_desk _ s)
  | loadPartFragment0 => cases h; exact lengthCommand_kept fun args => .of_desk (loadFragment0_desk args s)
  | loadPartFragment1 => cases h; exact lengthCommand_kept fun args => .of_desk (loadFragment1_desk args s)
  | loadPartFragment2 => cases h; exact lengthCommand_kept fun args => .of_desk (loadFragment2_desk args s)
  | loadFlush => cases h; exact lengthCommand_kept fun _ => .of_desk (judgeFlush_desk s)
  | panelBegin => cases h; exact lengthCommand_kept fun _ => .of_desk (judgeBegin_desk _ _ _ _ s)
  | panelLane => cases h; exact lengthCommand_kept fun _ => .of_desk (judgeLane_desk _ s)
  | panelCommit => cases h; exact lengthCommand_kept fun _ => .of_desk (judgeCommit_desk s)
  | panelDiscard => cases h; exact lengthCommand_kept fun _ => .of_desk (judgeDiscard_desk s)
  | run => cases h; exact lengthCommand_kept fun _ => judgeRun_serves s
  | halt => cases h; exact lengthCommand_kept fun _ => judgeHalt_serves s
  | resume => cases h; exact lengthCommand_kept fun _ => judgeResume_serves s
  | lineReset => cases h; exact lengthCommand_kept fun _ => lineReset_serves s
  | loopTest =>
    cases h
    refine executeFront_kept fun c rest front isRow => ?_
    unfold withLength
    split
    · exact judgeLoopTest_serves front (eq_of_beq isRow)
    · exact .of_desk rfl
  | laneHold => cases h; exact lengthCommand_kept fun _ => .of_desk (judgeHold_desk _ s)
  | laneRelease => cases h; exact lengthCommand_kept fun _ => .of_desk (judgeRelease_desk _ s)
  | laneStop => cases h; exact lengthCommand_kept fun _ => .of_desk (judgeStop_desk _ s)
  | segmentRestore => cases h; exact lengthCommand_kept fun _ => .of_desk (judgeRestore_desk _ s)
  | needleRelease => cases h; exact lengthCommand_kept fun _ => .of_desk (judgeNeedle_desk _ s)
  | takeDefect => cases h; exact lengthCommand_kept fun _ => judgeTake_serves s
  | clearCounts => cases h; exact lengthCommand_kept fun _ => .of_desk rfl
  | setLaneMapEntry => cases h; exact itemCommand_kept fun _ => .of_desk (judgeLaneMap_desk _ _ s)
  | setSegmentCount => cases h; exact itemCommand_kept fun _ => judgeCount_serves _ s
  | setOperatorMask => cases h; exact itemCommand_kept fun _ => .of_desk (judgeMask_desk _ _ s)
  | setDropLimit => cases h; exact itemCommand_kept fun _ => .of_desk (judgeDropLimit_desk _ _ s)
  | setUnderrunLimit => cases h; exact itemCommand_kept fun _ => .of_desk (judgeUnderrun_desk _ s)
  | setPackingOrder => cases h; exact itemCommand_kept fun _ => .of_desk (judgePacking_desk _ s)
  | readLane => cases h; exact itemCommand_kept fun _ => .of_state (judgeReadLane_state _ s)
  | readSegment => cases h; exact itemCommand_kept fun _ => .of_state (judgeReadSegment_state _ s)
  | readMotif => cases h; exact itemCommand_kept fun _ => .of_state (judgeReadMotif_state _ s)
  | readRecord => cases h; exact itemCommand_kept fun _ => .of_state (judgeReadRecord_state _ _ s)
  | readPanel => cases h; exact itemCommand_kept fun _ => .of_state (judgeReadPanel_state _ _ s)
  | readConfig => cases h; exact itemCommand_kept fun _ => .of_state (judgeReadConfig_state _ s)
  | readLine | readDefects | readAttention | readCounts | readAssembler =>
    cases h
    exact itemCommand_kept fun _ => .of_desk rfl

/-- Settles O55: the two laws are the lawfulness of the desk, and a step idles or executes a command that keeps it. -/
theorem stepKeepsLoopAndQueueLaws : Obligations.StepKeepsLoopAndQueueLaws := by
  intro s t loop queue h
  have law : s.desk.Lawful := (desk_lawful_iff s).mpr ⟨loop, queue⟩
  rw [← desk_lawful_iff]
  rcases step_cases h with rfl | ⟨i, rest, -, h⟩
  · exact law
  · exact DeskKept.trans (t := s.withPending rest) (.of_desk rfl) (exec_kept h) law

end Sys2Proof.Machine
end

section
/-! The words of composed and repeated frames, the kind of frame an index forms, and what forming a frame records of each
segment and each lane (sections 3.5, 5.2, 6.2). -/

namespace Sys2Proof.Machine

open Sys2Proof

section

variable {s : State} {g : Fin 16} {l : Fin 8}

/-! ### The output of a lane, by its state (R52 to R55) -/

theorem laneOutput_sewing {st : Store} {c : LaneContext} (sewing : c.state = .sewing) :
    laneOutput st c = sewingOutput c (st.recordAt c.motif c.recordIndex) := by
  simp only [laneOutput, sewing]

theorem laneOutput_vacant {st : Store} {c : LaneContext} (vacant : c.state = .vacant) : laneOutput st c = none := by
  simp only [laneOutput, vacant]

theorem laneOutput_resting {st : Store} {c : LaneContext} (rests : c.state = .held ∨ c.state = .finished) :
    laneOutput st c = some { lateral := none, engage := 0, tension := c.tension, lock := false, park := true } := by
  rcases rests with held | finished
  · simp only [laneOutput, held]
  · simp only [laneOutput, finished]

theorem laneOutput_stopped {st : Store} {c : LaneContext} {k : StopCause} (stopped : c.state = .stopped k) :
    laneOutput st c = some { lateral := some 0, engage := 0, tension := c.tension, lock := false, park := true } := by
  simp only [laneOutput, stopped]

/-! ### The word of a composed frame (R107) -/

theorem composedWord_unmapped (unmapped : s.composer.laneMap[g] = none) : s.composedWord g = parked 0 := by
  simp only [State.composedWord, unmapped]
  rfl

theorem composedWord_output (mapped : s.composer.laneMap[g] = some l) {o : LaneOutput}
    (output : laneOutput s.store (s.lane l) = some o) : s.composedWord g = s.wordOfOutput g o := by
  simp only [State.composedWord, mapped, output]

theorem composedWord_silent (mapped : s.composer.laneMap[g] = some l) (silent : laneOutput s.store (s.lane l) = none) :
    s.composedWord g = parked s.composer.lastLateral[g] := by
  simp only [State.composedWord, mapped, silent]
  rfl

/-- A pattern of none, filtered. -/
theorem wordOfOutput_parked {o : LaneOutput} (none : o.engage = 0) (s : State) (g : Fin 16) :
    s.wordOfOutput g o =
      { lateral := o.lateral.getD s.composer.lastLateral[g], engage := 0, tension := o.tension, lock := o.lock,
        park := o.park } := by
  simp [State.wordOfOutput, none]

theorem composedWord_resting (mapped : s.composer.laneMap[g] = some l)
    (rests : (s.lane l).state = .held ∨ (s.lane l).state = .finished) :
    s.composedWord g =
      { lateral := s.composer.lastLateral[g], engage := 0, tension := (s.lane l).tension, lock := false, park := true } := by
  rw [composedWord_output mapped (laneOutput_resting rests), wordOfOutput_parked rfl]
  rfl

theorem composedWord_stopped (mapped : s.composer.laneMap[g] = some l) {k : StopCause}
    (stopped : (s.lane l).state = .stopped k) :
    s.composedWord g =
      { lateral := 0, engage := 0, tension := (s.lane l).tension, lock := false, park := true } := by
  rw [composedWord_output mapped (laneOutput_stopped stopped), wordOfOutput_parked rfl]
  rfl

/-- The word of a SEWING lane's segment is that of the record the lane stands on. -/
theorem composedWord_sewing (mapped : s.composer.laneMap[g] = some l) (sewing : (s.lane l).state = .sewing)
    {r : Record} (stands : s.store.recordAt (s.lane l).motif (s.lane l).recordIndex = r) {o : LaneOutput}
    (output : sewingOutput (s.lane l) r = some o) : s.composedWord g = s.wordOfOutput g o :=
  composedWord_output mapped (by rw [laneOutput_sewing sewing, stands, output])

/-! ### The word of a repeated frame (R112, R113) -/

theorem repeatedWord_unmapped (unmapped : s.composer.laneMap[g] = none) : s.repeatedWord g = parked 0 := by
  simp only [State.repeatedWord, unmapped]
  rfl

theorem repeatedWord_not_sewing (mapped : s.composer.laneMap[g] = some l) (rests : (s.lane l).state ≠ .sewing) :
    s.repeatedWord g = s.composedWord g := by
  unfold State.repeatedWord
  cases state : (s.lane l).state with
  | sewing => exact absurd state rests
  | vacant | standby | held | finished | stopped _ => simp only [mapped, state]

theorem repeatedWord_sewing (mapped : s.composer.laneMap[g] = some l) (sewing : (s.lane l).state = .sewing) :
    s.repeatedWord g = { s.previousWord g with engage := (s.previousWord g).engage &&& s.mayEngage g } := by
  simp only [State.repeatedWord, mapped, sewing]

theorem previousWord_some {w : SegWord} (previous : s.composer.previousWords[g] = some w) : s.previousWord g = w := by
  rw [State.previousWord, previous, Option.getD_some]

theorem previousWord_none (previous : s.composer.previousWords[g] = none) :
    s.previousWord g = parked s.composer.lastLateral[g] := by
  rw [State.previousWord, previous, Option.getD_none]
  rfl

/-! ### The kind of frame (R91) -/

theorem frameKind_composed (running : s.line.state = .running) (queued : s.strokes.queue ≠ []) :
    s.frameKind = .composed := by
  simp [State.frameKind, running, queued]

theorem frameKind_repeated (running : s.line.state = .running) (empty : s.strokes.queue = []) :
    s.frameKind = .repeated := by
  simp [State.frameKind, running, empty]

/-! ### What forming a frame records (R109, R113) -/

theorem formFrame_records (kind : FrameKind) (configured : g.val < s.head.segmentCount) :
    (formFrame kind s).composer.lastLateral[g] = (s.wordFor kind g).lateral ∧
      (formFrame kind s).composer.previousWords[g] = some (s.wordFor kind g) := by
  simp [formFrame, configured]

theorem formFrame_unconfigured (kind : FrameKind) (above : s.head.segmentCount ≤ g.val) :
    (formFrame kind s).composer.lastLateral[g] = s.composer.lastLateral[g] ∧
      (formFrame kind s).composer.previousWords[g] = none := by
  simp [formFrame, Nat.not_lt.mpr above]

/-! ### The taking of the outputs (R54, R55) -/

theorem isLock_iff (r : Record) : r.isLock = true ↔ ∃ target span engage width, r = .lock target span engage width := by
  cases r <;> simp [Record.isLock]

theorem formFrame_composed_lane (s : State) (l : Fin 8) :
    (formFrame .composed s).lane l = takeOutput s.store (s.lane l) := by
  simp [formFrame, lanesTaken, State.lane]

theorem takeOutput_lock {st : Store} {c : LaneContext} (sewing : c.state = .sewing)
    (lock : (st.recordAt c.motif c.recordIndex).isLock = true) :
    takeOutput st c = { c with lockOdd := !c.lockOdd } := by
  simp [takeOutput, sewing, lock]

theorem takeOutput_other {st : Store} {c : LaneContext}
    (other : c.state ≠ .sewing ∨ (st.recordAt c.motif c.recordIndex).isLock = false) : takeOutput st c = c := by
  rcases other with rests | noLock
  · simp [takeOutput, rests]
  · simp [takeOutput, noLock]

/-- Only a composed frame takes the outputs (R52). -/
theorem formFrame_lanes {kind : FrameKind} (untaken : kind ≠ .composed) (s : State) :
    (formFrame kind s).engine.lanes = s.engine.lanes := by
  cases kind with
  | composed => exact absurd rfl untaken
  | repeated | park => rfl

end

/-- Settles O11: the words by the state of the segment's lane, the kind of the frame by the line and the stroke queue, and
what forming it records. -/
theorem repeatedWordsAndRecordedLaterals : Obligations.RepeatedWordsAndRecordedLaterals := by
  intro s kind g
  refine ⟨repeatedWord_unmapped, fun l => repeatedWord_not_sewing, fun l w mapped sewing previous => ?_,
    fun l mapped sewing previous => ?_, formFrame_records kind, formFrame_unconfigured kind, frameKind_composed,
    frameKind_repeated, frameKind_park, rfl, rfl, parkWord_eq s g, composedWord_unmapped, fun l mapped => ?_, fun p => ?_,
    fun l => ⟨fun sewing lock => ?_, fun other => ?_⟩, fun untaken => formFrame_lanes untaken s⟩
  · rw [repeatedWord_sewing mapped sewing, previousWord_some previous]
  · rw [repeatedWord_sewing mapped sewing, previousWord_none previous]
    simp [parked]
  · refine ⟨fun vacant => composedWord_silent mapped (laneOutput_vacant vacant), composedWord_resting mapped,
      fun k => composedWord_stopped mapped, fun sewing => ⟨fun target span engage tension move => ?_,
        fun target span jump => ?_, fun target span engage width lock => ?_⟩⟩
    · exact composedWord_sewing mapped sewing move rfl
    · rw [composedWord_sewing mapped sewing jump rfl, wordOfOutput_parked rfl]
      rfl
    · exact composedWord_sewing mapped sewing lock rfl
  · rw [mayEngage_bit]
    exact and_iff_right p.isLt
  · rw [formFrame_composed_lane, takeOutput_lock sewing ((isLock_iff _).mpr lock)]
  · rw [formFrame_composed_lane, takeOutput_other]
    refine other.imp_right fun noLock => Bool.eq_false_iff.mpr fun lock => ?_
    obtain ⟨target, span, engage, width, stands⟩ := (isLock_iff _).mp lock
    exact noLock target span engage width stands

end Sys2Proof.Machine
end

section
/-! The stroke and the REPORT of a served index (sections 5.2 to 5.4): in IDLE and HALTED no stroke, in RUNNING and
CHANGEOVER a dwell or a stroke consumed. -/

namespace Sys2Proof.Machine

open Sys2Proof

/-! ### A served index told by its stroke -/

section

variable (s : State)

theorem serveIndex_line : (serveIndex s).line = s.strokeOutcome.state.line := by rw [serveIndex_result]

theorem serveIndex_stager : (serveIndex s).stager = s.strokeOutcome.state.stager := by rw [serveIndex_result]

theorem serveIndex_store : (serveIndex s).store = s.strokeOutcome.state.store := by rw [serveIndex_result]

theorem serveIndex_lanes : (serveIndex s).engine.lanes = s.strokeOutcome.state.engine.lanes := by
  rw [serveIndex_result]

theorem serveIndex_lane (l : Fin 8) : (serveIndex s).lane l = s.strokeOutcome.state.lane l :=
  lane_of_lanes (serveIndex_lanes s) l

theorem serveIndex_composer : (serveIndex s).composer = s.strokeOutcome.state.composer := by rw [serveIndex_result]

theorem serveIndex_thread : (serveIndex s).thread = s.strokeOutcome.state.thread := by rw [serveIndex_result]

theorem serveIndex_latches : (serveIndex s).mgmt.latches = s.strokeOutcome.state.mgmt.latches := by
  rw [serveIndex_result]

/-- The stroke queue and the underrun counts are as the stroke leaves them; the report slot is the REPORT's. -/
theorem serveIndex_strokes :
    ∃ slot, (serveIndex s).strokes = { s.strokeOutcome.state.strokes with slot := slot } := by
  rw [serveIndex_result]
  exact ⟨_, rfl⟩

theorem serveIndex_markers : (serveIndex s).engine.markers = s.strokeOutcome.state.engine.markers.drop 8 := by
  rw [serveIndex_result]

theorem indexReport_markers : s.indexReport.markers = s.strokeOutcome.state.engine.markers.take 8 := rfl

theorem indexReport_strokeSerial : s.indexReport.strokeSerial = s.strokeOutcome.serial := rfl

theorem indexReport_dwell : s.indexReport.dwell = s.strokeOutcome.dwell := rfl

end

/-! ### IDLE and HALTED (R97) -/

/-- An index served in IDLE or HALTED leaves the stroke queue, its counts and its limit. -/
theorem serveIndex_still_strokes {s : State} (still : s.line.state = .idle ∨ s.line.state.isHalted = true) :
    ∃ slot, (serveIndex s).strokes = { s.strokes with slot := slot } := by
  obtain ⟨slot, strokes⟩ := serveIndex_strokes s
  rw [strokeOutcome_still still] at strokes
  exact ⟨slot, strokes.trans (by rw [(formed_keeps s).2.2.2.1])⟩

/-- It takes its markers from those queued before. -/
theorem serveIndex_still_markers {s : State} (still : s.line.state = .idle ∨ s.line.state.isHalted = true) :
    (serveIndex s).engine.markers = s.engine.markers.drop 8 ∧ s.indexReport.markers = s.engine.markers.take 8 := by
  obtain ⟨-, -, -, -, markers⟩ := formed_keeps s
  rw [serveIndex_markers, indexReport_markers, strokeOutcome_still still]
  dsimp only
  rw [markers]
  exact ⟨rfl, rfl⟩

theorem indexReport_still {s : State} (still : s.line.state = .idle ∨ s.line.state.isHalted = true) :
    s.indexReport.strokeSerial = none ∧ s.indexReport.dwell = false := by
  rw [indexReport_strokeSerial, indexReport_dwell, strokeOutcome_still still]
  exact ⟨rfl, rfl⟩

/-- Settles O6: no stroke is applied, and the REPORT tells so. -/
theorem idleIndexConsumesNothing : Obligations.IdleIndexConsumesNothing := by
  intro s serves still
  obtain ⟨line, stager, store, queue, -⟩ := serveIndex_still still
  obtain ⟨slot, strokes⟩ := serveIndex_still_strokes still
  obtain ⟨markers, taken⟩ := serveIndex_still_markers still
  obtain ⟨serial, dwell⟩ := indexReport_still still
  have tells := serveIndex_tells s
  have lanes : (serveIndex s).engine.lanes = (endWindow s).engine.lanes :=
    serveIndex_still_lanes (by rintro running; simp [running, LineState.isHalted] at still)
      (by rintro changeover; simp [changeover, LineState.isHalted] at still)
  refine ⟨serveIndex s, s.indexReport, exec_shaftIndex_served serves, line, stager, store, queue, ?_, ?_, ?_, lanes,
    markers, serveIndex_reports s, tells, tells.frame, serial, dwell, ?_, ?_, taken⟩
  · rw [strokes]
  · rw [strokes]
  · rw [strokes]
  · rw [tells.line, line]
  · rw [tells.panel, line]

/-- What a REPORT tells does not look at the waiting index. -/
theorem ReportTells.of_unwaited {s t : State} {r : Report} (h : ReportTells s.unwaited t r) : ReportTells s t r :=
  ⟨h.frame, h.line, h.panel, h.place, h.free, h.attn⟩

/-- Settles O12: the index that is due is served as one in IDLE, from the state in which none waits any more. -/
theorem waitedIndexServedInIdle : Obligations.WaitedIndexServedInIdle := by
  intro s waits unclaimed clear idle
  have still : s.unwaited.line.state = .idle ∨ s.unwaited.line.state.isHalted = true := .inl idle
  obtain ⟨line, -, -, queue, -⟩ := serveIndex_still still
  obtain ⟨slot, strokes⟩ := serveIndex_still_strokes still
  obtain ⟨-, taken⟩ := serveIndex_still_markers still
  obtain ⟨serial, dwell⟩ := indexReport_still still
  obtain ⟨-, frameSerial, -, waiting, -⟩ := serveIndex_head s.unwaited
  have tells := (serveIndex_tells s.unwaited).of_unwaited
  refine ⟨serveIndex s.unwaited, s.unwaited.servedFrame, s.unwaited.indexReport,
    congrArg Host.Outcome.next (serveWaited_due waits unclaimed clear), waiting, frameSerial,
    serveIndex_sends s.unwaited, decide_eq_true (by simp [State.unwaited, idle]), line, queue, ?_, ?_,
    serveIndex_reports s.unwaited, tells, ?_, ?_, serial, dwell, taken⟩
  · rw [strokes]
    rfl
  · rw [strokes]
    rfl
  · rw [tells.place, line]
    simp only [placeField, State.unwaited, idle]
  · rw [tells.line, line]
    exact idle

/-! ### A dwell stroke (R93 to R95) -/

theorem moving_of_resume {s : State} {w : ResumeState} (sews : s.line.state = w.lineState) :
    s.line.state = .running ∨ s.line.state = .changeover := by
  cases w with
  | running => exact .inl sews
  | changeover => exact .inr sews

/-- A state in which one more dwell stroke has been counted (R93, R95). -/
def State.dwellCounted (s : State) : State :=
  { s with
    strokes.consecutive := s.strokes.consecutive + 1
    strokes.total := saturate s.strokes.total
    mgmt.latches.underrunSeen := true }

theorem dwellStroke_below {s : State} (below : s.strokes.consecutive + 1 < s.strokes.limit) :
    dwellStroke s = s.dwellCounted := if_pos below

/-- At the limit the line halts with cause UNDERRUN, which empties the queue and clears the count (R78, R89, R94). -/
theorem dwellStroke_limit {s : State} {w : ResumeState} (limit : s.strokes.limit ≤ s.strokes.consecutive + 1)
    (sews : s.line.state = w.lineState) :
    dwellStroke s =
      { s.dwellCounted with
        line.state := .halted .underrun w, strokes.queue := [], strokes.consecutive := 0 } :=
  (if_neg (Nat.not_lt.mpr limit)).trans (haltLine_of (s := s.dwellCounted) sews .underrun)

/-- Whatever the count reaches, a dwell takes the total count up, sets UNDERRUN_SEEN and leaves lanes, markers, stager and
store. -/
theorem dwellStroke_keeps {s : State} {w : ResumeState} (sews : s.line.state = w.lineState)
    (queue : s.strokes.queue = []) :
    (dwellStroke s).strokes.queue = [] ∧ (dwellStroke s).strokes.total = saturate s.strokes.total ∧
      (dwellStroke s).mgmt.latches.underrunSeen = true ∧ (dwellStroke s).engine = s.engine ∧
      (dwellStroke s).stager = s.stager ∧ (dwellStroke s).store = s.store := by
  by_cases below : s.strokes.consecutive + 1 < s.strokes.limit
  · rw [dwellStroke_below below]
    exact ⟨queue, rfl, rfl, rfl, rfl, rfl⟩
  · rw [dwellStroke_limit (Nat.not_lt.mp below) sews]
    exact ⟨rfl, rfl, rfl, rfl, rfl, rfl⟩

theorem any_of_underrunSeen {ls : Latches} (seen : ls.underrunSeen = true) : ls.any = true := by
  simp [Latches.any, latchOrder, Latches.get, seen]

/-- With no stroke queued no output is taken: the frame is a repeated or a PARK frame (R91). -/
theorem frameKind_untaken {s : State} (untaken : s.line.state ≠ .running ∨ s.strokes.queue = []) :
    s.frameKind ≠ .composed := by
  by_cases running : s.line.state = .running
  · rw [frameKind_repeated running (untaken.resolve_left (not_not.mpr running))]
    decide
  · rw [frameKind_park running]
    decide

/-- The lanes at the stroke of an index that takes no output are as the window's end leaves them. -/
theorem formed_lanes {s : State} (untaken : s.line.state ≠ .running ∨ s.strokes.queue = []) :
    (formFrame s.frameKind (endWindow s)).engine.lanes = (endWindow s).engine.lanes :=
  formFrame_lanes (frameKind_untaken untaken) (endWindow s)

/-- Settles O8: the dwell counted, and the line as the limit has it. -/
theorem dwellStrokeCountsAndHalts : Obligations.DwellStrokeCountsAndHalts := by
  intro s w serves empty sews
  have outcome := strokeOutcome_dwell (moving_of_resume sews) empty
  obtain ⟨formedLine, formedStager, formedStore, formedStrokes, formedMarkers⟩ := formed_keeps s
  have lanes := formed_lanes (s := s) (.inr empty)
  obtain ⟨u, formed⟩ : ∃ u, u = formFrame s.frameKind (endWindow s) := ⟨_, rfl⟩
  rw [← formed] at outcome formedLine formedStager formedStore formedStrokes formedMarkers lanes
  obtain ⟨queue, total, seen, engine, stager, store⟩ :=
    dwellStroke_keeps (s := u) (w := w) (by rw [formedLine]; exact sews) (by rw [formedStrokes]; exact empty)
  have tells := serveIndex_tells s
  obtain ⟨slot, strokes⟩ := serveIndex_strokes s
  have latched : (serveIndex s).mgmt.latches.underrunSeen = true := by rw [serveIndex_latches, outcome]; exact seen
  refine ⟨serveIndex s, s.indexReport, exec_shaftIndex_served serves, ?_, ?_, latched, ?_, ?_, ?_, serveIndex_reports s,
    tells, ?_, ?_, tells.line, tells.attn.mpr (.inl (any_of_underrunSeen latched)), ?_, ?_, fun below => ?_,
    fun limit => ?_⟩
  · rw [strokes, outcome]
    exact queue
  · rw [strokes, outcome]
    exact total.trans (by rw [formedStrokes]; rfl)
  · rw [serveIndex_lanes, outcome]
    exact (congrArg Engine.lanes engine).trans lanes
  · rw [serveIndex_stager, outcome]
    exact stager.trans formedStager
  · rw [serveIndex_store, outcome]
    exact store.trans formedStore
  · rw [indexReport_dwell, outcome]
  · rw [indexReport_strokeSerial, outcome]
  · rw [indexReport_markers, outcome]
    dsimp only
    rw [engine, formedMarkers]
  · rw [serveIndex_markers, outcome]
    dsimp only
    rw [engine, formedMarkers]
  · have counted := dwellStroke_below (s := u) (by rw [formedStrokes]; exact below)
    rw [strokes, serveIndex_line, outcome]
    dsimp only
    rw [counted]
    exact ⟨formedLine, by rw [← formedStrokes]; rfl⟩
  · have halted := dwellStroke_limit (s := u) (w := w) (by rw [formedStrokes]; exact limit) (by rw [formedLine]; exact sews)
    rw [strokes, serveIndex_line, outcome]
    dsimp only
    rw [halted]
    exact ⟨by rw [← formedLine]; rfl, rfl⟩

end Sys2Proof.Machine
end

section
/-! A stroke consumed (sections 3.4, 4.3, 4.4, 5.3): the walk of the SEWING lanes short of a boundary, the seam fed, and the
changeover completed. -/

namespace Sys2Proof.Machine

open Sys2Proof

/-! ### The state a stroke finds -/

/-- The state in which the feed of a consumed stroke is delivered: the window ended, the frame formed, the stroke gone from
the queue (R91, R92). -/
def State.atFeed (s : State) (rest : List Stroke) : State :=
  { formFrame s.frameKind (endWindow s) with strokes.queue := rest, strokes.consecutive := 0 }

section

variable (s : State) (rest : List Stroke)

@[simp] theorem atFeed_line : (s.atFeed rest).line = s.line := (formed_keeps s).1

@[simp] theorem atFeed_stager : (s.atFeed rest).stager = s.stager := (formed_keeps s).2.1

@[simp] theorem atFeed_store : (s.atFeed rest).store = s.store := (formed_keeps s).2.2.1

@[simp] theorem atFeed_markers : (s.atFeed rest).engine.markers = s.engine.markers := (formed_keeps s).2.2.2.2

@[simp] theorem atFeed_thread : (s.atFeed rest).thread = (endWindow s).thread := rfl

@[simp] theorem atFeed_latches : (s.atFeed rest).mgmt.latches = (endWindow s).mgmt.latches := rfl

@[simp] theorem atFeed_laneMap : (s.atFeed rest).composer.laneMap = s.composer.laneMap := endWindow_laneMap s

theorem atFeed_strokes : (s.atFeed rest).strokes = { s.strokes with queue := rest, consecutive := 0 } := by
  rw [← (formed_keeps s).2.2.2.1]
  rfl

end

/-- In RUNNING a stroke finds the lanes with their outputs taken (R52, R54). -/
theorem atFeed_lane_running {s : State} {x : Stroke} {rest : List Stroke} (running : s.line.state = .running)
    (queue : s.strokes.queue = x :: rest) (l : Fin 8) :
    (s.atFeed rest).lane l = takeOutput s.store ((endWindow s).lane l) := by
  have kind := frameKind_composed running (by simp [queue])
  have lane := formFrame_composed_lane (endWindow s) l
  rw [endWindow_store, ← kind] at lane
  exact lane

/-- In CHANGEOVER it finds them as the window's end leaves them. -/
theorem atFeed_lanes_changeover {s : State} (changeover : s.line.state = .changeover) (rest : List Stroke) :
    (s.atFeed rest).engine.lanes = (endWindow s).engine.lanes :=
  formed_lanes (.inl (by simp [changeover]))

section

variable {s : State} {x : Stroke} {rest : List Stroke} {p : PanelProgram}

theorem strokeOutcome_fed (moving : s.line.state = .running ∨ s.line.state = .changeover)
    (queue : s.strokes.queue = x :: rest) :
    s.strokeOutcome =
      { state := deliverFeed x.feed.toNat (s.atFeed rest), serial := some x.serial, dwell := false } :=
  strokeOutcome_consumed moving queue

/-- A feed leaves the Stroke Queue block. -/
theorem deliverFeed_strokes (feed : Nat) (u : State) : (deliverFeed feed u).strokes = u.strokes := by
  obtain ⟨_, _, _, _, _, _, _, _, h⟩ := deliverFeed_only feed u
  rw [h]

/-- A stroke consumed has left the queue; the consecutive count is 0, the total count and the limit stay (R92, R94). -/
theorem serveIndex_consumed_strokes (moving : s.line.state = .running ∨ s.line.state = .changeover)
    (queue : s.strokes.queue = x :: rest) :
    ∃ slot, (serveIndex s).strokes = { s.strokes with queue := rest, consecutive := 0, slot := slot } := by
  obtain ⟨slot, strokes⟩ := serveIndex_strokes s
  refine ⟨slot, ?_⟩
  rw [strokes, strokeOutcome_fed moving queue]
  dsimp only
  rw [deliverFeed_strokes, atFeed_strokes]

theorem deliverFeed_running {u : State} (running : u.line.state = .running) (panel : u.linePanel = some p) (feed : Nat) :
    deliverFeed feed u = advance p (u.line.position + feed) (walkLanes feed u) := by
  simp only [deliverFeed, running, feedRunning, panel]

/-- A feed short of the seam is taken from it (R75). -/
theorem deliverFeed_seam {u : State} (changeover : u.line.state = .changeover) (panel : u.linePanel = some p) {feed : Nat}
    (short : feed < u.line.seam) : deliverFeed feed u = { u with line.seam := u.line.seam - feed } := by
  simp only [deliverFeed, changeover, feedChangeover, panel, if_pos short]

/-- A feed that reaches the seam completes the changeover, and the leftover advances the panel (R75, R76). -/
theorem deliverFeed_completes {u : State} (changeover : u.line.state = .changeover) (panel : u.linePanel = some p)
    {feed : Nat} (reached : u.line.seam ≤ feed) :
    deliverFeed feed u = advance p (feed - u.line.seam) (completeChangeover p (feed - u.line.seam) u) := by
  simp only [deliverFeed, changeover, feedChangeover, panel, if_neg (Nat.not_lt.mpr reached)]

theorem advance_short {position : Nat} (short : position < p.length) (u : State) :
    advance p position u = { u with line.position := position } := if_pos short

/-- A position set leaves every lane. -/
theorem moved_lane (u : State) (position : Nat) (l : Fin 8) :
    State.lane { u with line.position := position } l = u.lane l := rfl

theorem Raised.moved {raised : List Marker} {u v : State} (h : Raised raised u v) (position : Nat) :
    Raised raised u { v with line.position := position } := ⟨h.markers, h.lost⟩

theorem linePanel_of_line {u v : State} (line : v.line = u.line) : v.linePanel = u.linePanel := by
  rw [State.linePanel, line]
  rfl

end

/-! ### Short of the boundary (R45, R49, R51, R72) -/

/-- A walk tells of a lane that a stop by LOOP_FAULT is the walk's own work. -/
theorem walkedBy_of_sewing {c : LaneContext} (sewing : c.state = .sewing) (st : Store) (feed : Nat) :
    walkedBy st feed c = walkLane st feed c := if_pos sewing

/-- The markers of an index that raised some: the REPORT takes the oldest 8 (R58, R59). -/
theorem serveIndex_raised {s : State} {rest : List Stroke} {raised : List Marker}
    (h : Raised raised (s.atFeed rest) s.strokeOutcome.state) :
    s.indexReport.markers = (queued s.engine.markers raised).take 8 ∧
      (serveIndex s).engine.markers = (queued s.engine.markers raised).drop 8 ∧
      ((serveIndex s).mgmt.latches.markerLost = true ↔
        (endWindow s).mgmt.latches.markerLost = true ∨ markersLost s.engine.markers raised) := by
  obtain ⟨markers, lost⟩ := h
  rw [atFeed_markers] at markers lost
  rw [atFeed_latches] at lost
  rw [indexReport_markers, serveIndex_markers, serveIndex_latches, markers]
  exact ⟨rfl, rfl, lost⟩

/-! ### The changeover completed (R41 to R43, R75, R135) -/

/-- The state in which the panel of a completed changeover starts: ACTIVE, the line RUNNING, no seam left (R75). -/
def State.completing (p : PanelProgram) (s : State) : State :=
  { s with line.seam := 0, line.program := some { role := .active, panel := p }, line.state := .running }

theorem completeChangeover_eq (p : PanelProgram) (leftover : Nat) (s : State) :
    completeChangeover p leftover s = walkLanes leftover (panelStart p leftover (s.completing p)) := rfl

theorem completeChangeover_line (p : PanelProgram) (leftover : Nat) (s : State) :
    (completeChangeover p leftover s).line =
      { state := .running, program := some { role := .active, panel := p }, position := leftover, seam := 0,
        serial := s.line.serial + 1 } := by
  rw [completeChangeover_eq, (walkLanes_only _ _).line.1, (panelStart_line p leftover _).1]
  rfl

/-- The lanes are as the panel start leaves them, the SEWING ones walked by the leftover. -/
theorem completeChangeover_lane (p : PanelProgram) (leftover : Nat) (s : State) (l : Fin 8) :
    (completeChangeover p leftover s).lane l = (walkedBy s.store leftover (s.startedLane p l)).1 := by
  rw [completeChangeover_eq, walkLanes_walkedBy, panelStart_lane, (panelStart_line p leftover _).2.2]
  rfl

/-- The panel start raises no marker, the walk by the leftover its own (R42, R43). -/
theorem completeChangeover_raised (p : PanelProgram) (leftover : Nat) (s : State) :
    Raised (raisedBy s.store leftover fun l => s.startedLane p l) s (completeChangeover p leftover s) := by
  have started : Raised [] s (panelStart p leftover (s.completing p)) :=
    ⟨(panelStart_raised p leftover (s.completing p)).markers, (panelStart_raised p leftover (s.completing p)).lost⟩
  have walked := walkLanes_raised leftover (panelStart p leftover (s.completing p))
  have lanes : (panelStart p leftover (s.completing p)).lane = fun l => s.startedLane p l :=
    funext fun l => panelStart_lane p leftover (s.completing p) l
  rw [lanes, (panelStart_line p leftover _).2.2] at walked
  exact started.trans walked

/-- Needles in both the fault mask and the rethread set leave both (R135). -/
theorem completeChangeover_thread (p : PanelProgram) (leftover : Nat) (s : State) :
    (completeChangeover p leftover s).thread = (releaseRethreaded s).thread := by
  obtain ⟨_, _, _, walked⟩ := walkLanes_only leftover (panelStart p leftover (s.completing p))
  obtain ⟨_, _, started⟩ := panelStart_only p leftover (s.completing p)
  rw [completeChangeover_eq, walked, started]
  rfl

theorem releaseRethreaded_sets (s : State) (g : Fin 16) :
    (releaseRethreaded s).thread.faultMask[g] = s.thread.faultMask[g] &&& ~~~s.thread.rethread[g] ∧
      (releaseRethreaded s).thread.rethread[g] = s.thread.rethread[g] &&& ~~~s.thread.faultMask[g] ∧
      (releaseRethreaded s).thread.presence = s.thread.presence := by
  simp [releaseRethreaded]

/-! ### Lanes started from like states (R41, R146, R147) -/

/-- What the lost needles of a lane are counted from is the same in both states. -/
structure SameNeedles (s t : State) : Prop where
  thread   : t.thread = s.thread
  segments : t.head.segments = s.head.segments
  count    : t.head.segmentCount = s.head.segmentCount
  laneMap  : t.composer.laneMap = s.composer.laneMap

theorem SameNeedles.reachesLimit {s t : State} (h : SameNeedles s t) (l : Fin 8) :
    (releaseRethreaded t).reachesLimit l ↔ (releaseRethreaded s).reachesLimit l := by
  obtain ⟨thread, segments, count, laneMap⟩ := h
  have lost : (releaseRethreaded t).lostCount l = (releaseRethreaded s).lostCount l :=
    Finset.sum_congr rfl fun g _ => Finset.sum_congr rfl fun q _ =>
      if_congr (by simp only [releaseRethreaded, thread, segments, count, laneMap]) rfl rfl
  have limit (u : State) : (releaseRethreaded u).thread.dropLimit = u.thread.dropLimit := rfl
  simp only [State.reachesLimit, lost, limit, thread]

theorem SameNeedles.startedLane {s t : State} (h : SameNeedles s t) (store : t.store = s.store) (p : PanelProgram)
    {l : Fin 8} (lane : t.lane l = s.lane l) : t.startedLane p l = s.startedLane p l := by
  unfold State.startedLane
  rw [store, lane]
  cases p.assignmentOf l with
  | none => rfl
  | some a => exact if_congr (and_congr_right fun _ => h.reachesLimit l) rfl rfl

/-- The state a stroke finds counts the needles that the window's end leaves. -/
theorem atFeed_sameNeedles (s : State) (rest : List Stroke) : SameNeedles (endWindow s) (s.atFeed rest) :=
  ⟨rfl, rfl, rfl, rfl⟩

/-! ### O7 -/

section

variable {s : State} {x : Stroke} {rest : List Stroke} {p : PanelProgram}

/-- In RUNNING short of the boundary. -/
theorem strokeOutcome_walks (queue : s.strokes.queue = x :: rest) (panel : s.linePanel = some p)
    (running : s.line.state = .running) (short : s.line.position + x.feed.toNat < p.length) :
    s.strokeOutcome.state =
      { walkLanes x.feed.toNat (s.atFeed rest) with line.position := s.line.position + x.feed.toNat } := by
  rw [strokeOutcome_fed (.inl running) queue]
  dsimp only
  rw [deliverFeed_running (by rw [atFeed_line]; exact running) ((linePanel_of_line (atFeed_line s rest)).trans panel),
    atFeed_line, advance_short short]

/-- In CHANGEOVER short of the seam. -/
theorem strokeOutcome_feedsSeam (queue : s.strokes.queue = x :: rest) (panel : s.linePanel = some p)
    (changeover : s.line.state = .changeover) (short : x.feed.toNat < s.line.seam) :
    s.strokeOutcome.state = { s.atFeed rest with line.seam := s.line.seam - x.feed.toNat } := by
  rw [strokeOutcome_fed (.inr changeover) queue]
  dsimp only
  rw [deliverFeed_seam (by rw [atFeed_line]; exact changeover)
    ((linePanel_of_line (atFeed_line s rest)).trans panel) (by rw [atFeed_line]; exact short), atFeed_line]

/-- In CHANGEOVER, the seam spent and the panel's length not reached. -/
theorem strokeOutcome_completes (queue : s.strokes.queue = x :: rest) (panel : s.linePanel = some p)
    (changeover : s.line.state = .changeover) (reached : s.line.seam ≤ x.feed.toNat)
    (short : x.feed.toNat - s.line.seam < p.length) :
    s.strokeOutcome.state = completeChangeover p (x.feed.toNat - s.line.seam) (s.atFeed rest) := by
  have line := completeChangeover_line p (x.feed.toNat - s.line.seam) (s.atFeed rest)
  rw [strokeOutcome_fed (.inr changeover) queue]
  dsimp only
  rw [deliverFeed_completes (by rw [atFeed_line]; exact changeover)
    ((linePanel_of_line (atFeed_line s rest)).trans panel) (by rw [atFeed_line]; exact reached), atFeed_line,
    advance_short short, line]
  dsimp only
  rw [← line]

end

/-- Settles O7: the queue and counts whatever the line does, and then the three ways a stroke short of a boundary goes. -/
theorem consumedStrokeMovesLine : Obligations.ConsumedStrokeMovesLine := by
  intro s x rest p serves queue panel moving
  have outcome := strokeOutcome_fed moving queue
  obtain ⟨slot, strokes⟩ := serveIndex_consumed_strokes moving queue
  have tells := serveIndex_tells s
  refine ⟨serveIndex s, s.indexReport, exec_shaftIndex_served serves, by rw [strokes], by rw [strokes], by rw [strokes],
    by rw [strokes], serveIndex_reports s, tells, by rw [indexReport_strokeSerial, outcome],
    by rw [indexReport_dwell, outcome], tells.line, tells.panel, fun running short => ?_, fun changeover short => ?_,
    fun changeover reached short => ?_⟩
  · have walked := strokeOutcome_walks queue panel running short
    have taken := atFeed_lane_running running queue
    obtain ⟨line, stager⟩ := (walkLanes_only x.feed.toNat (s.atFeed rest)).line
    have store := (walkLanes_only x.feed.toNat (s.atFeed rest)).store
    have lane (l : Fin 8) : (serveIndex s).lane l =
        (walkedBy s.store x.feed.toNat (takeOutput s.store ((endWindow s).lane l))).1 := by
      rw [serveIndex_lane, walked, moved_lane, walkLanes_walkedBy, taken, atFeed_store]
    have lateral (g : Fin 16) := walkLanes_lastLateral x.feed.toNat (s.atFeed rest) g
    have raised := walkLanes_raised x.feed.toNat (s.atFeed rest)
    simp only [taken, atFeed_laneMap, atFeed_store] at lateral
    rw [funext taken, atFeed_store] at raised
    refine ⟨?_, ?_, ?_, lane, fun g l mapped sewing stopped => ?_, fun g kept => ?_,
      serveIndex_raised (rest := rest) (by rw [walked]; exact raised.moved _)⟩
    · rw [serveIndex_line, walked]
      dsimp only
      rw [line, atFeed_line]
    · rw [serveIndex_stager, walked]
      dsimp only
      rw [stager, atFeed_stager]
    · rw [serveIndex_store, walked]
      dsimp only
      rw [store, atFeed_store]
    · rw [serveIndex_composer, walked]
      dsimp only
      rw [lateral, if_pos]
      rw [lane, walkedBy_of_sewing sewing] at stopped
      exact ⟨l, mapped, sewing, stopped⟩
    · rw [serveIndex_composer, walked]
      dsimp only
      rw [lateral, if_neg]
      · rw [← frameKind_composed running (by simp [queue])]
        rfl
      · rintro ⟨l, mapped, sewing, stopped⟩
        refine kept l mapped sewing ?_
        rw [lane, walkedBy_of_sewing sewing]
        exact stopped
  · have fed := strokeOutcome_feedsSeam queue panel changeover short
    obtain ⟨taken, left, -⟩ := serveIndex_raised (s := s) (rest := rest) (raised := [])
      (by rw [fed]; exact Raised.none rfl rfl)
    rw [queued_nil] at taken left
    refine ⟨?_, ?_, ?_, ?_, taken, left⟩
    · rw [serveIndex_line, fed]
      dsimp only
      rw [atFeed_line]
    · rw [serveIndex_stager, fed]
      exact atFeed_stager s rest
    · rw [serveIndex_store, fed]
      exact atFeed_store s rest
    · rw [serveIndex_lanes, fed]
      exact atFeed_lanes_changeover changeover rest
  · have completed := strokeOutcome_completes queue panel changeover reached short
    obtain ⟨stager, store, -⟩ := completeChangeover_keeps p (x.feed.toNat - s.line.seam) (s.atFeed rest)
    have started (l : Fin 8) : (s.atFeed rest).startedLane p l = (endWindow s).startedLane p l :=
      (atFeed_sameNeedles s rest).startedLane ((atFeed_store s rest).trans (endWindow_store s).symm) p
        (lane_of_lanes (atFeed_lanes_changeover changeover rest) l)
    have raised := completeChangeover_raised p (x.feed.toNat - s.line.seam) (s.atFeed rest)
    simp only [started, atFeed_store] at raised
    refine ⟨?_, ?_, ?_, fun l => ?_, fun g => ?_, serveIndex_raised (rest := rest) (by rw [completed]; exact raised)⟩
    · rw [serveIndex_line, completed, completeChangeover_line, atFeed_line]
    · rw [serveIndex_stager, completed, stager, atFeed_stager]
    · rw [serveIndex_store, completed, store, atFeed_store]
    · rw [serveIndex_lane, completed, completeChangeover_lane, started, atFeed_store]
    · rw [serveIndex_thread, completed, completeChangeover_thread]
      obtain ⟨fault, rethread, -⟩ := releaseRethreaded_sets (s.atFeed rest) g
      exact ⟨fault, rethread⟩

end Sys2Proof.Machine
end

section
/-! The lane commands and RUN (sections 3.8, 4.2), and the thread break (sections 7.2 to 7.5). -/

namespace Sys2Proof.Machine

open Sys2Proof

/-! ### The lane commands (R60 to R63) -/

section

variable {s : State} {c : Command} {lane : Byte}

theorem exec_laneHold (ready : s.frontReady c) (code : c.code = 0x30) (args : c.args = [lane]) :
    exec .laneHold s = .next (settle c (judgeHold lane.toNat s)) := by
  refine congrArg Host.Outcome.next ((lengthCommand_ready ready (hasCode_of code) (n := 1) (by rw [args]; rfl)
    fun args t => judgeHold (argByte args 0) t).trans ?_)
  rw [args]
  rfl

theorem exec_laneRelease (ready : s.frontReady c) (code : c.code = 0x31) (args : c.args = [lane]) :
    exec .laneRelease s = .next (settle c (judgeRelease lane.toNat s)) := by
  refine congrArg Host.Outcome.next ((lengthCommand_ready ready (hasCode_of code) (n := 1) (by rw [args]; rfl)
    fun args t => judgeRelease (argByte args 0) t).trans ?_)
  rw [args]
  rfl

theorem exec_laneStop (ready : s.frontReady c) (code : c.code = 0x32) (args : c.args = [lane]) :
    exec .laneStop s = .next (settle c (judgeStop lane.toNat s)) := by
  refine congrArg Host.Outcome.next ((lengthCommand_ready ready (hasCode_of code) (n := 1) (by rw [args]; rfl)
    fun args t => judgeStop (argByte args 0) t).trans ?_)
  rw [args]
  rfl

end

section

variable {n : Nat} {l : Fin 8}

/-- No lane has a number above 7. -/
theorem finOf_lane_outside (outside : 7 < n) : finOf 8 n = none := finOf_eq_none outside

theorem judgeHold_outside (outside : 7 < n) (s : State) : judgeHold n s = reply .range s := by
  simp only [judgeHold, finOf_lane_outside outside]

theorem judgeRelease_outside (outside : 7 < n) (s : State) : judgeRelease n s = reply .range s := by
  simp only [judgeRelease, finOf_lane_outside outside]

theorem judgeStop_outside (outside : 7 < n) (s : State) : judgeStop n s = reply .range s := by
  simp only [judgeStop, finOf_lane_outside outside]

theorem judgeHold_of (named : n = l.val) (s : State) :
    judgeHold n s =
      if (s.lane l).state = .sewing then replyLane l (s.setLane l { s.lane l with state := .held })
      else reply .wrongState s := by
  simp only [judgeHold, finOf_eq_some l named]

theorem judgeRelease_of (named : n = l.val) (s : State) :
    judgeRelease n s =
      if (s.lane l).state = .held then replyLane l (s.setLane l { s.lane l with state := .sewing })
      else reply .wrongState s := by
  simp only [judgeRelease, finOf_eq_some l named]

theorem judgeStop_of (named : n = l.val) (s : State) :
    judgeStop n s =
      if (s.lane l).state.stoppable then replyLane l (stopLane .command l s) else reply .wrongState s := by
  simp only [judgeStop, finOf_eq_some l named]

theorem stoppable_iff (x : LaneState) : x.stoppable = true ↔ x = .sewing ∨ x = .held ∨ x = .finished := by
  cases x <;> simp [LaneState.stoppable]

/-- A lane command accepted answers the code of the lane's new state (R60, R187). -/
theorem settle_replyLane (c : Command) (l : Fin 8) (s : State) :
    settle c (replyLane l s) = answered c .done [byteOf (s.lane l).state.code] s := rfl

end

/-- Settles O41: each command by the lane it names and the state of that lane. -/
theorem laneHoldAndRelease : Obligations.LaneHoldAndRelease := by
  intro s c lane ready args
  refine ⟨fun code => ?_, fun code => ?_⟩
  · rw [exec_laneHold ready code args]
    refine ⟨fun outside => by rw [judgeHold_outside outside, settle_reply],
      fun l named => ⟨fun sewing => ?_, fun other => ?_⟩⟩
    · rw [judgeHold_of named, if_pos sewing, settle_replyLane, setLane_lane_same]
      rfl
    · rw [judgeHold_of named, if_neg other, settle_reply]
  · rw [exec_laneRelease ready code args]
    refine ⟨fun outside => by rw [judgeRelease_outside outside, settle_reply],
      fun l named => ⟨fun held => ?_, fun other => ?_⟩⟩
    · rw [judgeRelease_of named, if_pos held, settle_replyLane, setLane_lane_same]
      rfl
    · rw [judgeRelease_of named, if_neg other, settle_reply]

/-! ### LANE_STOP (R56, R110) -/

/-- The lane a stop leaves (R56). -/
theorem stopLane_lane (cause : StopCause) (l : Fin 8) (s : State) :
    (stopLane cause l s).lane l = { s.lane l with state := .stopped cause, currentLateral := 0 } :=
  setLane_lane_same s l _

/-- The last laterals a stop notice leaves (R110). -/
theorem stopNotice_lastLateral (l : Fin 8) (s : State) (g : Fin 16) :
    (stopNotice l s).composer.lastLateral[g] =
      if s.composer.laneMap[g] = some l then 0 else s.composer.lastLateral[g] := by
  simp [stopNotice]

/-- Settles O42: the stop of a lane, and the two refusals. -/
theorem laneStopCentresLane : Obligations.LaneStopCentresLane := by
  intro s c lane ready code args
  rw [exec_laneStop ready code args]
  refine ⟨fun outside => by rw [judgeStop_outside outside, settle_reply],
    fun l named => ⟨fun stoppable => ?_, fun other => ?_⟩⟩
  · refine ⟨(stopNotice l s).composer.lastLateral, stopNotice_lastLateral l s, ?_⟩
    rw [judgeStop_of named, if_pos ((stoppable_iff _).mpr stoppable), settle_replyLane, stopLane_lane]
    rfl
  · rw [judgeStop_of named, if_neg, settle_reply]
    rw [stoppable_iff]
    rintro (h | h | h) <;> simp [h] at other

/-! ### A thread break (R132, R133, R137) -/

/-- A needle that joins the fault mask, and no other. -/
theorem joinFault_bit (s : State) (g : Fin 16) (p : Fin 8) (h : Fin 16) (q : Nat) :
    (s.thread.faultMask.set g (s.thread.faultMask[g] ||| bitOf p))[h].getLsbD q =
      (s.thread.faultMask[h].getLsbD q || decide (h = g ∧ q = p.val)) := by
  by_cases same : h = g
  · subst same
    simp [BitVec.getLsbD_or, bitOf_getLsbD]
  · have other : g.val ≠ h.val := fun e => same (Fin.ext e.symm)
    simp [same, other]

/-- A break leaves the head link, the line, the store and the words formed. -/
theorem threadBreak_keeps (g : Fin 16) (p : Fin 8) (s : State) :
    (threadBreak g p s).head = s.head ∧ (threadBreak g p s).line = s.line ∧ (threadBreak g p s).store = s.store ∧
      (threadBreak g p s).composer.previousWords = s.composer.previousWords := by
  rw [threadBreak_eq]
  obtain ⟨_, _, evaluated⟩ := evaluateSegment_only g
    (offerDefect (s.defectNow (.threadBreak p) g)
      { joinFault g p s with thread.totalBreaks := saturate s.thread.totalBreaks })
  obtain ⟨_, _, offered⟩ := offerDefect_keeps (s.defectNow (.threadBreak p) g)
    { joinFault g p s with thread.totalBreaks := saturate s.thread.totalBreaks }
  rw [evaluated, offered]
  exact ⟨rfl, rfl, rfl, rfl⟩

/-- Settles O15: the thread by its parts, the record by its offer, the lane by the evaluation of its segment. -/
theorem threadBreakMasksCountsRecords : Obligations.ThreadBreakMasksCountsRecords := by
  intro s g p
  obtain ⟨defects, thread⟩ := threadBreak_thread g p s
  obtain ⟨offered, evaluated⟩ := threadBreak_done g p s
  obtain ⟨head, line, store, words⟩ := threadBreak_keeps g p s
  refine ⟨fun h q => ?_, ?_, offered.list, offered.overflow, ?_, ?_, ?_, head, line, store, words,
    defectNow_formed s _ g, evaluated, lostNeedles_eq s, Defect.matches_iff⟩
  · rw [thread]
    exact joinFault_bit s g p h q
  · rw [thread]
    rfl
  · rw [thread]
  · rw [thread]
  · rw [thread]

/-! ### RUN (R41 to R43, R68 to R70, R135, R147) -/

theorem exec_run {s : State} {c : Command} (ready : s.frontReady c) (code : c.code = 0x20) (args : c.args = []) :
    exec .run s = .next (settle c (judgeRun s)) :=
  congrArg Host.Outcome.next (bareCommand_ready ready code args judgeRun)

section

variable {s : State}

theorem judgeRun_in_break (broken : s.link.breakState = true) : judgeRun s = reply .breakActive s := if_pos broken

theorem judgeRun_not_idle (unbroken : s.link.breakState = false) (busy : s.line.state ≠ .idle) :
    judgeRun s = reply .wrongState s := by
  simp [judgeRun, unbroken, busy]

theorem judgeRun_no_panel (unbroken : s.link.breakState = false) (idle : s.line.state = .idle)
    (none : s.stager.pendingPanel = none) : judgeRun s = reply .noPanel s := by
  simp [judgeRun, unbroken, idle, none]

theorem judgeRun_accepted (unbroken : s.link.breakState = false) (idle : s.line.state = .idle) {p : PanelProgram}
    (pending : s.stager.pendingPanel = some p) :
    judgeRun s =
      replyWith .done (le16 (startRun p (serveWaited s)).line.serial.toNat ++ le16 p.tag.toNat)
        (startRun p (serveWaited s)) := by
  simp only [judgeRun, unbroken, idle, pending]
  simp

end

section

variable (p : PanelProgram) (s : State)

/-- The state in which the panel of an accepted RUN starts (R68). -/
def State.running (p : PanelProgram) (s : State) : State :=
  { s with
    stager.pendingPanel := none
    line.program := some { role := .active, panel := p }
    line.seam := 0
    line.state := .running }

theorem startRun_eq : startRun p s = panelStart p 0 (s.running p) := rfl

/-- What an accepted RUN makes of every block but the lanes and the last laterals. -/
theorem startRun_blocks :
    (startRun p s).line =
        { state := .running, program := some { role := .active, panel := p }, position := 0, seam := 0,
          serial := s.line.serial + 1 } ∧
      (startRun p s).stager = { s.stager with pendingPanel := none } ∧ (startRun p s).store = s.store ∧
      (startRun p s).strokes = s.strokes ∧ (startRun p s).link = s.link ∧
      (startRun p s).thread = (releaseRethreaded s).thread := by
  obtain ⟨_, _, h⟩ := startRun_only p s
  rw [h]
  exact ⟨rfl, rfl, rfl, rfl, rfl, rfl⟩

theorem startRun_markers : (startRun p s).engine.markers = s.engine.markers := by
  rw [startRun_eq, (panelStart_raised p 0 (s.running p)).markers, queued_nil]
  rfl

theorem startRun_lane (l : Fin 8) : (startRun p s).lane l = s.startedLane p l := by
  rw [startRun_eq, panelStart_lane]
  exact SameNeedles.startedLane ⟨rfl, rfl, rfl, rfl⟩ rfl p rfl

theorem startRun_lastLateral (g : Fin 16) :
    (∀ (l : Fin 8) (k : StopCause), s.composer.laneMap[g] = some l → ((startRun p s).lane l).state = .stopped k →
      (startRun p s).composer.lastLateral[g] = 0) ∧
    ((∀ (l : Fin 8) (k : StopCause), s.composer.laneMap[g] = some l → ((startRun p s).lane l).state ≠ .stopped k) →
      (startRun p s).composer.lastLateral[g] = s.composer.lastLateral[g]) := by
  rw [startRun_eq]
  exact panelStart_lastLateral p 0 (s.running p) g

end

/-- A lane a panel start does not assign is VACANT (R41). -/
theorem startedLane_unassigned {p : PanelProgram} {l : Fin 8} (unassigned : p.assignmentOf l = none) (s : State) :
    s.startedLane p l = { s.lane l with state := .vacant } := by
  simp only [State.startedLane, unassigned]

/-- A lane assigned is loaded and skip-walked, or stopped by DROP when that leaves it SEWING (R41, R147). -/
theorem startedLane_cases {p : PanelProgram} {l : Fin 8} {a : Assignment} (assigned : p.assignmentOf l = some a)
    (s : State) :
    s.startedLane p l = startLane s.store a (s.lane l) ∨
      (startLane s.store a (s.lane l)).state = .sewing ∧
        s.startedLane p l = (startLane s.store a (s.lane l)).stop .drop := by
  simp only [State.startedLane, assigned]
  split
  · rename_i dropped
    exact .inr ⟨dropped.1, rfl⟩
  · exact .inl rfl

/-- Settles O37: the checks in order, and the panel start from the state that the waited index leaves. -/
theorem runStartsPendingPanel : Obligations.RunStartsPendingPanel := by
  intro s c ready code args
  rw [exec_run ready code args]
  refine ⟨fun broken => by rw [judgeRun_in_break broken, settle_reply],
    fun unbroken busy => by rw [judgeRun_not_idle unbroken busy, settle_reply],
    fun unbroken idle none => by rw [judgeRun_no_panel unbroken idle none, settle_reply],
    fun p unbroken idle pending => ?_⟩
  obtain ⟨servedLine, servedStager, servedStore, -⟩ := serveWaited_idle idle
  obtain ⟨line, stager, store, strokes, link, thread⟩ := startRun_blocks p (serveWaited s)
  have lane := startRun_lane p (serveWaited s)
  have lateral := startRun_lastLateral p (serveWaited s)
  refine ⟨rfl, serveWaited_not_waiting, servedLine, servedStager, servedStore, startRun p (serveWaited s), ?_, ?_, ?_, ?_,
    strokes, startRun_markers p _, startRun_head p _, startRun_mgmt p _, link, fun l unassigned => ?_,
    fun l a assigned => ?_, lane, fun g => (lateral g).1, fun g => (lateral g).2, fun g => ?_⟩
  · rw [judgeRun_accepted unbroken idle pending, settle_replyWith, line, servedLine]
  · rw [line, servedLine]
  · rw [stager, servedStager]
  · rw [store, servedStore]
  · rw [lane, startedLane_unassigned unassigned]
  · rw [lane, ← servedStore]
    exact startedLane_cases assigned _
  · rw [thread]
    obtain ⟨fault, rethread, presence⟩ := releaseRethreaded_sets (serveWaited s) g
    exact ⟨fault, rethread, by rw [presence]⟩

end Sys2Proof.Machine
end

section
/-! Walking a motif step by step, the zero-span guard, and the interpolated lateral (sections 3.3 to 3.5). -/

namespace Sys2Proof.Machine

open Sys2Proof

/-! ### A step completed (R46) -/

theorem walkLane_short {st : Store} {c : LaneContext} {feed : Nat} (short : feed < c.leftInStep) :
    walkLane st feed c = ({ c with leftInStep := c.leftInStep - feed }, []) := if_pos short

theorem completeStep_spanned {st : Store} {c : LaneContext} {target : Lateral} {span : Nat} {engage : Pattern}
    (stands : (st.recordAt c.motif c.recordIndex).spanned = some (target, span, engage)) :
    completeStep st c = { c with leftInStep := 0, currentLateral := target } := by
  simp only [completeStep, stands]

/-- A feed that completes the step enters the next record; the walk goes on there while the lane is SEWING. The rest of the
feed is less than the feed, so the bound of the walk is no matter (log entry 16). -/
theorem walkLane_completes {st : Store} (spans : SpansPositive st) {c : LaneContext} {feed : Nat}
    (sewing : c.state = .sewing) (left : 1 ≤ c.leftInStep) (completes : c.leftInStep ≤ feed) :
    walkLane st feed c =
      let entered := enterRecord st 64 (c.recordIndex + 1) (completeStep st c)
      if entered.1.state = .sewing then
        ((walkLane st (feed - c.leftInStep) entered.1).1,
          entered.2 ++ (walkLane st (feed - c.leftInStep) entered.1).2)
      else entered := by
  have result := (enterRecord_result st 63 (c.recordIndex + 1) (completeStep st c)
    (by rw [completeStep_state]; exact sewing)).2
  rw [walkLane, spendFeed, if_neg (Nat.not_lt.mpr completes)]
  simp only [Config.zeroSpanLimit]
  rcases result with finished | stopped | atStart
  · simp [finished]
  · simp [stopped]
  · have state := atStart.1
    have bound := spendFeed_fuel spans (fuel := feed) (more := feed - c.leftInStep + 1) (atStart.stands spans)
      (by omega) (Nat.lt_succ_self _)
    simp only [state, if_true, walkLane, bound]

/-- The next record is a spanned one (R46, R47). -/
theorem walkLane_next_spanned {st : Store} (spans : SpansPositive st) {c : LaneContext} {feed : Nat}
    (sewing : c.state = .sewing) (left : 1 ≤ c.leftInStep) (completes : c.leftInStep ≤ feed) {target : Lateral}
    {span : Nat} {engage : Pattern} (stands : (st.recordAt c.motif c.recordIndex).spanned = some (target, span, engage))
    (inside : c.recordIndex + 1 < st.directory[c.motif].length) {target' : Lateral} {span' : Nat} {engage' : Pattern}
    (next : (st.recordAt c.motif (c.recordIndex + 1)).spanned = some (target', span', engage')) :
    walkLane st feed c = walkLane st (feed - c.leftInStep)
      (enterSpanned (c.recordIndex + 1) (st.recordAt c.motif (c.recordIndex + 1)) span' engage'
        { c with leftInStep := 0, currentLateral := target }) := by
  rw [walkLane_completes spans sewing left completes, completeStep_spanned stands,
    enterRecord_spanned (c := { c with leftInStep := 0, currentLateral := target }) inside next 63]
  exact if_pos sewing

/-! ### The load and skip walk (R41, R42) -/

theorem startLane_sewing {st : Store} {a : Assignment} {c : LaneContext}
    (sewing : (enterRecord st 64 0 (loadLane a c)).1.state = .sewing) :
    startLane st a c = (walkLane st a.startOffset (enterRecord st 64 0 (loadLane a c)).1).1 := by
  simp only [startLane, Config.zeroSpanLimit, sewing]

theorem startLane_ended {st : Store} {a : Assignment} {c : LaneContext}
    (ended : (enterRecord st 64 0 (loadLane a c)).1.state ≠ .sewing) :
    startLane st a c = (enterRecord st 64 0 (loadLane a c)).1 := by
  unfold startLane
  simp only [Config.zeroSpanLimit]
  cases state : (enterRecord st 64 0 (loadLane a c)).1.state with
  | sewing => exact absurd state ended
  | vacant | standby | held | finished | stopped _ => rfl

/-! ### The end of a pass (R50, R51) -/

/-- What ends a pass: an END at a record of the motif, or the passing of the last one; the index the lane stands at then. -/
def EndsPass (st : Store) (c : LaneContext) (i : Nat) (d : LaneContext) : Prop :=
  i < st.directory[c.motif].length ∧ st.recordAt c.motif i = .endRecord ∧ d = { c with recordIndex := i } ∨
    st.directory[c.motif].length ≤ i ∧ d = { c with recordIndex := st.directory[c.motif].length - 1 }

theorem EndsPass.enters {st : Store} {c d : LaneContext} {i : Nat} (h : EndsPass st c i d) (left : Nat) :
    enterRecord st (left + 1) i c = passEnded st left d := by
  rcases h with ⟨inside, ends, rfl⟩ | ⟨past, rfl⟩
  · exact enterRecord_end inside ends left
  · exact enterRecord_past past left

/-- The lane at the end of a pass differs in its record index alone. -/
theorem EndsPass.same {st : Store} {c d : LaneContext} {i : Nat} (h : EndsPass st c i d) :
    st.directory[d.motif].loopIndex = st.directory[c.motif].loopIndex ∧ d.loopAllowed = c.loopAllowed ∧
      d.loopPasses = c.loopPasses := by
  rcases h with ⟨-, -, rfl⟩ | ⟨-, rfl⟩ <;> exact ⟨rfl, rfl, rfl⟩

theorem passEnded_loops {st : Store} {d : LaneContext} {j : Nat} (target : loopTarget st d = some j) (left : Nat) :
    passEnded st (left + 1) d = enterRecord st (left + 1) j d.countPass := by
  rw [passEnded, if_neg (Nat.succ_ne_zero left), target, Option.elim_some]

theorem passEnded_finishes {st : Store} {d : LaneContext} (target : loopTarget st d = none) (left : Nat) :
    passEnded st (left + 1) d = (d.finish, []) := by
  rw [passEnded, if_neg (Nat.succ_ne_zero left), target, Option.elim_none]

theorem passEnded_guard (st : Store) (d : LaneContext) : passEnded st 0 d = (d.stop .loopFault, []) := if_pos rfl

theorem loopTarget_allowed {st : Store} {d : LaneContext} {j : Nat} (allowed : d.loopAllowed = true)
    (loops : st.directory[d.motif].loopIndex = some j) : loopTarget st d = some j := by
  rw [loopTarget, if_pos allowed, loops]

theorem loopTarget_none {st : Store} {d : LaneContext}
    (ends : d.loopAllowed = false ∨ st.directory[d.motif].loopIndex = none) : loopTarget st d = none := by
  rcases ends with barred | loopless
  · simp [loopTarget, barred]
  · rw [loopTarget, loopless, ite_self]

/-- Settles O49: a walk by the feed, a load by its first record, and the entering of a record by its kind. -/
theorem walkSpendsFeedStepByStep : Obligations.WalkSpendsFeedStepByStep := by
  intro st c feed law
  have spans := law.spansPositive
  refine ⟨walkLane_short, fun target span engage target' span' engage' sewing left completes stands inside next => ?_,
    fun target span engage sewing left completes stands => ?_, fun a => ⟨startLane_sewing (c := c), startLane_ended⟩,
    fun n i => ⟨fun target span engage inside spanned => enterRecord_spanned inside spanned n,
      fun code inside mark => ⟨?_, ?_⟩, fun d ends => ?_⟩⟩
  · exact walkLane_next_spanned spans sewing left completes stands inside next
  · rw [walkLane_completes spans sewing left completes, completeStep_spanned stands]
    exact ⟨fun goesOn => if_pos goesOn, fun ended => if_neg ended⟩
  · exact (enterRecord_mark inside mark (n + 1)).trans (if_neg (Nat.succ_ne_zero n))
  · exact (enterRecord_mark inside mark 0).trans (if_pos rfl)
  · have pass : EndsPass st c i d := ends
    obtain ⟨loopIndex, allowed, passes⟩ := pass.same
    refine ⟨fun j may loops => ?_, fun ended => ?_, ?_⟩
    · rw [pass.enters, passEnded_loops (loopTarget_allowed (allowed.trans may) (loopIndex.trans loops)), ← passes]
      rfl
    · rw [pass.enters, passEnded_finishes (loopTarget_none (by rwa [allowed, loopIndex]))]
      rfl
    · rw [pass.enters, passEnded_guard]
      rfl

/-! ### The zero-span guard (R51) -/

/-- A motif whose record 0 is END and whose loop index is 0, sewn with loop allowed, spends the count of R51 on its END: with
k + 1 entries left it counts k passes and stops. -/
theorem enterRecord_endless {st : Store} {c : LaneContext} (long : 0 < st.directory[c.motif].length)
    (ends : st.recordAt c.motif 0 = .endRecord) (loops : st.directory[c.motif].loopIndex = some 0)
    (allowed : c.loopAllowed = true) (first : c.recordIndex = 0) (k : Nat)
    (below : c.loopPasses + k ≤ Config.loopPassMax) :
    enterRecord st (k + 1) 0 c =
      ({ c with state := .stopped .loopFault, currentLateral := 0, loopPasses := c.loopPasses + k }, []) := by
  induction k generalizing c with
  | zero =>
    have pass : EndsPass st c 0 c := .inl ⟨long, ends, by rw [← first]⟩
    rw [pass.enters, passEnded_guard]
    rfl
  | succ k ih =>
    have pass : EndsPass st c 0 c := .inl ⟨long, ends, by rw [← first]⟩
    have counted : c.countPass = { c with loopPasses := c.loopPasses + 1 } := by
      rw [LaneContext.countPass, if_pos (by omega)]
    rw [pass.enters, passEnded_loops (loopTarget_allowed allowed loops), counted,
      ih (c := { c with loopPasses := c.loopPasses + 1 }) long ends loops allowed first (by dsimp only; omega)]
    dsimp only
    rw [Nat.add_assoc, Nat.add_comm 1 k]

/-- Settles O50: the load enters record 0 with the whole count left. -/
theorem loopOfEndRecordsStopsLane : Obligations.LoopOfEndRecordsStopsLane := by
  intro st a c long ends loops allowed
  have entered := enterRecord_endless (c := loadLane a c) long ends loops allowed rfl 63 (show 0 + 63 ≤ Config.loopPassMax by decide)
  have started : startLane st a c = (enterRecord st 64 0 (loadLane a c)).1 := startLane_ended (by rw [entered]; simp)
  rw [started, entered]
  exact ⟨rfl, rfl, rfl, rfl, rfl⟩

/-! ### The interpolated lateral (R53) -/

/-- A part of a distance, rounded toward zero, lies between 0 and the distance. -/
theorem tdiv_between (distance : Int) {done scaled : Nat} (part : done < scaled) :
    min 0 distance ≤ (distance * (done : Int)).tdiv (scaled : Int) ∧
      (distance * (done : Int)).tdiv (scaled : Int) ≤ max 0 distance := by
  have positive : (0 : Int) < scaled := by omega
  have most : (done : Int) ≤ scaled := by omega
  have least : (0 : Int) ≤ done := by omega
  rcases Int.le_total 0 distance with forward | backward
  · have up : distance * (done : Int) ≤ distance * scaled := Int.mul_le_mul_of_nonneg_left most forward
    have low : 0 ≤ distance * (done : Int) := Int.mul_nonneg forward least
    rw [Int.tdiv_eq_ediv_of_nonneg low, min_eq_left forward, max_eq_right forward]
    exact ⟨Int.ediv_nonneg low positive.le, Int.ediv_le_of_le_mul positive up⟩
  · have up : -distance * (done : Int) ≤ -distance * scaled := Int.mul_le_mul_of_nonneg_left most (by omega)
    have low : 0 ≤ -distance * (done : Int) := Int.mul_nonneg (by omega) least
    have negated : (distance * (done : Int)).tdiv scaled = -((-distance * (done : Int)).tdiv scaled) := by
      rw [Int.neg_mul, Int.neg_tdiv, neg_neg]
    have quotient := Int.ediv_le_of_le_mul positive up
    have nonneg := Int.ediv_nonneg low positive.le
    rw [negated, Int.tdiv_eq_ediv_of_nonneg low, min_eq_right backward, max_eq_left backward]
    exact ⟨by omega, by omega⟩

/-- Between two laterals every number is a lateral. -/
theorem lateral_toInt_ofInt {origin target : Lateral} {x : Int} (low : min origin.toInt target.toInt ≤ x)
    (high : x ≤ max origin.toInt target.toInt) : (BitVec.ofInt 12 x).toInt = x := by
  have o1 := BitVec.le_toInt origin
  have o2 := BitVec.toInt_lt (x := origin)
  have t1 := BitVec.le_toInt target
  have t2 := BitVec.toInt_lt (x := target)
  rw [BitVec.toInt_ofInt_eq_self (by decide)] <;> omega

/-- Settles O51: the part of the distance gone lies within it, so nothing is lost in the 12 bits of a lateral. -/
theorem interpolationStaysBetween : Obligations.InterpolationStaysBetween := by
  intro origin target done scaled part
  obtain ⟨low, high⟩ := tdiv_between (target.toInt - origin.toInt) part
  have above : min origin.toInt target.toInt ≤
      origin.toInt + ((target.toInt - origin.toInt) * (done : Int)).tdiv (scaled : Int) := by omega
  have below : origin.toInt + ((target.toInt - origin.toInt) * (done : Int)).tdiv (scaled : Int) ≤
      max origin.toInt target.toInt := by omega
  have gone : (interpolate origin target done scaled).toInt =
      origin.toInt + ((target.toInt - origin.toInt) * (done : Int)).tdiv (scaled : Int) :=
    lateral_toInt_ofInt above below
  refine ⟨gone ▸ above, gone ▸ below, ?_, gone⟩
  simp [interpolate]

end Sys2Proof.Machine
end

section
/-! A boundary within one stroke (sections 4.3, 4.4): the run ended, the changeover opened, and the changeover completed with
what the excess leaves. -/

namespace Sys2Proof.Machine

open Sys2Proof

/-! ### Lanes without an assignment -/

/-- The lanes that a program does not assign are VACANT (R40, R41). -/
def UnassignedVacant (p : PanelProgram) (s : State) : Prop :=
  ∀ l : Fin 8, (p.assignmentOf l).isSome = false → (s.lane l).state = .vacant

section

variable {s w : State} {p q : PanelProgram}

theorem LineLaw.unassignedVacant (law : LineLaw s) (running : s.line.state = .running) (panel : s.linePanel = some p) :
    UnassignedVacant p s := by
  intro l unassigned
  have fits := law.lanes l
  simpa [State.laneFits, State.assigned, panel, running, unassigned, LineState.feedsSeam] using fits

theorem UnassignedVacant.endWindow (h : UnassignedVacant p s) : UnassignedVacant p (endWindow s) := by
  intro l unassigned
  have vacant := h l unassigned
  rw [endWindow_lane_kept s l (by simp [LaneContext.idles, vacant]), vacant]

theorem walkedBy_of_vacant {c : LaneContext} (vacant : c.state = .vacant) (st : Store) (feed : Nat) :
    walkedBy st feed c = (c, []) := if_neg (by simp [vacant])

theorem UnassignedVacant.walked (h : UnassignedVacant p s) (feed : Nat) : UnassignedVacant p (walkLanes feed s) := by
  intro l unassigned
  have vacant := h l unassigned
  rw [walkLanes_walkedBy, walkedBy_of_vacant vacant]
  exact vacant

/-- The end of a run leaves every lane VACANT (R40, R73). -/
theorem UnassignedVacant.endRun (h : UnassignedVacant p s) (l : Fin 8) : ((endRun p s).lane l).state = .vacant := by
  rw [endRun_lane]
  split
  · rfl
  · rename_i unassigned
    exact h l (Bool.eq_false_iff.mpr unassigned)

/-- A changeover leaves the lanes of its program STANDBY and the others VACANT (R40, R74). -/
theorem UnassignedVacant.openChangeover (h : UnassignedVacant p s) (q : PanelProgram) (seam : Nat) (l : Fin 8) :
    ((openChangeover p q seam s).lane l).state = if (q.assignmentOf l).isSome then .standby else .vacant := by
  rw [openChangeover_lane]
  split
  · rfl
  · exact h.endRun l

/-- A changeover completed starts the lanes of its program; the others are VACANT (R41). -/
theorem completeChangeover_unassignedVacant (q : PanelProgram) (leftover : Nat) (s : State) :
    UnassignedVacant q (completeChangeover q leftover s) := by
  intro l unassigned
  rw [completeChangeover_lane, startedLane_unassigned (Option.isNone_iff_eq_none.mp (by simpa using unassigned)),
    walkedBy_of_vacant rfl]

/-! ### What a boundary does to line and store (R4, R73, R74) -/

theorem endRun_line (noSeam : s.line.seam = 0) :
    (endRun p s).line = { state := .idle, program := none, position := 0, seam := 0, serial := s.line.serial } := by
  simp only [Machine.endRun, noSeam]

theorem endRun_stager (p : PanelProgram) (s : State) : (endRun p s).stager = s.stager := rfl

theorem endRun_directory (p : PanelProgram) (s : State) (m : Fin 64) :
    (endRun p s).store.directory[m] =
      { s.store.directory[m] with inUse := s.store.directory[m].inUse - p.names m } :=
  releaseAll_getElem p s.store.directory m

/-- The outgoing panel is released unless it is repeated. -/
theorem openChangeover_directory (p q : PanelProgram) (seam : Nat) (s : State) (m : Fin 64) :
    (openChangeover p q seam s).store.directory[m] =
      { s.store.directory[m] with
        inUse := s.store.directory[m].inUse - if s.stager.pendingPanel = none then 0 else p.names m } := by
  cases pending : s.stager.pendingPanel with
  | none =>
    simp only [Machine.openChangeover, pending]
    rfl
  | some r =>
    simp only [Machine.openChangeover, pending]
    exact releaseAll_getElem p s.store.directory m

theorem openChangeover_records (p q : PanelProgram) (seam : Nat) (s : State) :
    (openChangeover p q seam s).store.records = s.store.records := rfl

theorem openChangeover_repeats (free : s.stager.pendingPanel = none) (p q : PanelProgram) (seam : Nat) :
    (openChangeover p q seam s).store = s.store := by
  simp only [Machine.openChangeover, free]
  rfl

theorem nextPanel_pending (pending : s.stager.pendingPanel = some q) (p : PanelProgram) : s.nextPanel p = some q := by
  simp only [State.nextPanel, pending]

theorem nextPanel_repeats (free : s.stager.pendingPanel = none) (repeats : p.repeats = true) :
    s.nextPanel p = some p := by
  simp only [State.nextPanel, free, repeats, if_true]

theorem nextPanel_ends (free : s.stager.pendingPanel = none) (once : p.repeats = false) : s.nextPanel p = none := by
  simp [State.nextPanel, free, once]

/-! ### The boundary by what follows the outgoing panel -/

theorem boundary_ends (next : s.nextPanel p = none) (fuel excess : Nat) :
    boundary (fuel + 1) excess p s = endRun p s := by
  rw [boundary, next]

theorem boundary_opens (next : s.nextPanel p = some q) {excess : Nat} (gap : excess < p.seamGap) (fuel : Nat) :
    boundary (fuel + 1) excess p s = openChangeover p q (p.seamGap - excess) s := by
  rw [boundary, next]
  exact if_pos gap

theorem boundary_starts (next : s.nextPanel p = some q) {excess : Nat} (gap : p.seamGap ≤ excess)
    (short : excess - p.seamGap < q.length) (fuel : Nat) :
    boundary (fuel + 1) excess p s = completeChangeover q (excess - p.seamGap) (openChangeover p q 0 s) := by
  rw [boundary_through next gap, if_pos short]

/-- A changeover completed within the stroke has taken the pending panel and keeps the store of the changeover opened. -/
theorem passed_keeps (p q : PanelProgram) (leftover : Nat) (s : State) :
    (completeChangeover q leftover (openChangeover p q 0 s)).stager = { s.stager with pendingPanel := none } ∧
      (completeChangeover q leftover (openChangeover p q 0 s)).store = (openChangeover p q 0 s).store := by
  obtain ⟨stager, store, -⟩ := completeChangeover_keeps q leftover (openChangeover p q 0 s)
  exact ⟨stager, store⟩

/-- A panel that the leftover spends and that is not repeated ends the run (R73, R76). -/
theorem boundary_passes_ends (next : s.nextPanel p = some q) {excess : Nat} (gap : p.seamGap ≤ excess)
    (long : 1 ≤ q.length) (spent : q.length ≤ excess - p.seamGap) (once : q.repeats = false) :
    boundary (excess + 1) excess p s =
      endRun q (completeChangeover q (excess - p.seamGap) (openChangeover p q 0 s)) := by
  obtain ⟨fuel, rfl⟩ : ∃ fuel, excess = fuel + 1 := ⟨excess - 1, by omega⟩
  obtain ⟨stager, -⟩ := passed_keeps p q (fuel + 1 - p.seamGap) s
  rw [boundary_through next gap, if_neg (Nat.not_lt.mpr spent)]
  exact boundary_ends (nextPanel_ends (by rw [stager]) once) _ _

/-- A repeated panel goes round in the leftover as often as it and its gap fit (R76). -/
theorem boundary_passes_rounds (next : s.nextPanel p = some q) {excess : Nat} (gap : p.seamGap ≤ excess)
    (long : 1 ≤ q.length) (repeats : q.repeats = true) :
    (boundary (excess + 1) excess p s).line = roundLine q (excess - p.seamGap) (s.line.serial + 1) ∧
      (boundary (excess + 1) excess p s).stager = { s.stager with pendingPanel := none } ∧
      (boundary (excess + 1) excess p s).store = (openChangeover p q 0 s).store := by
  obtain ⟨stager, store⟩ := passed_keeps p q (excess - p.seamGap) s
  have line := completed_line p q (excess - p.seamGap) s
  rw [boundary_through next gap]
  split
  · rename_i short
    rw [roundLine_of_lt short]
    exact ⟨line, stager, store⟩
  · rename_i spent
    obtain ⟨roundsLine, roundsStager, roundsStore, -⟩ := boundary_rounds repeats long excess
      (excess - p.seamGap - q.length) (by omega) _ (by rw [stager])
    rw [roundsLine, roundsStager, roundsStore, line, Nat.add_sub_cancel' (Nat.not_lt.mp spent)]
    exact ⟨rfl, stager, store⟩

/-! ### Lanes started within the stroke -/

/-- A lane of the program starts from what its needles and the store say, whatever it was (R41, R147). -/
theorem SameNeedles.startedLane_assigned {t : State} (h : SameNeedles s t) (store : t.store = s.store) {l : Fin 8}
    (assigned : (p.assignmentOf l).isSome = true) : t.startedLane p l = s.startedLane p l := by
  obtain ⟨a, found⟩ := Option.isSome_iff_exists.mp assigned
  simp only [State.startedLane, found]
  rw [store, startLane_any s.store a (t.lane l) (s.lane l)]
  exact if_congr (and_congr_right fun _ => h.reachesLimit l) rfl rfl

/-- A lane that is not assigned raises nothing when it starts, so like states raise like markers. -/
theorem SameNeedles.raisedBy_started {t : State} (h : SameNeedles s t) (store : t.store = s.store) (p : PanelProgram)
    (st : Store) (feed : Nat) :
    (raisedBy st feed fun l => t.startedLane p l) = raisedBy st feed fun l => s.startedLane p l := by
  refine List.flatMap_congr fun l _ => ?_
  dsimp only
  cases assigned : (p.assignmentOf l).isSome with
  | true => rw [h.startedLane_assigned store assigned]
  | false =>
    have unassigned : p.assignmentOf l = none := by simpa using assigned
    rw [startedLane_unassigned unassigned, startedLane_unassigned unassigned, walkedBy_of_vacant rfl,
      walkedBy_of_vacant rfl]

end

/-! ### The state a boundary finds -/

/-- What a stroke that reaches the length of the panel p brings to the boundary: the lanes walked by the whole feed
(R72, R73). -/
structure MeetsBoundary (s : State) (x : Stroke) (rest : List Stroke) (p : PanelProgram) (w : State) : Prop where
  line    : w.line = s.line
  stager  : w.stager = s.stager
  store   : w.store = s.store
  vacant  : UnassignedVacant p w
  needles : SameNeedles (endWindow s) w
  raised  : Raised (raisedBy s.store x.feed.toNat fun l => takeOutput s.store ((endWindow s).lane l)) (s.atFeed rest) w
  outcome : s.strokeOutcome.state =
    boundary (s.line.position + x.feed.toNat - p.length + 1) (s.line.position + x.feed.toNat - p.length) p w

section

variable {s w : State} {x : Stroke} {rest : List Stroke} {p q : PanelProgram}

theorem walked_meetsBoundary (law : LineLaw s) (running : s.line.state = .running) (panel : s.linePanel = some p)
    (queue : s.strokes.queue = x :: rest) (reached : p.length ≤ s.line.position + x.feed.toNat) :
    MeetsBoundary s x rest p (walkLanes x.feed.toNat (s.atFeed rest)) := by
  obtain ⟨line, stager⟩ := (walkLanes_only x.feed.toNat (s.atFeed rest)).line
  have lanes := funext (atFeed_lane_running running queue)
  refine ⟨line.trans (atFeed_line s rest), stager.trans (atFeed_stager s rest),
    (walkLanes_only _ _).store.trans (atFeed_store s rest), ?_, ?_, ?_, ?_⟩
  · refine UnassignedVacant.walked (fun l unassigned => ?_) _
    have vacant := (law.unassignedVacant running panel).endWindow l unassigned
    rw [congrFun lanes l, takeOutput_other (.inl (by simp [vacant]))]
    exact vacant
  · obtain ⟨_, _, _, walked⟩ := walkLanes_only x.feed.toNat (s.atFeed rest)
    rw [walked]
    exact ⟨rfl, rfl, rfl, rfl⟩
  · have raised := walkLanes_raised x.feed.toNat (s.atFeed rest)
    rwa [lanes, atFeed_store] at raised
  · rw [strokeOutcome_fed (.inl running) queue]
    dsimp only
    rw [deliverFeed_running (by rw [atFeed_line]; exact running) ((linePanel_of_line (atFeed_line s rest)).trans panel),
      atFeed_line]
    exact if_neg (Nat.not_lt.mpr reached)

/-- The changeover completed within the stroke, seen from the state the statement names. -/
theorem MeetsBoundary.startedNeedles (h : MeetsBoundary s x rest p w) (q : PanelProgram) :
    SameNeedles { endWindow s with store := (openChangeover p q 0 w).store } (openChangeover p q 0 w) :=
  ⟨h.needles.thread, h.needles.segments, h.needles.count, h.needles.laneMap⟩

/-- The outgoing lanes raise their markers before the lanes started (R45, R49, R58, R75). -/
theorem MeetsBoundary.raised_through (h : MeetsBoundary s x rest p w) (q : PanelProgram) (leftover : Nat) :
    Raised
      (raisedBy s.store x.feed.toNat (fun l => takeOutput s.store ((endWindow s).lane l)) ++
        raisedBy (openChangeover p q 0 w).store leftover fun l =>
          { endWindow s with store := (openChangeover p q 0 w).store }.startedLane q l)
      (s.atFeed rest) (completeChangeover q leftover (openChangeover p q 0 w)) := by
  have raised := completeChangeover_raised q leftover (openChangeover p q 0 w)
  rw [(h.startedNeedles q).raisedBy_started rfl] at raised
  exact h.raised.trans ⟨raised.markers, raised.lost⟩

theorem MeetsBoundary.directory (h : MeetsBoundary s x rest p w) (q : PanelProgram) (seam : Nat) (m : Fin 64) :
    (openChangeover p q seam w).store.directory[m] =
      { s.store.directory[m] with
        inUse := s.store.directory[m].inUse - if s.stager.pendingPanel = none then 0 else p.names m } := by
  rw [openChangeover_directory, h.store, h.stager]

theorem MeetsBoundary.next (h : MeetsBoundary s x rest p w)
    (follows : s.stager.pendingPanel = some q ∨ s.stager.pendingPanel = none ∧ p.repeats = true ∧ q = p) :
    w.nextPanel p = some q := by
  rcases follows with pending | ⟨free, repeats, rfl⟩
  · exact nextPanel_pending (by rw [h.stager, pending]) p
  · exact nextPanel_repeats (by rw [h.stager, free]) repeats

end

/-! ### O52 -/

section

variable {s w : State} {x : Stroke} {rest : List Stroke} {p q : PanelProgram}

/-- With none to follow, the run ends (R40, R73). -/
theorem MeetsBoundary.run_ends (h : MeetsBoundary s x rest p w) (noSeam : s.line.seam = 0)
    (free : s.stager.pendingPanel = none) (once : p.repeats = false) :
    (serveIndex s).line =
        { state := .idle, program := none, position := 0, seam := 0, serial := s.line.serial } ∧
      (∀ l : Fin 8, ((serveIndex s).lane l).state = .vacant) ∧
      ∀ m : Fin 64, (serveIndex s).store.directory[m] =
        { s.store.directory[m] with inUse := s.store.directory[m].inUse - p.names m } := by
  have ended := h.outcome.trans (boundary_ends (nextPanel_ends (by rw [h.stager, free]) once) _ _)
  refine ⟨?_, fun l => ?_, fun m => ?_⟩
  · rw [serveIndex_line, ended, endRun_line (by rw [h.line, noSeam]), h.line]
  · rw [serveIndex_lane, ended, h.vacant.endRun]
  · rw [serveIndex_store, ended, endRun_directory, h.store]

/-- An excess below the gap opens the changeover to the program that follows (R74). -/
theorem MeetsBoundary.changeover_opens (h : MeetsBoundary s x rest p w) (next : w.nextPanel p = some q)
    (gap : s.line.position + x.feed.toNat - p.length < p.seamGap) :
    (serveIndex s).line =
        { state := .changeover, program := some { role := .incoming, panel := q }, position := 0,
          seam := p.seamGap - (s.line.position + x.feed.toNat - p.length), serial := s.line.serial } ∧
      (serveIndex s).stager = { s.stager with pendingPanel := none } ∧
      (∀ l : Fin 8, ((serveIndex s).lane l).state = if (q.assignmentOf l).isSome then .standby else .vacant) ∧
      (s.stager.pendingPanel = none → (serveIndex s).store = s.store) ∧
      ∀ m : Fin 64, (serveIndex s).store.directory[m] =
        { s.store.directory[m] with
          inUse := s.store.directory[m].inUse - if s.stager.pendingPanel = none then 0 else p.names m } := by
  have opened := h.outcome.trans (boundary_opens next gap _)
  refine ⟨?_, ?_, fun l => ?_, fun free => ?_, fun m => ?_⟩
  · rw [serveIndex_line, opened, ← h.line]
    rfl
  · rw [serveIndex_stager, opened, ← h.stager]
    rfl
  · rw [serveIndex_lane, opened, h.vacant.openChangeover]
  · rw [serveIndex_store, opened, openChangeover_repeats (by rw [h.stager, free]), h.store]
  · rw [serveIndex_store, opened, h.directory]

/-- The lanes and markers of a changeover completed within the stroke, its leftover short of the panel's length (R75). -/
theorem MeetsBoundary.panel_starts (h : MeetsBoundary s x rest p w) {leftover : Nat}
    (started : s.strokeOutcome.state = completeChangeover q leftover (openChangeover p q 0 w)) :
    let started (l : Fin 8) := { endWindow s with store := (serveIndex s).store }.startedLane q l
    let raised := raisedBy s.store x.feed.toNat (fun l => takeOutput s.store ((endWindow s).lane l)) ++
      raisedBy (serveIndex s).store leftover started
    (∀ l : Fin 8, (q.assignmentOf l).isSome = true →
        (serveIndex s).lane l = (walkedBy (serveIndex s).store leftover (started l)).1) ∧
      (∀ l : Fin 8, (q.assignmentOf l).isSome = false → ((serveIndex s).lane l).state = .vacant) ∧
      s.indexReport.markers = (queued s.engine.markers raised).take 8 ∧
      (serveIndex s).engine.markers = (queued s.engine.markers raised).drop 8 := by
  have store : (serveIndex s).store = (openChangeover p q 0 w).store := by
    rw [serveIndex_store, started, (passed_keeps p q leftover w).2]
  have raised := h.raised_through q leftover
  rw [← started] at raised
  obtain ⟨taken, left, -⟩ := serveIndex_raised raised
  rw [store]
  refine ⟨fun l assigned => ?_, fun l unassigned => ?_, taken, left⟩
  · rw [serveIndex_lane, started, completeChangeover_lane, (h.startedNeedles q).startedLane_assigned rfl assigned]
  · rw [serveIndex_lane, started, completeChangeover_unassignedVacant q leftover _ l unassigned]

end

/-- Settles O52: the boundary by the panel that follows and by what the excess leaves of the gap. -/
theorem boundaryEndsPanel : Obligations.BoundaryEndsPanel := by
  intro s x rest p serves running panel queue reached law
  obtain ⟨w, meets⟩ : ∃ w, MeetsBoundary s x rest p w := ⟨_, walked_meetsBoundary law running panel queue reached⟩
  have served := exec_shaftIndex_served serves
  have noSeam : s.line.seam = 0 := law.noSeam (by rw [running]; rfl)
  have consumed : (serveIndex s).strokes.queue = rest := by
    obtain ⟨slot, strokes⟩ := serveIndex_consumed_strokes (.inl running) queue
    rw [strokes]
  refine ⟨fun free once => ?_, fun free repeats gap => ?_, fun q pending gap => ?_, fun q follows gap long =>
    ⟨fun short => ?_, fun spent once => ?_, fun repeats => ?_⟩⟩
  · obtain ⟨line, lanes, directory⟩ := meets.run_ends noSeam free once
    exact ⟨serveIndex s, served, line, consumed, lanes, directory⟩
  · obtain ⟨line, -, lanes, store, -⟩ := meets.changeover_opens (meets.next (.inr ⟨free, repeats, rfl⟩)) gap
    exact ⟨serveIndex s, served, line, lanes, store free⟩
  · obtain ⟨line, stager, lanes, -, directory⟩ := meets.changeover_opens (meets.next (.inl pending)) gap
    refine ⟨serveIndex s, served, line, stager, lanes, fun m => ?_⟩
    rw [directory, if_neg (by simp [pending])]
  · have started := meets.outcome.trans (boundary_starts (meets.next follows) gap short _)
    obtain ⟨stager, store⟩ := passed_keeps p q (s.line.position + x.feed.toNat - p.length - p.seamGap) w
    obtain ⟨assigned, unassigned, taken, left⟩ := meets.panel_starts started
    refine ⟨serveIndex s, s.indexReport, served, serveIndex_reports s, serveIndex_tells s, ?_, consumed, ?_, assigned,
      unassigned, taken, left, ?_, fun m => ?_⟩
    · rw [serveIndex_line, started, completed_line, meets.line]
    · rw [serveIndex_stager, started, stager, meets.stager]
    · rw [serveIndex_store, started, store, openChangeover_records, meets.store]
    · rw [serveIndex_store, started, store, meets.directory]
  · have ended := meets.outcome.trans (boundary_passes_ends (meets.next follows) gap long spent once)
    obtain ⟨stager, store⟩ := passed_keeps p q (s.line.position + x.feed.toNat - p.length - p.seamGap) w
    have line := completed_line p q (s.line.position + x.feed.toNat - p.length - p.seamGap) w
    refine ⟨serveIndex s, served, ?_, consumed, ?_, fun l => ?_, fun m => ?_⟩
    · rw [serveIndex_line, ended, endRun_line (by rw [line]), line, meets.line]
    · rw [serveIndex_stager, ended, endRun_stager, stager, meets.stager]
    · rw [serveIndex_lane, ended, (completeChangeover_unassignedVacant q _ _).endRun]
    · rw [serveIndex_store, ended, endRun_directory, store, meets.directory]
  · obtain ⟨line, stager, store⟩ := boundary_passes_rounds (meets.next follows) gap long repeats
    refine ⟨serveIndex s, served, ?_, consumed, ?_, fun m => ?_⟩
    · rw [serveIndex_line, meets.outcome, line, meets.line]
      rfl
    · rw [serveIndex_stager, meets.outcome, stager, meets.stager]
    · rw [serveIndex_store, meets.outcome, store, meets.directory]

end Sys2Proof.Machine
end
